-- ==== Sys2Proof/Word.lean ====
section
/-! DEFINITION. The word types, their plainest arithmetic, and the finite map that every part of the state is held in. -/

namespace Sys2Proof

abbrev W8 := BitVec 8
abbrev W16 := BitVec 16
abbrev W32 := BitVec 32
abbrev W64 := BitVec 64
/-- A 128-byte line: byte i in bits 8i+7..8i, so word i in bits 32i+31..32i. -/
abbrev Line := BitVec 1024

/-- The field of `n` bits that starts at bit `lo` of the number `w`. -/
abbrev fld (w lo n : Nat) : Nat := w / 2 ^ lo % 2 ^ n

/-- The same field, as a number that is known to be in range. -/
def fin (w lo n : Nat) : Fin (2 ^ n) := ⟨w / 2 ^ lo % 2 ^ n, Nat.mod_lt _ (Nat.two_pow_pos n)⟩

/-- A finite map from numbers to values: keys strictly rising, no entry equal to the default of its key,
so that equal maps are equal data. An unlisted key has its default value. -/
abbrev TMap (α : Type) := List (Nat × α)

/-- The value of key `k`; `d` gives the default of each key. -/
def TMap.getD {α : Type} (d : Nat → α) : TMap α → Nat → α
  | [], k => d k
  | (k', v) :: m, k => if k = k' then v else TMap.getD d m k

/-- Insert a value, keeping the keys rising. -/
def TMap.put {α : Type} : TMap α → Nat → α → TMap α
  | [], k, v => [(k, v)]
  | (k', v') :: m, k, v =>
    if k = k' then (k, v) :: m else if k < k' then (k, v) :: (k', v') :: m else (k', v') :: TMap.put m k v

/-- Remove a key. -/
def TMap.del {α : Type} : TMap α → Nat → TMap α
  | [], _ => []
  | (k', v') :: m, k => if k = k' then TMap.del m k else (k', v') :: TMap.del m k

/-- Write a value: an entry equal to the key's default is removed, not stored. -/
def TMap.setD {α : Type} [DecidableEq α] (d : Nat → α) (m : TMap α) (k : Nat) (v : α) : TMap α :=
  if v = d k then m.del k else m.put k v

/-- The canonical form. -/
def TMap.wfD {α : Type} [DecidableEq α] (d : Nat → α) : TMap α → Bool
  | [] => true
  | [(k, v)] => !decide (v = d k)
  | (k, v) :: (k', v') :: m => !decide (v = d k) && decide (k < k') && TMap.wfD d ((k', v') :: m)

/-- Value with the type's own default. -/
abbrev TMap.rd {α : Type} [Inhabited α] (m : TMap α) (k : Nat) : α := m.getD (fun _ => default) k
/-- Write with the type's own default. -/
abbrev TMap.wr {α : Type} [Inhabited α] [DecidableEq α] (m : TMap α) (k : Nat) (v : α) : TMap α :=
  m.setD (fun _ => default) k v
/-- Canonical form with the type's own default. -/
abbrev TMap.wf {α : Type} [Inhabited α] [DecidableEq α] (m : TMap α) : Bool := m.wfD (fun _ => default)

end Sys2Proof
end

