-- ==== Sys2Proof/Syntax.lean ====
section
/-! DEFINITION. The instructions and events of the machine: one constructor of `Instr` for every row of the opcode table. -/

namespace Sys2Proof

/-- Operand b of a lane instruction (R29): vector register, scalar register, or built-in constant 64 + c. -/
inductive LaneB where
  | v (r : Fin 128) | s (r : Fin 64) | c (k : Fin 64)
  deriving DecidableEq, Repr

/-- Operand b that can only be a scalar register or constant. -/
inductive SclB where
  | s (r : Fin 64) | c (k : Fin 64)
  deriving DecidableEq, Repr

/-- Literal words of scalar `li` and `lea` (R33): one word (wd = 0) or two (wd = 1). -/
inductive Literal where
  | one (w : W32) | two (w : W64)
  deriving DecidableEq, Repr

/-- Special registers (R39). -/
inductive SReg where
  | laneid | lanepos | groupid | teamid | gridSize | coreId | partitionId | gwidth | ordinal | fpstat | clock
  | trapCause | trapPc | trapLanes | trapAddr | trapInfo | featBase | featExt0 | featExt1 | featExt2 | featExt3
  deriving DecidableEq, Repr

/-- The formats of R35, in code order. -/
inductive Fmt where
  | f32 | f16 | bf16 | f64 | e8m10 | e5m2 | e4m3 | e3m2 | e2m3 | e2m1 | i8 | u8 | i4 | u4 | s32 | z32
  deriving DecidableEq, Repr, Inhabited

/-- The four arithmetic types of majors 19 to 21. -/
inductive FTy where
  | f32 | f16 | bf16 | f64
  deriving DecidableEq, Repr

/-- Rounding modes of `frnd` and `cvt`. -/
inductive RMode where
  | rne | rz | rp | rm
  deriving DecidableEq, Repr, Inhabited

/-- Modes of `cvt` (R35). -/
inductive CvtMode where
  | rne | rz | rp | rm | rneSat | rzSat
  deriving DecidableEq, Repr

inductive OrdCond where
  | lt | le | gt | ge
  deriving DecidableEq, Repr

inductive FCond where
  | eq | ne | lt | le | gt | ge | uno | ord
  deriving DecidableEq, Repr

inductive ShflPat where
  | idx | up | down | xor | rot
  deriving DecidableEq, Repr

inductive ScanOp where
  | add | minS | maxS | minZ | maxZ | and | or | fadd
  deriving DecidableEq, Repr

/-- Scopes (R17, R36). -/
inductive Scope where
  | grp | cr | tm | dv | sy
  deriving DecidableEq, Repr, Inhabited

inductive FenceKind where
  | both | acq | rel
  deriving DecidableEq, Repr

/-- Element sizes of memory instructions (R32). -/
inductive MemSz where
  | b1 | b2 | b4 | b8
  deriving DecidableEq, Repr

/-- Operations of `atm` (R195). -/
inductive AtmOp where
  | add | minS | maxS | minZ | maxZ | and | or | xor | exch | inc | dec | faddF32 | faddF16
  deriving DecidableEq, Repr, Inhabited

/-- Sources of an anvil word (R40). -/
inductive HSrc where
  | k (i : Fin 16) | o (i : Fin 8) | q (i : Fin 4) | l (i : Fin 32) | c (i : Fin 64)
  deriving DecidableEq, Repr

/-- Destinations of an anvil word (R40): only k, Q and L. -/
inductive HDst where
  | k (i : Fin 16) | q (i : Fin 4) | l (i : Fin 32)
  deriving DecidableEq, Repr

inductive HArith where
  | wrap | satS | satZ
  deriving DecidableEq, Repr

inductive HFloat where
  | f32 | f16 | bf16
  deriving DecidableEq, Repr

inductive HCvt where
  | f32S32 | f32Z32 | s32F32 | z32F32 | f16F32 | f32F16Lo | f32F16Hi
  deriving DecidableEq, Repr

inductive HCond where
  | eq | ne | ltS | leS | ltZ | leZ | ltF | leF
  deriving DecidableEq, Repr

inductive HSkip where
  | onSet | onClear | always
  deriving DecidableEq, Repr

/-! Operands of the events. An event's operands name its subject; their form is the model's own. -/

/-- Who asked a home slice for words, and so where the answer goes. -/
inductive RdTo where
  | fill (core : Nat)   -- a merging fill for a core's L1
  | op                  -- straight to the operation: ST loads, `ld.acq`, gathers, records
  deriving DecidableEq, Repr, Inhabited

/-- A read request at a home slice: words `mask` of line `line` (PA / 128) for operation `op`. -/
structure LineReq where
  core : Nat
  part : Nat
  line : Nat
  mask : W32
  c    : Bool
  op   : Nat
  dest : RdTo
  /-- the launch of a prefetch, which is no operation's (R138) -/
  grid : Nat := 0
  deriving DecidableEq, Repr, Inhabited

/-- The answer of a merging fill. -/
structure LineReply where
  core : Nat
  part : Nat
  line : Nat
  mask : W32
  data : Line
  psn  : BitVec 4
  c    : Bool
  op   : Nat
  deriving DecidableEq, Repr, Inhabited

/-- A write-through of bytes `bytes` of a line. `own`: the core is registered as owner (R141); a `czero` is not (R175). -/
structure WtReq where
  core  : Nat
  part  : Nat
  line  : Nat
  bytes : BitVec 128
  data  : Line
  c     : Bool
  own   : Bool
  /-- `st.rel` at `.dv` or `.sy`: the L1 copy takes the value at the acknowledgement (R157) -/
  upd   : Bool
  /-- the operation that waits for the acknowledgement; 0 for none -/
  op    : Nat
  /-- its number among the write-throughs: a release waits for every earlier one of its core (R142) -/
  seq   : Nat
  /-- poison of the sectors it carries (R339) -/
  psn   : BitVec 4 := 0
  /-- where it comes from no core: the die whose unit sends it (R11) -/
  die   : Nat := 0
  deriving DecidableEq, Repr, Inhabited

/-- A fixed atomic (R195). -/
structure AtmReq where
  core : Nat
  part : Nat
  op   : Nat
  lane : Nat
  pa   : Nat
  wide : Bool
  aop  : AtmOp
  x    : W64
  c    : Bool
  ret  : Bool
  dreg : Nat
  deriving DecidableEq, Repr, Inhabited

/-- A compare-and-swap (R196). -/
structure CasReq where
  core : Nat
  part : Nat
  op   : Nat
  lane : Nat
  pa   : Nat
  wide : Bool
  cmp  : W64
  new  : W64
  c    : Bool
  ret  : Bool
  dreg : Nat
  deriving DecidableEq, Repr, Inhabited

/-- What an anvil invocation is for. -/
inductive InvKind where
  | call    -- `rcall`
  | post    -- a fragment post
  | fwd     -- a forward post
  | tmeth   -- `tmeth`
  deriving DecidableEq, Repr, Inhabited

/-- A request for an anvil invocation, or for a chain of methods (R261, R262). -/
structure InvReq where
  kind   : InvKind
  core   : Nat
  part   : Nat
  op     : Nat
  lane   : Nat
  line   : Nat
  ids    : List Nat
  ops    : List W32
  /-- k0 to k7 at the start -/
  ks     : List W32
  /-- target slot of a method chain -/
  slot   : Nat
  draw   : Nat
  ord    : Nat
  grid   : Nat
  c      : Bool
  /-- scalar return registers instead of vector ones (major 53) -/
  scalar : Bool
  dreg   : Nat
  /-- a forward post's engine hold on its line (R144), 0 for none -/
  hold   : Nat := 0
  /-- the die of the anvil that sends a forward post (R11) -/
  die    : Nat := 0
  /-- the place in the chain of the method to run next (R262) -/
  nth    : Nat := 0
  /-- the draw of a post, of which `draw` is the number -/
  key    : Nat := 0
  deriving DecidableEq, Repr, Inhabited

/-- A fragment post (R264), a null post when `cov` is zero. -/
structure Post where
  core  : Nat
  part  : Nat
  op    : Nat
  grid  : Nat
  slot  : Nat
  line  : Nat
  x     : Nat
  y     : Nat
  draw  : Nat
  ord   : Nat
  cov   : W32
  words : List W32
  c     : Bool
  /-- its draw, of which `draw` is the number that its lanes carry -/
  key   : Nat := 0
  deriving DecidableEq, Repr, Inhabited

/-- A notice entry (R259), with the partition, the draw and the target slot that it is for. -/
structure Notice where
  part : Nat
  key  : Nat
  line : Nat
  draw : Nat
  ord  : Nat
  mask : W32
  slot : Nat := 0
  deriving DecidableEq, Repr, Inhabited

/-- A target read (R277). -/
structure TsReq where
  core   : Nat
  part   : Nat
  op     : Nat
  lane   : Nat
  line   : Nat
  pix    : Nat
  word   : Nat
  nwords : Nat
  fence  : Nat
  settle : Bool
  c      : Bool
  dreg   : Nat
  deriving DecidableEq, Repr, Inhabited

/-- One line's work of a `tmeth` (R276). -/
structure TmReq where
  core : Nat
  part : Nat
  op   : Nat
  grid : Nat
  slot : Nat
  /-- 0 chain, 1 clear, 2 resolve -/
  mode : Nat
  line : Nat
  x    : Nat
  y    : Nat
  bits : W32
  args : List W64
  c    : Bool
  deriving DecidableEq, Repr, Inhabited

/-- What a Slotlink request asks (R354). -/
inductive SlotKind where
  | read (r : LineReq) | write (r : WtReq) | atomic (r : AtmReq) | cas (r : CasReq) | call (r : InvReq)
  deriving DecidableEq, Repr

/-- A Slotlink request: from device `dev` when `incoming`, to it otherwise. -/
structure SlotReq where
  incoming : Bool
  dev      : Nat
  part     : Nat
  line     : Nat
  bytes    : BitVec 128
  data     : Line
  kind     : SlotKind
  op       : Nat
  /-- the clock at which it went out + 1 (R355) -/
  sent     : Nat := 0
  deriving DecidableEq, Repr

/-- A PART_CREATE request: registers of R327 by number, and windows of R123: number, base, limit. -/
structure PartCfg where
  id      : Nat
  regs    : List (Nat × W64)
  windows : List (Nat × W64 × W64)
  deriving DecidableEq, Repr

/-- A Slotlink grant: the calling device and partition, the physical ranges open to it, its routine table. -/
structure Grant where
  dev    : Nat
  part   : Nat
  lo     : Nat
  hi     : Nat
  rtPart : Nat
  deriving DecidableEq, Repr, Inhabited

/-- A TABLE_SET request (R356). -/
inductive TableReq where
  | rtBase (part : Nat) (v : W64)
  | grant (g : Grant)
  deriving DecidableEq, Repr

/-- Fields of a queue (R297). -/
inductive QField where
  | base | size | tail | head | ctl
  deriving DecidableEq, Repr

/-- Where an uncorrectable data error struck (R339). -/
inductive ErrWhere where
  | memory (pa : Nat)
  | l1 (core line sector : Nat)
  | vreg (group reg pos : Nat)
  | scratch (team off : Nat)
  | tile (group word : Nat)
  /-- in the packets between a core and the home slice of a line -/
  | fabric (core line sector : Nat)
  deriving DecidableEq, Repr

/-- The events of the machine, in the form the state holds those that are still to come (the same rows and operands as
the event constructors of `Instr`). -/
inductive Ev where
  | clauseFetch (split : Nat)
  | issueArbitration (core : Nat)
  | fixedLatencyWrite (group : Nat)
  | operationRetire (op : Nat)
  | sleepExpiry (split : Nat)
  | splitSwitch (split : Nat)
  | stackEntryReturn (split : Nat)
  | teamEnd (team : Nat)
  | throttleScoreHalving (core : Nat)
  | tlbWalk (chart : Bool) (unit part vpn : Nat)
  | pageFaultSave (group : Nat)
  | faultRecordPost (part : Nat)
  | groupRestore (group : Nat)
  | mergingFillReturn (r : LineReply)
  | homeSliceRead (r : LineReq)
  | writeThrough (r : WtReq)
  | revoke (core line : Nat) (mask : W32) (ack : Nat)
  | revokeAcknowledge (ack : Nat)
  | llcFill (line part : Nat) (c : Bool)
  | engineRecall (line : Nat)
  | routineEntryFetch (slice part id : Nat)
  | anvilInvocationStart (r : InvReq)
  | atomicInvocation (r : AtmReq)
  | casInvocation (r : CasReq)
  | tredInvocation (op line : Nat)
  | anvilBudgetPeriod
  | gatherLanding (op lane : Nat)
  | chartTransferStart (die : Nat)
  | chartBytesLanding (op : Nat)
  | chartPageFault (op : Nat)
  | carveSliceApply (op slice : Nat)
  | barrierRelease (team bar : Nat)
  | gridBarrierRelease (grid : Nat)
  | matrixPassWrite (group : Nat)
  | rayRecord (group pos : Nat)
  | rayPageFault (group pos : Nat)
  | regroupArrival (group : Nat)
  | regroupTimeout (team addr : Nat)
  | regroupResume (group : Nat)
  | primitiveAssembly (draw i : Nat)
  | rasterTileBegin (draw : Nat)
  | noticeEntry (n : Notice)
  | rasterPageFault (draw : Nat)
  | fragmentGroupLaunch (draw : Nat)
  | fragmentPost (p : Post)
  | postReturn (p : Post)
  | nullPost (p : Post)
  | forwardPost (p : Post)
  | tmethInvocation (r : TmReq)
  | tsampleRead (r : TsReq)
  | batchTimeout (graph node : Nat)
  | batchLaunch (graph : Nat)
  | queueLaunchRecord (q : Nat)
  | queueDrawRecord (q : Nat)
  | queueSignalRecord (q : Nat)
  | queueWaitRecord (q : Nat)
  | waitRecheck (q : Nat)
  | frontEndPageFault (q : Nat)
  | gridComplete (grid : Nat)
  | teamPlacement (grid : Nat)
  | spillAdmission (part : Nat)
  | preemptRequest (team : Nat)
  | regionTimerExpiry (group : Nat)
  | teamSaveWrite (team : Nat)
  | borrowRevocation (pair : Nat)
  | snapshotCopy (grid page : Nat)
  | snapshotRollback (grid : Nat)
  | verifyMismatch (group : Nat)
  | trapEntry (split : Nat)
  | trapHandoff (split : Nat)
  | reprojectionLaunch (out : Fin 2)
  | compositorUnstop (out : Fin 2)
  | vblank (out : Fin 2)
  | reprojectionBudgetExpiry (out : Fin 2)
  | rowIdleTimer (stack bank : Nat)
  | memBudgetPeriod
  | refresh (stack : Nat)
  | slotlinkRequest (r : SlotReq)
  | slotlinkTimeout (op : Nat)
  | partCreate (cfg : PartCfg)
  | partDestroy (part : Nat)
  | load (part pa : Nat) (bytes : List W8)
  | queueSet (q : Nat) (f : QField) (v : W64)
  | tableSet (t : TableReq)
  | report (part : Nat)
  | attest (nonce : List W8)
  | reset (preserve : Bool)
  | pregWrite (split : Nat)
  | pregRead (split : Nat)
  | reportRead (split : Nat)
  | syscAttest (split : Nat)
  | removeDone (split : Nat)
  | pwinWrite (part n : Nat) (limit : Bool) (v : W64)
  | ptRootWrite (part : Nat) (v : W64)
  | llcCarveLimitWrite (part : Nat) (v : W64)
  | llcCarveBaseWrite (part : Nat) (die : Fin 4) (v : W64)
  | wgPoolWrite (part : Nat) (v : W64)
  | rtBaseWrite (part : Nat) (v : W64)
  | qTailWrite (q : Nat) (v : W64)
  | queueGeometryWrite (q : Nat) (size : Bool) (v : W64)
  | qctlWrite (q : Nat) (v : W64)
  | faultHeadWrite (part : Nat) (v : W64)
  | faultQWrite (part : Nat) (v : W64)
  | borrowRegionMaxWrite (die : Fin 4) (v : W64)
  | orderlyWarmReset
  | registerWrite (addr : Nat) (v : W64)
  | fatalWarmReset
  | coldReset
  | boot (fwOk svcOk : Bool) (rom fw svc : List W8)
  | dieOvertemp (die : Fin 4)
  | coolantOvertemp
  | powerThrottle (share : BitVec 6)
  | correctableError (part ctl : Nat)
  | uncorrectableDataError (at_ : ErrWhere)
  | layerFailure (die : Fin 4)
  | layerMapOut (die : Fin 4)
  | sessionKeyExchange (requester : Nat)
  deriving DecidableEq, Repr

/-- The instructions, the anvil words and the events. -/
inductive Instr where
  | br (off : BitVec 16)
  | brAll (off : BitVec 16) (p : Fin 64)
  | brAny (off : BitVec 16) (p : Fin 64)
  | brNone (off : BitVec 16) (p : Fin 64)
  | brp (off : BitVec 16) (p : Fin 64)
  | call (l : Fin 64) (off : BitVec 16)
  | jmp (a : Fin 64)
  | ret (a : Fin 64)
  | join
  | exit
  | nop
  | yield
  | sleep (b : SclB)
  | wflag (mask : BitVec 12)
  | wpath (n : Fin 4) (k : Fin 64)
  | ppoint (mask : BitVec 16)
  | sregVector (r : SReg) (d : Fin 128)
  | sregScalar (r : SReg) (d : Fin 64)
  | swreg (r : SReg) (a : Fin 64)
  | plogAnd (d a b : Fin 64)
  | plogOr (d a b : Fin 64)
  | plogXor (d a b : Fin 64)
  | plogAndn (d a b : Fin 64)
  | pget (d a : Fin 64)
  | pset (d : Fin 64) (b : SclB)
  | pmov (d a : Fin 64)
  | addLane (d a : Fin 128) (b : LaneB)
  | addScalar (wide : Bool) (d a : Fin 64) (b : SclB)
  | subLane (d a : Fin 128) (b : LaneB)
  | subScalar (wide : Bool) (d a : Fin 64) (b : SclB)
  | addc (d a : Fin 128) (b : LaneB)
  | subc (d a : Fin 128) (b : LaneB)
  | addSatSLane (d a : Fin 128) (b : LaneB)
  | addSatSScalar (wide : Bool) (d a : Fin 64) (b : SclB)
  | subSatSLane (d a : Fin 128) (b : LaneB)
  | subSatSScalar (wide : Bool) (d a : Fin 64) (b : SclB)
  | addSatZLane (d a : Fin 128) (b : LaneB)
  | addSatZScalar (wide : Bool) (d a : Fin 64) (b : SclB)
  | subSatZLane (d a : Fin 128) (b : LaneB)
  | subSatZScalar (wide : Bool) (d a : Fin 64) (b : SclB)
  | mulLane (d a : Fin 128) (b : LaneB)
  | mulScalar (wide : Bool) (d a : Fin 64) (b : SclB)
  | mulhSLane (d a : Fin 128) (b : LaneB)
  | mulhSScalar (wide : Bool) (d a : Fin 64) (b : SclB)
  | mulhZLane (d a : Fin 128) (b : LaneB)
  | mulhZScalar (wide : Bool) (d a : Fin 64) (b : SclB)
  | madLane (d a : Fin 128) (b : LaneB)
  | madScalar (wide : Bool) (d a : Fin 64) (b : SclB)
  | minSLane (d a : Fin 128) (b : LaneB)
  | minSScalar (wide : Bool) (d a : Fin 64) (b : SclB)
  | maxSLane (d a : Fin 128) (b : LaneB)
  | maxSScalar (wide : Bool) (d a : Fin 64) (b : SclB)
  | minZLane (d a : Fin 128) (b : LaneB)
  | minZScalar (wide : Bool) (d a : Fin 64) (b : SclB)
  | maxZLane (d a : Fin 128) (b : LaneB)
  | maxZScalar (wide : Bool) (d a : Fin 64) (b : SclB)
  | andLane (d a : Fin 128) (b : LaneB)
  | andScalar (wide : Bool) (d a : Fin 64) (b : SclB)
  | orLane (d a : Fin 128) (b : LaneB)
  | orScalar (wide : Bool) (d a : Fin 64) (b : SclB)
  | xorLane (d a : Fin 128) (b : LaneB)
  | xorScalar (wide : Bool) (d a : Fin 64) (b : SclB)
  | andnLane (d a : Fin 128) (b : LaneB)
  | andnScalar (wide : Bool) (d a : Fin 64) (b : SclB)
  | shlLane (d a : Fin 128) (b : LaneB)
  | shlScalar (wide : Bool) (d a : Fin 64) (b : SclB)
  | shrLane (d a : Fin 128) (b : LaneB)
  | shrScalar (wide : Bool) (d a : Fin 64) (b : SclB)
  | sarLane (d a : Fin 128) (b : LaneB)
  | sarScalar (wide : Bool) (d a : Fin 64) (b : SclB)
  | rotLane (d a : Fin 128) (b : LaneB)
  | rotScalar (wide : Bool) (d a : Fin 64) (b : SclB)
  | bfeSLane (d a : Fin 128) (b : LaneB)
  | bfeSScalar (wide : Bool) (d a : Fin 64) (b : SclB)
  | bfeZLane (d a : Fin 128) (b : LaneB)
  | bfeZScalar (wide : Bool) (d a : Fin 64) (b : SclB)
  | bfiLane (d a : Fin 128) (b : LaneB)
  | bfiScalar (wide : Bool) (d a : Fin 64) (b : SclB)
  | absLane (d a : Fin 128)
  | absScalar (wide : Bool) (d a : Fin 64)
  | popcLane (d a : Fin 128)
  | popcScalar (wide : Bool) (d a : Fin 64)
  | clzLane (d a : Fin 128)
  | clzScalar (wide : Bool) (d a : Fin 64)
  | ctzLane (d a : Fin 128)
  | ctzScalar (wide : Bool) (d a : Fin 64)
  | brevLane (d a : Fin 128)
  | brevScalar (wide : Bool) (d a : Fin 64)
  | cmpSignedLane (cc : OrdCond) (d : Fin 64) (a : Fin 128) (b : LaneB)
  | cmpSignedScalar (cc : OrdCond) (wide : Bool) (d a : Fin 64) (b : SclB)
  | cmpUnsignedLane (cc : OrdCond) (d : Fin 64) (a : Fin 128) (b : LaneB)
  | cmpUnsignedScalar (cc : OrdCond) (wide : Bool) (d a : Fin 64) (b : SclB)
  | cmpEqualityLane (ne : Bool) (d : Fin 64) (a : Fin 128) (b : LaneB)
  | cmpEqualityScalar (ne wide : Bool) (d a : Fin 64) (b : SclB)
  | movLane (d : Fin 128) (b : LaneB)
  | movScalar (wide : Bool) (d : Fin 64) (b : SclB)
  | sel (d a : Fin 128) (b : LaneB)
  | liLane (d : Fin 128) (lit : W32)
  | liScalar (d : Fin 64) (lit : Literal)
  | lea (d : Fin 64) (lit : Literal)
  | addImmLane (d a : Fin 128) (imm : BitVec 8)
  | addImmScalar (d a : Fin 64) (imm : BitVec 8)
  | andImmLane (d a : Fin 128) (imm : BitVec 8)
  | andImmScalar (d a : Fin 64) (imm : BitVec 8)
  | orImmLane (d a : Fin 128) (imm : BitVec 8)
  | orImmScalar (d a : Fin 64) (imm : BitVec 8)
  | xorImmLane (d a : Fin 128) (imm : BitVec 8)
  | xorImmScalar (d a : Fin 64) (imm : BitVec 8)
  | shlImmLane (d a : Fin 128) (i : Fin 32)
  | shlImmScalar (d a i : Fin 64)
  | shrImmLane (d a : Fin 128) (i : Fin 32)
  | shrImmScalar (d a i : Fin 64)
  | sarImmLane (d a : Fin 128) (i : Fin 32)
  | sarImmScalar (d a i : Fin 64)
  | rotImmLane (d a : Fin 128) (i : Fin 32)
  | rotImmScalar (d a i : Fin 64)
  | add16 (d : Fin 64) (b : Fin 32)
  | sub16 (d : Fin 64) (b : Fin 32)
  | mul16 (d : Fin 64) (b : Fin 32)
  | and16 (d : Fin 64) (b : Fin 32)
  | or16 (d : Fin 64) (b : Fin 32)
  | xor16 (d : Fin 64) (b : Fin 32)
  | shl16 (d : Fin 64) (b : Fin 32)
  | shr16 (d : Fin 64) (b : Fin 32)
  | sar16 (d : Fin 64) (b : Fin 32)
  | mov16 (d : Fin 64) (b : Fin 32)
  | min16 (d : Fin 64) (b : Fin 32)
  | max16 (d : Fin 64) (b : Fin 32)
  | fadd16 (d : Fin 64) (b : Fin 32)
  | fsub16 (d : Fin 64) (b : Fin 32)
  | fmul16 (d : Fin 64) (b : Fin 32)
  | fmax16 (d : Fin 64) (b : Fin 32)
  | fadd (t : FTy) (d a : Fin 128) (b : LaneB)
  | fsub (t : FTy) (d a : Fin 128) (b : LaneB)
  | fmul (t : FTy) (d a : Fin 128) (b : LaneB)
  | ffma (t : FTy) (d a : Fin 128) (b : LaneB)
  | fmin (t : FTy) (d a : Fin 128) (b : LaneB)
  | fmax (t : FTy) (d a : Fin 128) (b : LaneB)
  | fcmpF32 (cc : FCond) (d : Fin 64) (a : Fin 128) (b : LaneB)
  | fcmpF64 (cc : FCond) (d : Fin 64) (a : Fin 128) (b : LaneB)
  | frndF32 (rnd : RMode) (d a : Fin 128)
  | frndF64 (rnd : RMode) (d a : Fin 128)
  | frcp (d a : Fin 128)
  | frsq (d a : Fin 128)
  | fsqrt (d a : Fin 128)
  | fexp2 (d a : Fin 128)
  | flog2 (d a : Fin 128)
  | fsin (d a : Fin 128)
  | fcos (d a : Fin 128)
  | ftanh (d a : Fin 128)
  | cvt (src dst : Fmt) (mode : CvtMode) (d a : Fin 128)
  | pk (src dst : Fmt) (d a : Fin 128)
  | pkSat (src dst : Fmt) (d a : Fin 128)
  | upk (src dst : Fmt) (d a : Fin 128)
  | fclass (src : Fmt) (d a : Fin 128)
  | dp4I8x4 (d a : Fin 128) (b : LaneB)
  | dp4N8x4 (d a : Fin 128) (b : LaneB)
  | dp8I4x8 (d a : Fin 128) (b : LaneB)
  | dp8N4x8 (d a : Fin 128) (b : LaneB)
  | fdp2F16 (d a : Fin 128) (b : LaneB)
  | fdp2Bf16 (d a : Fin 128) (b : LaneB)
  | fdp4E5m2 (d a : Fin 128) (b : LaneB)
  | fdp4E4m3 (d a : Fin 128) (b : LaneB)
  | fdp4E3m2 (d a : Fin 128) (b : LaneB)
  | fdp4E2m3 (d a : Fin 128) (b : LaneB)
  | fdp8E2m1 (d a : Fin 128) (b : LaneB)
  | qexpE5m2 (d a : Fin 128)
  | qexpE4m3 (d a : Fin 128)
  | qexpE3m2 (d a : Fin 128)
  | qexpE2m3 (d a : Fin 128)
  | qexpE2m1 (d a : Fin 128)
  | rng (d : Fin 128)
  | rngSeed (a : Fin 128) (b : LaneB)
  | shfl (pat : ShflPat) (d a : Fin 128) (b : LaneB)
  | shfli (pat : ShflPat) (d a : Fin 128) (imm : BitVec 8)
  | vany (d a : Fin 64)
  | vall (d a : Fin 64)
  | vbal (d a : Fin 64)
  | vmatch (d a : Fin 128)
  | pcount (d a : Fin 64)
  | bcast (d : Fin 64) (a : Fin 128) (b : SclB)
  | lmapPos (d a : Fin 128)
  | lmapLane (d a : Fin 128)
  | scan (op : ScanOp) (d a : Fin 128)
  | scanX (op : ScanOp) (d a : Fin 128)
  | rdx (op : ScanOp) (d : Fin 64) (a : Fin 128)
  | ld (sz : MemSz) (d : Fin 128) (b : Fin 32) (o : Fin 128) (i : Fin 16)
  | ldSigned (half : Bool) (d : Fin 128) (b : Fin 32) (o : Fin 128) (i : Fin 16)
  | st (sz : MemSz) (d : Fin 128) (b : Fin 32) (o : Fin 128) (i : Fin 16)
  | ldAcq (sc : Scope) (sz : MemSz) (d : Fin 128) (b : Fin 32) (o : Fin 128)
  | stRel (sc : Scope) (sz : MemSz) (d : Fin 128) (b : Fin 32) (o : Fin 128)
  | lds (sz : MemSz) (d : Fin 128) (b : Fin 32) (o : Fin 128) (i : Fin 16)
  | sts (sz : MemSz) (d : Fin 128) (b : Fin 32) (o : Fin 128) (i : Fin 16)
  | sld (sz : MemSz) (d : Fin 64) (b : Fin 32) (i : Fin 16)
  | sst (sz : MemSz) (d : Fin 64) (b : Fin 32) (i : Fin 16)
  | gth (sz : MemSz) (d : Fin 64) (b : Fin 32) (o : Fin 128) (i : Fin 16)
  | prf (llc : Bool) (b : Fin 32) (o : Fin 128) (i : Fin 16)
  | fence (sc : Scope) (kind : FenceKind)
  | efence (sc : Scope) (kind : FenceKind)
  | cflush (sc : Scope) (b : Fin 64) (o : Fin 128)
  | cinv (sc : Scope) (b : Fin 64) (o : Fin 128)
  | czero (b : Fin 64) (o : Fin 128)
  | carve (d a : Fin 64) (b : SclB)
  | cquery (d : Fin 128) (b : Fin 64) (o : Fin 128)
  | atmReturning (aop : AtmOp) (wide : Bool) (d : Fin 128) (b : Fin 32) (o : Fin 128)
  | atmPosted (aop : AtmOp) (wide : Bool) (d : Fin 128) (b : Fin 32) (o : Fin 128)
  | casReturning (wide : Bool) (d : Fin 128) (b : Fin 32) (o : Fin 128)
  | casPosted (wide : Bool) (d : Fin 128) (b : Fin 32) (o : Fin 128)
  | rcallLane (d : Fin 128) (b : Fin 32) (o : Fin 128) (i : Fin 64)
  | rcallScalar (d : Fin 64) (b : Fin 32) (i : Fin 64)
  | rinst (d a : Fin 64) (b : SclB)
  | rdrop (d : Fin 64) (b : SclB)
  | bar (n : Fin 32) (b : SclB)
  | barr (n : Fin 32) (b : SclB)
  | barw (n : Fin 32)
  | gbar
  | abinit (a : Fin 64) (b : SclB)
  | abarr (d a : Fin 64)
  | abexp (a : Fin 64) (b : SclB)
  | abwait (a : Fin 64) (b : SclB)
  | trec (n : Fin 16) (a : Fin 64)
  | tcopy (tr ab : Bool) (n : Fin 16) (c a : Fin 64)
  | tstore (tr : Bool) (n : Fin 16) (c a : Fin 64)
  | tquant (n : Fin 16) (c a : Fin 64)
  | tgath (ab : Bool) (n : Fin 16) (c a : Fin 64)
  | tfill (n : Fin 16) (c : Fin 64)
  | tred (n : Fin 16) (c a : Fin 64)
  | mma (fmt : Fmt) (tile : Fin 16) (a b : Fin 64)
  | mmaUnfold (fmt : Fmt) (n : Fin 4) (tile : Fin 16) (b : Fin 64)
  | mmas (fmt : Fmt) (tile : Fin 16) (a b : Fin 64)
  | aclr (tile : Fin 16)
  | amov (d : Fin 128) (tile : Fin 16)
  | aput (tile : Fin 16) (a : Fin 128)
  | ast (fmt : Fmt) (tile : Fin 16) (a : Fin 64)
  | unf (n : Fin 4) (a : Fin 64)
  | vemit (d a : Fin 128) (b : SclB)
  | intrp (d : Fin 128) (b : SclB)
  | fpost (d a : Fin 128) (b : SclB)
  | tbind (d a : Fin 64) (b : SclB)
  /-- `mode3`: the mode 3 that R269 names, which traps when it executes -/
  | tmeth (mode3 : Bool) (a k : Fin 64)
  | tmethClear (a k : Fin 64)
  | tmethResolve (k : Fin 64)
  | tsample (d a : Fin 128) (k : Fin 64)
  | tsampleSettle (d a : Fin 128) (k : Fin 64)
  | tex (d a : Fin 128) (b : SclB)
  | texf (d a : Fin 128) (b : SclB)
  | rtrace (d a : Fin 128) (b : Fin 64)
  | rtraceAny (d a : Fin 128) (b : Fin 64)
  | rnext (d : Fin 128)
  | racc
  | rhit (d : Fin 128) (b : SclB)
  | regroup
  | launch (d a : Fin 64) (b : SclB)
  | cwait (d a : Fin 64)
  | ralloc (d : Fin 64) (b : SclB)
  | rallocIn (d : Fin 64)
  | rcommit (a : Fin 64)
  | rdone (a : Fin 64)
  | trap (b : SclB)
  | rti (b : SclB)
  | sysc (b : SclB)
  | brk (b : SclB)
  | halt
  | rbank (d : Fin 64) (b : SclB)
  | rbankW (s : Fin 64) (b : SclB)
  | tlbinv (a : Fin 64) (b : SclB)
  | fresume (d a : Fin 64)
  | ctxsv (d : Fin 128) (a : Fin 64) (b : SclB)
  | ctxld (d : Fin 128) (a : Fin 64) (b : SclB)
  | ctr (d a : Fin 64)
  | ctrsel (a : Fin 64) (b : SclB)
  | ext (opnds : Fin 131072) (num : Fin 256)
  | hLdl (d : HDst) (k : Fin 16)
  | hStl (k : Fin 16) (b : HSrc)
  | hLdo (d : HDst) (k : Fin 16)
  | hLdc (d : HDst) (k : Fin 16)
  | hLi (d : HDst) (imm : BitVec 16)
  | hLiHi (d : HDst) (imm : BitVec 16)
  | hAdd (m : HArith) (d : HDst) (a b : HSrc)
  | hSub (m : HArith) (d : HDst) (a b : HSrc)
  | hMul (m : HArith) (d : HDst) (a b : HSrc)
  | hAnd (d : HDst) (a b : HSrc)
  | hOr (d : HDst) (a b : HSrc)
  | hXor (d : HDst) (a b : HSrc)
  | hShl (d : HDst) (a b : HSrc)
  | hShr (d : HDst) (a b : HSrc)
  | hSar (d : HDst) (a b : HSrc)
  | hMin (unsigned : Bool) (d : HDst) (a b : HSrc)
  | hMax (unsigned : Bool) (d : HDst) (a b : HSrc)
  | hFadd (m : HFloat) (d : HDst) (a b : HSrc)
  | hFmul (m : HFloat) (d : HDst) (a b : HSrc)
  | hFfma (m : HFloat) (d : HDst) (a b : HSrc)
  | hFmin (m : HFloat) (d : HDst) (a b : HSrc)
  | hFmax (m : HFloat) (d : HDst) (a b : HSrc)
  | hCvt (m : HCvt) (d : HDst) (a b : HSrc)
  | hCmp (m : HCond) (c : Fin 4) (a b : HSrc)
  | hSel (d : HDst) (c : Fin 4) (a b : HSrc)
  | hSkip (m : HSkip) (n : Fin 128) (c : Fin 4)
  | hRet
  | hFwd (n : Fin 128) (a : HSrc)
  | hAbt (b : HSrc)
  | hEnd
  | clauseFetch (split : Nat)
  | issueArbitration (core : Nat)
  | fixedLatencyWrite (group : Nat)
  | operationRetire (op : Nat)
  | sleepExpiry (split : Nat)
  | splitSwitch (split : Nat)
  | stackEntryReturn (split : Nat)
  | teamEnd (team : Nat)
  | throttleScoreHalving (core : Nat)
  | tlbWalk (chart : Bool) (unit part vpn : Nat)
  | pageFaultSave (group : Nat)
  | faultRecordPost (part : Nat)
  | groupRestore (group : Nat)
  | mergingFillReturn (r : LineReply)
  | homeSliceRead (r : LineReq)
  | writeThrough (r : WtReq)
  | revoke (core line : Nat) (mask : W32) (ack : Nat)
  | revokeAcknowledge (ack : Nat)
  | llcFill (line part : Nat) (c : Bool)
  | engineRecall (line : Nat)
  | routineEntryFetch (slice part id : Nat)
  | anvilInvocationStart (r : InvReq)
  | atomicInvocation (r : AtmReq)
  | casInvocation (r : CasReq)
  | tredInvocation (op line : Nat)
  | anvilBudgetPeriod
  | gatherLanding (op lane : Nat)
  | chartTransferStart (die : Nat)
  | chartBytesLanding (op : Nat)
  | chartPageFault (op : Nat)
  | carveSliceApply (op slice : Nat)
  | barrierRelease (team bar : Nat)
  | gridBarrierRelease (grid : Nat)
  | matrixPassWrite (group : Nat)
  | rayRecord (group pos : Nat)
  | rayPageFault (group pos : Nat)
  | regroupArrival (group : Nat)
  | regroupTimeout (team addr : Nat)
  | regroupResume (group : Nat)
  | primitiveAssembly (draw i : Nat)
  | rasterTileBegin (draw : Nat)
  | noticeEntry (n : Notice)
  | rasterPageFault (draw : Nat)
  | fragmentGroupLaunch (draw : Nat)
  | fragmentPost (p : Post)
  | postReturn (p : Post)
  | nullPost (p : Post)
  | forwardPost (p : Post)
  | tmethInvocation (r : TmReq)
  | tsampleRead (r : TsReq)
  | batchTimeout (graph node : Nat)
  | batchLaunch (graph : Nat)
  | queueLaunchRecord (q : Nat)
  | queueDrawRecord (q : Nat)
  | queueSignalRecord (q : Nat)
  | queueWaitRecord (q : Nat)
  | waitRecheck (q : Nat)
  | frontEndPageFault (q : Nat)
  | gridComplete (grid : Nat)
  | teamPlacement (grid : Nat)
  | spillAdmission (part : Nat)
  | preemptRequest (team : Nat)
  | regionTimerExpiry (group : Nat)
  | teamSaveWrite (team : Nat)
  | borrowRevocation (pair : Nat)
  | snapshotCopy (grid page : Nat)
  | snapshotRollback (grid : Nat)
  | verifyMismatch (group : Nat)
  | trapEntry (split : Nat)
  | trapHandoff (split : Nat)
  | reprojectionLaunch (out : Fin 2)
  | compositorUnstop (out : Fin 2)
  | vblank (out : Fin 2)
  | reprojectionBudgetExpiry (out : Fin 2)
  | rowIdleTimer (stack bank : Nat)
  | memBudgetPeriod
  | refresh (stack : Nat)
  | slotlinkRequest (r : SlotReq)
  | slotlinkTimeout (op : Nat)
  | partCreate (cfg : PartCfg)
  | partDestroy (part : Nat)
  | load (part pa : Nat) (bytes : List W8)
  | queueSet (q : Nat) (f : QField) (v : W64)
  | tableSet (t : TableReq)
  | report (part : Nat)
  | attest (nonce : List W8)
  | reset (preserve : Bool)
  | pregWrite (split : Nat)
  | pregRead (split : Nat)
  | reportRead (split : Nat)
  | syscAttest (split : Nat)
  | removeDone (split : Nat)
  | pwinWrite (part n : Nat) (limit : Bool) (v : W64)
  | ptRootWrite (part : Nat) (v : W64)
  | llcCarveLimitWrite (part : Nat) (v : W64)
  | llcCarveBaseWrite (part : Nat) (die : Fin 4) (v : W64)
  | wgPoolWrite (part : Nat) (v : W64)
  | rtBaseWrite (part : Nat) (v : W64)
  | qTailWrite (q : Nat) (v : W64)
  | queueGeometryWrite (q : Nat) (size : Bool) (v : W64)
  | qctlWrite (q : Nat) (v : W64)
  | faultHeadWrite (part : Nat) (v : W64)
  | faultQWrite (part : Nat) (v : W64)
  | borrowRegionMaxWrite (die : Fin 4) (v : W64)
  | orderlyWarmReset
  | registerWrite (addr : Nat) (v : W64)
  | fatalWarmReset
  | coldReset
  | boot (fwOk svcOk : Bool) (rom fw svc : List W8)
  | dieOvertemp (die : Fin 4)
  | coolantOvertemp
  | powerThrottle (share : BitVec 6)
  | correctableError (part ctl : Nat)
  | uncorrectableDataError (at_ : ErrWhere)
  | layerFailure (die : Fin 4)
  | layerMapOut (die : Fin 4)
  | sessionKeyExchange (requester : Nat)
  deriving DecidableEq, Repr

/-- The row of an event. -/
noncomputable def Ev.toInstr : Ev → Instr
  | .clauseFetch split => .clauseFetch split
  | .issueArbitration core => .issueArbitration core
  | .fixedLatencyWrite group => .fixedLatencyWrite group
  | .operationRetire op => .operationRetire op
  | .sleepExpiry split => .sleepExpiry split
  | .splitSwitch split => .splitSwitch split
  | .stackEntryReturn split => .stackEntryReturn split
  | .teamEnd team => .teamEnd team
  | .throttleScoreHalving core => .throttleScoreHalving core
  | .tlbWalk chart unit part vpn => .tlbWalk chart unit part vpn
  | .pageFaultSave group => .pageFaultSave group
  | .faultRecordPost part => .faultRecordPost part
  | .groupRestore group => .groupRestore group
  | .mergingFillReturn r => .mergingFillReturn r
  | .homeSliceRead r => .homeSliceRead r
  | .writeThrough r => .writeThrough r
  | .revoke core line mask ack => .revoke core line mask ack
  | .revokeAcknowledge ack => .revokeAcknowledge ack
  | .llcFill line part c => .llcFill line part c
  | .engineRecall line => .engineRecall line
  | .routineEntryFetch slice part id => .routineEntryFetch slice part id
  | .anvilInvocationStart r => .anvilInvocationStart r
  | .atomicInvocation r => .atomicInvocation r
  | .casInvocation r => .casInvocation r
  | .tredInvocation op line => .tredInvocation op line
  | .anvilBudgetPeriod => .anvilBudgetPeriod
  | .gatherLanding op lane => .gatherLanding op lane
  | .chartTransferStart die => .chartTransferStart die
  | .chartBytesLanding op => .chartBytesLanding op
  | .chartPageFault op => .chartPageFault op
  | .carveSliceApply op slice => .carveSliceApply op slice
  | .barrierRelease team bar => .barrierRelease team bar
  | .gridBarrierRelease grid => .gridBarrierRelease grid
  | .matrixPassWrite group => .matrixPassWrite group
  | .rayRecord group pos => .rayRecord group pos
  | .rayPageFault group pos => .rayPageFault group pos
  | .regroupArrival group => .regroupArrival group
  | .regroupTimeout team addr => .regroupTimeout team addr
  | .regroupResume group => .regroupResume group
  | .primitiveAssembly draw i => .primitiveAssembly draw i
  | .rasterTileBegin draw => .rasterTileBegin draw
  | .noticeEntry n => .noticeEntry n
  | .rasterPageFault draw => .rasterPageFault draw
  | .fragmentGroupLaunch draw => .fragmentGroupLaunch draw
  | .fragmentPost p => .fragmentPost p
  | .postReturn p => .postReturn p
  | .nullPost p => .nullPost p
  | .forwardPost p => .forwardPost p
  | .tmethInvocation r => .tmethInvocation r
  | .tsampleRead r => .tsampleRead r
  | .batchTimeout graph node => .batchTimeout graph node
  | .batchLaunch graph => .batchLaunch graph
  | .queueLaunchRecord q => .queueLaunchRecord q
  | .queueDrawRecord q => .queueDrawRecord q
  | .queueSignalRecord q => .queueSignalRecord q
  | .queueWaitRecord q => .queueWaitRecord q
  | .waitRecheck q => .waitRecheck q
  | .frontEndPageFault q => .frontEndPageFault q
  | .gridComplete grid => .gridComplete grid
  | .teamPlacement grid => .teamPlacement grid
  | .spillAdmission part => .spillAdmission part
  | .preemptRequest team => .preemptRequest team
  | .regionTimerExpiry group => .regionTimerExpiry group
  | .teamSaveWrite team => .teamSaveWrite team
  | .borrowRevocation pair => .borrowRevocation pair
  | .snapshotCopy grid page => .snapshotCopy grid page
  | .snapshotRollback grid => .snapshotRollback grid
  | .verifyMismatch group => .verifyMismatch group
  | .trapEntry split => .trapEntry split
  | .trapHandoff split => .trapHandoff split
  | .reprojectionLaunch out => .reprojectionLaunch out
  | .compositorUnstop out => .compositorUnstop out
  | .vblank out => .vblank out
  | .reprojectionBudgetExpiry out => .reprojectionBudgetExpiry out
  | .rowIdleTimer stack bank => .rowIdleTimer stack bank
  | .memBudgetPeriod => .memBudgetPeriod
  | .refresh stack => .refresh stack
  | .slotlinkRequest r => .slotlinkRequest r
  | .slotlinkTimeout op => .slotlinkTimeout op
  | .partCreate cfg => .partCreate cfg
  | .partDestroy part => .partDestroy part
  | .load part pa bytes => .load part pa bytes
  | .queueSet q f v => .queueSet q f v
  | .tableSet t => .tableSet t
  | .report part => .report part
  | .attest nonce => .attest nonce
  | .reset preserve => .reset preserve
  | .pregWrite split => .pregWrite split
  | .pregRead split => .pregRead split
  | .reportRead split => .reportRead split
  | .syscAttest split => .syscAttest split
  | .removeDone split => .removeDone split
  | .pwinWrite part n limit v => .pwinWrite part n limit v
  | .ptRootWrite part v => .ptRootWrite part v
  | .llcCarveLimitWrite part v => .llcCarveLimitWrite part v
  | .llcCarveBaseWrite part die v => .llcCarveBaseWrite part die v
  | .wgPoolWrite part v => .wgPoolWrite part v
  | .rtBaseWrite part v => .rtBaseWrite part v
  | .qTailWrite q v => .qTailWrite q v
  | .queueGeometryWrite q size v => .queueGeometryWrite q size v
  | .qctlWrite q v => .qctlWrite q v
  | .faultHeadWrite part v => .faultHeadWrite part v
  | .faultQWrite part v => .faultQWrite part v
  | .borrowRegionMaxWrite die v => .borrowRegionMaxWrite die v
  | .orderlyWarmReset => .orderlyWarmReset
  | .registerWrite addr v => .registerWrite addr v
  | .fatalWarmReset => .fatalWarmReset
  | .coldReset => .coldReset
  | .boot fwOk svcOk rom fw svc => .boot fwOk svcOk rom fw svc
  | .dieOvertemp die => .dieOvertemp die
  | .coolantOvertemp => .coolantOvertemp
  | .powerThrottle share => .powerThrottle share
  | .correctableError part ctl => .correctableError part ctl
  | .uncorrectableDataError at_ => .uncorrectableDataError at_
  | .layerFailure die => .layerFailure die
  | .layerMapOut die => .layerMapOut die
  | .sessionKeyExchange requester => .sessionKeyExchange requester

end Sys2Proof
end

