-- ==== Sys2Proof/WellFormed.lean ====
section
/-! DEFINITION. Which instructions are well formed (R29, R32 to R38, R44): `Instr.wf` is what every launch demands,
`Instr.fits` what a launch's width, vector-register count and tile count demand besides. -/

namespace Sys2Proof

/-- Constant values 105 to 111 are illegal (R38). -/
def constOk (k : Fin 64) : Bool := k.val < 41 || 48 ≤ k.val

def LaneB.ok : LaneB → Bool
  | .c k => constOk k
  | _ => true

def SclB.ok : SclB → Bool
  | .c k => constOk k
  | _ => true

/-- The b operand of an `.f64` form names an even pair when it is a vector register (R29). -/
def LaneB.even : LaneB → Bool
  | .v r => r.val % 2 = 0
  | _ => true

/-- Registers that one operand of a type takes. -/
def FTy.len : FTy → Nat
  | .f64 => 2
  | _ => 1

def Fmt.len : Fmt → Nat
  | .f64 => 2
  | _ => 1

/-- Elements of a format in one 32-bit register, a 6-bit element counting as 8 (R97). -/
def Fmt.perReg : Fmt → Nat
  | .f16 | .bf16 => 2
  | .e5m2 | .e4m3 | .e3m2 | .e2m3 | .i8 | .u8 => 4
  | .e2m1 | .i4 | .u4 => 8
  | _ => 1

def MemSz.regs : MemSz → Nat
  | .b8 => 2
  | _ => 1

/-- Codes 0 to 9: the float formats. -/
def Fmt.isFloat : Fmt → Bool
  | .i8 | .u8 | .i4 | .u4 | .s32 | .z32 => false
  | _ => true

/-- Codes 14 and 15. -/
def Fmt.isInt32 : Fmt → Bool
  | .s32 | .z32 => true
  | _ => false

/-- The legal pairs of `cvt` (R96). -/
def cvtPair (src dst : Fmt) : Bool :=
  (src.isFloat && dst.isFloat && src ≠ dst) || (src.isFloat && dst.isInt32) || (src.isInt32 && dst.isFloat)

/-- The legal pairs of `pk` and `pk.sat` (R97). -/
def pkPair (src dst : Fmt) : Bool :=
  match src, dst with
  | .f32, .f16 | .f32, .bf16 | .f32, .e5m2 | .f32, .e4m3 | .f32, .e3m2 | .f32, .e2m3 | .f32, .e2m1 => true
  | .s32, .i8 | .s32, .i4 | .z32, .u8 | .z32, .u4 => true
  | _, _ => false

/-- The legal pairs of `upk` (R97). -/
def upkPair (src dst : Fmt) : Bool := pkPair dst src

/-- Formats of a matrix instruction: codes 14 and 15 are illegal (R35); an FP64 tile is even (R29). -/
def mtxOk (f : Fmt) (t : Fin 16) : Bool := !f.isInt32 && (f ≠ .f64 || t.val % 2 = 0)

/-- The block formats 5 to 9. -/
def Fmt.isMx : Fmt → Bool
  | .e5m2 | .e4m3 | .e3m2 | .e2m3 | .e2m1 => true
  | _ => false

/-- The `n` words from operand code `a` on stay within one kind (R184). -/
def HSrc.spanOk : HSrc → Nat → Bool
  | .k i, n => i.val + n ≤ 16
  | .o i, n => i.val + n ≤ 8
  | .q i, n => i.val + n ≤ 4
  | .l i, n => i.val + n ≤ 32
  | .c i, n => i.val + n ≤ 64

def evenIf (c : Bool) (r : Fin 128) : Bool := !c || r.val % 2 = 0

/-- What every launch demands of an instruction. -/
def Instr.wf : Instr → Bool
  | .sleep b => b.ok
  | .pset _ b => b.ok
  | .addLane _ _ b => b.ok
  | .addScalar _ _ _ b => b.ok
  | .subLane _ _ b => b.ok
  | .subScalar _ _ _ b => b.ok
  | .addc _ _ b => b.ok
  | .subc _ _ b => b.ok
  | .addSatSLane _ _ b => b.ok
  | .addSatSScalar _ _ _ b => b.ok
  | .subSatSLane _ _ b => b.ok
  | .subSatSScalar _ _ _ b => b.ok
  | .addSatZLane _ _ b => b.ok
  | .addSatZScalar _ _ _ b => b.ok
  | .subSatZLane _ _ b => b.ok
  | .subSatZScalar _ _ _ b => b.ok
  | .mulLane _ _ b => b.ok
  | .mulScalar _ _ _ b => b.ok
  | .mulhSLane _ _ b => b.ok
  | .mulhSScalar _ _ _ b => b.ok
  | .mulhZLane _ _ b => b.ok
  | .mulhZScalar _ _ _ b => b.ok
  | .madLane _ _ b => b.ok
  | .madScalar _ _ _ b => b.ok
  | .minSLane _ _ b => b.ok
  | .minSScalar _ _ _ b => b.ok
  | .maxSLane _ _ b => b.ok
  | .maxSScalar _ _ _ b => b.ok
  | .minZLane _ _ b => b.ok
  | .minZScalar _ _ _ b => b.ok
  | .maxZLane _ _ b => b.ok
  | .maxZScalar _ _ _ b => b.ok
  | .andLane _ _ b => b.ok
  | .andScalar _ _ _ b => b.ok
  | .orLane _ _ b => b.ok
  | .orScalar _ _ _ b => b.ok
  | .xorLane _ _ b => b.ok
  | .xorScalar _ _ _ b => b.ok
  | .andnLane _ _ b => b.ok
  | .andnScalar _ _ _ b => b.ok
  | .shlLane _ _ b => b.ok
  | .shlScalar _ _ _ b => b.ok
  | .shrLane _ _ b => b.ok
  | .shrScalar _ _ _ b => b.ok
  | .sarLane _ _ b => b.ok
  | .sarScalar _ _ _ b => b.ok
  | .rotLane _ _ b => b.ok
  | .rotScalar _ _ _ b => b.ok
  | .bfeSLane _ _ b => b.ok
  | .bfeSScalar _ _ _ b => b.ok
  | .bfeZLane _ _ b => b.ok
  | .bfeZScalar _ _ _ b => b.ok
  | .bfiLane _ _ b => b.ok
  | .bfiScalar _ _ _ b => b.ok
  | .cmpSignedLane _ _ _ b => b.ok
  | .cmpSignedScalar _ _ _ _ b => b.ok
  | .cmpUnsignedLane _ _ _ b => b.ok
  | .cmpUnsignedScalar _ _ _ _ b => b.ok
  | .cmpEqualityLane _ _ _ b => b.ok
  | .cmpEqualityScalar _ _ _ _ b => b.ok
  | .movLane _ b => b.ok
  | .movScalar _ _ b => b.ok
  | .sel _ _ b => b.ok
  | .fadd t d a b => b.ok && evenIf (t == .f64) d && evenIf (t == .f64) a && (t != .f64 || b.even)
  | .fsub t d a b => b.ok && evenIf (t == .f64) d && evenIf (t == .f64) a && (t != .f64 || b.even)
  | .fmul t d a b => b.ok && evenIf (t == .f64) d && evenIf (t == .f64) a && (t != .f64 || b.even)
  | .ffma t d a b => b.ok && evenIf (t == .f64) d && evenIf (t == .f64) a && (t != .f64 || b.even)
  | .fmin t d a b => b.ok && evenIf (t == .f64) d && evenIf (t == .f64) a && (t != .f64 || b.even)
  | .fmax t d a b => b.ok && evenIf (t == .f64) d && evenIf (t == .f64) a && (t != .f64 || b.even)
  | .fcmpF32 _ _ _ b => b.ok
  | .fcmpF64 _ _ a b => b.ok && evenIf true a && b.even
  | .frndF64 _ d a => evenIf true d && evenIf true a
  | .cvt src dst _ d a => cvtPair src dst && evenIf (src == .f64) a && evenIf (dst == .f64) d
  | .pk src dst _ _ => pkPair src dst
  | .pkSat src dst _ _ => pkPair src dst
  | .upk src dst _ _ => upkPair src dst
  | .fclass src _ a => src.isFloat && evenIf (src == .f64) a
  | .dp4I8x4 _ _ b => b.ok
  | .dp4N8x4 _ _ b => b.ok
  | .dp8I4x8 _ _ b => b.ok
  | .dp8N4x8 _ _ b => b.ok
  | .fdp2F16 _ _ b => b.ok
  | .fdp2Bf16 _ _ b => b.ok
  | .fdp4E5m2 _ _ b => b.ok
  | .fdp4E4m3 _ _ b => b.ok
  | .fdp4E3m2 _ _ b => b.ok
  | .fdp4E2m3 _ _ b => b.ok
  | .fdp8E2m1 _ _ b => b.ok
  | .rngSeed _ b => b.ok
  | .shfl _ _ _ b => b.ok
  | .bcast _ _ b => b.ok
  | .ld sz d _ _ _ => evenIf (sz == .b8) d
  | .st sz d _ _ _ => evenIf (sz == .b8) d
  | .ldAcq _ sz d _ _ => evenIf (sz == .b8) d
  | .stRel _ sz d _ _ => evenIf (sz == .b8) d
  | .lds sz d _ _ _ => evenIf (sz == .b8) d
  | .sts sz d _ _ _ => evenIf (sz == .b8) d
  | .cflush sc _ _ => (sc == .dv || sc == .sy)
  | .cinv sc _ _ => (sc == .dv || sc == .sy)
  | .carve _ _ b => b.ok
  | .atmReturning aop wide d _ _ => evenIf wide d && !(wide && (aop == .faddF32 || aop == .faddF16))
  | .atmPosted aop wide d _ _ => evenIf wide d && !(wide && (aop == .faddF32 || aop == .faddF16))
  | .casReturning wide d _ _ => evenIf wide d
  | .casPosted wide d _ _ => evenIf wide d
  | .rinst _ _ b => b.ok
  | .rdrop _ b => b.ok
  | .bar _ b => b.ok
  | .barr _ b => b.ok
  | .abinit _ b => b.ok
  | .abexp _ b => b.ok
  | .abwait _ b => b.ok
  | .mma fmt tile _ _ => mtxOk fmt tile
  | .mmaUnfold fmt _ tile b => mtxOk fmt tile && b.val != 63
  | .mmas fmt _ a b => fmt.isMx && a.val != 63 && b.val != 63
  | .ast fmt tile _ => mtxOk fmt tile
  | .unf _ a => a.val != 63
  | .vemit _ _ b => b.ok
  | .intrp _ b => b.ok
  | .fpost _ _ b => b.ok
  | .tbind _ _ b => b.ok
  | .tmeth _ _ k => k.val != 63
  | .tmethClear _ k => k.val != 63
  | .tmethResolve k => k.val != 63
  | .tsample _ _ k => k.val != 63
  | .tsampleSettle _ _ k => k.val != 63
  | .tex _ _ b => b.ok
  | .texf _ _ b => b.ok
  | .rhit _ b => b.ok
  | .launch _ _ b => b.ok
  | .ralloc _ b => b.ok
  | .trap b => b.ok
  | .rti b => b.ok
  | .sysc b => b.ok
  | .brk b => b.ok
  | .rbank _ b => b.ok
  | .rbankW _ b => b.ok
  | .tlbinv _ b => b.ok
  | .ctxsv _ _ b => b.ok
  | .ctxld _ _ b => b.ok
  | .ctrsel _ b => b.ok
  | .hCvt m _ _ b => (m == .f16F32 || b == .k 0)
  | .hSkip m n c => decide (1 ≤ n.val) && decide (n.val ≤ 31) && (m != .always || c.val == 0)
  | .hFwd n a => decide (1 ≤ n.val) && decide (n.val ≤ 8) && a.spanOk n.val
  | _ => true

/-- The vector registers an instruction names, as ranges (first, count), in a group of width `w`. -/
def LaneB.vrange (n : Nat) : LaneB → List (Nat × Nat)
  | .v r => [(r.val, n)]
  | _ => []

def Instr.vranges (w : Nat) : Instr → List (Nat × Nat)
  | .sregVector _ d => [(d.val, 1)]
  | .addLane d a b => [(d.val, 1), (a.val, 1)] ++ b.vrange 1
  | .subLane d a b => [(d.val, 1), (a.val, 1)] ++ b.vrange 1
  | .addc d a b => [(d.val, 1), (a.val, 1)] ++ b.vrange 1
  | .subc d a b => [(d.val, 1), (a.val, 1)] ++ b.vrange 1
  | .addSatSLane d a b => [(d.val, 1), (a.val, 1)] ++ b.vrange 1
  | .subSatSLane d a b => [(d.val, 1), (a.val, 1)] ++ b.vrange 1
  | .addSatZLane d a b => [(d.val, 1), (a.val, 1)] ++ b.vrange 1
  | .subSatZLane d a b => [(d.val, 1), (a.val, 1)] ++ b.vrange 1
  | .mulLane d a b => [(d.val, 1), (a.val, 1)] ++ b.vrange 1
  | .mulhSLane d a b => [(d.val, 1), (a.val, 1)] ++ b.vrange 1
  | .mulhZLane d a b => [(d.val, 1), (a.val, 1)] ++ b.vrange 1
  | .madLane d a b => [(d.val, 1), (a.val, 1)] ++ b.vrange 1
  | .minSLane d a b => [(d.val, 1), (a.val, 1)] ++ b.vrange 1
  | .maxSLane d a b => [(d.val, 1), (a.val, 1)] ++ b.vrange 1
  | .minZLane d a b => [(d.val, 1), (a.val, 1)] ++ b.vrange 1
  | .maxZLane d a b => [(d.val, 1), (a.val, 1)] ++ b.vrange 1
  | .andLane d a b => [(d.val, 1), (a.val, 1)] ++ b.vrange 1
  | .orLane d a b => [(d.val, 1), (a.val, 1)] ++ b.vrange 1
  | .xorLane d a b => [(d.val, 1), (a.val, 1)] ++ b.vrange 1
  | .andnLane d a b => [(d.val, 1), (a.val, 1)] ++ b.vrange 1
  | .shlLane d a b => [(d.val, 1), (a.val, 1)] ++ b.vrange 1
  | .shrLane d a b => [(d.val, 1), (a.val, 1)] ++ b.vrange 1
  | .sarLane d a b => [(d.val, 1), (a.val, 1)] ++ b.vrange 1
  | .rotLane d a b => [(d.val, 1), (a.val, 1)] ++ b.vrange 1
  | .bfeSLane d a b => [(d.val, 1), (a.val, 1)] ++ b.vrange 1
  | .bfeZLane d a b => [(d.val, 1), (a.val, 1)] ++ b.vrange 1
  | .bfiLane d a b => [(d.val, 1), (a.val, 1)] ++ b.vrange 1
  | .absLane d a => [(d.val, 1), (a.val, 1)]
  | .popcLane d a => [(d.val, 1), (a.val, 1)]
  | .clzLane d a => [(d.val, 1), (a.val, 1)]
  | .ctzLane d a => [(d.val, 1), (a.val, 1)]
  | .brevLane d a => [(d.val, 1), (a.val, 1)]
  | .cmpSignedLane _ _ a b => [(a.val, 1)] ++ b.vrange 1
  | .cmpUnsignedLane _ _ a b => [(a.val, 1)] ++ b.vrange 1
  | .cmpEqualityLane _ _ a b => [(a.val, 1)] ++ b.vrange 1
  | .movLane d b => [(d.val, 1)] ++ b.vrange 1
  | .sel d a b => [(d.val, 1), (a.val, 1)] ++ b.vrange 1
  | .liLane d _ => [(d.val, 1)]
  | .addImmLane d a _ => [(d.val, 1), (a.val, 1)]
  | .andImmLane d a _ => [(d.val, 1), (a.val, 1)]
  | .orImmLane d a _ => [(d.val, 1), (a.val, 1)]
  | .xorImmLane d a _ => [(d.val, 1), (a.val, 1)]
  | .shlImmLane d a _ => [(d.val, 1), (a.val, 1)]
  | .shrImmLane d a _ => [(d.val, 1), (a.val, 1)]
  | .sarImmLane d a _ => [(d.val, 1), (a.val, 1)]
  | .rotImmLane d a _ => [(d.val, 1), (a.val, 1)]
  | .add16 d b => [(d.val, 1), (b.val, 1)]
  | .sub16 d b => [(d.val, 1), (b.val, 1)]
  | .mul16 d b => [(d.val, 1), (b.val, 1)]
  | .and16 d b => [(d.val, 1), (b.val, 1)]
  | .or16 d b => [(d.val, 1), (b.val, 1)]
  | .xor16 d b => [(d.val, 1), (b.val, 1)]
  | .shl16 d b => [(d.val, 1), (b.val, 1)]
  | .shr16 d b => [(d.val, 1), (b.val, 1)]
  | .sar16 d b => [(d.val, 1), (b.val, 1)]
  | .mov16 d b => [(d.val, 1), (b.val, 1)]
  | .min16 d b => [(d.val, 1), (b.val, 1)]
  | .max16 d b => [(d.val, 1), (b.val, 1)]
  | .fadd16 d b => [(d.val, 1), (b.val, 1)]
  | .fsub16 d b => [(d.val, 1), (b.val, 1)]
  | .fmul16 d b => [(d.val, 1), (b.val, 1)]
  | .fmax16 d b => [(d.val, 1), (b.val, 1)]
  | .fadd t d a b => [(d.val, t.len), (a.val, t.len)] ++ b.vrange t.len
  | .fsub t d a b => [(d.val, t.len), (a.val, t.len)] ++ b.vrange t.len
  | .fmul t d a b => [(d.val, t.len), (a.val, t.len)] ++ b.vrange t.len
  | .ffma t d a b => [(d.val, t.len), (a.val, t.len)] ++ b.vrange t.len
  | .fmin t d a b => [(d.val, t.len), (a.val, t.len)] ++ b.vrange t.len
  | .fmax t d a b => [(d.val, t.len), (a.val, t.len)] ++ b.vrange t.len
  | .fcmpF32 _ _ a b => [(a.val, 1)] ++ b.vrange 1
  | .fcmpF64 _ _ a b => [(a.val, 2)] ++ b.vrange 2
  | .frndF32 _ d a => [(d.val, 1), (a.val, 1)]
  | .frndF64 _ d a => [(d.val, 2), (a.val, 2)]
  | .frcp d a => [(d.val, 1), (a.val, 1)]
  | .frsq d a => [(d.val, 1), (a.val, 1)]
  | .fsqrt d a => [(d.val, 1), (a.val, 1)]
  | .fexp2 d a => [(d.val, 1), (a.val, 1)]
  | .flog2 d a => [(d.val, 1), (a.val, 1)]
  | .fsin d a => [(d.val, 1), (a.val, 1)]
  | .fcos d a => [(d.val, 1), (a.val, 1)]
  | .ftanh d a => [(d.val, 1), (a.val, 1)]
  | .cvt src dst _ d a => [(d.val, dst.len), (a.val, src.len)]
  | .pk _ dst d a => [(d.val, 1), (a.val, dst.perReg)]
  | .pkSat _ dst d a => [(d.val, 1), (a.val, dst.perReg)]
  | .upk src _ d a => [(d.val, src.perReg), (a.val, 1)]
  | .fclass src d a => [(d.val, 1), (a.val, src.len)]
  | .dp4I8x4 d a b => [(d.val, 1), (a.val, 1)] ++ b.vrange 1
  | .dp4N8x4 d a b => [(d.val, 1), (a.val, 1)] ++ b.vrange 1
  | .dp8I4x8 d a b => [(d.val, 1), (a.val, 1)] ++ b.vrange 1
  | .dp8N4x8 d a b => [(d.val, 1), (a.val, 1)] ++ b.vrange 1
  | .fdp2F16 d a b => [(d.val, 1), (a.val, 1)] ++ b.vrange 1
  | .fdp2Bf16 d a b => [(d.val, 1), (a.val, 1)] ++ b.vrange 1
  | .fdp4E5m2 d a b => [(d.val, 1), (a.val, 1)] ++ b.vrange 1
  | .fdp4E4m3 d a b => [(d.val, 1), (a.val, 1)] ++ b.vrange 1
  | .fdp4E3m2 d a b => [(d.val, 1), (a.val, 1)] ++ b.vrange 1
  | .fdp4E2m3 d a b => [(d.val, 1), (a.val, 1)] ++ b.vrange 1
  | .fdp8E2m1 d a b => [(d.val, 1), (a.val, 1)] ++ b.vrange 1
  | .qexpE5m2 d a => [(d.val, 1), (a.val, 1)]
  | .qexpE4m3 d a => [(d.val, 1), (a.val, 1)]
  | .qexpE3m2 d a => [(d.val, 1), (a.val, 1)]
  | .qexpE2m3 d a => [(d.val, 1), (a.val, 1)]
  | .qexpE2m1 d a => [(d.val, 1), (a.val, 1)]
  | .rng d => [(d.val, 1)]
  | .rngSeed a b => [(a.val, 1)] ++ b.vrange 1
  | .shfl _ d a b => [(d.val, 1), (a.val, 1)] ++ b.vrange 1
  | .shfli _ d a _ => [(d.val, 1), (a.val, 1)]
  | .vmatch d a => [(d.val, (if w = 64 then 2 else 1)), (a.val, 1)]
  | .bcast _ a _ => [(a.val, 1)]
  | .lmapPos d a => [(d.val, 1), (a.val, 1)]
  | .lmapLane d a => [(d.val, 1), (a.val, 1)]
  | .scan _ d a => [(d.val, 1), (a.val, 1)]
  | .scanX _ d a => [(d.val, 1), (a.val, 1)]
  | .rdx _ _ a => [(a.val, 1)]
  | .ld sz d _ o _ => [(d.val, sz.regs), (o.val, 1)]
  | .ldSigned _ d _ o _ => [(d.val, 1), (o.val, 1)]
  | .st sz d _ o _ => [(d.val, sz.regs), (o.val, 1)]
  | .ldAcq _ sz d _ o => [(d.val, sz.regs), (o.val, 1)]
  | .stRel _ sz d _ o => [(d.val, sz.regs), (o.val, 1)]
  | .lds sz d _ o _ => [(d.val, sz.regs), (o.val, 1)]
  | .sts sz d _ o _ => [(d.val, sz.regs), (o.val, 1)]
  | .gth _ _ _ o _ => [(o.val, 1)]
  | .prf _ _ o _ => [(o.val, 1)]
  | .cflush _ _ o => [(o.val, 1)]
  | .cinv _ _ o => [(o.val, 1)]
  | .czero _ o => [(o.val, 1)]
  | .cquery d _ o => [(d.val, 1), (o.val, 1)]
  | .atmReturning _ wide d _ o => [(d.val, (if wide then 2 else 1)), (o.val, 1)]
  | .atmPosted _ wide d _ o => [(d.val, (if wide then 2 else 1)), (o.val, 1)]
  | .casReturning wide d _ o => [(d.val, (if wide then 4 else 2)), (o.val, 1)]
  | .casPosted wide d _ o => [(d.val, (if wide then 4 else 2)), (o.val, 1)]
  | .rcallLane d _ o _ => [(d.val, 1), (o.val, 1)]
  | .amov d _ => [(d.val, (128 / w))]
  | .aput _ a => [(a.val, (128 / w))]
  | .vemit d a _ => [(d.val, 1), (a.val, 1)]
  | .intrp d _ => [(d.val, 1)]
  | .fpost d a _ => [(d.val, 1), (a.val, 1)]
  | .tsample d a _ => [(d.val, 1), (a.val, 1)]
  | .tsampleSettle d a _ => [(d.val, 1), (a.val, 1)]
  | .tex d a _ => [(d.val, 1), (a.val, 1)]
  | .texf d a _ => [(d.val, 1), (a.val, 1)]
  | .rtrace d a _ => [(d.val, 3), (a.val, 8)]
  | .rtraceAny d a _ => [(d.val, 3), (a.val, 8)]
  | .rnext d => [(d.val, 3)]
  | .rhit d _ => [(d.val, 1)]
  | .ralloc d _ => [(2 * d.val, 2)]
  | .rallocIn d => [(2 * d.val, 2)]
  | .rcommit a => [(2 * a.val, 2)]
  | .rdone a => [(2 * a.val, 2)]
  | .ctxsv d _ _ => [(d.val, 1)]
  | .ctxld d _ _ => [(d.val, 1)]
  | _ => []

/-- The accumulator tiles an instruction can name (R29, R232). -/
def Instr.tranges (w : Nat) : Instr → List (Nat × Nat)
  | .mma fmt tile _ _ => [(tile.val, fmt.len * (w / 8))]
  | .mmaUnfold fmt _ tile _ => [(tile.val, fmt.len * (w / 8))]
  | .mmas _ tile _ _ => [(tile.val, w / 8)]
  | .aclr tile | .amov _ tile | .aput tile _ => [(tile.val, 1)]
  | .ast fmt tile _ => [(tile.val, fmt.len)]
  | _ => []

/-- Every range ends at or below the limit. -/
def rangesOk (n : Nat) (rs : List (Nat × Nat)) : Bool := rs.all fun r => r.1 + r.2 ≤ n

/-- What a launch of width `w` with `v` vector registers and `t` tiles demands (R29, R109). -/
def Instr.fits (w v t : Nat) (i : Instr) : Bool :=
  rangesOk v (i.vranges w) && rangesOk t (i.tranges w) &&
  match i with
  | .vmatch d _ => w ≠ 64 || d.val % 2 = 0
  | _ => true

end Sys2Proof
end

