-- ==== Sys2Proof/Decode.lean ====
section
/-! DEFINITION. Decoding of instruction words, anvil words and clause headers, total and rejecting by name (R19, R26 to R44),
and the encoder beside it. Words are read as numbers, bit 0 the least significant; fields are `fld w lo n`. -/

namespace Sys2Proof

/-- Why a word is no instruction (R44). -/
inductive Reject where
  | short      -- parcels missing
  | subop      -- a sub-op or opcode with no instruction
  | reserved   -- a nonzero reserved or spare bit
  | code       -- a condition, format, mode, scope, kind, size, aop or register code out of range
  | operand    -- well-formedness (`Instr.wf`)
  deriving DecidableEq, Repr

abbrev Dec := Except Reject Instr

/-- A code that must be one of a list. -/
def need {α : Type} (x : Option α) (k : α → Dec) : Dec :=
  match x with
  | some v => k v
  | none => .error .code

/-- Spare bits must be zero. -/
def zero (c : Bool) (k : Dec) : Dec := if c then k else .error .reserved

/-- bk and b of a lane instruction (R29). -/
def decLaneB (w : Nat) : LaneB :=
  if fld w 31 1 = 0 then .v (fin w 24 7) else if fld w 30 1 = 0 then .s (fin w 24 6) else .c (fin w 24 6)

/-- b of an instruction that takes a scalar register or constant. -/
def decSclB (w : Nat) : SclB := if fld w 30 1 = 0 then .s (fin w 24 6) else .c (fin w 24 6)

/-- bk and b as one field of 8 bits at bit 24. -/
def LaneB.code : LaneB → Nat
  | .v r => r.val
  | .s r => 128 + r.val
  | .c k => 192 + k.val

/-- b alone, 7 bits at bit 24: bit 31 is bk = 1 or the width bit, and belongs to the instruction. -/
def SclB.code : SclB → Nat
  | .s r => r.val
  | .c k => 64 + k.val

def SReg.code : SReg → Nat
  | .laneid => 0
  | .lanepos => 1
  | .groupid => 2
  | .teamid => 3
  | .gridSize => 4
  | .coreId => 5
  | .partitionId => 6
  | .gwidth => 7
  | .ordinal => 8
  | .fpstat => 9
  | .clock => 10
  | .trapCause => 16
  | .trapPc => 17
  | .trapLanes => 18
  | .trapAddr => 19
  | .trapInfo => 20
  | .featBase => 32
  | .featExt0 => 33
  | .featExt1 => 34
  | .featExt2 => 35
  | .featExt3 => 36

def SReg.ofCode : Nat → Option SReg
  | 0 => some .laneid
  | 1 => some .lanepos
  | 2 => some .groupid
  | 3 => some .teamid
  | 4 => some .gridSize
  | 5 => some .coreId
  | 6 => some .partitionId
  | 7 => some .gwidth
  | 8 => some .ordinal
  | 9 => some .fpstat
  | 10 => some .clock
  | 16 => some .trapCause
  | 17 => some .trapPc
  | 18 => some .trapLanes
  | 19 => some .trapAddr
  | 20 => some .trapInfo
  | 32 => some .featBase
  | 33 => some .featExt0
  | 34 => some .featExt1
  | 35 => some .featExt2
  | 36 => some .featExt3
  | _ => none

def Fmt.code : Fmt → Nat
  | .f32 => 0
  | .f16 => 1
  | .bf16 => 2
  | .f64 => 3
  | .e8m10 => 4
  | .e5m2 => 5
  | .e4m3 => 6
  | .e3m2 => 7
  | .e2m3 => 8
  | .e2m1 => 9
  | .i8 => 10
  | .u8 => 11
  | .i4 => 12
  | .u4 => 13
  | .s32 => 14
  | .z32 => 15

def Fmt.ofCode : Nat → Option Fmt
  | 0 => some .f32
  | 1 => some .f16
  | 2 => some .bf16
  | 3 => some .f64
  | 4 => some .e8m10
  | 5 => some .e5m2
  | 6 => some .e4m3
  | 7 => some .e3m2
  | 8 => some .e2m3
  | 9 => some .e2m1
  | 10 => some .i8
  | 11 => some .u8
  | 12 => some .i4
  | 13 => some .u4
  | 14 => some .s32
  | 15 => some .z32
  | _ => none

def FTy.code : FTy → Nat
  | .f32 => 0
  | .f16 => 1
  | .bf16 => 2
  | .f64 => 3

def FTy.ofCode : Nat → Option FTy
  | 0 => some .f32
  | 1 => some .f16
  | 2 => some .bf16
  | 3 => some .f64
  | _ => none

def RMode.code : RMode → Nat
  | .rne => 0
  | .rz => 1
  | .rp => 2
  | .rm => 3

def RMode.ofCode : Nat → Option RMode
  | 0 => some .rne
  | 1 => some .rz
  | 2 => some .rp
  | 3 => some .rm
  | _ => none

def CvtMode.code : CvtMode → Nat
  | .rne => 0
  | .rz => 1
  | .rp => 2
  | .rm => 3
  | .rneSat => 4
  | .rzSat => 5

def CvtMode.ofCode : Nat → Option CvtMode
  | 0 => some .rne
  | 1 => some .rz
  | 2 => some .rp
  | 3 => some .rm
  | 4 => some .rneSat
  | 5 => some .rzSat
  | _ => none

def OrdCond.code : OrdCond → Nat
  | .lt => 0
  | .le => 1
  | .gt => 2
  | .ge => 3

def OrdCond.ofCode : Nat → Option OrdCond
  | 0 => some .lt
  | 1 => some .le
  | 2 => some .gt
  | 3 => some .ge
  | _ => none

def FCond.code : FCond → Nat
  | .eq => 0
  | .ne => 1
  | .lt => 2
  | .le => 3
  | .gt => 4
  | .ge => 5
  | .uno => 6
  | .ord => 7

def FCond.ofCode : Nat → Option FCond
  | 0 => some .eq
  | 1 => some .ne
  | 2 => some .lt
  | 3 => some .le
  | 4 => some .gt
  | 5 => some .ge
  | 6 => some .uno
  | 7 => some .ord
  | _ => none

def ShflPat.code : ShflPat → Nat
  | .idx => 0
  | .up => 1
  | .down => 2
  | .xor => 3
  | .rot => 4

def ShflPat.ofCode : Nat → Option ShflPat
  | 0 => some .idx
  | 1 => some .up
  | 2 => some .down
  | 3 => some .xor
  | 4 => some .rot
  | _ => none

def ScanOp.code : ScanOp → Nat
  | .add => 0
  | .minS => 1
  | .maxS => 2
  | .minZ => 3
  | .maxZ => 4
  | .and => 5
  | .or => 6
  | .fadd => 7

def ScanOp.ofCode : Nat → Option ScanOp
  | 0 => some .add
  | 1 => some .minS
  | 2 => some .maxS
  | 3 => some .minZ
  | 4 => some .maxZ
  | 5 => some .and
  | 6 => some .or
  | 7 => some .fadd
  | _ => none

def Scope.code : Scope → Nat
  | .grp => 0
  | .cr => 1
  | .tm => 2
  | .dv => 3
  | .sy => 4

def Scope.ofCode : Nat → Option Scope
  | 0 => some .grp
  | 1 => some .cr
  | 2 => some .tm
  | 3 => some .dv
  | 4 => some .sy
  | _ => none

def FenceKind.code : FenceKind → Nat
  | .both => 0
  | .acq => 1
  | .rel => 2

def FenceKind.ofCode : Nat → Option FenceKind
  | 0 => some .both
  | 1 => some .acq
  | 2 => some .rel
  | _ => none

def MemSz.code : MemSz → Nat
  | .b1 => 0
  | .b2 => 1
  | .b4 => 2
  | .b8 => 3

def MemSz.ofCode : Nat → Option MemSz
  | 0 => some .b1
  | 1 => some .b2
  | 2 => some .b4
  | 3 => some .b8
  | _ => none

def AtmOp.code : AtmOp → Nat
  | .add => 0
  | .minS => 1
  | .maxS => 2
  | .minZ => 3
  | .maxZ => 4
  | .and => 5
  | .or => 6
  | .xor => 7
  | .exch => 8
  | .inc => 9
  | .dec => 10
  | .faddF32 => 11
  | .faddF16 => 12

def AtmOp.ofCode : Nat → Option AtmOp
  | 0 => some .add
  | 1 => some .minS
  | 2 => some .maxS
  | 3 => some .minZ
  | 4 => some .maxZ
  | 5 => some .and
  | 6 => some .or
  | 7 => some .xor
  | 8 => some .exch
  | 9 => some .inc
  | 10 => some .dec
  | 11 => some .faddF32
  | 12 => some .faddF16
  | _ => none

def HArith.code : HArith → Nat
  | .wrap => 0
  | .satS => 1
  | .satZ => 2

def HArith.ofCode : Nat → Option HArith
  | 0 => some .wrap
  | 1 => some .satS
  | 2 => some .satZ
  | _ => none

def HFloat.code : HFloat → Nat
  | .f32 => 0
  | .f16 => 1
  | .bf16 => 2

def HFloat.ofCode : Nat → Option HFloat
  | 0 => some .f32
  | 1 => some .f16
  | 2 => some .bf16
  | _ => none

def HCvt.code : HCvt → Nat
  | .f32S32 => 0
  | .f32Z32 => 1
  | .s32F32 => 2
  | .z32F32 => 3
  | .f16F32 => 4
  | .f32F16Lo => 5
  | .f32F16Hi => 6

def HCvt.ofCode : Nat → Option HCvt
  | 0 => some .f32S32
  | 1 => some .f32Z32
  | 2 => some .s32F32
  | 3 => some .z32F32
  | 4 => some .f16F32
  | 5 => some .f32F16Lo
  | 6 => some .f32F16Hi
  | _ => none

def HCond.code : HCond → Nat
  | .eq => 0
  | .ne => 1
  | .ltS => 2
  | .leS => 3
  | .ltZ => 4
  | .leZ => 5
  | .ltF => 6
  | .leF => 7

def HCond.ofCode : Nat → Option HCond
  | 0 => some .eq
  | 1 => some .ne
  | 2 => some .ltS
  | 3 => some .leS
  | 4 => some .ltZ
  | 5 => some .leZ
  | 6 => some .ltF
  | 7 => some .leF
  | _ => none

def HSkip.code : HSkip → Nat
  | .onSet => 0
  | .onClear => 1
  | .always => 2

def HSkip.ofCode : Nat → Option HSkip
  | 0 => some .onSet
  | 1 => some .onClear
  | 2 => some .always
  | _ => none

/-- Operand codes of an anvil word (R40): 28 to 31 are reserved. -/
def HSrc.ofCode (n : Nat) : Option HSrc :=
  if n < 16 then some (.k (fin n 0 4)) else if n < 24 then some (.o (fin n 0 3)) else if n < 28 then some (.q (fin n 0 2))
  else if n < 32 then none else if n < 64 then some (.l (fin n 0 5)) else if n < 128 then some (.c (fin n 0 6)) else none

def HSrc.code : HSrc → Nat
  | .k i => i.val
  | .o i => 16 + i.val
  | .q i => 24 + i.val
  | .l i => 32 + i.val
  | .c i => 64 + i.val

/-- Only codes for k, Q and L may be destinations (R40). -/
def HDst.ofCode (n : Nat) : Option HDst :=
  if n < 16 then some (.k (fin n 0 4)) else if n < 24 then none else if n < 28 then some (.q (fin n 0 2))
  else if n < 32 then none else if n < 64 then some (.l (fin n 0 5)) else none

def HDst.code : HDst → Nat
  | .k i => i.val
  | .q i => 24 + i.val
  | .l i => 32 + i.val

/-- Major 0 (R37). -/
noncomputable def decMajor0 (w : Nat) : Dec :=
  if fld w 7 3 == 0 then zero (fld w 10 6 == 0) (.ok (.br (BitVec.ofNat 16 (fld w 16 16))))
  else if fld w 7 3 == 1 then .ok (.brAll (BitVec.ofNat 16 (fld w 16 16)) (fin w 10 6))
  else if fld w 7 3 == 2 then .ok (.brAny (BitVec.ofNat 16 (fld w 16 16)) (fin w 10 6))
  else if fld w 7 3 == 3 then .ok (.brNone (BitVec.ofNat 16 (fld w 16 16)) (fin w 10 6))
  else if fld w 7 3 == 4 then .ok (.brp (BitVec.ofNat 16 (fld w 16 16)) (fin w 10 6))
  else if fld w 7 3 == 5 then .ok (.call (fin w 10 6) (BitVec.ofNat 16 (fld w 16 16)))
  else .error .subop

/-- Major 1 (R37). -/
noncomputable def decMajor1 (w : Nat) : Dec :=
  if fld w 7 3 == 0 then zero (fld w 10 7 == 0 && fld w 23 9 == 0) (.ok (.jmp (fin w 17 6)))
  else if fld w 7 3 == 1 then zero (fld w 10 7 == 0 && fld w 23 9 == 0) (.ok (.ret (fin w 17 6)))
  else if fld w 7 3 == 2 then zero (fld w 10 22 == 0) (.ok .join)
  else if fld w 7 3 == 3 then zero (fld w 10 22 == 0) (.ok .exit)
  else if fld w 7 3 == 4 then zero (fld w 10 22 == 0) (.ok .nop)
  else if fld w 7 3 == 5 then zero (fld w 10 22 == 0) (.ok .yield)
  else if fld w 7 3 == 6 then zero (fld w 10 14 == 0 && fld w 31 1 == 1) (.ok (.sleep (decSclB w)))
  else .error .subop

/-- Major 2 (R37). -/
noncomputable def decMajor2 (w : Nat) : Dec :=
  if fld w 7 3 == 0 then zero (fld w 10 6 == 0 && fld w 28 4 == 0) (.ok (.wflag (BitVec.ofNat 12 (fld w 16 12))))
  else if fld w 7 3 == 1 then zero (fld w 18 14 == 0) (.ok (.wpath (fin w 16 2) (fin w 10 6)))
  else if fld w 7 3 == 2 then zero (fld w 10 6 == 0) (.ok (.ppoint (BitVec.ofNat 16 (fld w 16 16))))
  else .error .subop

/-- Major 3 (R37). -/
noncomputable def decMajor3 (w : Nat) : Dec :=
  if fld w 7 3 == 0 then zero (fld w 17 7 == 0 && fld w 31 1 == 0) (need (SReg.ofCode (fld w 24 7)) fun r => .ok (.sregVector r (fin w 10 7)))
  else if fld w 7 3 == 1 then zero (fld w 16 8 == 0 && fld w 31 1 == 0) (need (SReg.ofCode (fld w 24 7)) fun r => .ok (.sregScalar r (fin w 10 6)))
  else if fld w 7 3 == 2 then zero (fld w 10 7 == 0 && fld w 23 1 == 0 && fld w 31 1 == 0) (need (SReg.ofCode (fld w 24 7)) fun r => .ok (.swreg r (fin w 17 6)))
  else .error .subop

/-- Major 4 (R37). -/
noncomputable def decMajor4 (w : Nat) : Dec :=
  if fld w 7 3 == 0 then zero (fld w 16 1 == 0 && fld w 23 1 == 0 && fld w 30 2 == 0) (.ok (.plogAnd (fin w 10 6) (fin w 17 6) (fin w 24 6)))
  else if fld w 7 3 == 1 then zero (fld w 16 1 == 0 && fld w 23 1 == 0 && fld w 30 2 == 0) (.ok (.plogOr (fin w 10 6) (fin w 17 6) (fin w 24 6)))
  else if fld w 7 3 == 2 then zero (fld w 16 1 == 0 && fld w 23 1 == 0 && fld w 30 2 == 0) (.ok (.plogXor (fin w 10 6) (fin w 17 6) (fin w 24 6)))
  else if fld w 7 3 == 3 then zero (fld w 16 1 == 0 && fld w 23 1 == 0 && fld w 30 2 == 0) (.ok (.plogAndn (fin w 10 6) (fin w 17 6) (fin w 24 6)))
  else if fld w 7 3 == 4 then zero (fld w 16 1 == 0 && fld w 23 9 == 0) (.ok (.pget (fin w 10 6) (fin w 17 6)))
  else if fld w 7 3 == 5 then zero (fld w 16 8 == 0 && fld w 31 1 == 1) (.ok (.pset (fin w 10 6) (decSclB w)))
  else if fld w 7 3 == 6 then zero (fld w 16 1 == 0 && fld w 23 9 == 0) (.ok (.pmov (fin w 10 6) (fin w 17 6)))
  else .error .subop

/-- Major 5 (R37). -/
noncomputable def decMajor5 (w : Nat) : Dec :=
  if fld w 7 3 == 0 then .ok (.addLane (fin w 10 7) (fin w 17 7) (decLaneB w))
  else if fld w 7 3 == 4 then zero (fld w 16 1 == 0 && fld w 23 1 == 0) (.ok (.addScalar (fld w 31 1 == 1) (fin w 10 6) (fin w 17 6) (decSclB w)))
  else if fld w 7 3 == 1 then .ok (.subLane (fin w 10 7) (fin w 17 7) (decLaneB w))
  else if fld w 7 3 == 5 then zero (fld w 16 1 == 0 && fld w 23 1 == 0) (.ok (.subScalar (fld w 31 1 == 1) (fin w 10 6) (fin w 17 6) (decSclB w)))
  else if fld w 7 3 == 2 then .ok (.addc (fin w 10 7) (fin w 17 7) (decLaneB w))
  else if fld w 7 3 == 3 then .ok (.subc (fin w 10 7) (fin w 17 7) (decLaneB w))
  else .error .subop

/-- Major 6 (R37). -/
noncomputable def decMajor6 (w : Nat) : Dec :=
  if fld w 7 3 == 0 then .ok (.addSatSLane (fin w 10 7) (fin w 17 7) (decLaneB w))
  else if fld w 7 3 == 4 then zero (fld w 16 1 == 0 && fld w 23 1 == 0) (.ok (.addSatSScalar (fld w 31 1 == 1) (fin w 10 6) (fin w 17 6) (decSclB w)))
  else if fld w 7 3 == 1 then .ok (.subSatSLane (fin w 10 7) (fin w 17 7) (decLaneB w))
  else if fld w 7 3 == 5 then zero (fld w 16 1 == 0 && fld w 23 1 == 0) (.ok (.subSatSScalar (fld w 31 1 == 1) (fin w 10 6) (fin w 17 6) (decSclB w)))
  else if fld w 7 3 == 2 then .ok (.addSatZLane (fin w 10 7) (fin w 17 7) (decLaneB w))
  else if fld w 7 3 == 6 then zero (fld w 16 1 == 0 && fld w 23 1 == 0) (.ok (.addSatZScalar (fld w 31 1 == 1) (fin w 10 6) (fin w 17 6) (decSclB w)))
  else if fld w 7 3 == 3 then .ok (.subSatZLane (fin w 10 7) (fin w 17 7) (decLaneB w))
  else if fld w 7 3 == 7 then zero (fld w 16 1 == 0 && fld w 23 1 == 0) (.ok (.subSatZScalar (fld w 31 1 == 1) (fin w 10 6) (fin w 17 6) (decSclB w)))
  else .error .subop

/-- Major 7 (R37). -/
noncomputable def decMajor7 (w : Nat) : Dec :=
  if fld w 7 3 == 0 then .ok (.mulLane (fin w 10 7) (fin w 17 7) (decLaneB w))
  else if fld w 7 3 == 4 then zero (fld w 16 1 == 0 && fld w 23 1 == 0) (.ok (.mulScalar (fld w 31 1 == 1) (fin w 10 6) (fin w 17 6) (decSclB w)))
  else if fld w 7 3 == 1 then .ok (.mulhSLane (fin w 10 7) (fin w 17 7) (decLaneB w))
  else if fld w 7 3 == 5 then zero (fld w 16 1 == 0 && fld w 23 1 == 0) (.ok (.mulhSScalar (fld w 31 1 == 1) (fin w 10 6) (fin w 17 6) (decSclB w)))
  else if fld w 7 3 == 2 then .ok (.mulhZLane (fin w 10 7) (fin w 17 7) (decLaneB w))
  else if fld w 7 3 == 6 then zero (fld w 16 1 == 0 && fld w 23 1 == 0) (.ok (.mulhZScalar (fld w 31 1 == 1) (fin w 10 6) (fin w 17 6) (decSclB w)))
  else if fld w 7 3 == 3 then .ok (.madLane (fin w 10 7) (fin w 17 7) (decLaneB w))
  else if fld w 7 3 == 7 then zero (fld w 16 1 == 0 && fld w 23 1 == 0) (.ok (.madScalar (fld w 31 1 == 1) (fin w 10 6) (fin w 17 6) (decSclB w)))
  else .error .subop

/-- Major 8 (R37). -/
noncomputable def decMajor8 (w : Nat) : Dec :=
  if fld w 7 3 == 0 then .ok (.minSLane (fin w 10 7) (fin w 17 7) (decLaneB w))
  else if fld w 7 3 == 4 then zero (fld w 16 1 == 0 && fld w 23 1 == 0) (.ok (.minSScalar (fld w 31 1 == 1) (fin w 10 6) (fin w 17 6) (decSclB w)))
  else if fld w 7 3 == 1 then .ok (.maxSLane (fin w 10 7) (fin w 17 7) (decLaneB w))
  else if fld w 7 3 == 5 then zero (fld w 16 1 == 0 && fld w 23 1 == 0) (.ok (.maxSScalar (fld w 31 1 == 1) (fin w 10 6) (fin w 17 6) (decSclB w)))
  else if fld w 7 3 == 2 then .ok (.minZLane (fin w 10 7) (fin w 17 7) (decLaneB w))
  else if fld w 7 3 == 6 then zero (fld w 16 1 == 0 && fld w 23 1 == 0) (.ok (.minZScalar (fld w 31 1 == 1) (fin w 10 6) (fin w 17 6) (decSclB w)))
  else if fld w 7 3 == 3 then .ok (.maxZLane (fin w 10 7) (fin w 17 7) (decLaneB w))
  else if fld w 7 3 == 7 then zero (fld w 16 1 == 0 && fld w 23 1 == 0) (.ok (.maxZScalar (fld w 31 1 == 1) (fin w 10 6) (fin w 17 6) (decSclB w)))
  else .error .subop

/-- Major 9 (R37). -/
noncomputable def decMajor9 (w : Nat) : Dec :=
  if fld w 7 3 == 0 then .ok (.andLane (fin w 10 7) (fin w 17 7) (decLaneB w))
  else if fld w 7 3 == 4 then zero (fld w 16 1 == 0 && fld w 23 1 == 0) (.ok (.andScalar (fld w 31 1 == 1) (fin w 10 6) (fin w 17 6) (decSclB w)))
  else if fld w 7 3 == 1 then .ok (.orLane (fin w 10 7) (fin w 17 7) (decLaneB w))
  else if fld w 7 3 == 5 then zero (fld w 16 1 == 0 && fld w 23 1 == 0) (.ok (.orScalar (fld w 31 1 == 1) (fin w 10 6) (fin w 17 6) (decSclB w)))
  else if fld w 7 3 == 2 then .ok (.xorLane (fin w 10 7) (fin w 17 7) (decLaneB w))
  else if fld w 7 3 == 6 then zero (fld w 16 1 == 0 && fld w 23 1 == 0) (.ok (.xorScalar (fld w 31 1 == 1) (fin w 10 6) (fin w 17 6) (decSclB w)))
  else if fld w 7 3 == 3 then .ok (.andnLane (fin w 10 7) (fin w 17 7) (decLaneB w))
  else if fld w 7 3 == 7 then zero (fld w 16 1 == 0 && fld w 23 1 == 0) (.ok (.andnScalar (fld w 31 1 == 1) (fin w 10 6) (fin w 17 6) (decSclB w)))
  else .error .subop

/-- Major 10 (R37). -/
noncomputable def decMajor10 (w : Nat) : Dec :=
  if fld w 7 3 == 0 then .ok (.shlLane (fin w 10 7) (fin w 17 7) (decLaneB w))
  else if fld w 7 3 == 4 then zero (fld w 16 1 == 0 && fld w 23 1 == 0) (.ok (.shlScalar (fld w 31 1 == 1) (fin w 10 6) (fin w 17 6) (decSclB w)))
  else if fld w 7 3 == 1 then .ok (.shrLane (fin w 10 7) (fin w 17 7) (decLaneB w))
  else if fld w 7 3 == 5 then zero (fld w 16 1 == 0 && fld w 23 1 == 0) (.ok (.shrScalar (fld w 31 1 == 1) (fin w 10 6) (fin w 17 6) (decSclB w)))
  else if fld w 7 3 == 2 then .ok (.sarLane (fin w 10 7) (fin w 17 7) (decLaneB w))
  else if fld w 7 3 == 6 then zero (fld w 16 1 == 0 && fld w 23 1 == 0) (.ok (.sarScalar (fld w 31 1 == 1) (fin w 10 6) (fin w 17 6) (decSclB w)))
  else if fld w 7 3 == 3 then .ok (.rotLane (fin w 10 7) (fin w 17 7) (decLaneB w))
  else if fld w 7 3 == 7 then zero (fld w 16 1 == 0 && fld w 23 1 == 0) (.ok (.rotScalar (fld w 31 1 == 1) (fin w 10 6) (fin w 17 6) (decSclB w)))
  else .error .subop

/-- Major 11 (R37). -/
noncomputable def decMajor11 (w : Nat) : Dec :=
  if fld w 7 3 == 0 then .ok (.bfeSLane (fin w 10 7) (fin w 17 7) (decLaneB w))
  else if fld w 7 3 == 4 then zero (fld w 16 1 == 0 && fld w 23 1 == 0) (.ok (.bfeSScalar (fld w 31 1 == 1) (fin w 10 6) (fin w 17 6) (decSclB w)))
  else if fld w 7 3 == 1 then .ok (.bfeZLane (fin w 10 7) (fin w 17 7) (decLaneB w))
  else if fld w 7 3 == 5 then zero (fld w 16 1 == 0 && fld w 23 1 == 0) (.ok (.bfeZScalar (fld w 31 1 == 1) (fin w 10 6) (fin w 17 6) (decSclB w)))
  else if fld w 7 3 == 2 then .ok (.bfiLane (fin w 10 7) (fin w 17 7) (decLaneB w))
  else if fld w 7 3 == 6 then zero (fld w 16 1 == 0 && fld w 23 1 == 0) (.ok (.bfiScalar (fld w 31 1 == 1) (fin w 10 6) (fin w 17 6) (decSclB w)))
  else if fld w 7 3 == 3 then zero (fld w 24 8 == 0) (.ok (.absLane (fin w 10 7) (fin w 17 7)))
  else if fld w 7 3 == 7 then zero (fld w 16 1 == 0 && fld w 23 8 == 0) (.ok (.absScalar (fld w 31 1 == 1) (fin w 10 6) (fin w 17 6)))
  else .error .subop

/-- Major 12 (R37). -/
noncomputable def decMajor12 (w : Nat) : Dec :=
  if fld w 7 3 == 0 then zero (fld w 24 8 == 0) (.ok (.popcLane (fin w 10 7) (fin w 17 7)))
  else if fld w 7 3 == 4 then zero (fld w 16 1 == 0 && fld w 23 8 == 0) (.ok (.popcScalar (fld w 31 1 == 1) (fin w 10 6) (fin w 17 6)))
  else if fld w 7 3 == 1 then zero (fld w 24 8 == 0) (.ok (.clzLane (fin w 10 7) (fin w 17 7)))
  else if fld w 7 3 == 5 then zero (fld w 16 1 == 0 && fld w 23 8 == 0) (.ok (.clzScalar (fld w 31 1 == 1) (fin w 10 6) (fin w 17 6)))
  else if fld w 7 3 == 2 then zero (fld w 24 8 == 0) (.ok (.ctzLane (fin w 10 7) (fin w 17 7)))
  else if fld w 7 3 == 6 then zero (fld w 16 1 == 0 && fld w 23 8 == 0) (.ok (.ctzScalar (fld w 31 1 == 1) (fin w 10 6) (fin w 17 6)))
  else if fld w 7 3 == 3 then zero (fld w 24 8 == 0) (.ok (.brevLane (fin w 10 7) (fin w 17 7)))
  else if fld w 7 3 == 7 then zero (fld w 16 1 == 0 && fld w 23 8 == 0) (.ok (.brevScalar (fld w 31 1 == 1) (fin w 10 6) (fin w 17 6)))
  else .error .subop

/-- Major 13 (R37). -/
noncomputable def decMajor13 (w : Nat) : Dec :=
  if fld w 9 1 == 0 then zero (fld w 16 1 == 0) (need (OrdCond.ofCode (fld w 7 2)) fun cc => .ok (.cmpSignedLane cc (fin w 10 6) (fin w 17 7) (decLaneB w)))
  else if fld w 9 1 == 1 then zero (fld w 16 1 == 0 && fld w 23 1 == 0) (need (OrdCond.ofCode (fld w 7 2)) fun cc => .ok (.cmpSignedScalar cc (fld w 31 1 == 1) (fin w 10 6) (fin w 17 6) (decSclB w)))
  else .error .subop

/-- Major 14 (R37). -/
noncomputable def decMajor14 (w : Nat) : Dec :=
  if fld w 9 1 == 0 then zero (fld w 16 1 == 0) (need (OrdCond.ofCode (fld w 7 2)) fun cc => .ok (.cmpUnsignedLane cc (fin w 10 6) (fin w 17 7) (decLaneB w)))
  else if fld w 9 1 == 1 then zero (fld w 16 1 == 0 && fld w 23 1 == 0) (need (OrdCond.ofCode (fld w 7 2)) fun cc => .ok (.cmpUnsignedScalar cc (fld w 31 1 == 1) (fin w 10 6) (fin w 17 6) (decSclB w)))
  else .error .subop

/-- Major 15 (R37). -/
noncomputable def decMajor15 (w : Nat) : Dec :=
  if fld w 8 2 == 0 then zero (fld w 16 1 == 0) (.ok (.cmpEqualityLane (fld w 7 1 == 1) (fin w 10 6) (fin w 17 7) (decLaneB w)))
  else if fld w 8 2 == 2 then zero (fld w 16 1 == 0 && fld w 23 1 == 0) (.ok (.cmpEqualityScalar (fld w 7 1 == 1) (fld w 31 1 == 1) (fin w 10 6) (fin w 17 6) (decSclB w)))
  else .error .subop

/-- Major 16 (R37). -/
noncomputable def decMajor16 (w : Nat) : Dec :=
  if fld w 7 3 == 0 then zero (fld w 17 7 == 0) (.ok (.movLane (fin w 10 7) (decLaneB w)))
  else if fld w 7 3 == 4 then zero (fld w 16 8 == 0) (.ok (.movScalar (fld w 31 1 == 1) (fin w 10 6) (decSclB w)))
  else if fld w 7 3 == 1 then .ok (.sel (fin w 10 7) (fin w 17 7) (decLaneB w))
  else .error .subop

/-- Major 17 (R37). -/
noncomputable def decMajor17 (w : Nat) : Dec :=
  if fld w 7 3 == 0 then .ok (.addImmLane (fin w 10 7) (fin w 17 7) (BitVec.ofNat 8 (fld w 24 8)))
  else if fld w 7 3 == 4 then zero (fld w 16 1 == 0 && fld w 23 1 == 0) (.ok (.addImmScalar (fin w 10 6) (fin w 17 6) (BitVec.ofNat 8 (fld w 24 8))))
  else if fld w 7 3 == 1 then .ok (.andImmLane (fin w 10 7) (fin w 17 7) (BitVec.ofNat 8 (fld w 24 8)))
  else if fld w 7 3 == 5 then zero (fld w 16 1 == 0 && fld w 23 1 == 0) (.ok (.andImmScalar (fin w 10 6) (fin w 17 6) (BitVec.ofNat 8 (fld w 24 8))))
  else if fld w 7 3 == 2 then .ok (.orImmLane (fin w 10 7) (fin w 17 7) (BitVec.ofNat 8 (fld w 24 8)))
  else if fld w 7 3 == 6 then zero (fld w 16 1 == 0 && fld w 23 1 == 0) (.ok (.orImmScalar (fin w 10 6) (fin w 17 6) (BitVec.ofNat 8 (fld w 24 8))))
  else if fld w 7 3 == 3 then .ok (.xorImmLane (fin w 10 7) (fin w 17 7) (BitVec.ofNat 8 (fld w 24 8)))
  else if fld w 7 3 == 7 then zero (fld w 16 1 == 0 && fld w 23 1 == 0) (.ok (.xorImmScalar (fin w 10 6) (fin w 17 6) (BitVec.ofNat 8 (fld w 24 8))))
  else .error .subop

/-- Major 18 (R37). -/
noncomputable def decMajor18 (w : Nat) : Dec :=
  if fld w 7 3 == 0 then zero (fld w 29 3 == 0) (.ok (.shlImmLane (fin w 10 7) (fin w 17 7) (fin w 24 5)))
  else if fld w 7 3 == 4 then zero (fld w 16 1 == 0 && fld w 23 1 == 0 && fld w 30 2 == 0) (.ok (.shlImmScalar (fin w 10 6) (fin w 17 6) (fin w 24 6)))
  else if fld w 7 3 == 1 then zero (fld w 29 3 == 0) (.ok (.shrImmLane (fin w 10 7) (fin w 17 7) (fin w 24 5)))
  else if fld w 7 3 == 5 then zero (fld w 16 1 == 0 && fld w 23 1 == 0 && fld w 30 2 == 0) (.ok (.shrImmScalar (fin w 10 6) (fin w 17 6) (fin w 24 6)))
  else if fld w 7 3 == 2 then zero (fld w 29 3 == 0) (.ok (.sarImmLane (fin w 10 7) (fin w 17 7) (fin w 24 5)))
  else if fld w 7 3 == 6 then zero (fld w 16 1 == 0 && fld w 23 1 == 0 && fld w 30 2 == 0) (.ok (.sarImmScalar (fin w 10 6) (fin w 17 6) (fin w 24 6)))
  else if fld w 7 3 == 3 then zero (fld w 29 3 == 0) (.ok (.rotImmLane (fin w 10 7) (fin w 17 7) (fin w 24 5)))
  else if fld w 7 3 == 7 then zero (fld w 16 1 == 0 && fld w 23 1 == 0 && fld w 30 2 == 0) (.ok (.rotImmScalar (fin w 10 6) (fin w 17 6) (fin w 24 6)))
  else .error .subop

/-- Major 19 (R37). -/
noncomputable def decMajor19 (w : Nat) : Dec :=
  if fld w 9 1 == 0 then need (FTy.ofCode (fld w 7 2)) fun t => .ok (.fadd t (fin w 10 7) (fin w 17 7) (decLaneB w))
  else if fld w 9 1 == 1 then need (FTy.ofCode (fld w 7 2)) fun t => .ok (.fsub t (fin w 10 7) (fin w 17 7) (decLaneB w))
  else .error .subop

/-- Major 20 (R37). -/
noncomputable def decMajor20 (w : Nat) : Dec :=
  if fld w 9 1 == 0 then need (FTy.ofCode (fld w 7 2)) fun t => .ok (.fmul t (fin w 10 7) (fin w 17 7) (decLaneB w))
  else if fld w 9 1 == 1 then need (FTy.ofCode (fld w 7 2)) fun t => .ok (.ffma t (fin w 10 7) (fin w 17 7) (decLaneB w))
  else .error .subop

/-- Major 21 (R37). -/
noncomputable def decMajor21 (w : Nat) : Dec :=
  if fld w 9 1 == 0 then need (FTy.ofCode (fld w 7 2)) fun t => .ok (.fmin t (fin w 10 7) (fin w 17 7) (decLaneB w))
  else if fld w 9 1 == 1 then need (FTy.ofCode (fld w 7 2)) fun t => .ok (.fmax t (fin w 10 7) (fin w 17 7) (decLaneB w))
  else .error .subop

/-- Major 22 (R37). -/
noncomputable def decMajor22 (w : Nat) : Dec :=
  zero (fld w 16 1 == 0) (need (FCond.ofCode (fld w 7 3)) fun cc => .ok (.fcmpF32 cc (fin w 10 6) (fin w 17 7) (decLaneB w)))

/-- Major 23 (R37). -/
noncomputable def decMajor23 (w : Nat) : Dec :=
  zero (fld w 16 1 == 0) (need (FCond.ofCode (fld w 7 3)) fun cc => .ok (.fcmpF64 cc (fin w 10 6) (fin w 17 7) (decLaneB w)))

/-- Major 24 (R37). -/
noncomputable def decMajor24 (w : Nat) : Dec :=
  if fld w 9 1 == 0 then zero (fld w 24 8 == 0) (need (RMode.ofCode (fld w 7 2)) fun rnd => .ok (.frndF32 rnd (fin w 10 7) (fin w 17 7)))
  else if fld w 9 1 == 1 then zero (fld w 24 8 == 0) (need (RMode.ofCode (fld w 7 2)) fun rnd => .ok (.frndF64 rnd (fin w 10 7) (fin w 17 7)))
  else .error .subop

/-- Major 25 (R37). -/
noncomputable def decMajor25 (w : Nat) : Dec :=
  if fld w 7 3 == 0 then zero (fld w 24 8 == 0) (.ok (.frcp (fin w 10 7) (fin w 17 7)))
  else if fld w 7 3 == 1 then zero (fld w 24 8 == 0) (.ok (.frsq (fin w 10 7) (fin w 17 7)))
  else if fld w 7 3 == 2 then zero (fld w 24 8 == 0) (.ok (.fsqrt (fin w 10 7) (fin w 17 7)))
  else if fld w 7 3 == 3 then zero (fld w 24 8 == 0) (.ok (.fexp2 (fin w 10 7) (fin w 17 7)))
  else if fld w 7 3 == 4 then zero (fld w 24 8 == 0) (.ok (.flog2 (fin w 10 7) (fin w 17 7)))
  else if fld w 7 3 == 5 then zero (fld w 24 8 == 0) (.ok (.fsin (fin w 10 7) (fin w 17 7)))
  else if fld w 7 3 == 6 then zero (fld w 24 8 == 0) (.ok (.fcos (fin w 10 7) (fin w 17 7)))
  else if fld w 7 3 == 7 then zero (fld w 24 8 == 0) (.ok (.ftanh (fin w 10 7) (fin w 17 7)))
  else .error .subop

/-- Major 26 (R37). -/
noncomputable def decMajor26 (w : Nat) : Dec :=
  need (Fmt.ofCode (fld w 28 4)) fun src => need (Fmt.ofCode (fld w 24 4)) fun dst => need (CvtMode.ofCode (fld w 7 3)) fun mode => .ok (.cvt src dst mode (fin w 10 7) (fin w 17 7))

/-- Major 27 (R37). -/
noncomputable def decMajor27 (w : Nat) : Dec :=
  if fld w 7 3 == 0 then need (Fmt.ofCode (fld w 28 4)) fun src => need (Fmt.ofCode (fld w 24 4)) fun dst => .ok (.pk src dst (fin w 10 7) (fin w 17 7))
  else if fld w 7 3 == 1 then need (Fmt.ofCode (fld w 28 4)) fun src => need (Fmt.ofCode (fld w 24 4)) fun dst => .ok (.pkSat src dst (fin w 10 7) (fin w 17 7))
  else if fld w 7 3 == 2 then need (Fmt.ofCode (fld w 28 4)) fun src => need (Fmt.ofCode (fld w 24 4)) fun dst => .ok (.upk src dst (fin w 10 7) (fin w 17 7))
  else if fld w 7 3 == 3 then zero (fld w 24 4 == 0) (need (Fmt.ofCode (fld w 28 4)) fun src => .ok (.fclass src (fin w 10 7) (fin w 17 7)))
  else .error .subop

/-- Major 28 (R37). -/
noncomputable def decMajor28 (w : Nat) : Dec :=
  if fld w 7 3 == 0 then .ok (.dp4I8x4 (fin w 10 7) (fin w 17 7) (decLaneB w))
  else if fld w 7 3 == 1 then .ok (.dp4N8x4 (fin w 10 7) (fin w 17 7) (decLaneB w))
  else if fld w 7 3 == 2 then .ok (.dp8I4x8 (fin w 10 7) (fin w 17 7) (decLaneB w))
  else if fld w 7 3 == 3 then .ok (.dp8N4x8 (fin w 10 7) (fin w 17 7) (decLaneB w))
  else .error .subop

/-- Major 29 (R37). -/
noncomputable def decMajor29 (w : Nat) : Dec :=
  if fld w 7 3 == 0 then .ok (.fdp2F16 (fin w 10 7) (fin w 17 7) (decLaneB w))
  else if fld w 7 3 == 1 then .ok (.fdp2Bf16 (fin w 10 7) (fin w 17 7) (decLaneB w))
  else if fld w 7 3 == 2 then .ok (.fdp4E5m2 (fin w 10 7) (fin w 17 7) (decLaneB w))
  else if fld w 7 3 == 3 then .ok (.fdp4E4m3 (fin w 10 7) (fin w 17 7) (decLaneB w))
  else if fld w 7 3 == 4 then .ok (.fdp4E3m2 (fin w 10 7) (fin w 17 7) (decLaneB w))
  else if fld w 7 3 == 5 then .ok (.fdp4E2m3 (fin w 10 7) (fin w 17 7) (decLaneB w))
  else if fld w 7 3 == 6 then .ok (.fdp8E2m1 (fin w 10 7) (fin w 17 7) (decLaneB w))
  else .error .subop

/-- Major 30 (R37). -/
noncomputable def decMajor30 (w : Nat) : Dec :=
  if fld w 7 3 == 0 then zero (fld w 24 8 == 0) (.ok (.qexpE5m2 (fin w 10 7) (fin w 17 7)))
  else if fld w 7 3 == 1 then zero (fld w 24 8 == 0) (.ok (.qexpE4m3 (fin w 10 7) (fin w 17 7)))
  else if fld w 7 3 == 2 then zero (fld w 24 8 == 0) (.ok (.qexpE3m2 (fin w 10 7) (fin w 17 7)))
  else if fld w 7 3 == 3 then zero (fld w 24 8 == 0) (.ok (.qexpE2m3 (fin w 10 7) (fin w 17 7)))
  else if fld w 7 3 == 4 then zero (fld w 24 8 == 0) (.ok (.qexpE2m1 (fin w 10 7) (fin w 17 7)))
  else if fld w 7 3 == 5 then zero (fld w 17 15 == 0) (.ok (.rng (fin w 10 7)))
  else if fld w 7 3 == 6 then zero (fld w 10 7 == 0) (.ok (.rngSeed (fin w 17 7) (decLaneB w)))
  else .error .subop

/-- Major 31 (R37). -/
noncomputable def decMajor31 (w : Nat) : Dec :=
  need (ShflPat.ofCode (fld w 7 3)) fun pat => .ok (.shfl pat (fin w 10 7) (fin w 17 7) (decLaneB w))

/-- Major 32 (R37). -/
noncomputable def decMajor32 (w : Nat) : Dec :=
  need (ShflPat.ofCode (fld w 7 3)) fun pat => .ok (.shfli pat (fin w 10 7) (fin w 17 7) (BitVec.ofNat 8 (fld w 24 8)))

/-- Major 33 (R37). -/
noncomputable def decMajor33 (w : Nat) : Dec :=
  if fld w 7 3 == 0 then zero (fld w 16 1 == 0 && fld w 23 9 == 0) (.ok (.vany (fin w 10 6) (fin w 17 6)))
  else if fld w 7 3 == 1 then zero (fld w 16 1 == 0 && fld w 23 9 == 0) (.ok (.vall (fin w 10 6) (fin w 17 6)))
  else if fld w 7 3 == 2 then zero (fld w 16 1 == 0 && fld w 23 9 == 0) (.ok (.vbal (fin w 10 6) (fin w 17 6)))
  else if fld w 7 3 == 3 then zero (fld w 24 8 == 0) (.ok (.vmatch (fin w 10 7) (fin w 17 7)))
  else if fld w 7 3 == 4 then zero (fld w 16 1 == 0 && fld w 23 9 == 0) (.ok (.pcount (fin w 10 6) (fin w 17 6)))
  else if fld w 7 3 == 5 then zero (fld w 16 1 == 0 && fld w 31 1 == 1) (.ok (.bcast (fin w 10 6) (fin w 17 7) (decSclB w)))
  else if fld w 7 3 == 6 then zero (fld w 24 8 == 0) (.ok (.lmapPos (fin w 10 7) (fin w 17 7)))
  else if fld w 7 3 == 7 then zero (fld w 24 8 == 0) (.ok (.lmapLane (fin w 10 7) (fin w 17 7)))
  else .error .subop

/-- Major 34 (R37). -/
noncomputable def decMajor34 (w : Nat) : Dec :=
  zero (fld w 24 8 == 0) (need (ScanOp.ofCode (fld w 7 3)) fun op => .ok (.scan op (fin w 10 7) (fin w 17 7)))

/-- Major 35 (R37). -/
noncomputable def decMajor35 (w : Nat) : Dec :=
  zero (fld w 24 8 == 0) (need (ScanOp.ofCode (fld w 7 3)) fun op => .ok (.scanX op (fin w 10 7) (fin w 17 7)))

/-- Major 36 (R37). -/
noncomputable def decMajor36 (w : Nat) : Dec :=
  zero (fld w 16 1 == 0 && fld w 24 8 == 0) (need (ScanOp.ofCode (fld w 7 3)) fun op => .ok (.rdx op (fin w 10 6) (fin w 17 7)))

/-- Major 37 (R37). -/
noncomputable def decMajor37 (w : Nat) : Dec :=
  need (MemSz.ofCode (fld w 7 2)) fun sz => .ok (.ld sz (fin w 9 7) (fin w 23 5) (fin w 16 7) (fin w 28 4))

/-- Major 38 (R37). -/
noncomputable def decMajor38 (w : Nat) : Dec :=
  if fld w 8 1 == 0 then .ok (.ldSigned (fld w 7 1 == 1) (fin w 9 7) (fin w 23 5) (fin w 16 7) (fin w 28 4))
  else .error .subop

/-- Major 39 (R37). -/
noncomputable def decMajor39 (w : Nat) : Dec :=
  need (MemSz.ofCode (fld w 7 2)) fun sz => .ok (.st sz (fin w 9 7) (fin w 23 5) (fin w 16 7) (fin w 28 4))

/-- Major 40 (R37). -/
noncomputable def decMajor40 (w : Nat) : Dec :=
  zero (fld w 31 1 == 0) (need (Scope.ofCode (fld w 28 3)) fun sc => need (MemSz.ofCode (fld w 7 2)) fun sz => .ok (.ldAcq sc sz (fin w 9 7) (fin w 23 5) (fin w 16 7)))

/-- Major 41 (R37). -/
noncomputable def decMajor41 (w : Nat) : Dec :=
  zero (fld w 31 1 == 0) (need (Scope.ofCode (fld w 28 3)) fun sc => need (MemSz.ofCode (fld w 7 2)) fun sz => .ok (.stRel sc sz (fin w 9 7) (fin w 23 5) (fin w 16 7)))

/-- Major 42 (R37). -/
noncomputable def decMajor42 (w : Nat) : Dec :=
  need (MemSz.ofCode (fld w 7 2)) fun sz => .ok (.lds sz (fin w 9 7) (fin w 23 5) (fin w 16 7) (fin w 28 4))

/-- Major 43 (R37). -/
noncomputable def decMajor43 (w : Nat) : Dec :=
  need (MemSz.ofCode (fld w 7 2)) fun sz => .ok (.sts sz (fin w 9 7) (fin w 23 5) (fin w 16 7) (fin w 28 4))

/-- Major 44 (R37). -/
noncomputable def decMajor44 (w : Nat) : Dec :=
  zero (fld w 15 8 == 0) (need (MemSz.ofCode (fld w 7 2)) fun sz => .ok (.sld sz (fin w 9 6) (fin w 23 5) (fin w 28 4)))

/-- Major 45 (R37). -/
noncomputable def decMajor45 (w : Nat) : Dec :=
  zero (fld w 15 8 == 0) (need (MemSz.ofCode (fld w 7 2)) fun sz => .ok (.sst sz (fin w 9 6) (fin w 23 5) (fin w 28 4)))

/-- Major 46 (R37). -/
noncomputable def decMajor46 (w : Nat) : Dec :=
  zero (fld w 15 1 == 0) (need (MemSz.ofCode (fld w 7 2)) fun sz => .ok (.gth sz (fin w 9 6) (fin w 23 5) (fin w 16 7) (fin w 28 4)))

/-- Major 47 (R37). -/
noncomputable def decMajor47 (w : Nat) : Dec :=
  if fld w 8 2 == 0 then zero (fld w 10 6 == 0) (.ok (.prf (fld w 7 1 == 1) (fin w 23 5) (fin w 16 7) (fin w 28 4)))
  else .error .subop

/-- Major 48 (R37). -/
noncomputable def decMajor48 (w : Nat) : Dec :=
  if fld w 7 3 == 0 then zero (fld w 10 14 == 0 && fld w 29 3 == 0) (need (Scope.ofCode (fld w 24 3)) fun sc => need (FenceKind.ofCode (fld w 27 2)) fun kind => .ok (.fence sc kind))
  else if fld w 7 3 == 1 then zero (fld w 10 14 == 0 && fld w 29 3 == 0) (need (Scope.ofCode (fld w 24 3)) fun sc => need (FenceKind.ofCode (fld w 27 2)) fun kind => .ok (.efence sc kind))
  else .error .subop

/-- Major 49 (R37). -/
noncomputable def decMajor49 (w : Nat) : Dec :=
  if fld w 7 3 == 0 then zero (fld w 16 1 == 0 && fld w 27 5 == 0) (need (Scope.ofCode (fld w 24 3)) fun sc => .ok (.cflush sc (fin w 10 6) (fin w 17 7)))
  else if fld w 7 3 == 1 then zero (fld w 16 1 == 0 && fld w 27 5 == 0) (need (Scope.ofCode (fld w 24 3)) fun sc => .ok (.cinv sc (fin w 10 6) (fin w 17 7)))
  else if fld w 7 3 == 2 then zero (fld w 16 1 == 0 && fld w 24 8 == 0) (.ok (.czero (fin w 10 6) (fin w 17 7)))
  else if fld w 7 3 == 3 then zero (fld w 16 1 == 0 && fld w 23 1 == 0 && fld w 31 1 == 1) (.ok (.carve (fin w 10 6) (fin w 17 6) (decSclB w)))
  else if fld w 7 3 == 4 then zero (fld w 30 2 == 2) (.ok (.cquery (fin w 10 7) (fin w 24 6) (fin w 17 7)))
  else .error .subop

/-- Major 50 (R37). -/
noncomputable def decMajor50 (w : Nat) : Dec :=
  if fld w 8 1 == 1 then need (AtmOp.ofCode (fld w 28 4)) fun aop => .ok (.atmReturning aop (fld w 7 1 == 1) (fin w 9 7) (fin w 23 5) (fin w 16 7))
  else if fld w 8 1 == 0 then need (AtmOp.ofCode (fld w 28 4)) fun aop => .ok (.atmPosted aop (fld w 7 1 == 1) (fin w 9 7) (fin w 23 5) (fin w 16 7))
  else .error .subop

/-- Major 51 (R37). -/
noncomputable def decMajor51 (w : Nat) : Dec :=
  if fld w 8 1 == 1 then zero (fld w 28 4 == 0) (.ok (.casReturning (fld w 7 1 == 1) (fin w 9 7) (fin w 23 5) (fin w 16 7)))
  else if fld w 8 1 == 0 then zero (fld w 28 4 == 0) (.ok (.casPosted (fld w 7 1 == 1) (fin w 9 7) (fin w 23 5) (fin w 16 7)))
  else .error .subop

/-- Major 52 (R37). -/
noncomputable def decMajor52 (w : Nat) : Dec :=
  .ok (.rcallLane (fin w 7 7) (fin w 14 5) (fin w 19 7) (fin w 26 6))

/-- Major 53 (R37). -/
noncomputable def decMajor53 (w : Nat) : Dec :=
  zero (fld w 13 1 == 0 && fld w 19 7 == 0) (.ok (.rcallScalar (fin w 7 6) (fin w 14 5) (fin w 26 6)))

/-- Major 54 (R37). -/
noncomputable def decMajor54 (w : Nat) : Dec :=
  if fld w 7 3 == 0 then zero (fld w 16 1 == 0 && fld w 23 1 == 0 && fld w 31 1 == 1) (.ok (.rinst (fin w 10 6) (fin w 17 6) (decSclB w)))
  else if fld w 7 3 == 1 then zero (fld w 16 8 == 0 && fld w 31 1 == 1) (.ok (.rdrop (fin w 10 6) (decSclB w)))
  else .error .subop

/-- Major 55 (R37). -/
noncomputable def decMajor55 (w : Nat) : Dec :=
  if fld w 7 3 == 0 then zero (fld w 15 9 == 0 && fld w 31 1 == 1) (.ok (.bar (fin w 10 5) (decSclB w)))
  else if fld w 7 3 == 1 then zero (fld w 15 9 == 0 && fld w 31 1 == 1) (.ok (.barr (fin w 10 5) (decSclB w)))
  else if fld w 7 3 == 2 then zero (fld w 15 17 == 0) (.ok (.barw (fin w 10 5)))
  else if fld w 7 3 == 3 then zero (fld w 10 22 == 0) (.ok .gbar)
  else if fld w 7 3 == 4 then zero (fld w 10 7 == 0 && fld w 23 1 == 0 && fld w 31 1 == 1) (.ok (.abinit (fin w 17 6) (decSclB w)))
  else if fld w 7 3 == 5 then zero (fld w 16 1 == 0 && fld w 23 9 == 0) (.ok (.abarr (fin w 10 6) (fin w 17 6)))
  else if fld w 7 3 == 6 then zero (fld w 10 7 == 0 && fld w 23 1 == 0 && fld w 31 1 == 1) (.ok (.abexp (fin w 17 6) (decSclB w)))
  else if fld w 7 3 == 7 then zero (fld w 10 7 == 0 && fld w 23 1 == 0 && fld w 31 1 == 1) (.ok (.abwait (fin w 17 6) (decSclB w)))
  else .error .subop

/-- Major 56 (R37). -/
noncomputable def decMajor56 (w : Nat) : Dec :=
  if fld w 7 3 == 0 then zero (fld w 14 3 == 0 && fld w 23 9 == 0) (.ok (.trec (fin w 10 4) (fin w 17 6)))
  else if fld w 7 3 == 1 then zero (fld w 16 1 == 0 && fld w 23 1 == 0 && fld w 30 2 == 2) (.ok (.tcopy (fld w 15 1 == 1) (fld w 14 1 == 1) (fin w 10 4) (fin w 24 6) (fin w 17 6)))
  else if fld w 7 3 == 2 then zero (fld w 14 1 == 0 && fld w 16 1 == 0 && fld w 23 1 == 0 && fld w 30 2 == 2) (.ok (.tstore (fld w 15 1 == 1) (fin w 10 4) (fin w 24 6) (fin w 17 6)))
  else if fld w 7 3 == 3 then zero (fld w 14 3 == 0 && fld w 23 1 == 0 && fld w 30 2 == 2) (.ok (.tquant (fin w 10 4) (fin w 24 6) (fin w 17 6)))
  else if fld w 7 3 == 4 then zero (fld w 15 2 == 0 && fld w 23 1 == 0 && fld w 30 2 == 2) (.ok (.tgath (fld w 14 1 == 1) (fin w 10 4) (fin w 24 6) (fin w 17 6)))
  else if fld w 7 3 == 5 then zero (fld w 14 10 == 0 && fld w 30 2 == 2) (.ok (.tfill (fin w 10 4) (fin w 24 6)))
  else if fld w 7 3 == 6 then zero (fld w 14 3 == 0 && fld w 23 1 == 0 && fld w 30 2 == 2) (.ok (.tred (fin w 10 4) (fin w 24 6) (fin w 17 6)))
  else .error .subop

/-- Major 57 (R37). -/
noncomputable def decMajor57 (w : Nat) : Dec :=
  if fld w 7 3 == 0 && fld w 14 1 == 0 then zero (fld w 15 1 == 0) (need (Fmt.ofCode (fld w 28 4)) fun fmt => .ok (.mma fmt (fin w 10 4) (fin w 16 6) (fin w 22 6)))
  else if fld w 7 3 == 0 && fld w 14 1 == 1 then zero (fld w 15 1 == 0 && fld w 18 4 == 0) (need (Fmt.ofCode (fld w 28 4)) fun fmt => .ok (.mmaUnfold fmt (fin w 16 2) (fin w 10 4) (fin w 22 6)))
  else if fld w 7 3 == 1 then zero (fld w 14 2 == 0) (need (Fmt.ofCode (fld w 28 4)) fun fmt => .ok (.mmas fmt (fin w 10 4) (fin w 16 6) (fin w 22 6)))
  else if fld w 7 3 == 2 then zero (fld w 14 18 == 0) (.ok (.aclr (fin w 10 4)))
  else if fld w 7 3 == 3 then zero (fld w 14 2 == 0 && fld w 23 9 == 0) (.ok (.amov (fin w 16 7) (fin w 10 4)))
  else if fld w 7 3 == 4 then zero (fld w 14 2 == 0 && fld w 23 9 == 0) (.ok (.aput (fin w 10 4) (fin w 16 7)))
  else if fld w 7 3 == 5 then zero (fld w 14 2 == 0 && fld w 22 6 == 0) (need (Fmt.ofCode (fld w 28 4)) fun fmt => .ok (.ast fmt (fin w 10 4) (fin w 16 6)))
  else if fld w 7 3 == 6 then zero (fld w 12 4 == 0 && fld w 22 10 == 0) (.ok (.unf (fin w 10 2) (fin w 16 6)))
  else .error .subop

/-- Major 58 (R37). -/
noncomputable def decMajor58 (w : Nat) : Dec :=
  if fld w 7 3 == 0 then zero (fld w 31 1 == 1) (.ok (.vemit (fin w 10 7) (fin w 17 7) (decSclB w)))
  else if fld w 7 3 == 1 then zero (fld w 17 7 == 0 && fld w 31 1 == 1) (.ok (.intrp (fin w 10 7) (decSclB w)))
  else if fld w 7 3 == 2 then zero (fld w 31 1 == 1) (.ok (.fpost (fin w 10 7) (fin w 17 7) (decSclB w)))
  else if fld w 7 3 == 3 then zero (fld w 16 1 == 0 && fld w 23 1 == 0 && fld w 31 1 == 1) (.ok (.tbind (fin w 10 6) (fin w 17 6) (decSclB w)))
  else if fld w 7 5 == 4 then zero (fld w 12 5 == 0 && fld w 23 1 == 0 && fld w 30 2 == 2) (.ok (.tmeth false (fin w 17 6) (fin w 24 6)))
  else if fld w 7 5 == 28 then zero (fld w 12 5 == 0 && fld w 23 1 == 0 && fld w 30 2 == 2) (.ok (.tmeth true (fin w 17 6) (fin w 24 6)))
  else if fld w 7 5 == 12 then zero (fld w 12 5 == 0 && fld w 23 1 == 0 && fld w 30 2 == 2) (.ok (.tmethClear (fin w 17 6) (fin w 24 6)))
  else if fld w 7 5 == 20 then zero (fld w 12 12 == 0 && fld w 30 2 == 2) (.ok (.tmethResolve (fin w 24 6)))
  else if fld w 7 3 == 5 && fld w 30 1 == 0 then zero (fld w 31 1 == 1) (.ok (.tsample (fin w 10 7) (fin w 17 7) (fin w 24 6)))
  else if fld w 7 3 == 5 && fld w 30 1 == 1 then zero (fld w 31 1 == 1) (.ok (.tsampleSettle (fin w 10 7) (fin w 17 7) (fin w 24 6)))
  else if fld w 7 3 == 6 then zero (fld w 31 1 == 1) (.ok (.tex (fin w 10 7) (fin w 17 7) (decSclB w)))
  else if fld w 7 3 == 7 then zero (fld w 31 1 == 1) (.ok (.texf (fin w 10 7) (fin w 17 7) (decSclB w)))
  else .error .subop

/-- Major 59 (R37). -/
noncomputable def decMajor59 (w : Nat) : Dec :=
  if fld w 7 3 == 0 && fld w 30 1 == 0 then zero (fld w 31 1 == 1) (.ok (.rtrace (fin w 10 7) (fin w 17 7) (fin w 24 6)))
  else if fld w 7 3 == 0 && fld w 30 1 == 1 then zero (fld w 31 1 == 1) (.ok (.rtraceAny (fin w 10 7) (fin w 17 7) (fin w 24 6)))
  else if fld w 7 3 == 1 then zero (fld w 17 15 == 0) (.ok (.rnext (fin w 10 7)))
  else if fld w 7 3 == 2 then zero (fld w 10 22 == 0) (.ok .racc)
  else if fld w 7 3 == 3 then zero (fld w 17 7 == 0 && fld w 31 1 == 1) (.ok (.rhit (fin w 10 7) (decSclB w)))
  else if fld w 7 3 == 4 then zero (fld w 10 22 == 0) (.ok .regroup)
  else .error .subop

/-- Major 60 (R37). -/
noncomputable def decMajor60 (w : Nat) : Dec :=
  if fld w 7 3 == 0 then zero (fld w 16 1 == 0 && fld w 23 1 == 0 && fld w 31 1 == 1) (.ok (.launch (fin w 10 6) (fin w 17 6) (decSclB w)))
  else if fld w 7 3 == 1 then zero (fld w 16 1 == 0 && fld w 23 9 == 0) (.ok (.cwait (fin w 10 6) (fin w 17 6)))
  else if fld w 7 3 == 2 && fld w 31 1 == 1 then zero (fld w 10 1 == 0 && fld w 17 7 == 0) (.ok (.ralloc (fin w 11 6) (decSclB w)))
  else if fld w 7 3 == 2 && fld w 31 1 == 0 then zero (fld w 10 1 == 0 && fld w 17 14 == 0) (.ok (.rallocIn (fin w 11 6)))
  else if fld w 7 3 == 3 then zero (fld w 10 8 == 0 && fld w 24 8 == 0) (.ok (.rcommit (fin w 18 6)))
  else if fld w 7 3 == 4 then zero (fld w 10 8 == 0 && fld w 24 8 == 0) (.ok (.rdone (fin w 18 6)))
  else .error .subop

/-- Major 61 (R37). -/
noncomputable def decMajor61 (w : Nat) : Dec :=
  if fld w 7 3 == 0 then zero (fld w 10 14 == 0 && fld w 31 1 == 1) (.ok (.trap (decSclB w)))
  else if fld w 7 3 == 1 then zero (fld w 10 14 == 0 && fld w 31 1 == 1) (.ok (.rti (decSclB w)))
  else if fld w 7 3 == 2 then zero (fld w 10 14 == 0 && fld w 31 1 == 1) (.ok (.sysc (decSclB w)))
  else if fld w 7 3 == 3 then zero (fld w 10 14 == 0 && fld w 31 1 == 1) (.ok (.brk (decSclB w)))
  else if fld w 7 3 == 4 then zero (fld w 10 22 == 0) (.ok .halt)
  else if fld w 7 3 == 5 && fld w 16 1 == 0 then zero (fld w 17 7 == 0 && fld w 31 1 == 1) (.ok (.rbank (fin w 10 6) (decSclB w)))
  else if fld w 7 3 == 5 && fld w 16 1 == 1 then zero (fld w 17 7 == 0 && fld w 31 1 == 1) (.ok (.rbankW (fin w 10 6) (decSclB w)))
  else if fld w 7 3 == 6 then zero (fld w 10 7 == 0 && fld w 23 1 == 0 && fld w 31 1 == 1) (.ok (.tlbinv (fin w 17 6) (decSclB w)))
  else if fld w 7 3 == 7 then zero (fld w 16 1 == 0 && fld w 23 9 == 0) (.ok (.fresume (fin w 10 6) (fin w 17 6)))
  else .error .subop

/-- Major 62 (R37). -/
noncomputable def decMajor62 (w : Nat) : Dec :=
  if fld w 7 3 == 0 then zero (fld w 23 1 == 0 && fld w 31 1 == 1) (.ok (.ctxsv (fin w 10 7) (fin w 17 6) (decSclB w)))
  else if fld w 7 3 == 1 then zero (fld w 23 1 == 0 && fld w 31 1 == 1) (.ok (.ctxld (fin w 10 7) (fin w 17 6) (decSclB w)))
  else if fld w 7 3 == 2 then zero (fld w 16 1 == 0 && fld w 23 9 == 0) (.ok (.ctr (fin w 10 6) (fin w 17 6)))
  else if fld w 7 3 == 3 then zero (fld w 10 7 == 0 && fld w 23 1 == 0 && fld w 31 1 == 1) (.ok (.ctrsel (fin w 17 6) (decSclB w)))
  else .error .subop

/-- Major 63 (R37). -/
noncomputable def decMajor63 (w : Nat) : Dec :=
  .ok (.ext (fin w 15 17) (fin w 7 8))

/-- A 32-bit core word whose bit 0 is set, literal words apart (R28, R37). -/
noncomputable def parse32 (w : Nat) : Dec :=
  match fld w 1 6 with
  | 0 => decMajor0 w
  | 1 => decMajor1 w
  | 2 => decMajor2 w
  | 3 => decMajor3 w
  | 4 => decMajor4 w
  | 5 => decMajor5 w
  | 6 => decMajor6 w
  | 7 => decMajor7 w
  | 8 => decMajor8 w
  | 9 => decMajor9 w
  | 10 => decMajor10 w
  | 11 => decMajor11 w
  | 12 => decMajor12 w
  | 13 => decMajor13 w
  | 14 => decMajor14 w
  | 15 => decMajor15 w
  | 16 => decMajor16 w
  | 17 => decMajor17 w
  | 18 => decMajor18 w
  | 19 => decMajor19 w
  | 20 => decMajor20 w
  | 21 => decMajor21 w
  | 22 => decMajor22 w
  | 23 => decMajor23 w
  | 24 => decMajor24 w
  | 25 => decMajor25 w
  | 26 => decMajor26 w
  | 27 => decMajor27 w
  | 28 => decMajor28 w
  | 29 => decMajor29 w
  | 30 => decMajor30 w
  | 31 => decMajor31 w
  | 32 => decMajor32 w
  | 33 => decMajor33 w
  | 34 => decMajor34 w
  | 35 => decMajor35 w
  | 36 => decMajor36 w
  | 37 => decMajor37 w
  | 38 => decMajor38 w
  | 39 => decMajor39 w
  | 40 => decMajor40 w
  | 41 => decMajor41 w
  | 42 => decMajor42 w
  | 43 => decMajor43 w
  | 44 => decMajor44 w
  | 45 => decMajor45 w
  | 46 => decMajor46 w
  | 47 => decMajor47 w
  | 48 => decMajor48 w
  | 49 => decMajor49 w
  | 50 => decMajor50 w
  | 51 => decMajor51 w
  | 52 => decMajor52 w
  | 53 => decMajor53 w
  | 54 => decMajor54 w
  | 55 => decMajor55 w
  | 56 => decMajor56 w
  | 57 => decMajor57 w
  | 58 => decMajor58 w
  | 59 => decMajor59 w
  | 60 => decMajor60 w
  | 61 => decMajor61 w
  | 62 => decMajor62 w
  | _ => decMajor63 w

/-- The sixteen 16-bit forms (R27): every value is one. -/
def parse16 (w : Nat) : Instr :=
  match fld w 1 4 with
  | 0 => .add16 (fin w 5 6) (fin w 11 5)
  | 1 => .sub16 (fin w 5 6) (fin w 11 5)
  | 2 => .mul16 (fin w 5 6) (fin w 11 5)
  | 3 => .and16 (fin w 5 6) (fin w 11 5)
  | 4 => .or16 (fin w 5 6) (fin w 11 5)
  | 5 => .xor16 (fin w 5 6) (fin w 11 5)
  | 6 => .shl16 (fin w 5 6) (fin w 11 5)
  | 7 => .shr16 (fin w 5 6) (fin w 11 5)
  | 8 => .sar16 (fin w 5 6) (fin w 11 5)
  | 9 => .mov16 (fin w 5 6) (fin w 11 5)
  | 10 => .min16 (fin w 5 6) (fin w 11 5)
  | 11 => .max16 (fin w 5 6) (fin w 11 5)
  | 12 => .fadd16 (fin w 5 6) (fin w 11 5)
  | 13 => .fsub16 (fin w 5 6) (fin w 11 5)
  | 14 => .fmul16 (fin w 5 6) (fin w 11 5)
  | _ => .fmax16 (fin w 5 6) (fin w 11 5)

/-- An anvil word (R40, R41). -/
noncomputable def parseH (w : Nat) : Dec :=
  if fld w 0 8 == 0 then zero (fld w 19 13 == 0) (need (HDst.ofCode (fld w 8 7)) fun d => .ok (.hLdl d (fin w 15 4)))
  else if fld w 0 10 == 1 then zero (fld w 10 5 == 0 && fld w 19 3 == 0 && fld w 29 3 == 0) (need (HSrc.ofCode (fld w 22 7)) fun b => .ok (.hStl (fin w 15 4) b))
  else if fld w 0 8 == 2 then zero (fld w 19 13 == 0) (need (HDst.ofCode (fld w 8 7)) fun d => .ok (.hLdo d (fin w 15 4)))
  else if fld w 0 8 == 3 then zero (fld w 19 13 == 0) (need (HDst.ofCode (fld w 8 7)) fun d => .ok (.hLdc d (fin w 15 4)))
  else if fld w 0 8 == 4 then zero (fld w 31 1 == 0) (need (HDst.ofCode (fld w 8 7)) fun d => .ok (.hLi d (BitVec.ofNat 16 (fld w 15 16))))
  else if fld w 0 8 == 36 then zero (fld w 31 1 == 0) (need (HDst.ofCode (fld w 8 7)) fun d => .ok (.hLiHi d (BitVec.ofNat 16 (fld w 15 16))))
  else if fld w 0 5 == 5 && fld w 7 1 == 0 then zero (fld w 29 3 == 0) (need (HArith.ofCode (fld w 5 2)) fun m => need (HDst.ofCode (fld w 8 7)) fun d => need (HSrc.ofCode (fld w 15 7)) fun a => need (HSrc.ofCode (fld w 22 7)) fun b => .ok (.hAdd m d a b))
  else if fld w 0 5 == 6 && fld w 7 1 == 0 then zero (fld w 29 3 == 0) (need (HArith.ofCode (fld w 5 2)) fun m => need (HDst.ofCode (fld w 8 7)) fun d => need (HSrc.ofCode (fld w 15 7)) fun a => need (HSrc.ofCode (fld w 22 7)) fun b => .ok (.hSub m d a b))
  else if fld w 0 5 == 7 && fld w 7 1 == 0 then zero (fld w 29 3 == 0) (need (HArith.ofCode (fld w 5 2)) fun m => need (HDst.ofCode (fld w 8 7)) fun d => need (HSrc.ofCode (fld w 15 7)) fun a => need (HSrc.ofCode (fld w 22 7)) fun b => .ok (.hMul m d a b))
  else if fld w 0 8 == 8 then zero (fld w 29 3 == 0) (need (HDst.ofCode (fld w 8 7)) fun d => need (HSrc.ofCode (fld w 15 7)) fun a => need (HSrc.ofCode (fld w 22 7)) fun b => .ok (.hAnd d a b))
  else if fld w 0 8 == 9 then zero (fld w 29 3 == 0) (need (HDst.ofCode (fld w 8 7)) fun d => need (HSrc.ofCode (fld w 15 7)) fun a => need (HSrc.ofCode (fld w 22 7)) fun b => .ok (.hOr d a b))
  else if fld w 0 8 == 10 then zero (fld w 29 3 == 0) (need (HDst.ofCode (fld w 8 7)) fun d => need (HSrc.ofCode (fld w 15 7)) fun a => need (HSrc.ofCode (fld w 22 7)) fun b => .ok (.hXor d a b))
  else if fld w 0 8 == 11 then zero (fld w 29 3 == 0) (need (HDst.ofCode (fld w 8 7)) fun d => need (HSrc.ofCode (fld w 15 7)) fun a => need (HSrc.ofCode (fld w 22 7)) fun b => .ok (.hShl d a b))
  else if fld w 0 8 == 12 then zero (fld w 29 3 == 0) (need (HDst.ofCode (fld w 8 7)) fun d => need (HSrc.ofCode (fld w 15 7)) fun a => need (HSrc.ofCode (fld w 22 7)) fun b => .ok (.hShr d a b))
  else if fld w 0 8 == 13 then zero (fld w 29 3 == 0) (need (HDst.ofCode (fld w 8 7)) fun d => need (HSrc.ofCode (fld w 15 7)) fun a => need (HSrc.ofCode (fld w 22 7)) fun b => .ok (.hSar d a b))
  else if fld w 0 5 == 14 && fld w 6 2 == 0 then zero (fld w 29 3 == 0) (need (HDst.ofCode (fld w 8 7)) fun d => need (HSrc.ofCode (fld w 15 7)) fun a => need (HSrc.ofCode (fld w 22 7)) fun b => .ok (.hMin (fld w 5 1 == 1) d a b))
  else if fld w 0 5 == 15 && fld w 6 2 == 0 then zero (fld w 29 3 == 0) (need (HDst.ofCode (fld w 8 7)) fun d => need (HSrc.ofCode (fld w 15 7)) fun a => need (HSrc.ofCode (fld w 22 7)) fun b => .ok (.hMax (fld w 5 1 == 1) d a b))
  else if fld w 0 5 == 16 && fld w 7 1 == 0 then zero (fld w 29 3 == 0) (need (HFloat.ofCode (fld w 5 2)) fun m => need (HDst.ofCode (fld w 8 7)) fun d => need (HSrc.ofCode (fld w 15 7)) fun a => need (HSrc.ofCode (fld w 22 7)) fun b => .ok (.hFadd m d a b))
  else if fld w 0 5 == 17 && fld w 7 1 == 0 then zero (fld w 29 3 == 0) (need (HFloat.ofCode (fld w 5 2)) fun m => need (HDst.ofCode (fld w 8 7)) fun d => need (HSrc.ofCode (fld w 15 7)) fun a => need (HSrc.ofCode (fld w 22 7)) fun b => .ok (.hFmul m d a b))
  else if fld w 0 5 == 18 && fld w 7 1 == 0 then zero (fld w 29 3 == 0) (need (HFloat.ofCode (fld w 5 2)) fun m => need (HDst.ofCode (fld w 8 7)) fun d => need (HSrc.ofCode (fld w 15 7)) fun a => need (HSrc.ofCode (fld w 22 7)) fun b => .ok (.hFfma m d a b))
  else if fld w 0 5 == 19 && fld w 7 1 == 0 then zero (fld w 29 3 == 0) (need (HFloat.ofCode (fld w 5 2)) fun m => need (HDst.ofCode (fld w 8 7)) fun d => need (HSrc.ofCode (fld w 15 7)) fun a => need (HSrc.ofCode (fld w 22 7)) fun b => .ok (.hFmin m d a b))
  else if fld w 0 5 == 20 && fld w 7 1 == 0 then zero (fld w 29 3 == 0) (need (HFloat.ofCode (fld w 5 2)) fun m => need (HDst.ofCode (fld w 8 7)) fun d => need (HSrc.ofCode (fld w 15 7)) fun a => need (HSrc.ofCode (fld w 22 7)) fun b => .ok (.hFmax m d a b))
  else if fld w 0 5 == 21 then zero (fld w 29 3 == 0) (need (HCvt.ofCode (fld w 5 3)) fun m => need (HDst.ofCode (fld w 8 7)) fun d => need (HSrc.ofCode (fld w 15 7)) fun a => need (HSrc.ofCode (fld w 22 7)) fun b => .ok (.hCvt m d a b))
  else if fld w 0 5 == 22 && fld w 8 2 == 0 then zero (fld w 10 5 == 0 && fld w 31 1 == 0) (need (HCond.ofCode (fld w 5 3)) fun m => need (HSrc.ofCode (fld w 15 7)) fun a => need (HSrc.ofCode (fld w 22 7)) fun b => .ok (.hCmp m (fin w 29 2) a b))
  else if fld w 0 8 == 23 then zero (fld w 31 1 == 0) (need (HDst.ofCode (fld w 8 7)) fun d => need (HSrc.ofCode (fld w 15 7)) fun a => need (HSrc.ofCode (fld w 22 7)) fun b => .ok (.hSel d (fin w 29 2) a b))
  else if fld w 0 5 == 24 && fld w 7 3 == 0 then zero (fld w 10 12 == 0 && fld w 31 1 == 0) (need (HSkip.ofCode (fld w 5 2)) fun m => .ok (.hSkip m (fin w 22 7) (fin w 29 2)))
  else if fld w 0 10 == 25 then zero (fld w 10 22 == 0) (.ok .hRet)
  else if fld w 0 10 == 26 then zero (fld w 10 5 == 0 && fld w 29 3 == 0) (need (HSrc.ofCode (fld w 15 7)) fun a => .ok (.hFwd (fin w 22 7) a))
  else if fld w 0 10 == 27 then zero (fld w 10 12 == 0 && fld w 29 3 == 0) (need (HSrc.ofCode (fld w 22 7)) fun b => .ok (.hAbt b))
  else if fld w 0 10 == 28 then zero (fld w 10 22 == 0) (.ok .hEnd)
  else .error .subop

/-- The low and high halves of a 32-bit number, low parcel first (R20). -/
def halves (w : Nat) : List W16 := [BitVec.ofNat 16 w, BitVec.ofNat 16 (w / 2 ^ 16)]

/-- Two parcels as a 32-bit number. -/
def join32 (a b : W16) : Nat := a.toNat + b.toNat * 2 ^ 16

/-- The literal words of a scalar `li` or a `lea` (R33): wd chooses one word or two. -/
def litWords (wd : Bool) (ps : List W16) (k : Literal → Instr) : Except Reject (Instr × List W16) :=
  match wd, ps with
  | false, a :: b :: ps => .ok (k (.one (BitVec.ofNat 32 (join32 a b))), ps)
  | true, a :: b :: c :: d :: ps => .ok (k (.two (BitVec.ofNat 64 (join32 a b + join32 c d * 2 ^ 32))), ps)
  | _, _ => .error .short

/-- Lane `li`, scalar `li` and `lea` (major 16, selects 2 and 3; R30, R33, R83): the word `w`, then literal words. -/
def parseLit (w : Nat) (ps : List W16) : Except Reject (Instr × List W16) :=
  if fld w 7 3 == 2 then
    if fld w 17 15 == 0 then
      match ps with
      | a :: b :: ps => .ok (.liLane (fin w 10 7) (BitVec.ofNat 32 (join32 a b)), ps)
      | _ => .error .short
    else .error .reserved
  else if fld w 16 1 == 0 && fld w 17 14 == 0 then
    if fld w 7 3 == 6 then litWords (fld w 31 1 == 1) ps (.liScalar (fin w 10 6))
    else litWords (fld w 31 1 == 1) ps (.lea (fin w 10 6))
  else .error .reserved

/-- Major 16 with a select that takes literal words: `li` (2), scalar `li` (6) and `lea` (7). -/
def hasLit (w : Nat) : Bool := fld w 1 6 == 16 && (fld w 7 3 == 2 || fld w 7 3 == 6 || fld w 7 3 == 7)

/-- One instruction at the head of a list of parcels, and the parcels after it (R26). -/
noncomputable def decode (ps : List W16) : Except Reject (Instr × List W16) :=
  match ps with
  | [] => .error .short
  | p :: ps =>
    if p.toNat % 2 = 0 then .ok (parse16 p.toNat, ps)
    else match ps with
      | [] => .error .short
      | q :: ps =>
        let w := join32 p q
        if hasLit w then parseLit w ps
        else match parse32 w with
          | .error e => .error e
          | .ok i => if i.wf then .ok (i, ps) else .error .operand

/-- One anvil word, with every limit of R184 (the counts of `h.skip` and `h.fwd` included). -/
noncomputable def decodeH (w : Nat) : Dec :=
  match parseH w with
  | .error e => .error e
  | .ok i => if i.wf then .ok i else .error .operand

/-- A clause header (R19). -/
structure Header where
  guard : Fin 64
  count : Nat
  flagA : Nat
  flagB : Nat
  wait  : BitVec 12
  deriving DecidableEq, Repr, Inhabited

/-- A header word, `none` when R19 rejects it. -/
def decodeHeader (w : Nat) : Option Header :=
  let h : Header := { guard := fin w 25 6, count := fld w 20 5, flagA := fld w 12 4, flagB := fld w 16 4, wait := BitVec.ofNat 12 (fld w 0 12) }
  if fld w 31 1 = 0 ∧ 1 ≤ h.count ∧ h.count ≤ 24 ∧ ¬ (12 ≤ h.flagA ∧ h.flagA ≤ 14) ∧ ¬ (12 ≤ h.flagB ∧ h.flagB ≤ 14) then some h else none

/-- The instructions that are legal only as the last of a clause (R37). -/
def Instr.endsClause : Instr → Bool
  | .br _ | .brAll _ _ | .brAny _ _ | .brNone _ _ | .brp _ _ | .call _ _ => true
  | .jmp _ | .ret _ | .join | .exit => true
  | .trap _ | .rti _ | .sysc _ | .brk _ | .halt => true
  | _ => false

/-- Sign bits of a literal of `lea` (R33). -/
def Literal.sext : Literal → W64
  | .one w => w.signExtend 64
  | .two w => w

/-- A literal of scalar `li` (R33). -/
def Literal.zext : Literal → W64
  | .one w => w.setWidth 64
  | .two w => w

def Literal.wd : Literal → Bool
  | .one _ => false
  | .two _ => true

def Literal.parcels : Literal → List W16
  | .one w => halves w.toNat
  | .two w => halves (w.toNat % 2 ^ 32) ++ halves (w.toNat / 2 ^ 32)

/-- An instruction's own word in parts: the fixed bits, and each field with its lowest bit. 32 bits, 16 for the forms of
R27, nothing for an event. -/
def Instr.parts : Instr → Nat × List (Nat × Nat)
  | .liLane d _ => (289, [(d.val, 10)])
  | .liScalar d lit => (801, [(d.val, 10), (lit.wd.toNat, 31)])
  | .lea d lit => (929, [(d.val, 10), (lit.wd.toNat, 31)])
  | .br off => (1, [(off.toNat, 16)])
  | .brAll off p => (129, [(off.toNat, 16), (p.val, 10)])
  | .brAny off p => (257, [(off.toNat, 16), (p.val, 10)])
  | .brNone off p => (385, [(off.toNat, 16), (p.val, 10)])
  | .brp off p => (513, [(off.toNat, 16), (p.val, 10)])
  | .call l off => (641, [(l.val, 10), (off.toNat, 16)])
  | .jmp a => (3, [(a.val, 17)])
  | .ret a => (131, [(a.val, 17)])
  | .join => (259, [])
  | .exit => (387, [])
  | .nop => (515, [])
  | .yield => (643, [])
  | .sleep b => (2147484419, [(b.code, 24)])
  | .wflag mask => (5, [(mask.toNat, 16)])
  | .wpath n k => (133, [(n.val, 16), (k.val, 10)])
  | .ppoint mask => (261, [(mask.toNat, 16)])
  | .sregVector r d => (7, [(r.code, 24), (d.val, 10)])
  | .sregScalar r d => (135, [(r.code, 24), (d.val, 10)])
  | .swreg r a => (263, [(r.code, 24), (a.val, 17)])
  | .plogAnd d a b => (9, [(d.val, 10), (a.val, 17), (b.val, 24)])
  | .plogOr d a b => (137, [(d.val, 10), (a.val, 17), (b.val, 24)])
  | .plogXor d a b => (265, [(d.val, 10), (a.val, 17), (b.val, 24)])
  | .plogAndn d a b => (393, [(d.val, 10), (a.val, 17), (b.val, 24)])
  | .pget d a => (521, [(d.val, 10), (a.val, 17)])
  | .pset d b => (2147484297, [(d.val, 10), (b.code, 24)])
  | .pmov d a => (777, [(d.val, 10), (a.val, 17)])
  | .addLane d a b => (11, [(d.val, 10), (a.val, 17), (b.code, 24)])
  | .addScalar wide d a b => (523, [(wide.toNat, 31), (d.val, 10), (a.val, 17), (b.code, 24)])
  | .subLane d a b => (139, [(d.val, 10), (a.val, 17), (b.code, 24)])
  | .subScalar wide d a b => (651, [(wide.toNat, 31), (d.val, 10), (a.val, 17), (b.code, 24)])
  | .addc d a b => (267, [(d.val, 10), (a.val, 17), (b.code, 24)])
  | .subc d a b => (395, [(d.val, 10), (a.val, 17), (b.code, 24)])
  | .addSatSLane d a b => (13, [(d.val, 10), (a.val, 17), (b.code, 24)])
  | .addSatSScalar wide d a b => (525, [(wide.toNat, 31), (d.val, 10), (a.val, 17), (b.code, 24)])
  | .subSatSLane d a b => (141, [(d.val, 10), (a.val, 17), (b.code, 24)])
  | .subSatSScalar wide d a b => (653, [(wide.toNat, 31), (d.val, 10), (a.val, 17), (b.code, 24)])
  | .addSatZLane d a b => (269, [(d.val, 10), (a.val, 17), (b.code, 24)])
  | .addSatZScalar wide d a b => (781, [(wide.toNat, 31), (d.val, 10), (a.val, 17), (b.code, 24)])
  | .subSatZLane d a b => (397, [(d.val, 10), (a.val, 17), (b.code, 24)])
  | .subSatZScalar wide d a b => (909, [(wide.toNat, 31), (d.val, 10), (a.val, 17), (b.code, 24)])
  | .mulLane d a b => (15, [(d.val, 10), (a.val, 17), (b.code, 24)])
  | .mulScalar wide d a b => (527, [(wide.toNat, 31), (d.val, 10), (a.val, 17), (b.code, 24)])
  | .mulhSLane d a b => (143, [(d.val, 10), (a.val, 17), (b.code, 24)])
  | .mulhSScalar wide d a b => (655, [(wide.toNat, 31), (d.val, 10), (a.val, 17), (b.code, 24)])
  | .mulhZLane d a b => (271, [(d.val, 10), (a.val, 17), (b.code, 24)])
  | .mulhZScalar wide d a b => (783, [(wide.toNat, 31), (d.val, 10), (a.val, 17), (b.code, 24)])
  | .madLane d a b => (399, [(d.val, 10), (a.val, 17), (b.code, 24)])
  | .madScalar wide d a b => (911, [(wide.toNat, 31), (d.val, 10), (a.val, 17), (b.code, 24)])
  | .minSLane d a b => (17, [(d.val, 10), (a.val, 17), (b.code, 24)])
  | .minSScalar wide d a b => (529, [(wide.toNat, 31), (d.val, 10), (a.val, 17), (b.code, 24)])
  | .maxSLane d a b => (145, [(d.val, 10), (a.val, 17), (b.code, 24)])
  | .maxSScalar wide d a b => (657, [(wide.toNat, 31), (d.val, 10), (a.val, 17), (b.code, 24)])
  | .minZLane d a b => (273, [(d.val, 10), (a.val, 17), (b.code, 24)])
  | .minZScalar wide d a b => (785, [(wide.toNat, 31), (d.val, 10), (a.val, 17), (b.code, 24)])
  | .maxZLane d a b => (401, [(d.val, 10), (a.val, 17), (b.code, 24)])
  | .maxZScalar wide d a b => (913, [(wide.toNat, 31), (d.val, 10), (a.val, 17), (b.code, 24)])
  | .andLane d a b => (19, [(d.val, 10), (a.val, 17), (b.code, 24)])
  | .andScalar wide d a b => (531, [(wide.toNat, 31), (d.val, 10), (a.val, 17), (b.code, 24)])
  | .orLane d a b => (147, [(d.val, 10), (a.val, 17), (b.code, 24)])
  | .orScalar wide d a b => (659, [(wide.toNat, 31), (d.val, 10), (a.val, 17), (b.code, 24)])
  | .xorLane d a b => (275, [(d.val, 10), (a.val, 17), (b.code, 24)])
  | .xorScalar wide d a b => (787, [(wide.toNat, 31), (d.val, 10), (a.val, 17), (b.code, 24)])
  | .andnLane d a b => (403, [(d.val, 10), (a.val, 17), (b.code, 24)])
  | .andnScalar wide d a b => (915, [(wide.toNat, 31), (d.val, 10), (a.val, 17), (b.code, 24)])
  | .shlLane d a b => (21, [(d.val, 10), (a.val, 17), (b.code, 24)])
  | .shlScalar wide d a b => (533, [(wide.toNat, 31), (d.val, 10), (a.val, 17), (b.code, 24)])
  | .shrLane d a b => (149, [(d.val, 10), (a.val, 17), (b.code, 24)])
  | .shrScalar wide d a b => (661, [(wide.toNat, 31), (d.val, 10), (a.val, 17), (b.code, 24)])
  | .sarLane d a b => (277, [(d.val, 10), (a.val, 17), (b.code, 24)])
  | .sarScalar wide d a b => (789, [(wide.toNat, 31), (d.val, 10), (a.val, 17), (b.code, 24)])
  | .rotLane d a b => (405, [(d.val, 10), (a.val, 17), (b.code, 24)])
  | .rotScalar wide d a b => (917, [(wide.toNat, 31), (d.val, 10), (a.val, 17), (b.code, 24)])
  | .bfeSLane d a b => (23, [(d.val, 10), (a.val, 17), (b.code, 24)])
  | .bfeSScalar wide d a b => (535, [(wide.toNat, 31), (d.val, 10), (a.val, 17), (b.code, 24)])
  | .bfeZLane d a b => (151, [(d.val, 10), (a.val, 17), (b.code, 24)])
  | .bfeZScalar wide d a b => (663, [(wide.toNat, 31), (d.val, 10), (a.val, 17), (b.code, 24)])
  | .bfiLane d a b => (279, [(d.val, 10), (a.val, 17), (b.code, 24)])
  | .bfiScalar wide d a b => (791, [(wide.toNat, 31), (d.val, 10), (a.val, 17), (b.code, 24)])
  | .absLane d a => (407, [(d.val, 10), (a.val, 17)])
  | .absScalar wide d a => (919, [(wide.toNat, 31), (d.val, 10), (a.val, 17)])
  | .popcLane d a => (25, [(d.val, 10), (a.val, 17)])
  | .popcScalar wide d a => (537, [(wide.toNat, 31), (d.val, 10), (a.val, 17)])
  | .clzLane d a => (153, [(d.val, 10), (a.val, 17)])
  | .clzScalar wide d a => (665, [(wide.toNat, 31), (d.val, 10), (a.val, 17)])
  | .ctzLane d a => (281, [(d.val, 10), (a.val, 17)])
  | .ctzScalar wide d a => (793, [(wide.toNat, 31), (d.val, 10), (a.val, 17)])
  | .brevLane d a => (409, [(d.val, 10), (a.val, 17)])
  | .brevScalar wide d a => (921, [(wide.toNat, 31), (d.val, 10), (a.val, 17)])
  | .cmpSignedLane cc d a b => (27, [(cc.code, 7), (d.val, 10), (a.val, 17), (b.code, 24)])
  | .cmpSignedScalar cc wide d a b => (539, [(cc.code, 7), (wide.toNat, 31), (d.val, 10), (a.val, 17), (b.code, 24)])
  | .cmpUnsignedLane cc d a b => (29, [(cc.code, 7), (d.val, 10), (a.val, 17), (b.code, 24)])
  | .cmpUnsignedScalar cc wide d a b => (541, [(cc.code, 7), (wide.toNat, 31), (d.val, 10), (a.val, 17), (b.code, 24)])
  | .cmpEqualityLane ne d a b => (31, [(ne.toNat, 7), (d.val, 10), (a.val, 17), (b.code, 24)])
  | .cmpEqualityScalar ne wide d a b => (543, [(ne.toNat, 7), (wide.toNat, 31), (d.val, 10), (a.val, 17), (b.code, 24)])
  | .movLane d b => (33, [(d.val, 10), (b.code, 24)])
  | .movScalar wide d b => (545, [(wide.toNat, 31), (d.val, 10), (b.code, 24)])
  | .sel d a b => (161, [(d.val, 10), (a.val, 17), (b.code, 24)])
  | .addImmLane d a imm => (35, [(d.val, 10), (a.val, 17), (imm.toNat, 24)])
  | .addImmScalar d a imm => (547, [(d.val, 10), (a.val, 17), (imm.toNat, 24)])
  | .andImmLane d a imm => (163, [(d.val, 10), (a.val, 17), (imm.toNat, 24)])
  | .andImmScalar d a imm => (675, [(d.val, 10), (a.val, 17), (imm.toNat, 24)])
  | .orImmLane d a imm => (291, [(d.val, 10), (a.val, 17), (imm.toNat, 24)])
  | .orImmScalar d a imm => (803, [(d.val, 10), (a.val, 17), (imm.toNat, 24)])
  | .xorImmLane d a imm => (419, [(d.val, 10), (a.val, 17), (imm.toNat, 24)])
  | .xorImmScalar d a imm => (931, [(d.val, 10), (a.val, 17), (imm.toNat, 24)])
  | .shlImmLane d a i => (37, [(d.val, 10), (a.val, 17), (i.val, 24)])
  | .shlImmScalar d a i => (549, [(d.val, 10), (a.val, 17), (i.val, 24)])
  | .shrImmLane d a i => (165, [(d.val, 10), (a.val, 17), (i.val, 24)])
  | .shrImmScalar d a i => (677, [(d.val, 10), (a.val, 17), (i.val, 24)])
  | .sarImmLane d a i => (293, [(d.val, 10), (a.val, 17), (i.val, 24)])
  | .sarImmScalar d a i => (805, [(d.val, 10), (a.val, 17), (i.val, 24)])
  | .rotImmLane d a i => (421, [(d.val, 10), (a.val, 17), (i.val, 24)])
  | .rotImmScalar d a i => (933, [(d.val, 10), (a.val, 17), (i.val, 24)])
  | .add16 d b => (0, [(d.val, 5), (b.val, 11)])
  | .sub16 d b => (2, [(d.val, 5), (b.val, 11)])
  | .mul16 d b => (4, [(d.val, 5), (b.val, 11)])
  | .and16 d b => (6, [(d.val, 5), (b.val, 11)])
  | .or16 d b => (8, [(d.val, 5), (b.val, 11)])
  | .xor16 d b => (10, [(d.val, 5), (b.val, 11)])
  | .shl16 d b => (12, [(d.val, 5), (b.val, 11)])
  | .shr16 d b => (14, [(d.val, 5), (b.val, 11)])
  | .sar16 d b => (16, [(d.val, 5), (b.val, 11)])
  | .mov16 d b => (18, [(d.val, 5), (b.val, 11)])
  | .min16 d b => (20, [(d.val, 5), (b.val, 11)])
  | .max16 d b => (22, [(d.val, 5), (b.val, 11)])
  | .fadd16 d b => (24, [(d.val, 5), (b.val, 11)])
  | .fsub16 d b => (26, [(d.val, 5), (b.val, 11)])
  | .fmul16 d b => (28, [(d.val, 5), (b.val, 11)])
  | .fmax16 d b => (30, [(d.val, 5), (b.val, 11)])
  | .fadd t d a b => (39, [(t.code, 7), (d.val, 10), (a.val, 17), (b.code, 24)])
  | .fsub t d a b => (551, [(t.code, 7), (d.val, 10), (a.val, 17), (b.code, 24)])
  | .fmul t d a b => (41, [(t.code, 7), (d.val, 10), (a.val, 17), (b.code, 24)])
  | .ffma t d a b => (553, [(t.code, 7), (d.val, 10), (a.val, 17), (b.code, 24)])
  | .fmin t d a b => (43, [(t.code, 7), (d.val, 10), (a.val, 17), (b.code, 24)])
  | .fmax t d a b => (555, [(t.code, 7), (d.val, 10), (a.val, 17), (b.code, 24)])
  | .fcmpF32 cc d a b => (45, [(cc.code, 7), (d.val, 10), (a.val, 17), (b.code, 24)])
  | .fcmpF64 cc d a b => (47, [(cc.code, 7), (d.val, 10), (a.val, 17), (b.code, 24)])
  | .frndF32 rnd d a => (49, [(rnd.code, 7), (d.val, 10), (a.val, 17)])
  | .frndF64 rnd d a => (561, [(rnd.code, 7), (d.val, 10), (a.val, 17)])
  | .frcp d a => (51, [(d.val, 10), (a.val, 17)])
  | .frsq d a => (179, [(d.val, 10), (a.val, 17)])
  | .fsqrt d a => (307, [(d.val, 10), (a.val, 17)])
  | .fexp2 d a => (435, [(d.val, 10), (a.val, 17)])
  | .flog2 d a => (563, [(d.val, 10), (a.val, 17)])
  | .fsin d a => (691, [(d.val, 10), (a.val, 17)])
  | .fcos d a => (819, [(d.val, 10), (a.val, 17)])
  | .ftanh d a => (947, [(d.val, 10), (a.val, 17)])
  | .cvt src dst mode d a => (53, [(src.code, 28), (dst.code, 24), (mode.code, 7), (d.val, 10), (a.val, 17)])
  | .pk src dst d a => (55, [(src.code, 28), (dst.code, 24), (d.val, 10), (a.val, 17)])
  | .pkSat src dst d a => (183, [(src.code, 28), (dst.code, 24), (d.val, 10), (a.val, 17)])
  | .upk src dst d a => (311, [(src.code, 28), (dst.code, 24), (d.val, 10), (a.val, 17)])
  | .fclass src d a => (439, [(src.code, 28), (d.val, 10), (a.val, 17)])
  | .dp4I8x4 d a b => (57, [(d.val, 10), (a.val, 17), (b.code, 24)])
  | .dp4N8x4 d a b => (185, [(d.val, 10), (a.val, 17), (b.code, 24)])
  | .dp8I4x8 d a b => (313, [(d.val, 10), (a.val, 17), (b.code, 24)])
  | .dp8N4x8 d a b => (441, [(d.val, 10), (a.val, 17), (b.code, 24)])
  | .fdp2F16 d a b => (59, [(d.val, 10), (a.val, 17), (b.code, 24)])
  | .fdp2Bf16 d a b => (187, [(d.val, 10), (a.val, 17), (b.code, 24)])
  | .fdp4E5m2 d a b => (315, [(d.val, 10), (a.val, 17), (b.code, 24)])
  | .fdp4E4m3 d a b => (443, [(d.val, 10), (a.val, 17), (b.code, 24)])
  | .fdp4E3m2 d a b => (571, [(d.val, 10), (a.val, 17), (b.code, 24)])
  | .fdp4E2m3 d a b => (699, [(d.val, 10), (a.val, 17), (b.code, 24)])
  | .fdp8E2m1 d a b => (827, [(d.val, 10), (a.val, 17), (b.code, 24)])
  | .qexpE5m2 d a => (61, [(d.val, 10), (a.val, 17)])
  | .qexpE4m3 d a => (189, [(d.val, 10), (a.val, 17)])
  | .qexpE3m2 d a => (317, [(d.val, 10), (a.val, 17)])
  | .qexpE2m3 d a => (445, [(d.val, 10), (a.val, 17)])
  | .qexpE2m1 d a => (573, [(d.val, 10), (a.val, 17)])
  | .rng d => (701, [(d.val, 10)])
  | .rngSeed a b => (829, [(a.val, 17), (b.code, 24)])
  | .shfl pat d a b => (63, [(pat.code, 7), (d.val, 10), (a.val, 17), (b.code, 24)])
  | .shfli pat d a imm => (65, [(pat.code, 7), (d.val, 10), (a.val, 17), (imm.toNat, 24)])
  | .vany d a => (67, [(d.val, 10), (a.val, 17)])
  | .vall d a => (195, [(d.val, 10), (a.val, 17)])
  | .vbal d a => (323, [(d.val, 10), (a.val, 17)])
  | .vmatch d a => (451, [(d.val, 10), (a.val, 17)])
  | .pcount d a => (579, [(d.val, 10), (a.val, 17)])
  | .bcast d a b => (2147484355, [(d.val, 10), (a.val, 17), (b.code, 24)])
  | .lmapPos d a => (835, [(d.val, 10), (a.val, 17)])
  | .lmapLane d a => (963, [(d.val, 10), (a.val, 17)])
  | .scan op d a => (69, [(op.code, 7), (d.val, 10), (a.val, 17)])
  | .scanX op d a => (71, [(op.code, 7), (d.val, 10), (a.val, 17)])
  | .rdx op d a => (73, [(op.code, 7), (d.val, 10), (a.val, 17)])
  | .ld sz d b o i => (75, [(sz.code, 7), (d.val, 9), (b.val, 23), (o.val, 16), (i.val, 28)])
  | .ldSigned half d b o i => (77, [(half.toNat, 7), (d.val, 9), (b.val, 23), (o.val, 16), (i.val, 28)])
  | .st sz d b o i => (79, [(sz.code, 7), (d.val, 9), (b.val, 23), (o.val, 16), (i.val, 28)])
  | .ldAcq sc sz d b o => (81, [(sc.code, 28), (sz.code, 7), (d.val, 9), (b.val, 23), (o.val, 16)])
  | .stRel sc sz d b o => (83, [(sc.code, 28), (sz.code, 7), (d.val, 9), (b.val, 23), (o.val, 16)])
  | .lds sz d b o i => (85, [(sz.code, 7), (d.val, 9), (b.val, 23), (o.val, 16), (i.val, 28)])
  | .sts sz d b o i => (87, [(sz.code, 7), (d.val, 9), (b.val, 23), (o.val, 16), (i.val, 28)])
  | .sld sz d b i => (89, [(sz.code, 7), (d.val, 9), (b.val, 23), (i.val, 28)])
  | .sst sz d b i => (91, [(sz.code, 7), (d.val, 9), (b.val, 23), (i.val, 28)])
  | .gth sz d b o i => (93, [(sz.code, 7), (d.val, 9), (b.val, 23), (o.val, 16), (i.val, 28)])
  | .prf llc b o i => (95, [(llc.toNat, 7), (b.val, 23), (o.val, 16), (i.val, 28)])
  | .fence sc kind => (97, [(sc.code, 24), (kind.code, 27)])
  | .efence sc kind => (225, [(sc.code, 24), (kind.code, 27)])
  | .cflush sc b o => (99, [(sc.code, 24), (b.val, 10), (o.val, 17)])
  | .cinv sc b o => (227, [(sc.code, 24), (b.val, 10), (o.val, 17)])
  | .czero b o => (355, [(b.val, 10), (o.val, 17)])
  | .carve d a b => (2147484131, [(d.val, 10), (a.val, 17), (b.code, 24)])
  | .cquery d b o => (2147484259, [(d.val, 10), (b.val, 24), (o.val, 17)])
  | .atmReturning aop wide d b o => (357, [(aop.code, 28), (wide.toNat, 7), (d.val, 9), (b.val, 23), (o.val, 16)])
  | .atmPosted aop wide d b o => (101, [(aop.code, 28), (wide.toNat, 7), (d.val, 9), (b.val, 23), (o.val, 16)])
  | .casReturning wide d b o => (359, [(wide.toNat, 7), (d.val, 9), (b.val, 23), (o.val, 16)])
  | .casPosted wide d b o => (103, [(wide.toNat, 7), (d.val, 9), (b.val, 23), (o.val, 16)])
  | .rcallLane d b o i => (105, [(d.val, 7), (b.val, 14), (o.val, 19), (i.val, 26)])
  | .rcallScalar d b i => (107, [(d.val, 7), (b.val, 14), (i.val, 26)])
  | .rinst d a b => (2147483757, [(d.val, 10), (a.val, 17), (b.code, 24)])
  | .rdrop d b => (2147483885, [(d.val, 10), (b.code, 24)])
  | .bar n b => (2147483759, [(n.val, 10), (b.code, 24)])
  | .barr n b => (2147483887, [(n.val, 10), (b.code, 24)])
  | .barw n => (367, [(n.val, 10)])
  | .gbar => (495, [])
  | .abinit a b => (2147484271, [(a.val, 17), (b.code, 24)])
  | .abarr d a => (751, [(d.val, 10), (a.val, 17)])
  | .abexp a b => (2147484527, [(a.val, 17), (b.code, 24)])
  | .abwait a b => (2147484655, [(a.val, 17), (b.code, 24)])
  | .trec n a => (113, [(n.val, 10), (a.val, 17)])
  | .tcopy tr ab n c a => (2147483889, [(tr.toNat, 15), (ab.toNat, 14), (n.val, 10), (c.val, 24), (a.val, 17)])
  | .tstore tr n c a => (2147484017, [(tr.toNat, 15), (n.val, 10), (c.val, 24), (a.val, 17)])
  | .tquant n c a => (2147484145, [(n.val, 10), (c.val, 24), (a.val, 17)])
  | .tgath ab n c a => (2147484273, [(ab.toNat, 14), (n.val, 10), (c.val, 24), (a.val, 17)])
  | .tfill n c => (2147484401, [(n.val, 10), (c.val, 24)])
  | .tred n c a => (2147484529, [(n.val, 10), (c.val, 24), (a.val, 17)])
  | .mma fmt tile a b => (115, [(fmt.code, 28), (tile.val, 10), (a.val, 16), (b.val, 22)])
  | .mmaUnfold fmt n tile b => (16499, [(fmt.code, 28), (n.val, 16), (tile.val, 10), (b.val, 22)])
  | .mmas fmt tile a b => (243, [(fmt.code, 28), (tile.val, 10), (a.val, 16), (b.val, 22)])
  | .aclr tile => (371, [(tile.val, 10)])
  | .amov d tile => (499, [(d.val, 16), (tile.val, 10)])
  | .aput tile a => (627, [(tile.val, 10), (a.val, 16)])
  | .ast fmt tile a => (755, [(fmt.code, 28), (tile.val, 10), (a.val, 16)])
  | .unf n a => (883, [(n.val, 10), (a.val, 16)])
  | .vemit d a b => (2147483765, [(d.val, 10), (a.val, 17), (b.code, 24)])
  | .intrp d b => (2147483893, [(d.val, 10), (b.code, 24)])
  | .fpost d a b => (2147484021, [(d.val, 10), (a.val, 17), (b.code, 24)])
  | .tbind d a b => (2147484149, [(d.val, 10), (a.val, 17), (b.code, 24)])
  | .tmeth m3 a k => (2147484277, [(3 * m3.toNat, 10), (a.val, 17), (k.val, 24)])
  | .tmethClear a k => (2147485301, [(a.val, 17), (k.val, 24)])
  | .tmethResolve k => (2147486325, [(k.val, 24)])
  | .tsample d a k => (2147484405, [(d.val, 10), (a.val, 17), (k.val, 24)])
  | .tsampleSettle d a k => (3221226229, [(d.val, 10), (a.val, 17), (k.val, 24)])
  | .tex d a b => (2147484533, [(d.val, 10), (a.val, 17), (b.code, 24)])
  | .texf d a b => (2147484661, [(d.val, 10), (a.val, 17), (b.code, 24)])
  | .rtrace d a b => (2147483767, [(d.val, 10), (a.val, 17), (b.val, 24)])
  | .rtraceAny d a b => (3221225591, [(d.val, 10), (a.val, 17), (b.val, 24)])
  | .rnext d => (247, [(d.val, 10)])
  | .racc => (375, [])
  | .rhit d b => (2147484151, [(d.val, 10), (b.code, 24)])
  | .regroup => (631, [])
  | .launch d a b => (2147483769, [(d.val, 10), (a.val, 17), (b.code, 24)])
  | .cwait d a => (249, [(d.val, 10), (a.val, 17)])
  | .ralloc d b => (2147484025, [(d.val, 11), (b.code, 24)])
  | .rallocIn d => (377, [(d.val, 11)])
  | .rcommit a => (505, [(a.val, 18)])
  | .rdone a => (633, [(a.val, 18)])
  | .trap b => (2147483771, [(b.code, 24)])
  | .rti b => (2147483899, [(b.code, 24)])
  | .sysc b => (2147484027, [(b.code, 24)])
  | .brk b => (2147484155, [(b.code, 24)])
  | .halt => (635, [])
  | .rbank d b => (2147484411, [(d.val, 10), (b.code, 24)])
  | .rbankW s b => (2147549947, [(s.val, 10), (b.code, 24)])
  | .tlbinv a b => (2147484539, [(a.val, 17), (b.code, 24)])
  | .fresume d a => (1019, [(d.val, 10), (a.val, 17)])
  | .ctxsv d a b => (2147483773, [(d.val, 10), (a.val, 17), (b.code, 24)])
  | .ctxld d a b => (2147483901, [(d.val, 10), (a.val, 17), (b.code, 24)])
  | .ctr d a => (381, [(d.val, 10), (a.val, 17)])
  | .ctrsel a b => (2147484157, [(a.val, 17), (b.code, 24)])
  | .ext opnds num => (127, [(opnds.val, 15), (num.val, 7)])
  | .hLdl d k => (0, [(d.code, 8), (k.val, 15)])
  | .hStl k b => (1, [(k.val, 15), (b.code, 22)])
  | .hLdo d k => (2, [(d.code, 8), (k.val, 15)])
  | .hLdc d k => (3, [(d.code, 8), (k.val, 15)])
  | .hLi d imm => (4, [(d.code, 8), (imm.toNat, 15)])
  | .hLiHi d imm => (36, [(d.code, 8), (imm.toNat, 15)])
  | .hAdd m d a b => (5, [(m.code, 5), (d.code, 8), (a.code, 15), (b.code, 22)])
  | .hSub m d a b => (6, [(m.code, 5), (d.code, 8), (a.code, 15), (b.code, 22)])
  | .hMul m d a b => (7, [(m.code, 5), (d.code, 8), (a.code, 15), (b.code, 22)])
  | .hAnd d a b => (8, [(d.code, 8), (a.code, 15), (b.code, 22)])
  | .hOr d a b => (9, [(d.code, 8), (a.code, 15), (b.code, 22)])
  | .hXor d a b => (10, [(d.code, 8), (a.code, 15), (b.code, 22)])
  | .hShl d a b => (11, [(d.code, 8), (a.code, 15), (b.code, 22)])
  | .hShr d a b => (12, [(d.code, 8), (a.code, 15), (b.code, 22)])
  | .hSar d a b => (13, [(d.code, 8), (a.code, 15), (b.code, 22)])
  | .hMin unsigned d a b => (14, [(unsigned.toNat, 5), (d.code, 8), (a.code, 15), (b.code, 22)])
  | .hMax unsigned d a b => (15, [(unsigned.toNat, 5), (d.code, 8), (a.code, 15), (b.code, 22)])
  | .hFadd m d a b => (16, [(m.code, 5), (d.code, 8), (a.code, 15), (b.code, 22)])
  | .hFmul m d a b => (17, [(m.code, 5), (d.code, 8), (a.code, 15), (b.code, 22)])
  | .hFfma m d a b => (18, [(m.code, 5), (d.code, 8), (a.code, 15), (b.code, 22)])
  | .hFmin m d a b => (19, [(m.code, 5), (d.code, 8), (a.code, 15), (b.code, 22)])
  | .hFmax m d a b => (20, [(m.code, 5), (d.code, 8), (a.code, 15), (b.code, 22)])
  | .hCvt m d a b => (21, [(m.code, 5), (d.code, 8), (a.code, 15), (b.code, 22)])
  | .hCmp m c a b => (22, [(m.code, 5), (c.val, 29), (a.code, 15), (b.code, 22)])
  | .hSel d c a b => (23, [(d.code, 8), (c.val, 29), (a.code, 15), (b.code, 22)])
  | .hSkip m n c => (24, [(m.code, 5), (n.val, 22), (c.val, 29)])
  | .hRet => (25, [])
  | .hFwd n a => (26, [(n.val, 22), (a.code, 15)])
  | .hAbt b => (27, [(b.code, 22)])
  | .hEnd => (28, [])
  | _ => (0, [])

/-- The number of an instruction's own word. -/
def Instr.word (i : Instr) : Nat := i.parts.2.foldl (fun n f => n + f.1 * 2 ^ f.2) i.parts.1

/-- The sixteen 16-bit forms (R27). -/
def Instr.is16 : Instr → Bool
  | .add16 _ _ | .sub16 _ _ | .mul16 _ _ | .and16 _ _ | .or16 _ _ | .xor16 _ _ | .shl16 _ _ | .shr16 _ _ | .sar16 _ _ | .mov16 _ _ | .min16 _ _ | .max16 _ _ | .fadd16 _ _ | .fsub16 _ _ | .fmul16 _ _ | .fmax16 _ _ => true
  | _ => false

/-- The literal words that follow an instruction's own word (R33). -/
def Instr.lits : Instr → List W16
  | .liLane _ lit => halves lit.toNat
  | .liScalar _ lit => lit.parcels
  | .lea _ lit => lit.parcels
  | _ => []

/-- The parcels that encode a core instruction, literal words included (R20, R26, R33). -/
def encode (i : Instr) : List W16 := if i.is16 then [BitVec.ofNat 16 i.word] else halves i.word ++ i.lits

/-- Length of a core instruction in parcels (R26). -/
def Instr.parcels (i : Instr) : Nat := (encode i).length

/-- `nbits` bits of the table's row, the bits above zero: a 32-bit row with bit 0 clear is an anvil word (a core
instruction of two parcels has bit 0 set); one with bit 0 set is read as a core word and, where that is none, as an
anvil word. -/
noncomputable def decodeTableWord (nbits w : Nat) : Option Instr :=
  let w := w % 2 ^ nbits
  let ps := (List.range 6).map fun i => BitVec.ofNat 16 (w / 2 ^ (16 * i))
  if nbits = 32 ∧ w % 2 = 0 then (decodeH w).toOption
  else match decode ps with
    | .ok (i, _) => some i
    | .error _ => (decodeH w).toOption

end Sys2Proof
end

