-- ==== Sys2Proof/Config.lean ====
section
/-! DEFINITION. What one implementation fixes, and the values the spec leaves open. A constant without a body is a FREE
VALUE: no proof can see what it is, so a claim holds whatever it is. Each is fed by the state's `tick`, which counts the
free values drawn, or by the operands it depends on. -/

namespace Sys2Proof.Config

/-- Which of the agents that can move moves next (R47 apart, the spec orders no two agents). DESIGN CHOICE, log entry 4. -/
opaque schedule : Nat → Nat
/-- Arithmetic clocks that pass between two steps. DESIGN CHOICE, log entry 5. -/
opaque elapsed : Nat → Nat
/-- A choice the spec leaves to the device: TLB replacement, a double match (R125), the order of engine elements (R227). -/
opaque pick : Nat → Nat
/-- Contents of memory after a warm reset that did not preserve it (R359). -/
opaque undefByte : Nat → Nat → W8
/-- Contents of a frame's private areas (R334), by save and offset. -/
opaque privByte : Nat → Nat → W8
/-- Bytes of report records, whose layout the spec does not give (R333, R357). -/
opaque reportByte : Nat → Nat → W8
/-- Bytes of an attestation report, from what it holds: the measurements, the nonce, a partition's configuration; the number of the
report names what else its signature rests on. -/
opaque attestByte : List (List W8) → List W8 → List (Nat × W64) → Nat → Nat → W8
/-- Length of an attestation report (R358). -/
opaque reportLen : Nat
/-- Words the spec leaves undefined or does not state. -/
opaque word : Nat → W64

/-- Bank and row of a 64-byte unit in its stack (R130 gives the stack and no more of the address map). -/
opaque bankOf : Nat → Nat
opaque rowOf : Nat → Nat
/-- Pseudo-channel of a bank (R131 names pseudo-channels, and no map of them). -/
opaque channelOf : Nat → Nat

/-- FEAT_BASE (R42): widths 0b111, 16 tiles, 128 vector registers, level 1. -/
def featBase : W64 := 0x7101001#64

/-- Cores per die, per package, slices per die (R3). -/
def coresPerDie : Nat := 96
def cores : Nat := 384
def slicesPerDie : Nat := 256

/-- Bytes of a core's SRAM pool (R4). -/
def poolBytes : Nat := 2 * 1024 * 1024

end Sys2Proof.Config
end

