-- ==== Sys2Proof/Machine/State.lean ====
section
/-! DEFINITION. The state of the machine, as plain data: every part is a record, or a finite map from numbers to records
(`TMap`). Numbers name things as follows.

* a team by its own number; group g of team t by 128 t + g; split i of a group by 4 (group) + i;
* a core, pair, slice or controller by its global number (R6, R337); a line by PA / 128; a word of memory by PA / 4;
* vector register r at position p by 64 r + p; tile word w of tile t by 128 t + w. -/

namespace Sys2Proof.Machine

/-- Why a run stops with a fault. -/
inductive Fault where
  /-- Raised by `step` alone: boot found a bad signature and stopped (R358), and nothing is left that can move.
  Safe: the machine does nothing more. -/
  | bootStopped
  /-- Raised by `step` alone: the state says that a split issues, but its clause holds no further instruction. No
  reachable state does. Safe: the model stops where no hardware state is described. -/
  | noInstruction
  /-- Raised by `step` alone: a routine holds a word that is no anvil word. `rinst` installs none (R186); a table that was
  written around `rinst` may hold one, and the spec states no effect. Safe: the model stops. -/
  | anvilWord
  deriving DecidableEq, Repr

/-- Why an instruction has no meaning. -/
inductive Refusal where
  /-- Raised by an arm of `exec` for an instruction that is not modelled. Safe: the model stops. -/
  | notModelled (mnemonic : String)
  deriving DecidableEq, Repr

/-- Trap causes (R329). -/
inductive Cause where
  | none | illegalOp | extEmu | prot | align | poison | barClobber | gbarNoncoop | stackSpill | target | record | brk | sysc
  deriving DecidableEq, Repr, Inhabited

/-- A trap: its cause and what the trap registers take. -/
structure Trap where
  cause : Cause := .none
  pc    : W64 := 0
  lanes : W64 := 0
  addr  : W64 := 0
  info  : W64 := 0
  deriving DecidableEq, Repr, Inhabited

/-- A failed register-returning operation whose trap is still due (R330). -/
structure Defer where
  /-- the operation, in order of issue -/
  id   : Nat := 0
  flag : Nat := 15
  trap : Trap := {}
  deriving DecidableEq, Repr, Inhabited

/-- What the instruction of a split that has given up its slot waits for (R48). -/
inductive Cond where
  /-- flags of the mask at zero (R65) -/
  | flags (mask : Nat)
  /-- path counter n at most k (R66) -/
  | path (n k : Nat)
  /-- the translations it asked for (R126) -/
  | xlate
  /-- operations to retire (R142, R143, R156) -/
  | ops (ids : List Nat)
  /-- the write-throughs of its core numbered below `id` to be acknowledged; those to peers too when `sy` (R142) -/
  | rel (id : Nat) (sy : Bool)
  /-- the team's named barrier `n` leaves phase `r`; `own` for a split that marked itself in that phase (R201) -/
  | bar (n : Nat) (own r : Bool)
  /-- grid barrier phase (R212) -/
  | gbar (phase : Nat)
  /-- arrival barrier at `off` leaves phase `r` (R207) -/
  | abar (off : Nat) (r : Bool)
  /-- backing-pool slots (R315): its turn, and `n` slots FREE -/
  | slots (n : Nat)
  /-- a child grid to complete (R310) -/
  | child (grid : Nat)
  deriving DecidableEq, Repr, Inhabited

/-- What keeps a split from issuing. -/
inductive Wait where
  | ready
  /-- its instruction waits -/
  | cond (c : Cond)
  /-- parked at a `join` (R54) -/
  | parked
  /-- asleep until `until_` (R64) -/
  | asleep
  /-- switching to the deferred lanes of its entry (R55) -/
  | switching
  /-- its entry returns from the context area (R56) -/
  | entryReturn
  /-- parked at `regroup` (R293) -/
  | regroup
  /-- a page fault to save (R128), or a save under way -/
  | faulting
  /-- saved to a frame -/
  | saved
  /-- a trap taken once register-returning operations have retired (R331) -/
  | trapping (t : Trap)
  /-- a trap to hand off, with the code of a `trap` instruction (R333) -/
  | handing (t : Trap) (code : W64)
  /-- a service request (R345) -/
  | service (b : Nat)
  /-- the last `exit` of a team waits for its operations (R58) -/
  | ending
  deriving DecidableEq, Repr, Inhabited

/-- A split (R7, R54): a program counter with its own lanes and scalar registers. -/
structure Split where
  live  : Bool := false
  lanes : W64 := 0
  /-- address of the clause header -/
  pc    : W64 := 0
  /-- the clause as fetched, header included (R26) -/
  code  : List W16 := []
  /-- the header has been accepted and the clause runs; its instruction count -/
  begun : Bool := false
  count : Nat := 0
  /-- index of the next instruction in its clause, and its offset in parcels from the header -/
  idx   : Nat := 0
  off   : Nat := 0
  /-- instructions of its clause that a restored split passes over when the clause starts -/
  skip  : Nat := 0
  /-- guard bits read when the clause started (R50) -/
  guard : W64 := 0
  flagA : Nat := 15
  flagB : Nat := 15
  s     : TMap W64 := []
  /-- innermost reconvergence entry + 1, 0 for none (R53) -/
  entry : Nat := 0
  wait  : Wait := .ready
  until_ : Nat := 0
  /-- a `yield` in its clause; the longest `sleep` in it (R64) -/
  yielding : Bool := false
  nap   : Nat := 0
  /-- translations asked for and their outcome, by page: 1 under way, 2 page fault, 3 PROT (R126) -/
  xl    : TMap Nat := []
  /-- how far a waiting instruction has come -/
  phase : Nat := 0
  /-- a number the waiting instruction keeps for itself -/
  aux   : Nat := 0
  pass  : Nat := 0
  /-- untracked operations outstanding (R49) -/
  untracked : Nat := 0
  defer : List Defer := []
  deriving DecidableEq, Repr, Inhabited

/-- A reconvergence entry (R53). -/
structure Entry where
  live    : Bool := false
  parent  : Nat := 0
  lanes   : W64 := 0
  pending : Nat := 0
  arrived : W64 := 0
  /-- lowest position of the path whose scalar registers are kept, and the registers -/
  low     : Nat := 0
  s       : TMap W64 := []
  /-- address after the `join` of the last path that arrived by `join` -/
  joinPc  : W64 := 0
  /-- deferred lanes of a serialised branch, where they resume, and their scalar registers -/
  dlanes  : W64 := 0
  dpc     : W64 := 0
  ds      : TMap W64 := []
  /-- in the context area (R56) -/
  spilled : Bool := false
  deriving DecidableEq, Repr, Inhabited

/-- A lane of a fragment kernel (R257). -/
structure Frag where
  live   : Bool := false
  helper : Bool := false
  x      : Nat := 0
  y      : Nat := 0
  ord    : Nat := 0
  /-- coverage in each target slot -/
  cov    : TMap W32 := []
  /-- slots posted to; the line of each slot as its notice entry named it (R257) -/
  posted : BitVec 16 := 0
  lines  : TMap Nat := []
  deriving DecidableEq, Repr, Inhabited

/-- A node on a ray's stack: child reference or root address, and its tnear. -/
structure RayNode where
  addr : W64 := 0
  leaf : Bool := false
  tn   : W32 := 0
  deriving DecidableEq, Repr, Inhabited

/-- The record of a ray (R286) with u, v and the leaf address. -/
structure RayRec where
  t    : W32 := 0
  id   : W32 := 0
  st   : W32 := 0
  u    : W32 := 0
  v    : W32 := 0
  leaf : W64 := 0
  deriving DecidableEq, Repr, Inhabited

/-- A lane's ray (R282, R285, R292). -/
structure Ray where
  /-- a record is held -/
  has  : Bool := false
  /-- traversal under way -/
  busy : Bool := false
  susp : Bool := false
  any  : Bool := false
  vec  : List W32 := []      -- o.xyz, d.xyz, tmin, tmax
  root : W64 := 0
  tcur : W32 := 0
  stack : List RayNode := []
  /-- best candidate: exact t = num / den, and its record -/
  hasBest : Bool := false
  num  : Int := 0
  den  : Nat := 1
  best : RayRec := {}
  rec_ : RayRec := {}
  visited : Nat := 0
  /-- the node to read next missed the L1, and was counted so -/
  missed : Bool := false
  op   : Nat := 0
  parked : Bool := false
  deriving DecidableEq, Repr, Inhabited

/-- Where the scalar results of an instruction of a split go once paths have split and met (R54, R55): to its split, to the
registers that an entry keeps for its merge, to those of its deferred lanes, or nowhere. -/
inductive Home where
  | own | kept (entry : Nat) | deferred (entry : Nat) | lost
  deriving DecidableEq, Repr, Inhabited

/-- A fixed-latency result on its way (R52, R72, R89, R105): the register (vector r as r, scalar n as 128 + n, predicate n as
192 + n, 256 for none), the split, the lanes that it writes, the clock of the write, and the float flags that come with it (R88). -/
structure Late where
  code  : Nat := 0
  split : Nat := 0
  mask  : W64 := 0
  due   : Nat := 0
  flags : Nat := 0
  home  : Home := .own
  deriving DecidableEq, Repr, Inhabited

/-- State of a group's idempotent region (R322). -/
inductive Region where
  | opened | sealed | draining
  deriving DecidableEq, Repr, Inhabited

/-- A page fault to be recorded (R128). -/
structure FaultInfo where
  kind  : Nat := 0
  addr  : W64 := 0
  lanes : W64 := 0
  frame : W64 := 0
  team  : Nat := 0
  core  : Nat := 0
  group : Nat := 0
  deriving DecidableEq, Repr, Inhabited

/-- A group (R7): lanes in lock-step. -/
structure Group where
  live   : Bool := false
  core   : Nat := 0
  width  : Nat := 0
  /-- vector registers and tiles of the launch -/
  vc     : Nat := 0
  tc     : Nat := 0
  sup    : Bool := false
  v      : TMap W32 := []
  p      : TMap W64 := []
  flags  : TMap Nat := []
  fpstat : W64 := 0
  /-- float flags ORed into FPSTAT at clock `fpAt` (R88) -/
  fpNew  : W64 := 0
  fpAt   : Nat := 0
  tile   : TMap W32 := []
  unf    : TMap (BitVec 128) := []
  unfSet : BitVec 4 := 0
  rng    : TMap W64 := []
  inc    : TMap W64 := []
  laneid : TMap Nat := []
  frag   : TMap Frag := []
  ray    : TMap Ray := []
  entries : TMap Entry := []
  nextEntry : Nat := 0
  age    : Nat := 0
  placed : Nat := 0
  score  : Nat := 0
  /-- split that runs the handler + 1, 0 outside handler mode (R331) -/
  handler : Nat := 0
  /-- the bank that is switched out: s56-s63 under 0-7, p56-p63 under 8-15 -/
  bank   : TMap W64 := []
  tCause : Cause := .none
  tPc    : W64 := 0
  tLanes : W64 := 0
  tAddr  : W64 := 0
  tInfo  : W64 := 0
  /-- the program's clause at the last trap: its split as it stood (R332) -/
  tSplit : Split := {}
  region : Region := .opened
  /-- its start: the splits and entries as they stood, the tiles named, the unfold slots (R320) -/
  rSplits : TMap Split := []
  rEntries : TMap Entry := []
  rMask  : BitVec 16 := 0
  rUnf   : TMap (BitVec 128) := []
  rUnfSet : BitVec 4 := 0
  /-- phase R and arrived bit H of each named barrier (R199) -/
  barR   : TMap Bool := []
  barH   : TMap Bool := []
  /-- splits that have marked each barrier in the phase in progress, and the count of the first of them; key 32 is the grid barrier -/
  marks  : TMap (BitVec 4) := []
  markN  : TMap Nat := []
  /-- fixed-latency results on their way, in order of issue -/
  late   : List Late := []
  /-- frame held: address, 0 for none (R334) -/
  frame  : W64 := 0
  saved  : Bool := false
  /-- kind of the save that is due or made (R334), 0 for none -/
  saveKind : Nat := 0
  /-- the clock at which the time of its region runs out once it is asked to stop (R322) -/
  expiry : Nat := 0
  fault  : FaultInfo := {}
  /-- the child that a save of kind 5 waits for (R307); for a save of kind 1 or 6, 1 once `fresume` has named its frame -/
  child  : Nat := 0
  /-- matrix operations not yet applied, oldest first (R237) -/
  mtx    : List Nat := []
  badV   : TMap Bool := []
  badT   : TMap Bool := []
  /-- its shadow has parted from it: an output of the shadow may be unequal to the group's (R343) -/
  parted : Bool := false
  deriving DecidableEq, Repr, Inhabited

/-- A group parked at `regroup` (R293). -/
structure RgArr where
  group : Nat
  addr  : W64
  clock : Nat
  deriving DecidableEq, Repr, Inhabited

/-- A named barrier (R199). -/
structure NBar where
  team  : Nat := 0      -- owning team + 1
  phase : Bool := false
  count : Nat := 0
  arr   : Nat := 0
  /-- the clock of its last completion + 1 (R201) -/
  done  : Nat := 0
  deriving DecidableEq, Repr, Inhabited

inductive TeamKind where
  | compute | vertex | fragment | batch
  deriving DecidableEq, Repr, Inhabited

/-- A team (R7). -/
structure Team where
  live    : Bool := false
  kind    : TeamKind := .compute
  grid    : Nat := 0
  teamId  : Nat := 0
  core    : Nat := 0
  pair    : Bool := false
  lanes   : Nat := 0
  ngroups : Nat := 0
  width   : Nat := 0
  vregs   : Nat := 0
  tiles   : Nat := 0
  spSize  : Nat := 0
  scratch : TMap W8 := []
  /-- operations counted on each path in issue order, with their completion (R120) -/
  path    : TMap (List (Nat × Bool)) := []
  /-- core barriers that stand for the team's barriers 0, 1, ... (R199) -/
  bars    : List Nat := []
  chart   : TMap (BitVec 512) := []
  chartSet : BitVec 16 := 0
  /-- lane map: team position -> virtual number + 1 (R113) -/
  laneMap : TMap Nat := []
  rg      : List RgArr := []
  /-- work graph node of a batch team or entry team + 1, its graph, its batch (slot numbers) -/
  node    : Nat := 0
  graph   : Nat := 0
  batch   : List Nat := []
  ending  : Bool := false
  /-- the number below which the core's write-throughs are waited for at its end, + 1 (R58) -/
  flushed : Nat := 0
  /-- its area stands in frames, with its barriers as they were (R323, R334); pre-emption has been requested -/
  saved   : Bool := false
  frames  : List Nat := []
  savedBars : List NBar := []
  preempt : Bool := false
  bad     : TMap Bool := []
  deriving DecidableEq, Repr, Inhabited

/-- A line in an L1 (R117). -/
structure L1Line where
  live  : Bool := false
  valid : W32 := 0
  dirty : W32 := 0
  owned : W32 := 0
  psn   : BitVec 4 := 0
  c     : Bool := false
  part  : Nat := 0
  stamp : Nat := 0
  /-- group whose store made each word dirty, + 1 (R320) -/
  tag   : TMap Nat := []
  data  : Line := 0
  deriving DecidableEq, Repr, Inhabited

/-- A merged TLB entry (R124): the 4 MiB region `blk` (VA / 4 MiB) of a partition. -/
structure Tlb where
  part  : Nat := 0
  blk   : Nat := 0
  /-- page number of member 0 -/
  base  : Nat := 0
  valid : W64 := 0
  dirty : W64 := 0
  r     : Bool := false
  w     : Bool := false
  x     : Bool := false
  c     : Bool := false
  s     : Bool := false
  ty    : Nat := 0
  /-- where the block of level-4 entries stands -/
  ent   : Nat := 0
  deriving DecidableEq, Repr, Inhabited

/-- A call-table entry (R182). -/
structure CallEnt where
  cls  : Nat := 0
  ops  : Nat := 0
  rets : Nat := 0
  deriving DecidableEq, Repr, Inhabited

/-- An event counter (R337). -/
structure Ctr where
  ev  : Nat := 0
  val : W64 := 0
  deriving DecidableEq, Repr, Inhabited

/-- A core (R4). -/
structure Core where
  /-- issue slots: the split each runs + 1 -/
  slots   : TMap Nat := []
  l1      : TMap L1Line := []
  stamp   : Nat := 0
  victims : List Nat := []
  tlb     : List Tlb := []
  bars    : TMap NBar := []
  /-- armed barriers: team and offset (R209) -/
  armed   : List (Nat × Nat) := []
  posts   : List Post := []
  ctr     : TMap Ctr := []
  deriving DecidableEq, Repr, Inhabited

/-- A tag of the LLC (R158), with the line's contents. -/
structure Tag where
  valid  : Bool := false
  dirty  : Bool := false
  form   : Nat := 0
  secs   : List Nat := []
  psn    : BitVec 4 := 0
  carved : Bool := false
  stamp  : Nat := 0
  part   : Nat := 0
  data   : Line := 0
  deriving DecidableEq, Repr, Inhabited

/-- A registry entry (R141). Owners below 384 are cores; others are Slotlink cores. -/
structure RegEnt where
  line  : Nat
  owner : Nat
  mask  : W32
  stamp : Nat
  deriving DecidableEq, Repr, Inhabited

/-- An anvil invocation (R178). -/
structure Inv where
  live  : Bool := false
  req   : InvReq := default
  l     : Line := 0
  wrote : W32 := 0
  o     : TMap W32 := []
  cst   : TMap W32 := []
  k     : TMap W32 := []
  cond  : BitVec 4 := 0
  q     : TMap W32 := []
  code  : TMap W32 := []
  len   : Nat := 0
  rets  : Nat := 0
  pc    : Nat := 0
  clocks : Nat := 0
  /-- recorded forward post: first operand code + 1, count -/
  fwdA  : Nat := 0
  fwdN  : Nat := 0
  deriving DecidableEq, Repr, Inhabited

/-- An engine hold on a line by an operation; `done` once the operation has written every byte it will write there. -/
structure Hold where
  line : Nat
  op   : Nat
  done : Bool
  deriving DecidableEq, Repr, Inhabited

/-- A cached routine-table entry (R181, R182): 256 part + id, and its 128 words. -/
structure RtEnt where
  key   : Nat
  words : List W32
  deriving DecidableEq, Repr, Inhabited

/-- A home slice and its anvil. -/
structure Slice where
  tags   : TMap Tag := []
  stamp  : Nat := 0
  reg    : List RegEnt := []
  /-- engine holds in the order granted (R144) -/
  holds  : List Hold := []
  inv    : Inv := {}
  /-- invocations that have arrived and wait for their table entry (R182) -/
  waits  : List InvReq := []
  /-- atomic ORs of page-table walkers that wait for an engine hold or the anvil: partition, address, bits (R122, R144, R179) -/
  ors    : List (Nat × Nat × Nat) := []
  /-- sets that the carve of a partition has changed in this slice (R170) -/
  carveAt : TMap Nat := []
  /-- cached table entries, most recent first (R182) -/
  cache  : List RtEnt := []
  charge : TMap Nat := []
  notices : List Notice := []
  held   : List Post := []
  ctr    : TMap Ctr := []
  deriving DecidableEq, Repr, Inhabited

/-- A carved chunk (R168): the partition, its place in the region, the bank. -/
structure Chunk where
  part : Nat
  k    : Nat
  bank : Nat
  deriving DecidableEq, Repr, Inhabited

/-- A die. -/
structure Die where
  tlb    : List Tlb := []
  chartTlb : List Tlb := []
  /-- transfers the chart engine holds, in order of arrival (R218) -/
  chartQ : List Nat := []
  /-- bytes of present capacity below R8's range; a failed layer waits to be mapped out (R360) -/
  lost   : Nat := 0
  failing : Bool := false
  /-- MC_IDLE_TIMER per stack, XOR its reset value 256 -/
  idleTimer : TMap Nat := []
  /-- open rows: bank -> row + 1 and the clock at which its timer expires -/
  rows   : TMap (Nat × Nat) := []
  /-- postponed refreshes of a pseudo-channel c of a stack, under 2 c + stack (R131) -/
  postponed : TMap Nat := []
  /-- 64-byte units used per partition in the period (R130) -/
  used   : TMap Nat := []
  borrowMax : Nat := 160000
  chunks : List Chunk := []
  power  : BitVec 6 := 0
  deriving DecidableEq, Repr, Inhabited

/-- A target slot (R253). -/
structure TSlot where
  bound : Bool := false
  rec_  : BitVec 512 := 0
  m     : Nat := 0
  deriving DecidableEq, Repr, Inhabited

inductive WgSt where
  | free | allocated | queued | batched
  deriving DecidableEq, Repr, Inhabited

/-- A backing-pool slot (R313). -/
structure WgSlot where
  st    : WgSt := .free
  team  : Nat := 0
  graph : Nat := 0
  node  : Nat := 0
  clock : Nat := 0
  deriving DecidableEq, Repr, Inhabited

/-- A report record of the service (R333): a trap handed off, with the code that a `trap` instruction gave, 0 otherwise, or the
fields of a fault record. -/
structure Report where
  part : Nat
  code : W64
  trap : Trap
  fault : FaultInfo
  deriving DecidableEq, Repr, Inhabited

/-- What the service answers over port 0 (R356, R358). -/
inductive Reply where
  | bootFail
  /-- the trap hand-offs and error records of a partition, its counters (0 core, 1 slice, 2 controller; the unit; the counter), and
  the count of what was discarded -/
  | report (part : Nat) (records : List Report) (counters : List (Nat × Nat × Nat × Ctr)) (discards : Nat)
  /-- the measurements, the nonce, the configuration of each partition -/
  | attestation (measured : List (List W8)) (nonce : List W8) (config : List (Nat × List (Nat × W64)))
  deriving DecidableEq, Repr, Inhabited

/-- A partition (R327). -/
structure Part where
  live   : Bool := false
  regs   : TMap W64 := []
  /-- the call table that every core keeps for the partition (R182): `rinst` and `rdrop` change all of them before they retire,
  and no call tells one from another -/
  calls  : TMap CallEnt := []
  winBase : TMap W64 := []
  winLimit : TMap W64 := []
  slots  : TMap TSlot := []
  wg     : TMap WgSlot := []
  /-- frames taken: frame index -> group + 1 -/
  frames : TMap Nat := []
  /-- records waiting to be posted (R327) -/
  waiting : List FaultInfo := []
  /-- waiting `ralloc`s in arrival order: splits (R315) -/
  rallocQ : List Nat := []
  /-- launch entries counting (R306) -/
  count  : Nat := 0
  spillHead : Nat := 0
  spillTail : Nat := 0
  /-- grids of the records standing in the spill ring, oldest first -/
  spilled : List Nat := []
  /-- parked accesses that a ticket resumes (R349) -/
  tickets : List Nat := []
  /-- hot-remove records not yet answered: dies -/
  removes : List Nat := []
  snapUsed : TMap Nat := []
  key    : Bool := false
  deriving DecidableEq, Repr, Inhabited

/-- A hardware queue (R297). -/
structure Queue where
  base : W64 := 0
  size : W64 := 0
  tail : BitVec 32 := 0
  head : BitVec 32 := 0
  ctl  : W64 := 0
  /-- grids and draws of its records not yet complete -/
  open_ : List Nat := []
  /-- a record read and not passed: WAIT or SIGNAL -/
  busy : Bool := false
  parked : Bool := false
  /-- stopped once its record in progress is past (R324) -/
  stopping : Bool := false
  deriving DecidableEq, Repr, Inhabited

inductive GridKind where
  | compute | vertex | fragment | graph | reproj
  deriving DecidableEq, Repr, Inhabited

/-- The grid of a launch (R300-R303). -/
structure Grid where
  live   : Bool := false
  kind   : GridKind := .compute
  part   : Nat := 0
  /-- queue + 1, 0 for a device launch -/
  queue  : Nat := 0
  die    : Nat := 0
  /-- launching grid + 1; the grid at the root of the launches, whose snapshot it shares (R341) -/
  parent : Nat := 0
  root   : Nat := 0
  handle : Nat := 0
  prio   : Nat := 0
  sup    : Bool := false
  entry  : W64 := 0
  word   : W32 := 0
  teams  : Nat := 0
  lanes  : Nat := 0
  bars   : Nat := 0
  pair   : Bool := false
  coop   : Bool := false
  verify : Bool := false
  snap   : Bool := false
  region : Nat := 0
  compl  : W64 := 0
  draw   : Nat := 0
  graph  : Nat := 0
  rec_   : BitVec 512 := 0
  admitted : Bool := false
  /-- its place in the order of admission (R304) -/
  order  : Nat := 0
  /-- it counts against the launch quota (R306) -/
  counts : Bool := false
  /-- cores that ran its teams; the number below which their write-throughs are waited for at completion, + 1 (R303) -/
  ran    : List Nat := []
  flushed : Nat := 0
  /-- its completion word is parked (R374) -/
  parked : Bool := false
  placed : Nat := 0
  ended  : Nat := 0
  err    : Nat := 0
  trapped : Bool := false
  done   : Bool := false
  status : Nat := 0
  reaped : Bool := false
  replayed : Bool := false
  unprotected : Bool := false
  /-- grid barrier: phases released and groups arrived in the current one (R212) -/
  gphase : Nat := 0
  garr   : List Nat := []
  /-- pages copied for the snapshot: page and slot (R341) -/
  pages  : List (Nat × Nat) := []
  deriving DecidableEq, Repr, Inhabited

/-- A vertex as emitted (R272). -/
structure Vert where
  has  : Bool := false
  pos  : List W32 := []
  attr : List W32 := []
  deriving DecidableEq, Repr, Inhabited

/-- A quad of fragment lanes waiting to be launched (R257). -/
structure Quad where
  x    : Nat
  y    : Nat
  ord  : Nat
  frags : List Frag
  deriving DecidableEq, Repr, Inhabited

/-- A draw (R301). -/
structure Draw where
  live   : Bool := false
  part   : Nat := 0
  queue  : Nat := 0
  die    : Nat := 0
  rec_   : BitVec 512 := 0
  vgrid  : Nat := 0
  fgrid  : Nat := 0
  verts  : TMap Vert := []
  /-- triangles assembled so far; those kept -/
  nprim  : Nat := 0
  prims  : List Nat := []
  /-- the 64 x 64 tile that is rasterised, and the place in `prims` of its next primitive -/
  tile   : Nat := 0
  tprim  : Nat := 0
  /-- quads to be launched; those of the last primitive, whose notices are not all accepted; the number of these -/
  quads  : List Quad := []
  newQuads : List Quad := []
  notices : Nat := 0
  parked : Bool := false
  stopped : Bool := false
  rasterDone : Bool := false
  deriving DecidableEq, Repr, Inhabited

/-- A node of a work graph (R311). -/
structure Node where
  entry  : W64 := 0
  word   : W32 := 0
  lanes  : Nat := 0
  bars   : Nat := 0
  depth  : Nat := 0
  timeout : Nat := 0
  words  : Nat := 0
  pair   : Bool := false
  outs   : List Nat := []
  /-- QUEUED slots in commit order -/
  queued : List Nat := []
  deriving DecidableEq, Repr, Inhabited

/-- A batch that has formed and is not yet a team (R314): its node, its slots, the clock at which it formed. -/
structure Batch where
  node  : Nat
  slots : List Nat
  clock : Nat
  deriving DecidableEq, Repr, Inhabited

/-- A work graph under way (R314). -/
structure Graph where
  live  : Bool := false
  part  : Nat := 0
  grid  : Nat := 0
  nodes : TMap Node := []
  count : Nat := 0
  /-- formed batches in order of formation -/
  ready : List Batch := []
  deriving DecidableEq, Repr, Inhabited

/-- What an operation does with what it has read, when it retires. -/
inductive OpKind where
  | none
  | load (sz : MemSz) (signed : Bool) (d : Nat)
  | sload (sz : MemSz) (d : Nat)
  /-- results at hand since the issue -/
  | regs
  | store
  | gather (sz : MemSz) (dst : Nat)
  | cacheOp
  | query (d : Nat)
  | atomic
  | call
  | rinst (id d : Nat)
  | rdrop (id d : Nat)
  | tbind (slot d : Nat)
  | trec (n : Nat)
  | launch (d prio : Nat)
  | chart (sub n : Nat) (tr ab : Bool)
  | mtx (sub : Nat) (fmt : Fmt) (tile : Nat)
  | vemit
  | post
  | tmeth
  | sample
  | tex (slot filter d : Nat)
  | texf (slot level d : Nat)
  | ray
  | rcommit
  | rdone
  | ralloc
  | tlbinv
  | ctxld (d n : Nat)
  | carve (part die target : Nat)
  deriving DecidableEq, Repr, Inhabited

/-- A long-latency operation in flight (R49). -/
structure Op where
  live  : Bool := false
  kind  : OpKind := .none
  split : Nat := 0
  /-- where its scalar results go -/
  home  : Home := .own
  core  : Nat := 0
  part  : Nat := 0
  grid  : Nat := 0
  flag  : Nat := 15
  /-- it writes registers when it retires, and names flag A -/
  returning : Bool := false
  /-- path counted on + 1 -/
  path  : Nat := 0
  /-- parts not yet finished -/
  need  : Nat := 0
  lanes : W64 := 0
  /-- virtual and physical address of each access still of use, by lane (64 for a scalar); a narrow store that waits for its
  words keeps their byte masks instead, by word -/
  vas   : TMap W64 := []
  pas   : TMap Nat := []
  /-- memory words captured, or to be stored, by word: PA / 4 -/
  cap   : TMap W32 := []
  /-- words (PA / 4) that a load still waits for (R146) -/
  awaits : List Nat := []
  /-- lanes whose access failed -/
  bad   : W64 := 0
  badS  : Bool := false
  /-- results: vector registers (64 r + p), scalar registers -/
  res   : TMap W32 := []
  sres  : TMap W64 := []
  /-- predicate bits written at retirement (p60 of `tsample`) -/
  pset  : W64 := 0
  pclr  : W64 := 0
  fail  : Defer := default
  failed : Bool := false
  /-- engine and matrix operations: scalar operands, the record, box positions still to move -/
  a     : W64 := 0
  a1    : W64 := 0
  b     : W64 := 0
  b1    : W64 := 0
  b2    : W64 := 0
  rec_  : BitVec 512 := 0
  todo  : List Nat := []
  started : Bool := false
  parked : Bool := false
  /-- clock + 1 at which its requests to a peer went out: all of them (0), or the one for a line of a transfer, by work (R355) -/
  sent  : TMap Nat := []
  /-- its register and tile results are discarded and it counts on no flag any more (R57, R323) -/
  discard : Bool := false
  /-- counts as an access of its split for releases (R142): 0 no, 1 load, 2 store, atomic or post, 3 engine -/
  cls   : Nat := 0
  deriving DecidableEq, Repr, Inhabited

/-- A write-through whose revokes are not yet acknowledged (R141). -/
structure Ack where
  live : Bool := false
  left : Nat := 0
  wt   : WtReq := default
  deriving DecidableEq, Repr, Inhabited

/-- An event to come: not before clock `due`. -/
structure Pending where
  due : Nat
  ev  : Ev
  deriving DecidableEq, Repr

/-- An event that comes from outside; a request with the requester under whose key its HMAC was made. -/
structure Input where
  ev   : Ev
  key  : Nat
  deriving DecidableEq, Repr

/-- Who moves next. -/
inductive Turn where
  /-- any agent that can move, by the free schedule -/
  | choose
  /-- the split issues its next instruction -/
  | split (k : Nat)
  /-- the anvil of a slice runs its next word -/
  | anvil (slice : Nat)
  /-- the pending event at a place of the agenda -/
  | event (n : Nat)
  /-- an event that the state itself makes due -/
  | run (e : Ev)
  /-- the next outside input -/
  | input
  /-- time passes -/
  | idle
  deriving DecidableEq, Repr, Inhabited

/-- How far boot has come (R358). -/
inductive Boot where
  | rom | running | failed
  deriving DecidableEq, Repr, Inhabited

/-- What RESET_CAUSE records (R359). -/
inductive ResetKind where
  | none | orderly | fatal
  deriving DecidableEq, Repr, Inhabited

/-- One display output (R324). -/
structure Output where
  ctl     : W64 := 0
  reproj  : W64 := 0
  present : W64 := 0
  stat    : W64 := 0
  mode    : W64 := 0
  last    : W64 := 0
  shown   : W64 := 0
  used    : Nat := 0
  grid    : Nat := 0
  /-- every team of the frame's re-projection grid has been placed (R324) -/
  placed  : Bool := false
  deriving DecidableEq, Repr, Inhabited

/-- Physical memory behind the slices, Slotlink window included: cells in canonical form, and how often it has been left
undefined (R359). -/
structure Memory where
  epoch : Nat := 0
  cells : List Host.Cell := []
  deriving DecidableEq, Repr, Inhabited

/-- The machine. -/
structure State where
  /-- the split whose instruction runs, the slice whose anvil word runs -/
  cur    : Nat := 0
  curSlice : Nat := 0
  turn   : Turn := .choose
  clock  : Nat := 0
  tick   : Nat := 0
  nextId : Nat := 1
  agenda : List Pending := []
  /-- what reaches the package from outside, in order -/
  inputs : List Input := []
  /-- the requester under whose key the HMAC of the input being read was made; none where that has been checked already (R356) -/
  hmac   : Option Nat := none
  splits : TMap Split := []
  groups : TMap Group := []
  teams  : TMap Team := []
  ops    : TMap Op := []
  cores  : TMap Core := []
  slices : TMap Slice := []
  dies   : TMap Die := []
  mem    : Memory := {}
  /-- poisoned 32-byte sectors of HBM: PA / 32 -/
  poison : TMap Bool := []
  parts  : TMap Part := []
  queues : TMap Queue := []
  grids  : TMap Grid := []
  draws  : TMap Draw := []
  graphs : TMap Graph := []
  acks   : TMap Ack := []
  /-- event counters of the eight controllers: 512 ctl + 8 part + i -/
  mcCtr  : TMap Ctr := []
  reports : List Report := []
  grants : List Grant := []
  peerGrants : List Grant := []
  outs   : TMap Output := []
  reserve : W64 := 0
  regionMax : Nat := 16000
  slotId : BitVec 10 := 0
  preserve : Bool := false
  resetCause : ResetKind := .none
  hot    : Bool := false
  boot   : Boot := .rom
  measured : List (List W8) := []
  attestKey : Bool := false
  sessions : List Nat := []
  /-- requests and writes discarded that the service's report counts (R298, R356) -/
  discards : Nat := 0
  /-- answers of the service, the last one last -/
  replies : List Reply := []
  deriving DecidableEq, Repr, Inhabited

/-- The machine right after a cold reset: nothing resident, memory with nothing listed, every register at the value the
spec gives, or the one that log entry 1 (DESIGN CHOICE) names; boot has not begun. -/
def State.reset : State := {}

end Sys2Proof.Machine
end

