-- ==== Sys2Proof/Machine/Ops.lean ====
section
/-! DEFINITION. The named operations over the parts of the state: finding and changing them, registers, masks, the end of
an instruction and of a clause, operations in flight, counters, regions, and taking a trap and returning from it. -/

namespace Sys2Proof

/-- Change the value of a key. -/
def TMap.mod {α : Type} [Inhabited α] [DecidableEq α] (m : TMap α) (k : Nat) (f : α → α) : TMap α := m.wr k (f (m.rd k))

end Sys2Proof

namespace Sys2Proof.Machine

abbrev Res := Host.Outcome State Fault Refusal

/-! ### Parts of the state -/

def State.modSplit (k : Nat) (f : Split → Split) (s : State) : State := { s with splits := s.splits.mod k f }
def State.modGroup (k : Nat) (f : Group → Group) (s : State) : State := { s with groups := s.groups.mod k f }
def State.modTeam (k : Nat) (f : Team → Team) (s : State) : State := { s with teams := s.teams.mod k f }
/-- An operation that has ended is not changed any more. -/
def State.modOp (k : Nat) (f : Op → Op) (s : State) : State := if (s.ops.rd k).live then { s with ops := s.ops.mod k f } else s
def State.modCore (k : Nat) (f : Core → Core) (s : State) : State := { s with cores := s.cores.mod k f }
def State.modSlice (k : Nat) (f : Slice → Slice) (s : State) : State := { s with slices := s.slices.mod k f }
def State.modDie (k : Nat) (f : Die → Die) (s : State) : State := { s with dies := s.dies.mod k f }
def State.modPart (k : Nat) (f : Part → Part) (s : State) : State := { s with parts := s.parts.mod k f }
def State.modQueue (k : Nat) (f : Queue → Queue) (s : State) : State := { s with queues := s.queues.mod k f }
def State.modGrid (k : Nat) (f : Grid → Grid) (s : State) : State := { s with grids := s.grids.mod k f }
def State.modDraw (k : Nat) (f : Draw → Draw) (s : State) : State := { s with draws := s.draws.mod k f }
def State.modGraph (k : Nat) (f : Graph → Graph) (s : State) : State := { s with graphs := s.graphs.mod k f }

/-- The executing split, its group, its team, and their numbers. -/
def State.sp (s : State) : Split := s.splits.rd s.cur
abbrev State.gk (s : State) : Nat := s.cur / 4
abbrev State.tk (s : State) : Nat := s.cur / 512
def State.gr (s : State) : Group := s.groups.rd s.gk
def State.tm (s : State) : Team := s.teams.rd s.tk
/-- Its grid, its partition, its core. -/
def State.gd (s : State) : Grid := s.grids.rd s.tm.grid
def State.pt (s : State) : Nat := s.gd.part
abbrev State.cr (s : State) : Nat := s.gr.core

def State.modSp (f : Split → Split) (s : State) : State := s.modSplit s.cur f
def State.modGr (f : Group → Group) (s : State) : State := s.modGroup s.gk f
def State.modTm (f : Team → Team) (s : State) : State := s.modTeam s.tk f

/-- GROUPID: the group's number in its team (R68). -/
def State.gid (s : State) : Nat := s.gk % 128

/-- The groups and the splits of a team; the live ones of a group. -/
def teamGroups (s : State) (t : Nat) : List Nat := (List.range (s.teams.rd t).ngroups).map (128 * t + ·)
def groupSplits (g : Nat) : List Nat := [4 * g, 4 * g + 1, 4 * g + 2, 4 * g + 3]
def liveSplits (s : State) (g : Nat) : List Nat := (groupSplits g).filter fun k => (s.splits.rd k).live

/-- A die of a core, of a physical address (R6, R8). -/
def dieOfCore (c : Nat) : Nat := c / Config.coresPerDie

/-- A partition's register (R327). -/
def State.preg (s : State) (p n : Nat) : W64 := (s.parts.rd p).regs.rd n

/-! ### Free values -/

/-- The next value that the spec leaves open, `i` places ahead (Config.word). -/
def State.fresh (s : State) (i : Nat := 0) : W64 := Config.word (s.tick + i)
/-- `n` free values have been drawn. -/
def State.drawn (n : Nat) (s : State) : State := { s with tick := s.tick + n }

/-! ### Masks -/

/-- Ones at positions 0 to w - 1. -/
def ones (w : Nat) : W64 := BitVec.ofNat 64 (2 ^ w - 1)

/-- The positions of a mask, ascending. -/
def positions (m : W64) : List Nat := (List.range 64).filter fun p => m.getLsbD p

/-- A mask of positions. -/
def maskOf (ps : List Nat) : W64 := ps.foldl (fun m p => m ||| (1#64 <<< p)) 0

/-- The lowest position of a mask, 64 for none. -/
def lowest (m : W64) : Nat := (positions m).headD 64

/-- The effective mask of the executing split: its live lanes whose guard bit is set (R50). -/
def State.act (s : State) : W64 := s.sp.lanes &&& s.sp.guard

/-! ### Registers -/

/-- v[r] at a position. -/
def Group.vr (g : Group) (r p : Nat) : W32 := g.v.rd (64 * r + p)

/-- Write v[r] at one position; the word's poison (R339) goes with its old contents. -/
def Group.setV (g : Group) (r p : Nat) (x : W32) : Group :=
  { g with v := g.v.wr (64 * r + p) x, badV := g.badV.wr (64 * r + p) false }

/-- Predicate n as a mask by position: p0 reads all ones (R70, R115). -/
def Group.pr (g : Group) (n : Nat) : W64 := if n = 0 then ones g.width else g.p.rd n

/-- Write a predicate where the mask is set; a write to p0 is discarded (R69). -/
def Group.setP (g : Group) (n : Nat) (m x : W64) : Group :=
  if n = 0 then g else { g with p := g.p.wr n ((g.p.rd n &&& ~~~m) ||| (x &&& m)) }

/-- Scalar register n of the executing split. -/
def State.sr (s : State) (n : Nat) : W64 := s.sp.s.rd n
def State.setS (n : Nat) (x : W64) (s : State) : State := s.modSp fun y => { y with s := y.s.wr n x }

/-- Write v[r] at each position of a mask, from values read before (R24). -/
def Group.setVs (g : Group) (r : Nat) (ps : List Nat) (f : Nat → W32) : Group :=
  ps.foldl (fun g p => g.setV r p (f p)) g

/-! ### Results of fixed latency (R52, R72, R88, R89, R105)

The registers take a result at issue; its entry in `late` holds every reader back until the clock of the write, so no reader
can tell (DEDUCED, log entry 6). Where an earlier instruction's write to the same register comes later than an instruction's own,
that write is the last, so the instruction's own leaves no trace. Of two writes in one clock the later instruction's stays
(DESIGN CHOICE, log entry 6). Float flags are ORed in at the clock of the write. -/

/-- A write to vector register `r` at position `p` at clock `due` comes before one that an earlier instruction has on its way. -/
def Group.overtaken (g : Group) (r due p : Nat) : Bool := g.late.any fun e => e.code == r && e.mask.getLsbD p && due < e.due

/-- The same for scalar register `n` of split `k`, or of the registers that its path leaves to an entry. -/
def Group.overtakenS (g : Group) (k : Nat) (home : Home) (n due : Nat) : Bool :=
  g.late.any fun e => e.code == 128 + n && e.split == k && e.home == home && due < e.due

/-- Positions of the effective mask at which a result of latency `lat` for v[r] is the last to be written. -/
def State.lands (s : State) (r lat : Nat) : List Nat := (positions s.act).filter fun p => !s.gr.overtaken r (s.clock + lat) p

/-- The entry of a result: register code, latency, float flags. -/
def State.lateWrite (code lat flags : Nat) (s : State) : State :=
  s.modGr fun g => { g with late := g.late ++ [{ code := code, split := s.cur, mask := s.act, due := s.clock + lat, flags := flags }] }

/-- Float flags that results bring up to clock `c`. -/
def Group.raised (c : Nat) (g : Group) : W64 :=
  g.late.foldl (fun f e => if e.due ≤ c then f ||| BitVec.ofNat 64 (e.flags % 64) else f) 0

/-- Entries whose clock has come leave, and their float flags are ORed into FPSTAT. -/
def Group.settle (c : Nat) (g : Group) : Group :=
  { g with
    fpstat := g.fpstat ||| g.raised c
    fpNew := (if g.fpAt = c then g.fpNew else 0) ||| g.raised c
    fpAt := c
    late := g.late.filter fun e => c < e.due }

/-- FPSTAT after a `swreg` of `x` at clock `c`: the value is written first, and the flags that take effect in the same clock are ORed
into it (R88). -/
def Group.fpWritten (g : Group) (c : Nat) (x : W64) : W64 := (x &&& 0x3F) ||| (if g.fpAt = c then g.fpNew else 0)

/-- The last of a list of results has been written. -/
def Group.lastDue (g : Group) : Nat := (g.late.map (·.due)).foldl max 0

/-! ### Counters (R337, R338) -/

def bumpCtr (m : TMap Ctr) (base cnt ev n : Nat) : TMap Ctr :=
  (List.range cnt).foldl (fun m i =>
    let c := m.rd (base + i)
    if c.ev = ev then m.wr (base + i) { c with val := c.val + BitVec.ofNat 64 n } else m) m

/-- A core event tagged with a partition. -/
def State.coreEv (core part ev n : Nat) (s : State) : State :=
  s.modCore core fun c => { c with ctr := bumpCtr c.ctr (8 * part) 8 ev n }
/-- A slice event; levels count both ways, so the amount is an integer. -/
def State.sliceEv (slice part ev : Nat) (n : Int) (s : State) : State :=
  s.modSlice slice fun c => { c with ctr := bumpCtr c.ctr (4 * part) 4 ev (n % 2 ^ 64).toNat }
/-- A controller event. -/
def State.mcEv (ctl part ev n : Nat) (s : State) : State :=
  { s with mcCtr := bumpCtr s.mcCtr (512 * ctl + 8 * part) 8 ev n }

/-! ### Events to come -/

/-- An event falls due at a clock. -/
def State.later (due : Nat) (e : Ev) (s : State) : State := { s with agenda := s.agenda ++ [{ due := due, ev := e }] }
/-- An event may come at once. -/
def State.soon (e : Ev) (s : State) : State := s.later s.clock e
/-- The event waits and comes again, before anything later on its channel. -/
def State.again (e : Ev) (s : State) : State := { s with agenda := { due := s.clock, ev := e } :: s.agenda }
/-- The same, not before a clock. -/
def State.againAt (due : Nat) (e : Ev) (s : State) : State := { s with agenda := { due := due, ev := e } :: s.agenda }
/-- Ask for an event unless it is already asked for. -/
def State.ask (e : Ev) (s : State) : State := if s.agenda.any (·.ev = e) then s else s.soon e

/-! ### Slots, and the end of an instruction and of a clause -/

/-- The split gives up its issue slot. -/
def State.freeSlot (k : Nat) (s : State) : State :=
  { s with cores := s.cores.map fun e => (e.1, { e.2 with slots := e.2.slots.filter fun x => x.2 != k + 1 }) }

/-- The executing instruction waits (R48): the split gives up its slot and issues the instruction again when the condition
holds. -/
def State.waitFor (c : Cond) (s : State) : State := (s.modSp fun x => { x with wait := .cond c }).freeSlot s.cur

/-- The instruction stalls in place and holds its slot (R48): the step leaves everything as it is. -/
def State.stall (s : State) : State := s

/-- Address of the executing instruction. -/
def State.ia (s : State) : W64 := s.sp.pc + BitVec.ofNat 64 (2 * s.sp.off)

/-- The clause ends and the split's next clause is at `pc`: its slot is free; a `yield` makes the group the youngest and a
`sleep` delays the split (R64). -/
def State.endClause (pc : W64) (s : State) : State :=
  let x := s.sp
  let s := s.freeSlot s.cur
  let s := if x.yielding then s.modGr fun g => { g with age := s.clock } else s
  s.modSp fun x => { x with
    pc := pc, code := [], begun := false, count := 0, idx := 0, off := 0, phase := 0, aux := 0, xl := [], pass := 0
    yielding := false, nap := 0
    wait := if x.nap = 0 then .ready else .asleep
    until_ := if x.nap = 0 then 0 else s.clock + x.nap }

/-- The instruction, of `n` parcels, is done: the next one of its clause follows, or the clause ends. -/
def State.adv (n : Nat) (s : State) : State :=
  let x := s.sp
  let s := s.coreEv s.cr s.pt 0x03 1
  if x.idx + 1 < x.count then
    s.modSp fun x => { x with idx := x.idx + 1, off := x.off + n, phase := 0, aux := 0, xl := [], wait := .ready }
  else s.endClause (x.pc + BitVec.ofNat 64 (2 * (x.off + n)))

/-- The clause ends with a transfer of control. -/
def State.jumpTo (pc : W64) (s : State) : State := (s.coreEv s.cr s.pt 0x03 1).endClause pc

/-! ### Regions (R320 to R322) -/

/-- An event of R321: an OPEN region becomes SEALED. -/
def State.sealGroup (g : Nat) (s : State) : State :=
  let x := s.groups.rd g
  if x.live ∧ x.region = .opened then
    (s.modGroup g fun x => { x with region := .sealed }).coreEv x.core (s.grids.rd (s.teams.rd (g / 128)).grid).part 0x0B 1
  else s
/-- The executing group's region. -/
def State.sealNow (s : State) : State := s.sealGroup s.gk

/-! ### Operations in flight (R49, R120) -/

/-- An operation of the executing split, as it stands at issue. -/
def State.op0 (s : State) : Op :=
  { live := true, split := s.cur, core := s.cr, part := s.pt, grid := s.tm.grid }

/-- Flag A of the clause, flag B. -/
def State.fa (s : State) : Nat := s.sp.flagA
def State.fb (s : State) : Nat := s.sp.flagB

/-- A flag counts 63 already (R49), a path counter 65,535 (R120). -/
def State.full (flag : Nat) (s : State) : Bool := flag < 12 && s.gr.flags.rd flag ≥ 63
def State.pathFull (n : Nat) (s : State) : Bool := (s.tm.path.rd n).length ≥ 65535

/-- The flag of an operation for which no clause waits: one that names no flag, or an untracked one whose split has ended. -/
def orphan : Nat := 13

/-- Issue an operation under number `s.nextId`: it counts on its flag, or as untracked, and on its path. -/
def State.issue (o : Op) (s : State) : State :=
  let id := s.nextId
  let s := { s with nextId := id + 1, ops := s.ops.wr id o }
  let s :=
    if o.flag < 12 then s.modGroup (o.split / 4) fun g => { g with flags := g.flags.mod o.flag (· + 1) }
    else if o.flag = orphan then s
    else s.modSplit o.split fun x => { x with untracked := x.untracked + 1 }
  if o.path = 0 then s
  else s.modTeam (o.split / 512) fun t => { t with path := t.path.mod (o.path - 1) (· ++ [(id, false)]) }

/-- Counts at the head of a path that are complete are removed (R120). -/
def prunePath : List (Nat × Bool) → List (Nat × Bool)
  | [] => []
  | (id, d) :: r => if d then prunePath r else (id, d) :: r

/-- An operation's path count is complete. -/
def State.pathDone (id : Nat) (s : State) : State :=
  let o := s.ops.rd id
  if o.path = 0 then s
  else s.modTeam (o.split / 512) fun t =>
    { t with path := t.path.mod (o.path - 1) fun l => prunePath (l.map fun e => if e.1 = id then (id, true) else e) }

/-- Deferred traps in the order of issue. -/
def addDefer (d : Defer) : List Defer → List Defer
  | [] => [d]
  | e :: r => if d.id < e.id then d :: e :: r else e :: addDefer d r

/-- An operation retires: it lowers its flag and completes its path count; a failure is due at the next waiting point
(R330). -/
def State.opDone (id : Nat) (s : State) : State :=
  let o := s.ops.rd id
  let s := s.pathDone id
  let s :=
    if o.discard then s
    else if o.flag < 12 then s.modGroup (o.split / 4) fun g => { g with flags := g.flags.mod o.flag (· - 1) }
    else if o.flag = orphan then s
    else s.modSplit o.split fun x => { x with untracked := x.untracked - 1 }
  let s := if o.failed && !o.discard then s.modSplit o.split fun x => { x with defer := addDefer { o.fail with id := id } x.defer } else s
  { s with ops := s.ops.del id }

/-- `n` parts of an operation are done; with the last one it can retire. -/
def State.partDone (id n : Nat) (s : State) : State :=
  let o := s.ops.rd id
  if o.live then
    let s := s.modOp id fun o => { o with need := o.need - n }
    if o.need ≤ n then s.soon (.operationRetire id) else s
  else s

/-- An operation with nothing outstanding can retire. -/
def State.readyIfDone (id : Nat) (s : State) : State := if (s.ops.rd id).need = 0 then s.soon (.operationRetire id) else s

/-- Operations in flight of one split that pass a test. -/
def splitOps (s : State) (k : Nat) (f : Op → Bool) : List Nat :=
  (s.ops.filter fun e => e.2.live && e.2.split == k && !e.2.discard && f e.2).map (·.1)
/-- Operations in flight of one group, of one team. -/
def groupOps (s : State) (g : Nat) (f : Op → Bool) : List Nat :=
  (s.ops.filter fun e => e.2.live && e.2.split / 4 == g && !e.2.discard && f e.2).map (·.1)
def teamOps (s : State) (t : Nat) : List Nat :=
  (s.ops.filter fun e => e.2.live && e.2.split / 512 == t).map (·.1)

/-- Where the scalar results of a split's instructions go changes (R54, R55). -/
def State.rehome (k : Nat) (f : Home → Home) (s : State) : State :=
  let s := { s with ops := s.ops.map fun (e : Nat × Op) => (e.1, if e.2.split = k then { e.2 with home := f e.2.home } else e.2) }
  s.modGroup (k / 4) fun g => { g with late := g.late.map fun (e : Late) => if e.split = k then { e with home := f e.home } else e }

/-- The operations, results and deferred traps of a split pass to another (a merge, R54). -/
def State.retarget (a b : Nat) (s : State) : State :=
  if a = b then s
  else
    let x := s.splits.rd a
    let s := { s with ops := s.ops.map fun (e : Nat × Op) => (e.1, if e.2.split = a then { e.2 with split := b } else e.2) }
    let s := s.modGroup (a / 4) fun g => { g with late := g.late.map fun (e : Late) => if e.split = a then { e with split := b } else e }
    let s := s.modSplit b fun y => { y with untracked := y.untracked + x.untracked, defer := x.defer.foldl (fun l d => addDefer d l) y.defer }
    s.modSplit a fun y => { y with untracked := 0, defer := [] }

/-- The results of an operation go to vector registers (64 r + position) and to the scalar registers of its split, or to those that
an entry keeps of the split's path (R54); those of an ended group are discarded (R57). A result of fixed latency that is still on its way
to a register comes after them. -/
def State.results (o : Op) (vs : List (Nat × W32)) (ss : List (Nat × W64)) (s : State) : State :=
  if o.discard then s
  else
    let g := s.groups.rd (o.split / 4)
    let ss := ss.filter fun e => !g.overtakenS o.split o.home e.1 s.clock
    let put (m : TMap W64) : TMap W64 := ss.foldl (fun m e => m.wr e.1 e.2) m
    let entry (i : Nat) (f : Entry → Entry) (y : Group) : Group := { y with entries := y.entries.mod i f }
    let s := s.modGroup (o.split / 4) fun y =>
      (vs.filter fun e => !g.overtaken (e.1 / 64) s.clock (e.1 % 64)).foldl (fun y e => y.setV (e.1 / 64) (e.1 % 64) e.2) y
    match o.home with
    | .own => s.modSplit o.split fun x => { x with s := put x.s }
    | .kept i => s.modGroup (o.split / 4) (entry i fun e => { e with s := put e.s })
    | .deferred i => s.modGroup (o.split / 4) (entry i fun e => { e with ds := put e.ds })
    | .lost => s

/-- The launch's asynchronous error count rises (R340); a draw keeps one for all its grids. -/
def State.asyncErr (grid : Nat) (s : State) : State :=
  let g := s.grids.rd grid
  let s := if g.live then s.modGrid grid fun g => { g with err := g.err + 1 } else s
  let r := s.grids.rd g.root
  if g.live ∧ g.snap ∧ ¬ r.unprotected ∧ ¬ r.replayed then s.ask (.snapshotRollback g.root) else s

/-! ### Traps (R329 to R333) -/

/-- `n` low bits given, the others free. -/
def lowInfo (free : W64) (n : Nat) (low : W64) : W64 := (free &&& ~~~(ones n)) ||| (low &&& ones n)

/-- TRAP_INFO: `n` low bits given, bits 23:16 the flag of a deferred trap, bit 24 deferred, bit 25 header; every other bit
is not stated and comes from the free word (DESIGN CHOICE, log entry 7). -/
def trapInfo (free : W64) (n : Nat) (low : W64) (flag : Option Nat) (hdr : Bool) : W64 :=
  let x := lowInfo free n low
  let x := match flag with
    | some f => (x &&& ~~~(0xFF0000#64)) ||| (BitVec.ofNat 64 f <<< 16) ||| 0x1000000#64
    | none => x &&& ~~~(0x1000000#64)
  if hdr then x ||| 0x2000000#64 else x &&& ~~~(0x2000000#64)

/-- The banks of s56 to s63 and p56 to p63 change places (R331, R332); of a result on its way to
them only the float flags are still to come. -/
def State.swapBank (k : Nat) (s : State) : State :=
  let x := s.splits.rd k
  let g := s.groups.rd (k / 4)
  let js := List.range 8
  let s := s.modSplit k fun x => { x with s := js.foldl (fun m j => m.wr (56 + j) (g.bank.rd j)) x.s }
  s.modGroup (k / 4) fun g => { g with
    late := g.late.map fun e => if (184 ≤ e.code ∧ e.code < 192 ∧ e.split = k) ∨ 248 ≤ e.code then { e with code := 256 } else e
    p := js.foldl (fun m j => m.wr (56 + j) (g.bank.rd (8 + j))) g.p
    bank := js.foldl (fun m j => (m.wr j (x.s.rd (56 + j))).wr (8 + j) (g.p.rd (56 + j))) g.bank }

/-- A split of the group that is not this one is taking a trap or runs the handler (R331). -/
def otherTraps (s : State) (k : Nat) : Bool :=
  let g := s.groups.rd (k / 4)
  (g.handler != 0 && g.handler != k % 4 + 1) ||
    (groupSplits (k / 4)).any fun j => j != k &&
      match (s.splits.rd j).wait with
      | .trapping _ | .handing _ _ => true
      | _ => false

/-- Register-returning operations of a group still to retire. -/
def returning (s : State) (g : Nat) : Bool := groupOps s g (·.returning) != []

/-- TRAP_CAUSE codes (R329). -/
def Cause.code : Cause → Nat
  | .none => 0 | .illegalOp => 1 | .extEmu => 2 | .prot => 3 | .align => 4 | .poison => 5 | .barClobber => 6
  | .gbarNoncoop => 7 | .stackSpill => 8 | .target => 9 | .record => 10 | .brk => 11 | .sysc => 12

/-- Trap entry, steps 3 to 5 of R331, or the hand-off where the vector is 0 (R329, R333). Deferred traps of the program that
are still due are kept with it until `rti` (R330). -/
def State.enterTrap (k : Nat) (t : Trap) (s : State) : State :=
  let g := k / 4
  let part := (s.grids.rd (s.teams.rd (k / 512)).grid).part
  let s := s.sealGroup g
  let vec := s.preg part (if t.cause = .extEmu then 2 else 1)
  if vec = 0 then s.modSplit k fun x => { x with wait := .handing t 0 }
  else
    let s := s.modGroup g fun y => { y with
      handler := k % 4 + 1, tCause := t.cause, tPc := t.pc, tLanes := t.lanes, tAddr := t.addr, tInfo := t.info
      tSplit := { s.splits.rd k with s := [], wait := .ready } }
    let s := s.swapBank k
    s.modSplit k fun x => { x with
      defer := []
      pc := vec, code := [], begun := false, count := 0, idx := 0, off := 0, phase := 0, aux := 0, xl := [], pass := 0
      yielding := false, nap := 0, wait := .ready }

/-- A shadow that has parted from its group gives other addresses, masks or data than the group at its next output, or the same: which, is
free (R343; DESIGN CHOICE, log entry 113). -/
def State.unequal (s : State) : Bool := Config.pick s.tick % 2 == 1
/-- An inequality counts VERIFY_MISMATCH and an asynchronous error (R343). -/
def State.mismatch (g : Nat) (s : State) : State :=
  let t := (s.teams.rd (g / 128)).grid
  (s.coreEv (s.groups.rd g).core (s.grids.rd t).part 0x0E 1).asyncErr t

/-- Split `k` traps. A trap at which its group's shadow is unequal to it is not taken: the instruction is executed again (R343, log
entry 113). In handler mode the trap is handed off (R333); while another split of the group traps or is in the
handler, the split is held at its instruction and traps again later; otherwise it enters its handler, at once when no
register-returning operation of the group is outstanding (R331). -/
def State.raiseFor (k : Nat) (t : Trap) (s : State) : State :=
  let s := s.freeSlot k
  let g := s.groups.rd (k / 4)
  if g.parted && s.unequal then ((s.drawn 1).mismatch (k / 4)).modSplit k fun x => { x with wait := .ready } else
  let count (s : State) : State := s.coreEv g.core (s.grids.rd (s.teams.rd (k / 512)).grid).part 0x09 1
  if g.handler = k % 4 + 1 then (count s).modSplit k fun x => { x with wait := .handing t 0 }
  else if otherTraps s k then s.modSplit k fun x => { x with wait := .ready }
  else
    let s := count s
    if returning s (k / 4) then s.modSplit k fun x => { x with wait := .trapping t } else s.enterTrap k t

/-- The executing instruction traps, or the executing split at its clause's header (bit 25 of TRAP_INFO). `lanes` and `addr`
are free where the cause's entry states none. -/
def State.trap (c : Cause) (lanes addr : Option W64) (n : Nat) (low : W64) (s : State) : State :=
  (s.drawn 3).raiseFor s.cur
    { cause := c, pc := s.ia, lanes := lanes.getD (s.fresh 0), addr := addr.getD (s.fresh 1)
      info := trapInfo (s.fresh 2) n low none (!s.sp.begun) }

/-- A deferred trap of the executing split is due (R330): it is raised once, at this instruction or header. -/
def State.raiseDefer (d : Defer) (s : State) : State :=
  let t := { d.trap with pc := s.ia, info := trapInfo d.trap.info 16 d.trap.info (some d.flag) (!s.sp.begun) }
  let s := if otherTraps s s.cur || (s.gr.parted && s.unequal) then s else s.modSp fun x => { x with defer := x.defer.erase d }
  s.raiseFor s.cur t

/-- PROT with an access kind in TRAP_INFO[7:0] and nothing else stated. -/
def State.prot (kind : Nat) (s : State) : State := s.trap .prot none none 8 (BitVec.ofNat 64 kind)

/-- Supervisor level (R326): handler mode, or a grid at supervisor level. -/
def State.isSup (s : State) : Bool := s.gr.sup || s.gr.handler == s.cur % 4 + 1
/-- The executing split is in handler mode. -/
def State.inHandler (s : State) : Bool := s.gr.handler == s.cur % 4 + 1

/-- A supervisor instruction: at user level it traps with PROT, TRAP_INFO[7:0] = 0 (R326). -/
def State.sup (s : State) (k : State → State) : State := if s.isSup then k s else s.prot 0

/-- Parcels of the instruction that starts a list of parcels (R26). -/
def parcelsAt : List W16 → Nat
  | a :: b :: _ => if a.getLsbD 0 then (if hasLit (join32 a b) then (if b.getLsbD 15 then 6 else 4) else 2) else 1
  | _ => 1

/-- The instruction of a clause that stands `off` parcels from its header: its index, if one starts there. -/
def indexAt : Nat → List W16 → Nat → Nat → Nat → Option Nat
  | 0, _, _, _, _ => none
  | f + 1, ps, at_, i, off =>
    if at_ = off then some i else if at_ > off then none
    else indexAt f (ps.drop (parcelsAt ps)) (at_ + parcelsAt ps) (i + 1) off

/-- Return from a trap (R332): mode 0 RETRY, 1 SKIP, 2 CLAUSE. RETRY and SKIP find TRAP_PC's instruction in the clause the
split trapped in; a TRAP_PC that the handler has moved to no instruction of that clause is taken as a header (DEDUCED, log entry 8). The
`rti` ends the handler's clause, and a SKIP of a clause's last instruction ends that clause: a `yield` and the longest `sleep` of a
clause that ends act then (R64). -/
def State.returnTrap (mode : Nat) (s : State) : State :=
  let k := s.cur
  let g := s.gr
  let t := g.tSplit
  let off := (g.tPc - t.pc).toNat / 2
  let hdr := g.tInfo.getLsbD 25
  let at_ := if t.begun && !hdr && (g.tPc - t.pc).toNat % 2 = 0 then indexAt t.count (t.code.drop 2) 2 0 off else none
  let h := s.sp
  let s := s.swapBank k
  let s := (s.modGroup (k / 4) fun g => { g with handler := 0, tSplit := {} }).freeSlot k
  let ends (yields : Bool) (nap : Nat) (s : State) : State :=
    (if yields then s.modGroup (k / 4) fun g => { g with age := s.clock } else s).modSplit k fun x => { x with
      wait := if nap = 0 then .ready else .asleep
      until_ := if nap = 0 then 0 else s.clock + nap }
  let fresh (pc : W64) (s : State) := s.modSplit k fun x => { x with
    defer := t.defer.foldl (fun l d => addDefer d l) x.defer
    pc := pc, code := [], begun := false, count := 0, idx := 0, off := 0, phase := 0, aux := 0, xl := [], pass := 0
    yielding := false, nap := 0 }
  let inside (i off : Nat) (s : State) := s.modSplit k fun x => { x with
    defer := t.defer.foldl (fun l d => addDefer d l) x.defer
    pc := t.pc, code := t.code, begun := true, count := t.count, idx := i, off := off, guard := t.guard
    flagA := t.flagA, flagB := t.flagB, phase := 0, aux := 0, xl := [], pass := 0
    yielding := t.yielding, nap := t.nap }
  match mode, at_ with
  | 0, some i => ends h.yielding h.nap (inside i off s)
  | 1, some i =>
    let nxt := off + parcelsAt (t.code.drop off)
    if i + 1 < t.count then ends h.yielding h.nap (inside (i + 1) nxt s)
    else ends (h.yielding || t.yielding) (max h.nap t.nap) (fresh (t.pc + BitVec.ofNat 64 (2 * nxt)) s)
  | _, _ => ends h.yielding h.nap (fresh g.tPc s)

end Sys2Proof.Machine
end

