-- ==== Sys2Proof/Machine/Flags.lean ====
section
/-! DEFINITION. The number formats (R84 to R86), rounding and the FPSTAT flags (R87, R88, R90), and the exact functions that
are then rounded once: arithmetic, square roots, the special functions (R99), block scales (R91). -/

namespace Sys2Proof.Machine

/-! ### Flags -/

/-- Bits of FPSTAT (R88). -/
abbrev fIV : Nat := 1
abbrev fDZ : Nat := 2
abbrev fOF : Nat := 4
abbrev fUF : Nat := 8
abbrev fNX : Nat := 16
abbrev fSV : Nat := 32

/-! ### Formats -/

/-- Exponent bits, mantissa bits, bias, code of the largest finite value, of infinity (0: none), and the canonical NaN
(0: none). -/
structure FmtP where
  eb   : Nat
  mb   : Nat
  bias : Nat
  big  : Nat
  inf  : Nat
  nan  : Nat
  deriving DecidableEq, Repr

/-- R84, R86; E8M10 without its thirteen low container bits. The integer formats have no such data. -/
def Fmt.p : Fmt → FmtP
  | .f64 => ⟨11, 52, 1023, 0x7FEFFFFFFFFFFFFF, 0x7FF0000000000000, 0x7FF8000000000000⟩
  | .f32 => ⟨8, 23, 127, 0x7F7FFFFF, 0x7F800000, 0x7FC00000⟩
  | .e8m10 => ⟨8, 10, 127, 0x3FBFF, 0x3FC00, 0x3FE00⟩
  | .bf16 => ⟨8, 7, 127, 0x7F7F, 0x7F80, 0x7FC0⟩
  | .f16 => ⟨5, 10, 15, 0x7BFF, 0x7C00, 0x7E00⟩
  | .e5m2 => ⟨5, 2, 15, 0x7B, 0x7C, 0x7E⟩
  | .e4m3 => ⟨4, 3, 7, 0x7E, 0, 0x7F⟩
  | .e3m2 => ⟨3, 2, 3, 0x1F, 0, 0⟩
  | .e2m3 => ⟨2, 3, 1, 0x1F, 0, 0⟩
  | _ => ⟨2, 1, 1, 0x7, 0, 0⟩

def FTy.fmt : FTy → Fmt
  | .f32 => .f32 | .f16 => .f16 | .bf16 => .bf16 | .f64 => .f64

/-- Where the sign stands. -/
def FmtP.sign (p : FmtP) : Nat := p.eb + p.mb

/-- An operand's value: (−1)^neg × m × 2^e. -/
inductive FVal where
  | nan
  | inf (neg : Bool)
  | num (neg : Bool) (m : Nat) (e : Int)
  deriving DecidableEq, Repr

/-- The value of a code (R84). Every NaN is quiet (R86). -/
def FmtP.val (p : FmtP) (x : Nat) : FVal :=
  let neg := x.testBit p.sign
  let a := x % 2 ^ p.sign
  if p.inf ≠ 0 ∧ a = p.inf then .inf neg
  else if p.big < a then .nan
  else
    let e := a / 2 ^ p.mb
    let m := a % 2 ^ p.mb
    if e = 0 then .num neg m (1 - (p.bias : Int) - p.mb) else .num neg (m + 2 ^ p.mb) ((e : Int) - p.bias - p.mb)

/-- The code of a signed magnitude. -/
def FmtP.code (p : FmtP) (neg : Bool) (a : Nat) : Nat := if neg then 2 ^ p.sign + a else a

/-! ### Rounding -/

/-- Rounding of r + (rem / 2^k), to an integer, in a mode (R35). -/
def roundUp (mode : RMode) (neg : Bool) (r rem : Nat) (k : Nat) : Nat :=
  if rem = 0 then r
  else match mode with
    | .rz => r
    | .rp => if neg then r else r + 1
    | .rm => if neg then r + 1 else r
    | .rne => if 2 * rem > 2 ^ k ∨ (2 * rem = 2 ^ k ∧ r % 2 = 1) then r + 1 else r

/-- m × 2^e in units of 2^q, rounded, and whether it was exact. -/
def toQuantum (mode : RMode) (neg : Bool) (m : Nat) (e q : Int) : Nat × Bool :=
  if q ≤ e then (m * 2 ^ (e - q).toNat, true)
  else
    let k := (q - e).toNat
    (roundUp mode neg (m / 2 ^ k) (m % 2 ^ k) k, m % 2 ^ k == 0)

/-- Whether the mode rounds a magnitude that is beyond the largest finite value away from zero (R90). -/
def awayFromZero (mode : RMode) (neg : Bool) : Bool :=
  match mode with
  | .rne => true | .rz => false | .rp => !neg | .rm => neg

/-- The nonzero value (−1)^neg × m × 2^e rounded once to a format, with flags (R87, R90). Tininess is detected after
rounding. -/
def FmtP.round (p : FmtP) (mode : RMode) (sat : Bool) (neg : Bool) (m : Nat) (e : Int) : Nat × Nat :=
  if m = 0 then (p.code neg 0, 0)
  else
    let top : Int := e + Nat.log2 m
    let emin : Int := 1 - p.bias
    let q : Int := max top emin - p.mb
    let (r, exact) := toQuantum mode neg m e q
    let a := if r < 2 ^ p.mb then r
      else if r < 2 ^ (p.mb + 1) then (q + p.mb + p.bias).toNat * 2 ^ p.mb + (r - 2 ^ p.mb)
      else (q + 1 + p.mb + p.bias).toNat * 2 ^ p.mb
    let u := toQuantum mode neg m e (top - p.mb)
    let tiny := top < emin && !(top + 1 == emin && u.1 == 2 ^ (p.mb + 1))
    if a ≤ p.big then (p.code neg a, if exact then 0 else if tiny then fNX + fUF else fNX)
    else if sat || !awayFromZero mode neg then (p.code neg p.big, fOF + fNX + fSV)
    else if p.inf ≠ 0 then (p.code neg p.inf, fOF + fNX)
    else if p.nan ≠ 0 then (p.code neg p.nan, fOF + fNX)
    else (p.code neg p.big, fOF + fNX + fSV)

/-- A value converted to a float format (R90). -/
def FmtP.conv (p : FmtP) (mode : RMode) (sat : Bool) : FVal → Nat × Nat
  | .nan => if p.nan ≠ 0 then (p.nan, 0) else (p.big, fIV + fSV)
  | .inf neg =>
    if sat then (p.code neg p.big, fSV)
    else if p.inf ≠ 0 then (p.code neg p.inf, 0)
    else if p.nan ≠ 0 then (p.code neg p.nan, 0)
    else (p.code neg p.big, fSV)
  | .num neg m e => p.round mode sat neg m e

/-- An arithmetic result: rounded to nearest-even, overflow to infinity (R87). -/
def FmtP.rne (p : FmtP) (v : FVal) : Nat × Nat :=
  match v with
  | .nan => (p.nan, 0)
  | .inf neg => (p.code neg p.inf, 0)
  | .num neg m e => p.round .rne false neg m e

/-- The canonical NaN with IV. -/
def FmtP.invalid (p : FmtP) : Nat × Nat := (p.nan, fIV)

/-! ### Exact arithmetic on values -/

/-- Signed integer of a number at exponent `e0`, at most its own. -/
def FVal.at_ (neg : Bool) (m : Nat) (e e0 : Int) : Int :=
  let x : Int := (m * 2 ^ (e - e0).toNat : Nat)
  if neg then -x else x

/-- The exact sum of numbers; an exact zero is −0 only when every term is −0 (R87). -/
def sumNums (l : List (Bool × Nat × Int)) : FVal :=
  let e0 := l.foldl (fun b t => min b t.2.2) ((l.map (·.2.2)).headD 0)
  let x := l.foldl (fun (b : Int) t => b + FVal.at_ t.1 t.2.1 t.2.2 e0) 0
  if x = 0 then .num (l.all fun t => t.1 && t.2.1 == 0) 0 0 else .num (x < 0) x.natAbs e0

/-- A sum of terms that may be infinite or NaN. -/
inductive Sum where
  | val (v : FVal)
  | invalid
  deriving DecidableEq, Repr

/-- ∞ − ∞ is invalid, whether or not a NaN term is present; otherwise a NaN term gives NaN, an infinite term that infinity. -/
def sumTerms (ts : List FVal) : Sum :=
  let infs := ts.filterMap fun t => match t with | .inf n => some n | _ => none
  if infs.contains true && infs.contains false then .invalid
  else if ts.contains .nan then .val .nan
  else match infs with
    | n :: _ => .val (.inf n)
    | [] => .val (sumNums (ts.filterMap fun t => match t with | .num n m e => some (n, m, e) | _ => none))

def FVal.neg : FVal → FVal
  | .nan => .nan
  | .inf n => .inf !n
  | .num n m e => .num (!n) m e

def FVal.isZero : FVal → Bool
  | .num _ 0 _ => true
  | _ => false

/-- A product; none for 0 × ∞. -/
def mulVal : FVal → FVal → Option FVal
  | .inf a, .inf b => some (.inf (a != b))
  | .inf a, .num b m _ => if m = 0 then none else some (.inf (a != b))
  | .num a m _, .inf b => if m = 0 then none else some (.inf (a != b))
  | .num a m e, .num b n f => some (.num (a != b) (m * n) (e + f))
  | _, _ => some .nan

def FmtP.sum (p : FmtP) (ts : List FVal) : Nat × Nat :=
  match sumTerms ts with
  | .invalid => p.invalid
  | .val v => p.rne v

/-- Two addends: ∞ − ∞ is invalid only when neither is a NaN, which two terms make certain. -/
def FmtP.add (p : FmtP) (a b : FVal) : Nat × Nat := p.sum [a, b]
def FmtP.mul (p : FmtP) (a b : FVal) : Nat × Nat :=
  match mulVal a b with
  | none => p.invalid
  | some v => p.rne v
/-- a × b + c with one rounding; 0 × ∞ is invalid whatever c holds (R92). -/
def FmtP.fma (p : FmtP) (a b c : FVal) : Nat × Nat :=
  match mulVal a b with
  | none => p.invalid
  | some v => p.sum [v, c]
/-- c + Σ a_i × b_i, exact, one rounding (R101): any 0 × ∞ is invalid, as are infinities of both signs among the terms
that are no NaN, whether or not a NaN stands among them. -/
def FmtP.dot (p : FmtP) (c : FVal) (abs : List (FVal × FVal)) : Nat × Nat :=
  let ps := abs.map fun x => mulVal x.1 x.2
  if ps.contains none then p.invalid else p.sum (c :: ps.filterMap id)

/-- Order of two values that are no NaN: −1, 0, 1; zeros are equal. -/
def cmpVal : FVal → FVal → Int
  | .inf a, .inf b => if a = b then 0 else if a then -1 else 1
  | .inf a, _ => if a then -1 else 1
  | _, .inf b => if b then 1 else -1
  | .num a m e, .num b n f =>
    let e0 := min e f
    let x := FVal.at_ a m e e0
    let y := FVal.at_ b n f e0
    if x < y then -1 else if x = y then 0 else 1
  | _, _ => 0

/-- minimumNumber and maximumNumber (R93): codes in, code out; −0 below +0. -/
def FmtP.minmax (p : FmtP) (mx : Bool) (x y : Nat) : Nat :=
  match p.val x, p.val y with
  | .nan, .nan => p.nan
  | .nan, _ => y
  | _, .nan => x
  | a, b =>
    let c := cmpVal a b
    let less := c < 0 || (c == 0 && x.testBit p.sign && !y.testBit p.sign)
    if less != mx then x else y

/-- Relations of `fcmp` (R94). -/
def fcmpHolds (cc : FCond) (a b : FVal) : Bool :=
  let un := a == .nan || b == .nan
  let c := cmpVal a b
  match cc with
  | .eq => !un && c == 0 | .ne => un || c != 0 | .lt => !un && c < 0 | .le => !un && c ≤ 0
  | .gt => !un && c > 0 | .ge => !un && c ≥ 0 | .uno => un | .ord => !un

/-- A value rounded to an integral value in its own format (R95), without flags. -/
def FmtP.integral (p : FmtP) (mode : RMode) (x : Nat) : Nat :=
  match p.val x with
  | .nan => p.nan
  | .inf _ => x
  | .num neg m e => if e ≥ 0 ∨ m = 0 then x else (p.round .rne false neg (toQuantum mode neg m e 0).1 0).1

/-- A float converted to an integer of 32 bits (R90): rounded, clamped; a clamp or a NaN raises IV, rounding alone NX. -/
def toInt (signed : Bool) (mode : RMode) (v : FVal) : W32 × Nat :=
  let lo : Int := if signed then -2 ^ 31 else 0
  let hi : Int := if signed then 2 ^ 31 - 1 else 2 ^ 32 - 1
  match v with
  | .nan => (0, fIV)
  | .inf neg => (BitVec.ofInt 32 (if neg then lo else hi), fIV)
  | .num neg m e =>
    let r := toQuantum mode neg m e 0
    let x : Int := if neg then -(r.1 : Int) else r.1
    if x < lo then (BitVec.ofInt 32 lo, fIV) else if hi < x then (BitVec.ofInt 32 hi, fIV)
    else (BitVec.ofInt 32 x, if r.2 then 0 else fNX)

/-- An integer as an exact value. -/
def intVal (x : Int) : FVal := .num (x < 0) x.natAbs 0

/-- The class of a code, bits 0 to 8 (R98). -/
def FmtP.cls (p : FmtP) (x : Nat) : Nat :=
  let neg := x.testBit p.sign
  match p.val x with
  | .nan => 256
  | .inf _ => if neg then 1 else 128
  | .num _ m _ =>
    if m = 0 then (if neg then 8 else 16)
    else if m < 2 ^ p.mb then (if neg then 4 else 32) else (if neg then 2 else 64)

/-! ### Square roots and the special functions (R99) -/

/-- The integer square root, by bits. -/
def isqrt (n : Nat) : Nat :=
  (List.range (n.log2 / 2 + 1)).foldr (fun i r => if (r + 2 ^ i) * (r + 2 ^ i) ≤ n then r + 2 ^ i else r) 0

/-- A nonzero positive value known as m × 2^e from below, to far more bits than a rounding needs, rounded once: `ex` says
that it is exact. -/
def FmtP.approx (p : FmtP) (neg : Bool) (m : Nat) (e : Int) (ex : Bool) : Nat × Nat :=
  p.round .rne false neg (if ex then m else 2 * m + 1) (if ex then e else e - 1)

/-- Working precision in fraction bits; enough for every FP32 argument (DEDUCED, log entry 10). -/
def wp : Nat := 640

/-- ln 2 × 2^wp, from 2 atanh (1/3). -/
def ln2Fix : Nat :=
  ((List.range 220).foldl (fun (r : Nat × Nat) k => (r.1 + 2 * r.2 / (2 * k + 1), r.2 / 9)) (0, 2 ^ wp / 3)).1

/-- arctan (1/n) × 2^wp. -/
def atanInv (n : Nat) : Nat :=
  ((List.range 160).foldl (fun (r : Int × Nat) k =>
    (if k % 2 = 0 then r.1 + (r.2 / (2 * k + 1) : Nat) else r.1 - (r.2 / (2 * k + 1) : Nat), r.2 / (n * n))) (0, 2 ^ wp / n)).1.toNat

/-- π × 2^wp, by Machin's formula. -/
def piFix : Nat := 16 * atanInv 5 - 4 * atanInv 239

/-- exp (f) × 2^wp for f × 2^wp in [0, 2^wp). -/
def expFix (f : Nat) : Nat :=
  ((List.range 140).foldl (fun (r : Nat × Nat) k => (r.1 + r.2, r.2 * f / 2 ^ wp / (k + 1))) (0, 2 ^ wp)).1

/-- ln (y) × 2^wp for y × 2^wp in [2^wp, 2^(wp+1)). -/
def lnFix (y : Nat) : Nat :=
  let z := (y - 2 ^ wp) * 2 ^ wp / (y + 2 ^ wp)
  let z2 := z * z / 2 ^ wp
  ((List.range 220).foldl (fun (r : Nat × Nat) k => (r.1 + 2 * r.2 / (2 * k + 1), r.2 * z2 / 2 ^ wp)) (0, z)).1

/-- sin and cos of r × 2^wp in [0, 2^(wp+1)), by the Taylor series. -/
def sinFix (r : Nat) : Nat :=
  let r2 := r * r / 2 ^ wp
  ((List.range 70).foldl (fun (a : Int × Nat) k =>
    (if k % 2 = 0 then a.1 + a.2 else a.1 - a.2, a.2 * r2 / 2 ^ wp / ((2 * k + 2) * (2 * k + 3)))) (0, r)).1.toNat
def cosFix (r : Nat) : Nat :=
  let r2 := r * r / 2 ^ wp
  ((List.range 70).foldl (fun (a : Int × Nat) k =>
    (if k % 2 = 0 then a.1 + a.2 else a.1 - a.2, a.2 * r2 / 2 ^ wp / ((2 * k + 1) * (2 * k + 2)))) (0, 2 ^ wp)).1.toNat

/-- m × 2^e in fixed point, downwards. -/
def fix (m : Nat) (e : Int) : Nat := if e + wp ≥ 0 then m * 2 ^ (e + wp).toNat else m / 2 ^ (-(e + wp)).toNat

/-- A value that differs from m × 2^e by less than any rounding can see, towards zero. -/
def FmtP.just (p : FmtP) (neg : Bool) (m : Nat) (e : Int) : Nat × Nat := p.round .rne false neg (m * 2 ^ 64 - 1) (e - 64)

def f32p : FmtP := Fmt.p .f32

def rcpF (x : Nat) : Nat × Nat :=
  match f32p.val x with
  | .nan => (f32p.nan, 0)
  | .inf n => (f32p.code n 0, 0)
  | .num n m e =>
    if m = 0 then (f32p.code n f32p.inf, fDZ)
    else f32p.approx n (2 ^ 128 / m) (-128 - e) (2 ^ 128 % m = 0)

def rsqF (x : Nat) : Nat × Nat :=
  match f32p.val x with
  | .nan => (f32p.nan, 0)
  | .inf n => if n then f32p.invalid else (0, 0)
  | .num n m e =>
    if m = 0 then (f32p.code n f32p.inf, fDZ)
    else if n then f32p.invalid
    else
      let t := (512 - e).toNat
      let q := 2 ^ t / m
      let r := isqrt q
      f32p.approx false r (-256) (2 ^ t % m = 0 && r * r = q)

def sqrtF (x : Nat) : Nat × Nat :=
  match f32p.val x with
  | .nan => (f32p.nan, 0)
  | .inf n => if n then f32p.invalid else (f32p.inf, 0)
  | .num n m e =>
    if m = 0 then (x, 0)
    else if n then f32p.invalid
    else
      let t := (e + 512).toNat
      let r := isqrt (m * 2 ^ t)
      f32p.approx false r (-256) (r * r = m * 2 ^ t)

def exp2F (x : Nat) : Nat × Nat :=
  match f32p.val x with
  | .nan => (f32p.nan, 0)
  | .inf n => if n then (0, 0) else (f32p.inf, 0)
  | .num n m e =>
    if m = 0 then (0x3F800000, 0)
    else if e + Nat.log2 m ≥ 10 then (if n then f32p.round .rne false false 1 (-1000) else f32p.round .rne false false 1 1000)
    else
      let a : Int := if n then -(fix m e : Int) else fix m e
      let i := a / 2 ^ wp
      let f := (a % 2 ^ wp).toNat
      if f = 0 then f32p.round .rne false false 1 i
      else f32p.approx false (expFix (f * ln2Fix / 2 ^ wp)) (i - wp) false

def log2F (x : Nat) : Nat × Nat :=
  match f32p.val x with
  | .nan => (f32p.nan, 0)
  | .inf n => if n then f32p.invalid else (f32p.inf, 0)
  | .num n m e =>
    if m = 0 then (f32p.code true f32p.inf, fDZ)
    else if n then f32p.invalid
    else
      let k := Nat.log2 m
      let i := e + k
      if m = 2 ^ k then f32p.rne (intVal i)
      else
        let l : Int := i * 2 ^ wp + (lnFix (m * 2 ^ (wp - k)) * 2 ^ wp / ln2Fix : Nat)
        f32p.approx (l < 0) l.natAbs (-(wp : Int)) false

/-- Quadrant and remainder of an angle: |x| = q × π/2 + r. -/
def reduce (m : Nat) (e : Int) : Nat × Nat :=
  let a := fix m e
  let q := 2 * a / piFix
  (q, a - q * piFix / 2)

def sinF (x : Nat) : Nat × Nat :=
  match f32p.val x with
  | .nan => (f32p.nan, 0)
  | .inf _ => f32p.invalid
  | .num n m e =>
    if m = 0 then (x, 0)
    else if e + Nat.log2 m < -30 then f32p.just n m e
    else
      let (q, r) := reduce m e
      let v := if q % 2 = 0 then sinFix r else cosFix r
      f32p.approx (n != (q % 4 ≥ 2)) v (-(wp : Int)) false

def cosF (x : Nat) : Nat × Nat :=
  match f32p.val x with
  | .nan => (f32p.nan, 0)
  | .inf _ => f32p.invalid
  | .num _ m e =>
    if m = 0 then (0x3F800000, 0)
    else if e + Nat.log2 m < -30 then f32p.just false 1 0
    else
      let (q, r) := reduce m e
      let v := if q % 2 = 0 then cosFix r else sinFix r
      f32p.approx (q % 4 = 1 || q % 4 = 2) v (-(wp : Int)) false

def tanhF (x : Nat) : Nat × Nat :=
  match f32p.val x with
  | .nan => (f32p.nan, 0)
  | .inf n => (f32p.code n 0x3F800000, 0)
  | .num n m e =>
    if m = 0 then (x, 0)
    else if e + Nat.log2 m < -30 then f32p.just n m e
    else if e + Nat.log2 m ≥ 6 then f32p.just n 1 0
    else
      let a := 2 * fix m e
      let k := a / ln2Fix
      let y := expFix (a - k * ln2Fix) * 2 ^ k
      f32p.approx n ((y - 2 ^ wp) * 2 ^ wp / (y + 2 ^ wp)) (-(wp : Int)) false

/-! ### Block scales (R91) -/

def emaxOf : Fmt → Int
  | .e5m2 => 15 | .e4m3 => 8 | .e3m2 => 4 | _ => 2

/-- The binary32 scale of a block whose largest magnitude is a finite FP32 value. -/
def scaleOf (f : Fmt) (m : Nat) (e : Int) : Nat :=
  if m = 0 then 0x3F800000
  else (max (-126) (min 127 (e + Nat.log2 m - emaxOf f)) + 127).toNat * 2 ^ 23

/-- `qexp` (R102). -/
def qexpF (f : Fmt) (x : Nat) : Nat × Nat :=
  match f32p.val x with
  | .num _ m e => (scaleOf f m e, 0)
  | _ => f32p.invalid

/-- QUANT(x, scale, f) for a scale that is a power of two (R91): held to the largest finite, no flags. -/
def quant (f : Fmt) (scale : Nat) (x : FVal) : Nat :=
  match x with
  | .num n m e => ((Fmt.p f).round .rne true n m (e - ((scale / 2 ^ 23 : Nat) - 127 : Int))).1
  | _ => 0

end Sys2Proof.Machine
end

