-- ==== Sys2Proof/Machine/Home.lean ====
section
/-! DEFINITION. Memory and the home slices: bytes of memory, lines, the compressed last-level cache (R158 to R166), HBM
accesses and their charges (R130, R336), and the registry of owners (R141). -/

namespace Sys2Proof.Machine

/-! ### Memory as bytes -/

/-- What a byte that nothing has written reads as: zero (DESIGN CHOICE, log entry 2), or after a reset that did not preserve memory
(R359) a value the spec leaves undefined; the peers' memory is not the device's to lose. -/
def Memory.unlisted (m : Memory) (a : Nat) : W8 := if m.epoch = 0 ∨ 2 ^ 39 ≤ a then 0 else Config.undefByte m.epoch a
def Memory.byte (m : Memory) (a : Nat) : W8 := TMap.getD m.unlisted m.cells a
def Memory.setByte (m : Memory) (a : Nat) (b : W8) : Memory := { m with cells := TMap.setD m.unlisted m.cells a b }
/-- The canonical form: addresses rising, no cell equal to what an unlisted address reads as. -/
def Memory.wf (m : Memory) : Bool := TMap.wfD m.unlisted m.cells
/-- Write consecutive bytes. -/
def Memory.setBytes (m : Memory) (a : Nat) (bs : List W8) : Memory :=
  (bs.foldl (fun (s : Memory × Nat) b => (s.1.setByte s.2 b, s.2 + 1)) (m, a)).1

/-! ### Lines (R24: LINE(pa), 32 little-endian words) -/

/-- Each set bit i of the low `n` bits of `m` as a run of `k` ones at bit k·i. -/
def spread (n k m : Nat) : Nat :=
  (List.range n).foldl (fun r i => if m.testBit i then r + (2 ^ k - 1) * 2 ^ (k * i) else r) 0

/-- Bytes of the words of a mask. -/
def wordBytes (m : W32) : BitVec 128 := BitVec.ofNat 128 (spread 32 4 m.toNat)
/-- Words that hold a byte of a mask. -/
def bytesWords (b : BitVec 128) : W32 :=
  BitVec.ofNat 32 ((List.range 32).foldl (fun r i => if fld b.toNat (4 * i) 4 = 0 then r else r + 2 ^ i) 0)
/-- Sectors all of whose bytes a mask covers. -/
def fullSectors (b : BitVec 128) : BitVec 4 :=
  BitVec.ofNat 4 ((List.range 4).foldl (fun r i => if fld b.toNat (32 * i) 32 = 2 ^ 32 - 1 then r + 2 ^ i else r) 0)
/-- Replace the bytes of a mask. -/
def mergeLine (old new : Line) (b : BitVec 128) : Line :=
  let m : Line := BitVec.ofNat 1024 (spread 128 8 b.toNat)
  (old &&& ~~~m) ||| (new &&& m)

def lineWord (l : Line) (i : Nat) : W32 := BitVec.ofNat 32 (fld l.toNat (32 * i) 32)
def lineByte (l : Line) (i : Nat) : W8 := BitVec.ofNat 8 (fld l.toNat (8 * i) 8)
def setLineWord (l : Line) (i : Nat) (w : W32) : Line := mergeLine l (BitVec.ofNat 1024 (w.toNat * 2 ^ (32 * i))) (BitVec.ofNat 128 (15 * 2 ^ (4 * i)))
/-- `n` bytes of a line from byte `o`, as a number. -/
def lineBytes (l : Line) (o n : Nat) : Nat := fld l.toNat (8 * o) (8 * n)

/-- The line that memory holds (HBM holds lines uncompressed, R158). -/
def Memory.line (m : Memory) (line : Nat) : Line :=
  BitVec.ofNat 1024 ((List.range 128).foldr (fun i n => (m.byte (128 * line + i)).toNat + 256 * n) 0)
def Memory.setLine (m : Memory) (line : Nat) (l : Line) : Memory :=
  m.setBytes (128 * line) ((List.range 128).map (lineByte l))

/-! ### Homes (R8, R10, R11) -/

/-- PA[51:49] = 0b010: the Slotlink window. -/
def isPeer (line : Nat) : Bool := fld line 42 3 == 2
/-- The device number of a Slotlink line. -/
def peerDev (line : Nat) : Nat := fld line 32 10
/-- The die that owns a local line. -/
def dieOf (line : Nat) : Nat := fld line 30 2
/-- The global number of the home slice. 1024 stands for the peers' home slices. -/
def sliceOf (line : Nat) : Nat :=
  if isPeer line then 1024
  else 256 * dieOf line + (fld line 0 8 ^^^ fld line 8 8 ^^^ fld line 16 8 ^^^ fld line 24 6)
/-- The set of a line in its slice (R158). -/
def setOf (line : Nat) : Nat := fld line 8 22 % 1536
/-- The memory controller of a line: 2 d + stack, stack = PA[8] XOR PA[16] (R130, R337). -/
def ctlOf (line : Nat) : Nat := 2 * dieOf line + (fld line 1 1 ^^^ fld line 9 1)

/-- R8, R9: a physical address that exists, a layer map-out taken into account; R10: the device's own Slotlink number names
local memory. The answer is the address at which the access is served. -/
def State.place (s : State) (pa : Nat) : Option Nat :=
  let loc (a : Nat) : Option Nat := if fld a 0 37 < 2 ^ 37 - (s.dies.rd (fld a 37 2)).lost then some a else none
  if pa < 2 ^ 39 then loc pa
  else if fld pa 49 3 = 2 ∧ pa < 2 ^ 52 then
    if fld pa 39 10 = s.slotId.toNat then loc (fld pa 0 39) else some pa
  else none

/-! ### HBM accesses -/

/-- Poison bits of a line's four sectors in HBM. -/
def State.hbmPsn (s : State) (line : Nat) : BitVec 4 :=
  BitVec.ofNat 4 ((List.range 4).foldl (fun r i => if s.poison.rd (4 * line + i) then r + 2 ^ i else r) 0)
def State.setHbmPsn (line : Nat) (p : BitVec 4) (s : State) : State :=
  { s with poison := (List.range 4).foldl (fun m i => m.wr (4 * line + i) (p.getLsbD i)) s.poison }

/-- MC_IDLE_TIMER of a stack (R130), 256 at reset: held as its difference from 256. -/
def Die.idle (d : Die) (stack : Nat) : Nat := d.idleTimer.rd stack ^^^ 256

/-- Bank of 64-byte unit `u` of PA / 64, under its key in the die's rows; its row. -/
def bankKey (u : Nat) : Nat := 2 ^ 32 * (ctlOf (u / 2) % 2) + Config.bankOf u
/-- The rows after an access of a unit at `clock`: its row stays open for `idle` clocks; 0 closes it at once (R130). -/
def Die.access (d : Die) (u clock idle : Nat) : Die :=
  { d with rows := if idle = 0 then d.rows.del (bankKey u) else d.rows.wr (bankKey u) (Config.rowOf u + 1, clock + idle) }
/-- The unit's row is open. -/
def Die.opened (d : Die) (u clock : Nat) : Bool := (d.rows.rd (bankKey u)).1 == Config.rowOf u + 1 && clock < (d.rows.rd (bankKey u)).2

/-- An HBM access of 64-byte units 0 and 1 of a line, charged to a partition (R336), counted (R338), each leaving its row open
until the idle timer expires (R130). -/
def State.hbmUnits (write : Bool) (line part : Nat) (units : List Nat) (s : State) : State :=
  if isPeer line then s
  else
    let ctl := ctlOf line
    let s := s.mcEv ctl part (if write then 0x81 else 0x80) units.length
    let s := s.modDie (dieOf line) fun d => { d with used := d.used.mod part (· + units.length) }
    units.foldl (fun s i =>
      let s := if (s.dies.rd (dieOf line)).opened (2 * line + i) s.clock then s else s.mcEv ctl part 0x82 1
      s.modDie (dieOf line) fun d => d.access (2 * line + i) s.clock (d.idle (ctl % 2))) s
/-- A whole line. -/
def State.hbm (write : Bool) (line part : Nat) (s : State) : State := s.hbmUnits write line part [0, 1]

/-- The partition has used its bandwidth in the period (R130): its requests are held. -/
def State.memHeld (s : State) (line part : Nat) : Bool :=
  let b := fld (s.preg part 0x12).toNat 0 32
  !isPeer line && b != 0 && (s.dies.rd (dieOf line)).used.rd part ≥ b

/-! ### The compressed forms (R160 to R162) -/

/-- Word j of w bytes. -/
def wordAt (l : Line) (w j : Nat) : Nat := fld l.toNat (8 * w * j) (8 * w)

/-- A value of `w` bytes is the sign extension of its low `d` bytes. -/
def fromZero (w d x : Nat) : Bool := x < 2 ^ (8 * d - 1) || 2 ^ (8 * w) - 2 ^ (8 * d - 1) ≤ x

/-- The base of BDw-d: the lowest word that does not fit from zero (R162). -/
def bdBase (l : Line) (w d : Nat) : Nat :=
  (((List.range (128 / w)).map (wordAt l w)).find? fun x => !fromZero w d x).getD 0

/-- BDw-d fits the line. -/
def bdFits (l : Line) (w d : Nat) : Bool :=
  (List.range (128 / w)).all fun j =>
    fromZero w d (wordAt l w j) || fromZero w d ((wordAt l w j + 2 ^ (8 * w) - bdBase l w d) % 2 ^ (8 * w))

/-- The parameters w and d of the delta forms. -/
def bdForm : Nat → Option (Nat × Nat)
  | 2 => some (8, 1) | 3 => some (4, 1) | 4 => some (8, 2) | 5 => some (4, 2) | 6 => some (2, 1) | 7 => some (8, 4) | _ => none

def nonzeroWords (l : Line) : Nat := ((List.range 32).filter fun i => wordAt l 4 i != 0).length

/-- Sectors that a line takes in a form. -/
def formSectors (l : Line) : Nat → Nat
  | 0 => 0
  | 1 => (4 + 4 * nonzeroWords l + 31) / 32
  | 2 => 1 | 3 => 2 | 4 => 2 | 5 => 3 | 6 => 3 | 7 => 3
  | _ => 4

def formFits (l : Line) (f : Nat) : Bool :=
  match f with
  | 0 => l == 0
  | 1 => nonzeroWords l ≤ 23
  | _ => match bdForm f with
    | some (w, d) => bdFits l w d
    | none => f == 15

/-- The form the slice chooses (R162): fewest sectors, then lowest code. -/
def chooseForm (l : Line) (psn : BitVec 4) (c : Bool) : Nat :=
  if psn ≠ 0 ∨ !c then 15
  else
    [0, 1, 2, 3, 4, 5, 6, 7].foldl (fun b f =>
      if formFits l f && (formSectors l f < formSectors l b) then f else b) 15

/-- The stored string S of a line in a form (R161), as bytes. -/
def storedString (l : Line) (f : Nat) : List W8 :=
  let num (n v : Nat) : List W8 := (List.range n).map fun i => BitVec.ofNat 8 (fld v (8 * i) 8)
  match f with
  | 0 => []
  | 1 =>
    let nz := (List.range 32).filter fun i => wordAt l 4 i != 0
    num 4 (nz.foldl (fun m i => m + 2 ^ i) 0) ++ (nz.map fun i => num 4 (wordAt l 4 i)).flatten
  | _ => match bdForm f with
    | some (w, d) =>
      let b := bdBase l w d
      let js := List.range (128 / w)
      let sel (j : Nat) := !fromZero w d (wordAt l w j)
      num w b ++ num (16 / w) (js.foldl (fun m j => if sel j then m + 2 ^ j else m) 0) ++
        (js.map fun j => num d ((wordAt l w j + (if sel j then 2 ^ (8 * w) - b else 0)) % 2 ^ (8 * d))).flatten
    | none => (List.range 128).map (lineByte l)

/-- Byte `i` of the sector that pointer `j` of a tag names: byte 32 j + i of S, and zero beyond it (R161). -/
def Tag.sectorByte (t : Tag) (j i : Nat) : W8 := (storedString t.data t.form).getD (32 * j + i) 0

/-- EXPAND (R161). -/
def expandString (f : Nat) (bs : List W8) : Line :=
  let val (o n : Nat) : Nat := (List.range n).foldr (fun i v => (bs.getD (o + i) 0).toNat + 256 * v) 0
  match f with
  | 0 => 0
  | 1 =>
    let m := val 0 4
    let r := (List.range 32).foldl (fun (r : Nat × Nat) i =>
      if m.testBit i then (r.1 + val (4 + 4 * r.2) 4 * 2 ^ (32 * i), r.2 + 1) else r) (0, 0)
    BitVec.ofNat 1024 r.1
  | _ => match bdForm f with
    | some (w, d) =>
      let b := val 0 w
      BitVec.ofNat 1024 ((List.range (128 / w)).foldl (fun r j =>
        let x := val (w + 16 / w + d * j) d
        let δ := if x < 2 ^ (8 * d - 1) then x else x + 2 ^ (8 * w) - 2 ^ (8 * d)
        let base := if (val w (16 / w)).testBit j then b else 0
        r + (base + δ) % 2 ^ (8 * w) * 2 ^ (8 * w * j)) 0)
    | none => BitVec.ofNat 1024 (val 0 128)

/-! ### Tags and sectors (R158, R159) -/

def State.tagOf (s : State) (line : Nat) : Tag := (s.slices.rd (sliceOf line)).tags.rd line
/-- The line is in the LLC; a peer's line is served at the peer. -/
def State.present (s : State) (line : Nat) : Bool := isPeer line || (s.tagOf line).valid

/-- The contents of a line and its poison bits as its home slice sees them. -/
def State.homeLine (s : State) (line : Nat) : Line :=
  let t := s.tagOf line
  if t.valid then t.data else s.mem.line line
def State.homePsn (s : State) (line : Nat) : BitVec 4 :=
  let t := s.tagOf line
  if t.valid then t.psn else s.hbmPsn line

/-- The level events of a tag (R166), counted `n` times. -/
def State.levels (slice : Nat) (t : Tag) (n : Int) (s : State) : State :=
  (s.sliceEv slice t.part (0x40 + t.secs.length) n).sliceEv slice t.part 0x45 (n * t.secs.length)

def State.setTag (line : Nat) (t : Tag) (s : State) : State := s.modSlice (sliceOf line) fun x => { x with tags := x.tags.wr line t }

/-- The line becomes the most recent of its set (R159). -/
def State.recent (line : Nat) (s : State) : State :=
  if isPeer line then s
  else s.modSlice (sliceOf line) fun x => { x with stamp := x.stamp + 1, tags := x.tags.mod line fun t => { t with stamp := x.stamp + 1 } }

/-- Valid tags of a line's set. -/
def State.setTags (s : State) (line : Nat) : List (Nat × Tag) :=
  (s.slices.rd (sliceOf line)).tags.filter fun e => e.2.valid && setOf e.1 == setOf line

/-- Carved banks of a die (R168). -/
def State.carvedBanks (s : State) (die : Nat) : List Nat := (s.dies.rd die).chunks.map (·.bank)

/-- Free sectors of a line's set, lowest first, but for those of a bank that leaves caching there (`bar`, 16 for none). The sectors of a
carved bank are those of its carved line (R168), so each set gives up and gets back a bank with the event that changes it (R170). -/
def State.freeSectors (s : State) (bar line : Nat) : List Nat :=
  let used := (s.setTags line).flatMap (·.2.secs)
  (List.range 64).filter fun x => !used.contains x && x / 4 != bar

/-- A write-back: HBM takes the line, uncompressed, with its poison bits, and the line is clean (R158). -/
def State.writeBack (line : Nat) (s : State) : State :=
  let t := s.tagOf line
  if t.valid ∧ t.dirty then
    let s := { s with mem := s.mem.setLine line t.data }
    ((s.setHbmPsn line t.psn).hbm true line t.part).setTag line { t with dirty := false }
  else s

/-- A line leaves the LLC: written back if dirty; `exp` counts an expansion eviction, `move` a carve's. -/
def State.evictLine (exp move : Bool) (line : Nat) (s : State) : State :=
  let s := s.writeBack line
  let t := s.tagOf line
  let k := sliceOf line
  let s := s.levels k t (-1)
  let s := if exp then s.sliceEv k t.part 0x48 1 else s
  let s := if move then s.sliceEv k t.part 0x4A 1 else s
  s.modSlice k fun x => { x with tags := x.tags.del line }

/-- The least recently used eligible line of a set (R159): neither carved nor held by the anvil nor the line itself. -/
def State.victim (s : State) (line : Nat) : Option Nat :=
  let inv := (s.slices.rd (sliceOf line)).inv
  ((s.setTags line).filter fun e => e.1 != line && !e.2.carved && !(inv.live && inv.req.line == e.1)).foldl
    (fun b e => match b with
      | none => some e
      | some x => if e.2.stamp < x.2.stamp then some e else some x) none |>.map (·.1)

/-- Evict until `n` sectors are free (R159). -/
def State.makeSectors : Nat → (exp move : Bool) → (bar line n : Nat) → State → State
  | 0, _, _, _, _, _, s => s
  | f + 1, exp, move, bar, line, n, s =>
    if n ≤ (s.freeSectors bar line).length then s
    else match s.victim line with
      | some v => makeSectors f exp move bar line n (s.evictLine exp move v)
      | none => s

/-- A line enters its set (R159): a free tag, the lowest free sectors, most recent. -/
def State.insertLine (line part : Nat) (data : Line) (psn : BitVec 4) (dirty : Bool) (form : Nat) (s : State) : State :=
  let k := sliceOf line
  let s := if (s.setTags line).length < 32 then s else match s.victim line with
    | some v => s.evictLine false false v
    | none => s
  let n := formSectors data form
  let s := s.makeSectors 32 false false 16 line n
  let t : Tag := { valid := true, dirty := dirty, form := form, secs := (s.freeSectors 16 line).take n, psn := psn, part := part, data := data }
  let s := (s.setTag line t).levels k t 1
  let s := if form = 15 then s else s.sliceEv k part 0x46 1
  s.recent line

/-- A line's fill from HBM (R163, R164). -/
def State.fillLine (line part : Nat) (c : Bool) (s : State) : State :=
  if s.present line then s
  else
    let d := s.mem.line line
    let p := s.hbmPsn line
    (s.hbm false line part).insertLine line part d p false (chooseForm d p c)

/-- A change of a line at its home slice: contents, poison and dirtiness replaced, the line recompressed with the request's
C (R163), growing with expansion evictions. A line that held poison stays UNC in this change, and its next one compresses it (R165); a carved
line changes in place and is dirty when written (R169). A peer's line is the peer's. -/
def State.setHome (line part : Nat) (data : Line) (psn : BitVec 4) (c : Bool) (s : State) : State :=
  if isPeer line then { s with mem := s.mem.setLine line data }.setHbmPsn line psn
  else
    let k := sliceOf line
    let t := s.tagOf line
    if !t.valid then s.insertLine line part data psn true (chooseForm data psn c)
    else
      let form := if t.carved || t.psn != 0 then 15 else chooseForm data psn c
      let n := formSectors data form
      let old := t.secs.length
      let s := s.levels k t (-1)
      let s := if n > old then (s.makeSectors 32 true false 16 line (n - old)).sliceEv k part 0x47 1 else s
      let secs := if n > old then t.secs ++ (s.freeSectors 16 line).take (n - old) else t.secs.take n
      let t := { t with dirty := t.dirty || t.carved || data != t.data || psn != t.psn, form := form, secs := secs, psn := psn, part := part, data := data }
      let s := (s.setTag line t).levels k t 1
      let s := if form = 15 then s else s.sliceEv k part 0x46 1
      s.recent line

/-- Bytes written into a line at its home slice; a sector wholly covered loses its poison (R165), and what is written brings that of
its own sectors (R339). -/
def State.writeSectors (line part : Nat) (data : Line) (bytes : BitVec 128) (psn : BitVec 4) (c : Bool) (s : State) : State :=
  s.setHome line part (mergeLine (s.homeLine line) data bytes) ((s.homePsn line &&& ~~~(fullSectors bytes)) ||| psn) c
/-- The same with bytes free of poison. -/
abbrev State.writeHome (line part : Nat) (data : Line) (bytes : BitVec 128) (c : Bool) (s : State) : State := s.writeSectors line part data bytes 0 c

/-! ### The registry (R141) -/

/-- No core is called so: every owner is revoked. -/
def noOwner : Nat := 2 ^ 32

/-- Owners of words of a line, other than `but`. -/
def State.owners (s : State) (line : Nat) (mask : W32) (but : Nat) : List RegEnt :=
  (s.slices.rd (sliceOf line)).reg.filter fun e => e.line == line && e.owner != but && (e.mask &&& mask) != 0

/-- Words of an entry are taken from its owner. -/
def takeWords (line : Nat) (mask : W32) (but : Nat) (r : List RegEnt) : List RegEnt :=
  (r.map fun e => if e.line = line ∧ e.owner ≠ but then { e with mask := e.mask &&& ~~~mask } else e).filter (·.mask != 0)

/-- Every other owner of the words loses them and is sent a revoke that names `ack`; the answer is how many revokes went
out. -/
def State.revokeWords (line : Nat) (mask : W32) (but ack : Nat) (s : State) : State × Nat :=
  let os := s.owners line mask but
  let s := s.modSlice (sliceOf line) fun x => { x with reg := takeWords line mask but x.reg }
  (os.foldl (fun s e => s.soon (.revoke e.owner line (e.mask &&& mask) ack)) s, os.length)

/-- A revoke of words of a line is under way, or its write waits for the acknowledgement (R141): until then no request of the line is
served, so that what one core has read no other can miss (R146, R148). -/
def State.revoking (s : State) (line : Nat) : Bool :=
  (s.acks.any fun e => e.2.live && e.2.wt.line == line) || s.agenda.any fun p => match p.ev with
    | .revoke _ l _ _ => l == line
    | _ => false

/-- A request may change words of a line only when every other owner has been revoked and has acknowledged: true when that
is so; otherwise the revokes are sent, and the request comes again. -/
def State.cleared (line : Nat) (mask : W32) (but : Nat) (s : State) : State × Bool :=
  if s.revoking line then (s, false)
  else if s.owners line mask but = [] then (s, true)
  else
    let id := s.nextId
    let r := { s with nextId := id + 1 }.revokeWords line mask but id
    ({ r.1 with acks := r.1.acks.wr id { live := true, left := r.2, wt := { (default : WtReq) with line := line } } }, false)

/-- Room for one more entry beside those of `keep`: a full registry, in which each engine hold is an entry (R144), gives up its least
recently used owner, whose words are revoked under `ack`. The answer is how many revokes went out. -/
def State.regRoom (slice ack : Nat) (keep : RegEnt → Bool) (s : State) : State × Nat :=
  let x := s.slices.rd slice
  let rest := x.reg.filter fun e => !keep e
  let lru := rest.foldl (fun (b : Option RegEnt) e => match b with
    | none => some e
    | some y => if e.stamp < y.stamp then some e else some y) none
  match if rest.length + x.holds.length ≥ 65536 then lru else none with
  | some v => ((s.modSlice slice fun x => { x with reg := x.reg.filter (· != v) }).soon (.revoke v.owner v.line v.mask ack), 1)
  | none => (s, 0)

/-- The writing core becomes the owner of the words. The answer is how many revokes went out under `ack` to make room. -/
def State.register (line core : Nat) (mask : W32) (ack : Nat) (s : State) : State × Nat :=
  let k := sliceOf line
  let mine (e : RegEnt) : Bool := e.line == line && e.owner == core
  let r := s.regRoom k ack mine
  (r.1.modSlice k fun x =>
    let old := (x.reg.find? mine).map (·.mask) |>.getD 0
    { x with stamp := x.stamp + 1
             reg := (x.reg.filter fun e => !mine e) ++ [{ line := line, owner := core, mask := old ||| mask, stamp := x.stamp + 1 }] }, r.2)

/-! ### Engine holds (R144) -/

def State.held (s : State) (line : Nat) : Bool := (s.slices.rd (sliceOf line)).holds.any (·.line == line)
/-- An operation takes a hold: the line's owners are revoked. -/
def State.takeHold (line op : Nat) (s : State) : State :=
  let s := (s.revokeWords line (BitVec.allOnes 32) noOwner 0).1
  (s.regRoom (sliceOf line) 0 fun _ => false).1.modSlice (sliceOf line) fun x =>
    { x with holds := x.holds ++ [{ line := line, op := op, done := false }] }
/-- The operation has a hold on the line. -/
def State.holds (s : State) (line op : Nat) : Bool := (s.slices.rd (sliceOf line)).holds.any fun h => h.line == line && h.op == op
/-- The operation has written every byte it will write to the line. -/
def State.holdDone (line op : Nat) (s : State) : State :=
  s.modSlice (sliceOf line) fun x => { x with holds := x.holds.map fun h => if h.line = line ∧ h.op = op then { h with done := true } else h }
/-- Every hold of an operation is released. -/
def State.dropHolds (op : Nat) (s : State) : State :=
  { s with slices := s.slices.map fun (e : Nat × Slice) => (e.1, { e.2 with holds := e.2.holds.filter fun h => h.op != op }) }
/-- The operation that may write a held line now. -/
def State.holder (s : State) (line : Nat) : Option Nat := ((s.slices.rd (sliceOf line)).holds.find? (·.line == line)).map (·.op)

/-- One hold of a line is released. -/
def State.dropHold (line op : Nat) (s : State) : State :=
  s.modSlice (sliceOf line) fun x => { x with holds := x.holds.filter fun h => !(h.line == line && h.op == op) }
/-- The line is held, and not for `own` first. -/
def State.heldFrom (s : State) (line own : Nat) : Bool := s.held line && s.holder line != some own

/-! ### What requests wait for at their home slice -/

/-- The anvil of the line's home holds it (R179). -/
def State.anvilOn (s : State) (line : Nat) : Bool :=
  let i := (s.slices.rd (sliceOf line)).inv
  i.live && i.req.line == line

/-- A partition's carve region on a die: enabled, and its start. -/
def State.carveBase (s : State) (part die : Nat) : Bool × Nat :=
  let r := (s.preg part (0x14 + die)).toNat
  (r.testBit 63, fld r 15 37 * 2 ^ 15)

/-- Bytes of a chunk. -/
def chunkBytes : Nat := 0x3000000

/-- The line lies in a chunk that a carve adds, and its slice has not finished the carve (R171). -/
def State.carving (s : State) (line : Nat) : Bool :=
  s.agenda.any fun p => match p.ev with
    | .carveSliceApply op slice =>
      let o := s.ops.rd op
      slice == sliceOf line && o.started && match o.kind with
        | .carve part die target =>
          let base := (s.carveBase part die).2
          o.b.toNat < target && base + o.b.toNat * chunkBytes ≤ 128 * line && 128 * line < base + target * chunkBytes
        | _ => false
    | _ => false

/-- An invocation of the line has arrived and waits for its table entry: what arrives after it waits (R182). -/
def State.reserved (s : State) (line : Nat) : Bool := (s.slices.rd (sliceOf line)).waits.any (·.line == line)

/-- A request at its home slice waits: for the anvil (R179), for an invocation that has arrived before (R182), for revokes (R141), for
a carve that adds the line (R171). -/
def State.homeWait (s : State) (line : Nat) : Bool := s.anvilOn line || s.reserved line || s.revoking line || s.carving line

/-- Lines that hardware's own requests wait for too: an engine holds the line (R144), or `homeWait` names what does. -/
def State.busy (s : State) (line : Nat) : Bool := s.held line || s.homeWait line
/-- Requests that reach lines under an engine hold start recalls (R144). -/
def State.recall (lines : List Nat) (s : State) : State :=
  lines.foldl (fun s l => if s.held l then s.ask (.engineRecall l) else s) s

end Sys2Proof.Machine
end

