-- ==== Sys2Proof/Machine/L1.lean ====
section
/-! DEFINITION. A core's L1 (R117): lookup, allocation with eviction, stores, write-throughs; release and acquire work
(R142, R143). -/

namespace Sys2Proof.Machine

def State.l1 (s : State) (core line : Nat) : L1Line := (s.cores.rd core).l1.rd line
def State.modL1 (core line : Nat) (f : L1Line → L1Line) (s : State) : State :=
  s.modCore core fun c => { c with l1 := c.l1.mod line f }

/-- Groups whose store made a word of the mask dirty (R320). -/
def L1Line.taggers (l : L1Line) (mask : W32) : List Nat :=
  ((l.tag.filter fun e => mask.getLsbD e.1 && e.2 != 0).map fun e => e.2 - 1).eraseDups

def L1Line.untag (l : L1Line) (mask : W32) : L1Line := { l with tag := l.tag.filter fun e => !mask.getLsbD e.1 }

/-- A fill under way for a core's L1 no longer brings words of a mask of a line: the core has newer contents under way to the
home slice (R117, R192). -/
def State.purgeFills (core line : Nat) (mask : W32) (s : State) : State :=
  let cut (r : LineReq) : LineReq := if r.dest = .fill core ∧ r.line = line then { r with mask := r.mask &&& ~~~mask } else r
  { s with agenda := s.agenda.map fun p => { p with ev := match p.ev with
      | .homeSliceRead r => .homeSliceRead (cut r)
      | .slotlinkRequest q => .slotlinkRequest { q with kind := match q.kind with
          | .read r => .read (cut r)
          | k => k }
      | .mergingFillReturn r =>
        .mergingFillReturn (if r.core = core ∧ r.line = line then { r with mask := r.mask &&& ~~~mask } else r)
      | e => e } }

/-- Answers already on their way bring no word of a line any more. -/
def State.purgeReplies (core line : Nat) (s : State) : State :=
  { s with agenda := s.agenda.map fun p => { p with ev := match p.ev with
      | .mergingFillReturn r => .mergingFillReturn (if r.core = core ∧ r.line = line then { r with mask := 0 } else r)
      | e => e } }

/-- Send a write-through, numbered (R142). -/
def State.sendWt (r : WtReq) (s : State) : State :=
  let s := s.purgeFills r.core r.line (bytesWords r.bytes)
  { s with nextId := s.nextId + 1 }.soon (.writeThrough { r with seq := s.nextId })

/-- Sectors that hold words of a mask. -/
def wordSectors (m : W32) : BitVec 4 := BitVec.ofNat 4 ((List.range 4).foldl (fun r i => if fld m.toNat (8 * i) 8 = 0 then r else r + 2 ^ i) 0)

/-- Write the dirty words of a mask through to the home slice (R117, R140), with the poison of their sectors (R339): they become
clean; each group whose tag one bears is sealed (R321). `op` waits for the acknowledgement, 0 for nobody. -/
def State.writeThrough (core line : Nat) (mask : W32) (op : Nat) (s : State) : State :=
  let l := s.l1 core line
  let m := l.dirty &&& mask
  if !l.live || m = 0 then s
  else
    let s := (l.taggers m).foldl (fun s g => s.sealGroup g) s
    let s := s.modL1 core line fun l => { l.untag m with dirty := l.dirty &&& ~~~m }
    s.sendWt { core := core, part := l.part, line := line, bytes := wordBytes m, data := l.data, c := l.c, own := true, upd := false, op := op, seq := 0
               psn := l.psn &&& wordSectors m }

/-- A line leaves the L1 (R117): dirty words written through, clean words dropped, its tag to the victim tag array. -/
def State.l1Evict (core line : Nat) (s : State) : State :=
  let s := s.writeThrough core line (BitVec.allOnes 32) 0
  s.modCore core fun c => { c with l1 := c.l1.del line, victims := (line :: c.victims).take 1024 }

/-- The line is the most recently used of its set. -/
def State.l1Touch (core line : Nat) (s : State) : State :=
  s.modCore core fun c => { c with stamp := c.stamp + 1, l1 := c.l1.mod line fun l => { l with stamp := c.stamp + 1 } }

/-- Allocate a line: 8 ways, set = PA[14:7], least recently used replaced (R117). -/
def State.l1Alloc (core line part : Nat) (c : Bool) (s : State) : State :=
  if (s.l1 core line).live then s.l1Touch core line
  else
    let ways := (s.cores.rd core).l1.filter fun e => e.2.live && e.1 % 256 == line % 256
    let lru := ways.foldl (fun (b : Option (Nat × L1Line)) e => match b with
      | none => some e
      | some x => if e.2.stamp < x.2.stamp then some e else some x) none
    let s := if ways.length < 8 then s else match lru with
      | some v => s.l1Evict core v.1
      | none => s
    (s.modL1 core line fun _ => { live := true, part := part, c := c }).l1Touch core line

/-- The halving of a core's scores (R119) is due at the next multiple of 256 clocks (DESIGN CHOICE, log entry 121). -/
def State.halveNext (core : Nat) (s : State) : State :=
  if s.agenda.any (·.ev = .throttleScoreHalving core) then s else s.later ((s.clock / 256 + 1) * 256) (.throttleScoreHalving core)

/-- An L1 access of a group counts a hit or a miss; a miss in the victim tag array adds 8 to the group's score (R119). -/
def State.l1Count (core part group line : Nat) (hit : Bool) (s : State) : State :=
  if hit then s.coreEv core part 0x04 1
  else
    let s := s.coreEv core part 0x05 1
    if (s.cores.rd core).victims.contains line then
      ((s.modGroup group fun g => { g with score := min 255 (g.score + 8) }).coreEv core part 0x06 1).halveNext core
    else s

/-- Every word of a mask is valid in the L1. -/
def State.l1Has (s : State) (core line : Nat) (mask : W32) : Bool :=
  let l := s.l1 core line
  l.live && (l.valid &&& mask) == mask

/-- A load by a group of words that bear another group's tag seals that group's region (R321). -/
def State.l1Seen (core line : Nat) (mask : W32) (group : Nat) (s : State) : State :=
  ((s.l1 core line).taggers mask).foldl (fun s g => if g = group then s else s.sealGroup g) s

/-- A store's bytes go into the L1 (R117): words valid and dirty, tagged with the group; a store to a word dirty under
another group's tag seals the storing group (R321). -/
def State.l1Store (core line part : Nat) (c : Bool) (data : Line) (bytes : BitVec 128) (group : Nat) (s : State) : State :=
  let s := s.l1Alloc core line part c
  let m := bytesWords bytes
  let s := if ((s.l1 core line).taggers m).any (· != group) then s.sealGroup group else s
  s.modL1 core line fun l => { l with
    data := mergeLine l.data data bytes, valid := l.valid ||| m, dirty := l.dirty ||| m, owned := l.owned &&& ~~~m
    psn := l.psn &&& ~~~(fullSectors bytes)
    tag := (positions (m.setWidth 64)).foldl (fun t w => t.wr w (group + 1)) l.tag }

/-- Words that arrive from the home slice become valid and clean; words already valid keep their contents (R117). -/
def State.l1Fill (core line part : Nat) (c : Bool) (data : Line) (mask : W32) (psn : BitVec 4) (s : State) : State :=
  let s := s.l1Alloc core line part c
  s.modL1 core line fun l =>
    let m := mask &&& ~~~l.valid
    { l with data := mergeLine l.data data (wordBytes m), valid := l.valid ||| m, psn := l.psn ||| (psn &&& wordSectors m) }

/-- As for ST memory (R118): dirty words of the line written through, then the L1's copy invalidated. -/
def State.l1Drop (core line : Nat) (s : State) : State :=
  let s := s.writeThrough core line (BitVec.allOnes 32) 0
  s.modCore core fun c => { c with l1 := c.l1.del line }

/-- Lines of a core's L1 with dirty words. -/
def State.dirtyLines (s : State) (core : Nat) : List Nat :=
  ((s.cores.rd core).l1.filter fun e => e.2.live && e.2.dirty != 0).map (·.1)

/-- Write through every dirty word of a core's L1 (R142 step 2). Every write-through sent so far has a number below
`nextId`. -/
def State.flushL1 (core : Nat) (s : State) : State :=
  (s.dirtyLines core).foldl (fun s l => s.writeThrough core l (BitVec.allOnes 32) 0) s

/-- A write-through of a core that a release numbered `id` waits for: one still under way or not yet acknowledged (R141);
one to a peer only at `.sy` (R139). -/
def wtCounts (core id : Nat) (sy : Bool) (r : WtReq) : Bool := r.core == core && r.seq < id && (sy || !isPeer r.line)
def State.wtPending (s : State) (core id : Nat) (sy : Bool) : Bool :=
  (s.agenda.any fun p => match p.ev with
    | .writeThrough r => wtCounts core id sy r
    | .slotlinkRequest q => match q.kind with
      | .write r => !q.incoming && wtCounts core id sy r
      | _ => false
    | _ => false) || s.acks.any fun e => e.2.live && e.2.wt.bytes != 0 && wtCounts core id sy e.2.wt

/-- A write-through of a core to a line, sent before number `id`, is under way or not yet acknowledged. -/
def State.wtLine (s : State) (core line id : Nat) : Bool :=
  let hit (r : WtReq) : Bool := r.core == core && r.line == line && r.seq < id
  (s.agenda.any fun p => match p.ev with
    | .writeThrough r => hit r
    | .slotlinkRequest q => match q.kind with
      | .write r => !q.incoming && hit r
      | _ => false
    | _ => false) || s.acks.any fun e => e.2.live && e.2.wt.bytes != 0 && hit e.2.wt

/-- Self-invalidation (R143): every valid word that is neither owned nor dirty. A fill that has already been served at its
home slice brings no word any more. -/
def State.selfInvalidate (core : Nat) (s : State) : State :=
  let s : State := { s with agenda := s.agenda.map fun p => { p with ev := match p.ev with
      | .mergingFillReturn r => .mergingFillReturn (if r.core = core then { r with mask := 0 } else r)
      | e => e } }
  s.modCore core fun c => { c with l1 := c.l1.map fun e => (e.1, { e.2 with valid := e.2.valid &&& (e.2.owned ||| e.2.dirty) }) }

/-! ### Release and acquire as parts of an instruction -/

/-- `.tm` of a pair team costs as `.dv` (R139). -/
def State.wide (s : State) (sc : Scope) : Bool :=
  match sc with
  | .grp | .cr => false
  | .tm => s.tm.pair
  | .dv | .sy => true

/-- The split's own accesses that a release waits for (R142): loads, stores, atomics, calls, posts. -/
def ownAccesses (s : State) : List Nat := splitOps s s.cur fun o => o.cls == 1 || o.cls == 2
/-- Those an acquire waits for (R143): loads, returning atomics, returning calls. -/
def ownLoads (s : State) : List Nat := splitOps s s.cur fun o => o.cls == 1
/-- Engine operations of the split (R156). -/
def ownEngines (s : State) : List Nat := splitOps s s.cur fun o => o.cls == 3

/-- The instruction passes to its next phase. -/
def State.phased (n : Nat) (s : State) : State := s.modSp fun x => { x with phase := n }

/-- Release at a scope as phases `p` and `p + 1` of the executing instruction, then `k` from phase `p + 2` (R142). A
release at `.dv` or `.sy` seals the group's region (R321). -/
def State.release (sc : Scope) (p : Nat) (k : State → State) (s : State) : State :=
  let ph := s.sp.phase
  let wait (s : State) : State :=
    if s.wtPending s.cr s.sp.aux (sc = .sy) then s.waitFor (.rel s.sp.aux (sc = .sy)) else k (s.phased (p + 2))
  if ph ≤ p then
    match ownAccesses s with
    | [] =>
      if s.wide sc then
        let s := (if sc = .dv ∨ sc = .sy then s.sealNow else s).flushL1 s.cr
        wait (s.modSp fun x => { x with phase := p + 1, aux := s.nextId })
      else k (s.phased (p + 2))
    | ids => (s.phased p).waitFor (.ops ids)
  else if ph = p + 1 then wait s
  else k s

/-- Acquire at a scope as phase `p` of the executing instruction, then `k` from phase `p + 1` (R143). -/
def State.acquire (sc : Scope) (p : Nat) (k : State → State) (s : State) : State :=
  if s.sp.phase ≤ p then
    match ownLoads s with
    | [] => k ((if s.wide sc then s.selfInvalidate s.cr else s).phased (p + 1))
    | ids => (s.phased p).waitFor (.ops ids)
  else k s

end Sys2Proof.Machine
end

