-- ==== Sys2Proof/Machine/Xlate.lean ====
section
/-! DEFINITION. Translation (R121 to R126): the page-table walker, merged TLB entries, and the checks that every access to
global memory passes before any part of it is performed. -/

namespace Sys2Proof.Machine

/-- Bits [63:56] equal bit 55 (R121). -/
def canonical (va : W64) : Bool := fld va.toNat 55 9 = 0 || fld va.toNat 55 9 = 511

/-- The 56 bits that translation uses, and the number of the 64 KiB page. -/
def va56 (va : W64) : Nat := fld va.toNat 0 56
def pageOf (va : W64) : Nat := fld va.toNat 16 40

/-- Some enabled window of the partition holds the page of a physical address (R123). -/
def State.inWindows (s : State) (part pa : Nat) : Bool :=
  let p := s.parts.rd part
  let page := fld pa 16 36
  (List.range 64).any fun n =>
    (p.winBase.rd n).getLsbD 63 && fld (p.winBase.rd n).toNat 16 36 ≤ page && page ≤ fld (p.winLimit.rd n).toNat 16 36

/-- Eight bytes as the home slice sees them; none where the address does not exist or a sector is poisoned. -/
def State.read64 (s : State) (pa : Nat) : Option Nat :=
  (s.place pa).bind fun a =>
    if (s.homePsn (a / 128)).getLsbD (a % 128 / 32) then none else some (lineBytes (s.homeLine (a / 128)) (a % 128) 8)

/-- How a walk ends (R122), or that a line it reads is served to nobody now (R144, R179). -/
inductive Walk where
  | fault
  | prot
  | busy
  /-- the level-4 entry stands at `ent` and holds `e` -/
  | ok (ent e : Nat)
  deriving DecidableEq, Repr

/-- Levels from `shifts` down, the table at `tab` (R122). An entry that cannot be read gives PROT (DEDUCED, log entry 9). -/
def walkFrom (s : State) (part : Nat) (va : Nat) : List Nat → Nat → Walk
  | [], _ => .prot
  | sh :: rest, tab =>
    if !s.inWindows part tab then .prot
    else
      let at_ := tab + 8 * fld va sh 10
      match s.read64 at_ with
      | none => .prot
      | some e =>
        if e % 2 = 0 then .fault
        else if rest = [] then
          if fld e 52 4 ≠ 0 ∨ fld e 10 6 ≠ 0 ∨ 2 ≤ fld e 6 2 ∨ !s.inWindows part (fld e 16 36 * 2 ^ 16) then .prot else .ok at_ e
        else if fld e 52 4 ≠ 0 ∨ fld e 1 12 ≠ 0 then .prot
        else walkFrom s part va rest (fld e 13 39 * 2 ^ 13)

/-- The four-level walk from PT_ROOT. -/
def State.walk (s : State) (part : Nat) (va : Nat) : Walk :=
  walkFrom s part va [46, 36, 26, 16] (fld (s.preg part 0).toNat 13 39 * 2 ^ 13)

/-- Addresses of the entries that a walk reads. -/
def walkReads (s : State) (part : Nat) (va : Nat) : List Nat → Nat → List Nat
  | [], _ => []
  | sh :: rest, tab =>
    if !s.inWindows part tab then []
    else
      let a := tab + 8 * fld va sh 10
      a :: match s.read64 a with
        | some e => if e % 2 = 0 ∨ fld e 52 4 ≠ 0 ∨ fld e 1 12 ≠ 0 then [] else walkReads s part va rest (fld e 13 39 * 2 ^ 13)
        | none => []

/-- Lines that the walker reads through the LLC: the entries of the walk and the block of 64 around the last. -/
def walkLines (s : State) (part va : Nat) : List Nat :=
  let as_ := walkReads s part va [46, 36, 26, 16] (fld (s.preg part 0).toNat 13 39 * 2 ^ 13)
  let block := match as_ with
    | [_, _, _, a] => (List.range 4).map fun i => a - a % 512 + 128 * i
    | _ => []
  ((as_ ++ block).filterMap fun a => (s.place a).map (· / 128)).eraseDups

/-- An atomic OR at an entry's home slice is performed, carrying C = 1 (R122, R164). -/
def State.orNow (part a bits : Nat) (s : State) : State :=
  let line := a / 128
  let s := s.fillLine line part true
  let l := s.homeLine line
  let v := lineBytes l (a % 128) 8 ||| bits
  s.writeHome line part (BitVec.ofNat 1024 (v * 2 ^ (8 * (a % 128)))) (BitVec.ofNat 128 (255 * 2 ^ (a % 128))) true

/-- An atomic OR at an entry's home slice: partition, address, bits. It waits there as every request for the line does, and until the
owners of its words have acknowledged their revokes (R141, R144, R171, R179, R182). -/
def State.orTry (e : Nat × Nat × Nat) (s : State) : State :=
  let line := e.2.1 / 128
  let wait (s : State) : State := (s.modSlice (sliceOf line) fun x => { x with ors := x.ors ++ [e] }).ask (.engineRecall line)
  if s.busy line then wait s
  else
    let r := s.cleared line (bytesWords (BitVec.ofNat 128 (255 * 2 ^ (e.2.1 % 128)))) noOwner
    if r.2 then r.1.orNow e.1 e.2.1 e.2.2 else wait r.1

/-- An atomic OR reaches an entry's home slice. -/
def State.orEntry (part pa bits : Nat) (s : State) : State :=
  match s.place pa with
  | none => s
  | some a => s.orTry (part, a, bits)

/-- The ORs that wait at a slice are tried again, in their order. -/
def State.lateOrs (slice : Nat) (s : State) : State :=
  (s.slices.rd slice).ors.foldl (fun s e => s.orTry e) (s.modSlice slice fun x => { x with ors := [] })

/-- Lines that a walk for an address reads and that their home slices serve to nobody now. -/
def State.walkBusy (s : State) (part : Nat) (va : W64) : List Nat := if canonical va then (walkLines s part (va56 va)).filter s.busy else []

/-- What members of one merged entry share: R, W, X, C, S and type (R124). -/
def attrs (e : Nat) : Nat := fld e 1 7

/-- The merged TLB entry that a level-4 entry fills (R124). Member j holds page base + j with the same attributes, is
valid, and passes the checks of R122. -/
def State.mergeBlock (s : State) (part va ent e : Nat) : Tlb :=
  let j0 := fld va 16 6
  let block := ent - 8 * j0
  let base := fld e 16 36 + 2 ^ 40 - j0
  let member (j : Nat) : Option Nat :=
    match s.read64 (block + 8 * j) with
    | none => none
    | some x =>
      if x % 2 = 1 ∧ fld x 52 4 = 0 ∧ fld x 10 6 = 0 ∧ attrs x = attrs e ∧ fld x 16 36 + 2 ^ 40 = base + j ∧
        s.inWindows part (fld x 16 36 * 2 ^ 16) then some x else none
  let js := List.range 64
  { part := part, blk := fld va 22 34, base := base
    valid := maskOf (js.filter fun j => (member j).isSome)
    dirty := maskOf (js.filter fun j => match member j with | some x => x.testBit 9 | none => false)
    r := e.testBit 1, w := e.testBit 2, x := e.testBit 3, c := e.testBit 4, s := e.testBit 5, ty := fld e 6 2, ent := block }

/-- The walker sets A in every entry that it merges (R124). -/
def State.setAccessed (t : Tlb) (s : State) : State :=
  (positions t.valid).foldl (fun s j => s.orEntry t.part (t.ent + 8 * j) 0x100) s

/-- Entries of a TLB that translate a page. -/
def tlbHits (l : List Tlb) (part va : Nat) : List Tlb :=
  l.filter fun t => t.part == part && t.blk == fld va 22 34 && t.valid.getLsbD (fld va 16 6)

/-- The physical address through an entry. -/
def Tlb.pa (t : Tlb) (va : Nat) : Nat := (t.base + fld va 16 6 - 2 ^ 40) * 2 ^ 16 + fld va 0 16

/-- A TLB takes an entry; the spec names no replacement policy, so which entry of a full TLB it replaces is free. An entry
of the same block, run and attributes is replaced in place. -/
def tlbInsert (cap pick : Nat) (t : Tlb) (l : List Tlb) : List Tlb :=
  let l := l.filter fun u => !(u.part == t.part && u.blk == t.blk && u.base == t.base && u.ent == t.ent && u.r == t.r && u.w == t.w
    && u.x == t.x && u.c == t.c && u.s == t.s && u.ty == t.ty)
  if l.length < cap then l ++ [t] else l.set (pick % cap) t

/-- Every TLB entry of the package that a test names is removed (R123, R348). -/
def State.dropTlb (f : Tlb → Bool) (s : State) : State :=
  { s with
    cores := s.cores.map fun (e : Nat × Core) => (e.1, { e.2 with tlb := e.2.tlb.filter fun t => !f t })
    dies := s.dies.map fun (e : Nat × Die) => (e.1, { e.2 with tlb := e.2.tlb.filter (fun t => !f t), chartTlb := e.2.chartTlb.filter fun t => !f t }) }

/-- The entry that serves an access: of two that match, either may (R125). -/
def State.tlbServe (s : State) (l : List Tlb) (part va : Nat) : Option Tlb :=
  match tlbHits l part va with
  | [] => none
  | [t] => some t
  | ts => ts[Config.pick (s.tick + va) % ts.length]?

/-! ### Accesses of lanes and splits (R126, R127) -/

/-- One translated access: position (64 for a scalar), virtual and physical address, and what its entry says. -/
structure Hit where
  pos : Nat
  ea  : W64
  pa  : Nat
  c   : Bool
  ty  : Nat
  s   : Bool
  deriving DecidableEq, Repr, Inhabited

/-- What becomes of one lane's access. -/
inductive Fate where
  | align | prot | fault | miss
  | ok (h : Hit) (t : Tlb)
  deriving DecidableEq, Repr

/-- R122, R126, R127: `r`, `w`, `x` say what the access needs, `al` its alignment. A write to a page with S set in a
snapshot launch is left to the snapshot hardware (R122). An address that does not exist is the gather unit's to meet when `gath` (R9). -/
def State.fateAt (s : State) (gath r w x : Bool) (al : Nat) (p : Nat × W64) : Fate :=
  let va := va56 p.2
  if p.2.toNat % al ≠ 0 then .align
  else if !canonical p.2 then .prot
  else match s.tlbServe (s.cores.rd s.cr).tlb s.pt va with
    | some t =>
      let pa := t.pa va
      if (r && !t.r) || (w && !t.w && !(t.s && s.gd.snap)) || (x && !t.x) then .prot
      else match s.place pa with
        | none => if gath then .ok { pos := p.1, ea := p.2, pa := pa, c := t.c, ty := t.ty, s := t.s } t else .prot
        | some a => .ok { pos := p.1, ea := p.2, pa := a, c := t.c, ty := t.ty, s := t.s } t
    | none =>
      match s.sp.xl.rd (pageOf p.2) with
      | 2 => .fault
      | 3 => .prot
      | _ => .miss
abbrev State.fate (s : State) (r w x : Bool) (al : Nat) (p : Nat × W64) : Fate := s.fateAt false r w x al p

/-- Pages whose translation an access still needs (each lane's, aligned or not: R126 translates every lane first). -/
def State.missing (s : State) (ls : List (Nat × W64)) : List Nat :=
  ((ls.filter fun p => canonical p.2 && (s.tlbServe (s.cores.rd s.cr).tlb s.pt (va56 p.2)).isNone && s.sp.xl.rd (pageOf p.2) < 2).map
    fun p => pageOf p.2).eraseDups

/-- The split asks for the translations that miss the core TLB and gives up its slot (R126). -/
def State.askWalks (ps : List Nat) (s : State) : State :=
  let s := ps.foldl (fun s p =>
    if s.sp.xl.rd p = 1 then s
    else ((s.modSp fun x => { x with xl := x.xl.wr p 1 }).ask (.tlbWalk false s.cr s.pt p)).coreEv s.cr s.pt 0x08 1) s
  s.waitFor .xlate

/-- A page fault (R128): the whole group stops and holds its slots until it has been saved; the split's instruction is executed
again after the restore. A group that is being saved already holds the split at its instruction. -/
def State.pageFault (kind : Nat) (addr lanes : W64) (s : State) : State :=
  let g := s.gk
  let s := s.modSp fun x => { x with xl := [], phase := 0, aux := 0, wait := .ready }
  if (s.groups.rd g).saveKind ≠ 0 then s.freeSlot s.cur
  else
    (s.modSp fun x => { x with wait := .faulting }).modGroup g fun y => { y with
      saveKind := 1
      fault := { kind := kind, addr := addr, lanes := lanes, frame := 0, team := s.tm.teamId, core := y.core, group := g % 128 } }

/-- D is set on the first access through an entry that needs W (R122, R124): in the page table and in the TLB entry. -/
def State.setDirtyBit (t : Tlb) (va : Nat) (s : State) : State :=
  let j := fld va 16 6
  if t.dirty.getLsbD j then s
  else
    let s := s.orEntry t.part (t.ent + 8 * j) 0x200
    let up (l : List Tlb) := l.map fun u => if u.part = t.part ∧ u.blk = t.blk ∧ u.base = t.base ∧ u.ent = t.ent then { u with dirty := u.dirty ||| (1#64 <<< j) } else u
    (s.modCore s.cr fun c => { c with tlb := up c.tlb }).modDie (dieOfCore s.cr) fun d => { d with tlb := up d.tlb }

/-- The page of a snapshot launch that must be copied before a write (R341): S set, not copied, a slot free or the launch
still protected. -/
def State.uncopied (s : State) (grid : Nat) (sbit : Bool) (pa : Nat) : Bool :=
  let g := s.grids.rd grid
  let r := s.grids.rd g.root
  sbit && g.snap && !r.unprotected && !(r.pages.any fun e => e.1 == pa / 2 ^ 16)

/-- Where the positions of `ctxsv` and `ctxld` begin. -/
def ctxPos : Nat := 65536
/-- The lane of an access's position: positions from 64 are a scalar's words, from 256 words of texels, 64 to a word, and from
`ctxPos` on the words of `ctxsv` and `ctxld`. -/
def laneOf (p : Nat) : Option Nat := if p < 64 then some p else if p < 256 ∨ ctxPos ≤ p then none else some (p % 64)
/-- Mask of the lanes of accesses, with none for a scalar access. -/
def laneMask (ps : List (Nat × W64)) : W64 := maskOf (ps.filterMap fun p => laneOf p.1)

/-- Every access of an instruction to global memory (R126): all lanes are translated before any is performed, and the
instruction performs all of them or none. `k` performs them. Kind 3 is `gth` (R127). -/
def State.access (kind : Nat) (r w x : Bool) (al : Nat) (ls : List (Nat × W64)) (k : List Hit → State → State) (s : State) : State :=
  match s.missing ls with
  | m@(_ :: _) => s.askWalks m
  | [] =>
    let fs := ls.map fun p => (p, s.fateAt (kind == 3) r w x al p)
    let pick (f : Fate) : List (Nat × W64) := (fs.filter fun e => e.2 == f).map (·.1)
    let low (l : List (Nat × W64)) : W64 := (l.map (·.2)).headD 0
    let bad (c : Cause) (l : List (Nat × W64)) (s : State) : State :=
      (s.modSp fun x => { x with xl := [] }).trap c (some (laneMask l)) (some (low l)) 8 (BitVec.ofNat 64 kind)
    match pick .align, pick .prot, pick .fault with
    | l@(_ :: _), _, _ => bad .align l s
    | [], l@(_ :: _), _ => bad .prot l s
    | [], [], l@(_ :: _) => s.pageFault kind (low l) (laneMask l)
    | [], [], [] =>
      let oks := fs.filterMap fun e => match e.2 with
        | .ok h t => some (h, t)
        | _ => none
      let hs := oks.map (·.1)
      if w && hs.any fun h => s.uncopied s.tm.grid h.s h.pa then
        (hs.filter fun h => s.uncopied s.tm.grid h.s h.pa).foldl (fun s h => s.ask (.snapshotCopy s.gd.root (h.pa / 2 ^ 16))) s
      else
        let s := if w then oks.foldl (fun s e => s.setDirtyBit e.2 (va56 e.1.ea)) s else s
        k hs s

/-! ### Translation by the engines -/

/-- An engine ticket (R349: bit 0 set) of an operation (0), a draw (1), a ray (2) or a queue (3). -/
def ticketOf (kind id : Nat) : Nat := 1 + 2 * (kind + 4 * id)

/-- A fault that saves no group (R222, R259, R287): a record with frame 0 and an engine ticket in its last field. -/
def State.engineFault (part kind : Nat) (addr : W64) (ticket team core group : Nat) (s : State) : State :=
  (s.modPart part fun p => { p with
    tickets := p.tickets ++ [ticket]
    waiting := p.waiting ++ [{ kind := kind, addr := addr, lanes := BitVec.ofNat 64 ticket, team := team, core := core, group := group }] }).ask
    (.faultRecordPost part)

/-- How the chart engine's translation of one address ends: a miss asks for the entry. -/
inductive EngFate where
  | ok (pa : Nat) (c sbit : Bool)
  | miss | fault | prot
  deriving DecidableEq, Repr

/-- The chart engine of a die translates for itself, the rasterisers and the forward posts of its slices (R221). -/
def State.engineXlate (die part : Nat) (va : W64) (w : Bool) (s : State) : State × EngFate :=
  if !canonical va then (s, .prot)
  else match s.tlbServe (s.dies.rd die).chartTlb part (va56 va) with
    | some t =>
      if (w && !t.w) || (!w && !t.r) then (s, .prot)
      else match s.place (t.pa (va56 va)) with
        | none => (s, .prot)
        | some a =>
          let j := fld (va56 va) 16 6
          let s := if !w || t.dirty.getLsbD j then s
            else (s.orEntry part (t.ent + 8 * j) 0x200).modDie die fun d => { d with
              chartTlb := d.chartTlb.map fun u => if u = t then { u with dirty := u.dirty ||| (1#64 <<< j) } else u }
          (s, .ok a t.c t.s)
    | none => match s.walkBusy part va, s.walk part (va56 va) with
      | ls@(_ :: _), _ => ((s.recall ls).ask (.tlbWalk true die part (pageOf va)), .miss)
      | [], .ok _ _ => (s.ask (.tlbWalk true die part (pageOf va)), .miss)
      | [], .fault => (s, .fault)
      | [], _ => (s, .prot)

/-- A walk made at once for hardware of its own: the page's entry, with A set, and D when it needs W (R122). Its reads go through the LLC
(R159), which serves all of their lines. -/
def State.walkServed (part : Nat) (va : W64) (r w : Bool) (s : State) : State × Walk × Nat × Bool :=
  if !canonical va then (s, .prot, 0, false)
  else match s.walk part (va56 va) with
    | .ok ent e =>
      if (r && !e.testBit 1) || (w && !e.testBit 2) then (s, .prot, 0, false)
      else match s.place (fld e 16 36 * 2 ^ 16 + fld va.toNat 0 16) with
        | none => (s, .prot, 0, false)
        | some a =>
          let s := (walkLines s part (va56 va)).foldl (fun s l => (s.fillLine l part true).recent l) s
          (s.orEntry part ent (if w then 0x300 else 0x100), .ok ent e, a, e.testBit 4)
    | x => (s, x, 0, false)

/-- The same; while the home slice of a line that it reads serves that line to nobody, its answer is `busy`, and a held line's recall has
started (R144, R171, R179). -/
def State.walkNow (part : Nat) (va : W64) (r w : Bool) (s : State) : State × Walk × Nat × Bool :=
  match s.walkBusy part va with
  | [] => s.walkServed part va r w
  | ls => (s.recall ls, .busy, 0, false)

end Sys2Proof.Machine
end

