-- ==== Sys2Proof/Machine/Operands.lean ====
section
/-! DEFINITION. The operand forms (R15, R18, R29, R31, R38) and the shapes of instructions: lane results, scalar results and
predicate results of fixed latency, and the effective addresses of memory operands. -/

namespace Sys2Proof

/-- Bytes of an element (R32). -/
def MemSz.bytes : MemSz → Nat
  | .b1 => 1 | .b2 => 2 | .b4 => 4 | .b8 => 8

end Sys2Proof

namespace Sys2Proof.Machine

/-- Built-in constants: the 32 bits of value 64 + k (R38). -/
def constBits (k : Nat) : W32 :=
  if k < 33 then BitVec.ofNat 32 k
  else match k with
    | 33 => 0x40#32 | 34 => 0x80#32 | 35 => 0xFF#32 | 36 => 0x100#32 | 37 => 0xFFFF#32 | 38 => 0x7FFFFFFF#32
    | 39 => 0x80000000#32 | 40 => 0xFFFFFFFF#32
    | 48 => 0x3F000000#32 | 49 => 0x3F800000#32 | 50 => 0x40000000#32 | 51 => 0x40800000#32 | 52 => 0xBF800000#32
    | 53 => 0x3E800000#32 | 54 => 0x40490FDB#32 | 55 => 0x3F317218#32 | 56 => 0x3FB8AA3B#32 | 57 => 0x7F800000#32
    | 58 => 0xFF800000#32 | 59 => 0x7F7FFFFF#32 | 60 => 0x00800000#32 | 61 => 0x7FC00000#32 | 62 => 0x3E22F983#32
    | 63 => 0x3C003C00#32
    | _ => 0

/-- A constant as a 64-bit scalar operation receives it: zero-extended, but value 104 is all ones (R38). -/
def const64 (k : Nat) : W64 := if k = 40 then BitVec.allOnes 64 else (constBits k).setWidth 64

/-- Operand b of a lane instruction at a position (R15, R29, R38). -/
def State.bLane (s : State) (b : LaneB) (p : Nat) : W32 :=
  match b with
  | .v r => s.gr.vr r p
  | .s r => (s.sr r).setWidth 32
  | .c k => constBits k

/-- Vector registers that b reads. -/
def bRegs : LaneB → List Nat
  | .v r => [r.val]
  | _ => []
def bPair : LaneB → List Nat
  | .v r => [r.val, r.val + 1]
  | _ => []

/-- A scalar b as 64 bits (R38); a 32-bit operation reads bits [31:0] (R74). -/
def State.bScl (s : State) : SclB → W64
  | .s r => s.sr r
  | .c k => const64 k

/-- A scalar b that a lane instruction reads: bits [31:0] (R15). -/
def State.bLow (s : State) (b : SclB) : Nat := fld (s.bScl b).toNat 0 32

/-! ### Poison of the SRAM pool (R339) -/

/-- An instruction that reads a poisoned vector-register word in a lane of the mask traps with POISON, TRAP_ADDR 0 and
TRAP_INFO[7:0] = 15, before it has any effect. Integer lane forms trap so too: R339 is taken before R72, by which they never trap
(DEDUCED, log entry 119). -/
def State.sram (m : W64) (rs : List Nat) (k : State → State) (s : State) : State :=
  if s.gr.badV = [] then k s
  else if rs.any fun r => (positions m).any fun p => s.gr.badV.rd (64 * r + p) then s.trap .poison none (some 0) 8 15
  else k s

/-- A 64-bit value in a register pair (R29, R85). -/
def Group.pair (g : Group) (r p : Nat) : W64 := (g.vr (r + 1) p) ++ (g.vr r p)
def Group.setPair (g : Group) (r p : Nat) (x : W64) : Group :=
  (g.setV r p (x.setWidth 32)).setV (r + 1) p ((x >>> 32).setWidth 32)

/-! ### Shapes of results -/

/-- Flags that any lane of a mask raises (R88). -/
def raised (m : W64) (f : Nat → Nat) : Nat := (positions m).foldl (fun r p => r ||| f p) 0

/-- Both words of a pair, each with its entry. -/
def State.pairWrite (d lat flags : Nat) (f : Nat → W64) (s : State) : State :=
  let lo := s.lands d lat
  let hi := s.lands (d + 1) lat
  ((s.modGr fun g => (g.setVs d lo fun p => (f p).setWidth 32).setVs (d + 1) hi fun p => (f p >>> 32).setWidth 32).lateWrite d lat flags).lateWrite (d + 1) lat 0

/-- A scalar result with its entry. -/
def State.setLate (d lat flags : Nat) (x : W64) (s : State) : State :=
  (if s.gr.overtakenS s.cur .own d (s.clock + lat) then s else s.setS d x).lateWrite (128 + d) lat flags

/-- A lane instruction of fixed latency that writes one vector register: every read before any write (R24), nothing at all
with an empty mask (R51). -/
def State.laneOut (d lat n : Nat) (srcs : List Nat) (f : Nat → W32) (s : State) : State :=
  let m := s.act
  s.sram m srcs fun s =>
    (if m = 0 then s else (s.modGr fun g => g.setVs d (s.lands d lat) f).lateWrite d lat 0).adv n

/-- The same for a pair of registers. -/
def State.laneOut2 (d lat n : Nat) (srcs : List Nat) (f : Nat → W64) (s : State) : State :=
  let m := s.act
  s.sram m srcs fun s =>
    (if m = 0 then s else s.pairWrite d lat 0 f).adv n

/-- A lane instruction that writes a predicate in the active lanes (R52). -/
def State.predOut (d lat n : Nat) (srcs : List Nat) (f : Nat → Bool) (s : State) : State :=
  let m := s.act
  s.sram m srcs fun s =>
    (if m = 0 then s
     else (s.modGr fun g => g.setP d m (maskOf ((positions m).filter f))).lateWrite (192 + d) lat 0).adv n

/-- A scalar instruction of fixed latency. -/
def State.sclOut (d lat n : Nat) (x : W64) (s : State) : State := (s.setLate d lat 0 x).adv n

/-- Lane form of a function of a and b (R75); `n` parcels. -/
def State.lane2 (F : W32 → W32 → W32) (lat n : Nat) (d a : Nat) (b : LaneB) (s : State) : State :=
  s.laneOut d lat n (a :: bRegs b) fun p => F (s.gr.vr a p) (s.bLane b p)
/-- With d a source as well (R77, R80, R92). -/
def State.lane3 (F : W32 → W32 → W32 → W32) (lat n : Nat) (d a : Nat) (b : LaneB) (s : State) : State :=
  s.laneOut d lat n (d :: a :: bRegs b) fun p => F (s.gr.vr a p) (s.bLane b p) (s.gr.vr d p)
def State.lane1 (F : W32 → W32) (lat : Nat) (d a : Nat) (s : State) : State :=
  s.laneOut d lat 2 [a] fun p => F (s.gr.vr a p)

/-- A 32-bit scalar result extended to 64 bits by its suffix (R74). -/
def ext64 (signed : Bool) (x : W32) : W64 := if signed then x.signExtend 64 else x.setWidth 64

/-- Scalar form of a function of any width (R74, R75). -/
def State.scl2 (F : (n : Nat) → BitVec n → BitVec n → BitVec n) (signed : Bool) (lat : Nat) (wide : Bool) (d a : Nat)
    (b : SclB) (s : State) : State :=
  s.sclOut d lat 2
    (if wide then F 64 (s.sr a) (s.bScl b) else ext64 signed (F 32 ((s.sr a).setWidth 32) ((s.bScl b).setWidth 32)))
def State.scl3 (F : (n : Nat) → BitVec n → BitVec n → BitVec n → BitVec n) (lat : Nat) (wide : Bool) (d a : Nat)
    (b : SclB) (s : State) : State :=
  s.sclOut d lat 2
    (if wide then F 64 (s.sr a) (s.bScl b) (s.sr d)
     else ext64 false (F 32 ((s.sr a).setWidth 32) ((s.bScl b).setWidth 32) ((s.sr d).setWidth 32)))
def State.scl1 (F : (n : Nat) → BitVec n → BitVec n) (signed : Bool) (wide : Bool) (d a : Nat) (s : State) : State :=
  s.sclOut d 4 2 (if wide then F 64 (s.sr a) else ext64 signed (F 32 ((s.sr a).setWidth 32)))

/-- A float lane result with flags, ORed in when any active lane raises them (R88). -/
def State.floatOut (d lat n : Nat) (srcs : List Nat) (f : Nat → W32 × Nat) (s : State) : State :=
  let m := s.act
  s.sram m srcs fun s =>
    (if m = 0 then s
     else (s.modGr fun g => g.setVs d (s.lands d lat) fun p => (f p).1).lateWrite d lat (raised m fun p => (f p).2)).adv n
def State.floatOut2 (d lat n : Nat) (srcs : List Nat) (f : Nat → W64 × Nat) (s : State) : State :=
  let m := s.act
  s.sram m srcs fun s =>
    (if m = 0 then s else s.pairWrite d lat (raised m fun p => (f p).2) fun p => (f p).1).adv n

/-! ### Addresses -/

/-- EA(L) of a lane memory operand (R18). -/
def State.ea (s : State) (b o : Nat) (esize i : Nat) (p : Nat) : W64 :=
  s.sr b + (s.gr.vr o p).signExtend 64 * BitVec.ofNat 64 esize + BitVec.ofNat 64 (i * esize)
/-- The scalar memory operand. -/
def State.sea (s : State) (b : Nat) (esize i : Nat) : W64 := s.sr b + BitVec.ofNat 64 (i * esize)

/-- Addresses of the lanes of a mask. -/
def State.eas (s : State) (m : W64) (b o esize i : Nat) : List (Nat × W64) :=
  (positions m).map fun p => (p, s.ea b o esize i p)

end Sys2Proof.Machine
end

