-- ==== Sys2Proof/Machine/Reads.lean ====
section
/-! DEFINITION. The registers that an instruction reads, for the interlock of R72 and R52: a later instruction of the split that
reads the destination of a result on its way waits in place until it is written. Where the count of registers depends on a table
entry or on the state, the most that it can be is taken: waiting longer changes no value. -/

namespace Sys2Proof.Machine

/-! ### Codes of registers, as `Late` numbers them -/

abbrev rv (r : Nat) : Nat := r
abbrev rs (n : Nat) : Nat := 128 + n
abbrev rp (n : Nat) : Nat := 192 + n
def rvs (r n : Nat) : List Nat := (List.range n).map fun i => rv (r + i)
def rss (r n : Nat) : List Nat := (List.range n).map fun i => rs (r + i)

/-- A lane operand b of `n` registers, a scalar b. -/
def LaneB.reads (n : Nat) : LaneB → List Nat
  | .v r => rvs r n
  | .s r => [rs r]
  | .c _ => []
def SclB.reads : SclB → List Nat
  | .s r => [rs r]
  | .c _ => []

/-- Registers of a value: a pair for 64 bits. -/
def FTy.regs : FTy → Nat
  | .f64 => 2
  | _ => 1
def Fmt.regs : Fmt → Nat
  | .f64 => 2
  | _ => 1
def MemSz.regs : MemSz → Nat
  | .b8 => 2
  | _ => 1

/-- Two operands of `n` registers each, a lane form's d first where it is a source as well. -/
def laneReads (n a : Nat) (b : LaneB) : List Nat := rvs a n ++ LaneB.reads n b
def accReads (n d a : Nat) (b : LaneB) : List Nat := rvs d n ++ laneReads n a b
def sclReads (a : Nat) (b : SclB) : List Nat := rs a :: SclB.reads b
def shortReads (d b : Nat) : List Nat := [rv d, rv b]
/-- A lane memory operand. -/
def eaReads (b o : Nat) : List Nat := [rs b, rv o]

/-- What an instruction of a core reads. -/
def readsOf : Instr → List Nat
  | .brAll _ p | .brAny _ p | .brNone _ p | .brp _ p => [rp p]
  | .jmp a | .ret a => [rs a]
  | .sleep b | .trap b | .rti b | .brk b => SclB.reads b
  | .sysc b => SclB.reads b ++ rss 56 8
  | .wpath _ k => [rs k]
  | .swreg _ a => [rs a]
  | .plogAnd _ a b | .plogOr _ a b | .plogXor _ a b | .plogAndn _ a b => [rp a, rp b]
  | .pmov _ a | .pget _ a | .vany _ a | .vall _ a | .vbal _ a | .pcount _ a => [rp a]
  | .pset _ b => SclB.reads b
  | .addLane _ a b | .subLane _ a b | .addSatSLane _ a b | .subSatSLane _ a b | .addSatZLane _ a b | .subSatZLane _ a b |
    .mulLane _ a b | .mulhSLane _ a b | .mulhZLane _ a b | .minSLane _ a b | .maxSLane _ a b | .minZLane _ a b | .maxZLane _ a b |
    .andLane _ a b | .orLane _ a b | .xorLane _ a b | .andnLane _ a b | .shlLane _ a b | .shrLane _ a b | .sarLane _ a b |
    .rotLane _ a b | .bfeSLane _ a b | .bfeZLane _ a b | .cmpSignedLane _ _ a b | .cmpUnsignedLane _ _ a b |
    .cmpEqualityLane _ _ a b | .fcmpF32 _ _ a b | .rngSeed a b | .shfl _ _ a b => laneReads 1 a b
  | .addc _ a b | .subc _ a b => rp 62 :: laneReads 1 a b
  | .sel _ a b => rp 61 :: laneReads 1 a b
  | .madLane d a b | .bfiLane d a b | .dp4I8x4 d a b | .dp4N8x4 d a b | .dp8I4x8 d a b | .dp8N4x8 d a b | .fdp2F16 d a b |
    .fdp2Bf16 d a b | .fdp4E5m2 d a b | .fdp4E4m3 d a b | .fdp4E3m2 d a b | .fdp4E2m3 d a b | .fdp8E2m1 d a b => accReads 1 d a b
  | .fadd t _ a b | .fsub t _ a b | .fmul t _ a b | .fmin t _ a b | .fmax t _ a b => laneReads (FTy.regs t) a b
  | .ffma t d a b => accReads (FTy.regs t) d a b
  | .fcmpF64 _ _ a b => laneReads 2 a b
  | .addScalar _ _ a b | .subScalar _ _ a b | .addSatSScalar _ _ a b | .subSatSScalar _ _ a b | .addSatZScalar _ _ a b |
    .subSatZScalar _ _ a b | .mulScalar _ _ a b | .mulhSScalar _ _ a b | .mulhZScalar _ _ a b | .minSScalar _ _ a b |
    .maxSScalar _ _ a b | .minZScalar _ _ a b | .maxZScalar _ _ a b | .andScalar _ _ a b | .orScalar _ _ a b | .xorScalar _ _ a b |
    .andnScalar _ _ a b | .shlScalar _ _ a b | .shrScalar _ _ a b | .sarScalar _ _ a b | .rotScalar _ _ a b | .bfeSScalar _ _ a b |
    .bfeZScalar _ _ a b | .cmpSignedScalar _ _ _ a b | .cmpUnsignedScalar _ _ _ a b | .cmpEqualityScalar _ _ _ a b => sclReads a b
  | .madScalar _ d a b | .bfiScalar _ d a b => rs d :: sclReads a b
  | .absLane _ a | .popcLane _ a | .clzLane _ a | .ctzLane _ a | .brevLane _ a | .addImmLane _ a _ | .andImmLane _ a _ |
    .orImmLane _ a _ | .xorImmLane _ a _ | .shlImmLane _ a _ | .shrImmLane _ a _ | .sarImmLane _ a _ | .rotImmLane _ a _ |
    .frndF32 _ _ a | .frcp _ a | .frsq _ a | .fsqrt _ a | .fexp2 _ a | .flog2 _ a | .fsin _ a | .fcos _ a | .ftanh _ a |
    .upk _ _ _ a | .qexpE5m2 _ a | .qexpE4m3 _ a | .qexpE3m2 _ a | .qexpE2m3 _ a | .qexpE2m1 _ a | .shfli _ _ a _ | .vmatch _ a |
    .lmapPos _ a | .lmapLane _ a | .scan _ _ a | .scanX _ _ a | .rdx _ _ a => [rv a]
  | .absScalar _ _ a | .popcScalar _ _ a | .clzScalar _ _ a | .ctzScalar _ _ a | .brevScalar _ _ a | .addImmScalar _ a _ |
    .andImmScalar _ a _ | .orImmScalar _ a _ | .xorImmScalar _ a _ | .shlImmScalar _ a _ | .shrImmScalar _ a _ |
    .sarImmScalar _ a _ | .rotImmScalar _ a _ => [rs a]
  | .movLane _ b => LaneB.reads 1 b
  | .movScalar _ _ b => SclB.reads b
  | .add16 d b | .sub16 d b | .mul16 d b | .and16 d b | .or16 d b | .xor16 d b | .shl16 d b | .shr16 d b | .sar16 d b |
    .min16 d b | .max16 d b | .fadd16 d b | .fsub16 d b | .fmul16 d b | .fmax16 d b => shortReads d b
  | .mov16 _ b => [rv b]
  | .frndF64 _ _ a => rvs a 2
  | .cvt src _ _ _ a | .fclass src _ a => rvs a (Fmt.regs src)
  | .pk _ _ _ a | .pkSat _ _ _ a => rvs a 8
  | .bcast _ a b => rv a :: SclB.reads b
  | .ld _ _ b o _ | .ldSigned _ _ b o _ | .ldAcq _ _ _ b o | .lds _ _ b o _ | .prf _ b o _ | .cflush _ b o | .cinv _ b o |
    .czero b o | .cquery _ b o => eaReads b o
  | .st sz d b o _ | .stRel _ sz d b o | .sts sz d b o _ => eaReads b o ++ rvs d (MemSz.regs sz)
  | .sld _ _ b _ => [rs b]
  | .sst _ d b _ => [rs b, rs d]
  | .gth _ d b o _ => rs d :: eaReads b o
  | .carve _ a b | .rinst _ a b | .abinit a b | .abexp a b | .abwait a b | .launch _ a b | .tlbinv a b | .ctrsel a b |
    .tbind _ a b => sclReads a b
  | .atmReturning _ wide d b o | .atmPosted _ wide d b o => eaReads b o ++ rvs d (if wide then 2 else 1)
  | .casReturning wide d b o | .casPosted wide d b o => eaReads b o ++ rvs d (if wide then 4 else 2)
  | .rcallLane d b o i => rs i :: eaReads b o ++ rvs d 8
  | .rcallScalar d b i => [rs i, rs b] ++ rss d 8
  | .rdrop _ b | .bar _ b | .barr _ b | .intrp _ b | .rhit _ b | .rbank _ b => SclB.reads b
  | .abarr _ a | .trec _ a | .cwait _ a | .fresume _ a | .ctr _ a => [rs a]
  | .tcopy _ _ _ c a | .tstore _ _ c a | .tquant _ c a | .tgath _ _ c a | .tred _ c a => rs a :: rss c 5
  | .tfill _ c => rss c 5
  | .mma _ _ a b | .mmas _ _ a b => rss a 2 ++ rss b 2
  | .mmaUnfold _ _ _ b => rss b 2
  | .aput _ a => rvs a 8
  | .ast _ _ a => [rs a]
  | .unf _ a => rss a 2
  | .vemit d a b => SclB.reads b ++ rvs a 4 ++ rvs d 32
  | .fpost d a b => SclB.reads b ++ rv a :: rvs d 16
  | .tmeth _ a k | .tmethClear a k => rss a 16 ++ rss k 2
  | .tmethResolve k => rss k 2
  | .tsample _ a k | .tsampleSettle _ a k => rv a :: rss k 2
  | .tex _ a b | .texf _ a b => SclB.reads b ++ rvs a 3
  | .rtrace _ a b | .rtraceAny _ a b => rs b :: rvs a 8
  | .ralloc _ b => SclB.reads b
  | .rcommit a | .rdone a => rvs (2 * a) 2
  | .rbankW r b => rs r :: SclB.reads b
  | .ctxsv d a b => sclReads a b ++ rvs d 128
  | .ctxld _ a b => sclReads a b
  | _ => []

/-- The outputs that a shadow compares (R343): stores, to the scratchpad too, atomics, calls, posts, engine instructions, launches, and what
else reaches a unit outside the group; traps are compared where
they are taken. -/
def outputs : Instr → Bool
  | .st _ _ _ _ _ | .stRel _ _ _ _ _ | .sst _ _ _ _ | .sts _ _ _ _ _ | .gth _ _ _ _ _ | .czero _ _ | .cflush _ _ _ | .cinv _ _ _ |
    .atmReturning _ _ _ _ _ | .atmPosted _ _ _ _ _ | .casReturning _ _ _ _ | .casPosted _ _ _ _ | .rcallLane _ _ _ _ | .rcallScalar _ _ _ |
    .tcopy _ _ _ _ _ | .tstore _ _ _ _ | .tquant _ _ _ | .tgath _ _ _ _ | .tred _ _ _ | .tfill _ _ | .tmeth _ _ _ | .tmethClear _ _ |
    .tmethResolve _ | .fpost _ _ _ | .launch _ _ _ | .carve _ _ _ | .ctxsv _ _ _ | .trec _ _ | .ast _ _ _ | .vemit _ _ _ | .tbind _ _ _ |
    .rinst _ _ _ | .rdrop _ _ | .rcommit _ | .rdone _ | .abinit _ _ | .abarr _ _ | .abexp _ _ => true
  | _ => false

/-- A result on its way that an instruction of split `k` with live lanes `m` would read too early; p0 has none. Predicates are the group's
(R52); vector registers are read lane by lane, scalar registers by split. -/
def Late.holds (k : Nat) (m : W64) (codes : List Nat) (e : Late) : Bool :=
  e.code != 192 && codes.contains e.code && if e.code < 128 then e.mask &&& m != 0 else if e.code < 192 then e.split == k && e.home == .own else true

end Sys2Proof.Machine
end

