-- ==== Sys2Proof/Machine/Teams.lean ====
section
/-! DEFINITION. Life of splits, groups and teams: live lanes, frames (R334), arrivals at named barriers (R200, R201), the
reconvergence stack (R53 to R57), and the end of a group. -/

namespace Sys2Proof.Machine

/-! ### Live lanes -/

/-- The live lanes of a group: those of its splits, and those that its reconvergence entries keep. -/
def groupLanes (s : State) (g : Nat) : W64 :=
  let m := (liveSplits s g).foldl (fun m k => m ||| (s.splits.rd k).lanes) 0
  (s.groups.rd g).entries.foldl (fun m e => m ||| e.2.arrived ||| e.2.dlanes) m
def teamHasLanes (s : State) (t : Nat) : Bool := (teamGroups s t).any fun g => groupLanes s g != 0

/-- Helper lanes of the executing group (R257). -/
def State.helpers (s : State) : W64 := maskOf ((s.gr.frag.filter fun e => e.2.helper).map (·.1))
/-- The effective mask of a lane instruction that writes memory or acts beyond its core (R258). -/
def State.wact (s : State) : W64 := s.act &&& ~~~s.helpers

/-! ### Scratchpad bytes (R116) -/

/-- `n` bytes of a team's scratchpad from an offset, as a number; and their replacement. -/
def scratchVal (s : State) (t off n : Nat) : Nat :=
  (List.range n).foldr (fun i v => ((s.teams.rd t).scratch.rd (off + i)).toNat + 256 * v) 0
def State.setScratch (t off n v : Nat) (s : State) : State :=
  s.modTeam t fun x => { x with scratch := (List.range n).foldl (fun m i => m.wr (off + i) (BitVec.ofNat 8 (v / 256 ^ i))) x.scratch }

/-- Words of scratchpad that a write has covered whole hold no uncorrectable error any more (R339). -/
def State.cleanWords (t off n : Nat) (s : State) : State :=
  s.modTeam t fun x => { x with bad := x.bad.filter fun e => !(off ≤ 4 * e.1 && 4 * e.1 + 4 ≤ off + n) }

/-! ### Frames (R334) -/

/-- The partition's frame pool: address of frame i, and the number of frames (R327). -/
def State.frameAddr (s : State) (part i : Nat) : W64 :=
  BitVec.ofNat 64 (fld (s.preg part 3).toNat 18 30 * 2 ^ 18 + i * 2 ^ 18)
def State.frameCount (s : State) (part : Nat) : Nat := fld (s.preg part 3).toNat 48 16

/-- The lowest-numbered free frame of a partition. -/
def State.freeFrame (s : State) (part : Nat) : Option Nat :=
  (List.range (s.frameCount part)).find? fun i => (s.parts.rd part).frames.rd i == 0

def groupPart (s : State) (g : Nat) : Nat := (s.grids.rd (s.teams.rd (g / 128)).grid).part

/-- A group takes a frame, or keeps the one it holds; none where the pool has none free. -/
def State.takeFrame (g : Nat) (s : State) : Option State :=
  if (s.groups.rd g).frame ≠ 0 then some s
  else
    let p := groupPart s g
    match s.freeFrame p with
    | none => none
    | some i =>
      some ((s.modPart p fun x => { x with frames := x.frames.wr i (g + 1) }).modGroup g fun x => { x with frame := s.frameAddr p i })

/-- Every frame that a group holds is free. -/
def State.dropFrame (g : Nat) (s : State) : State :=
  (s.modPart (groupPart s g) fun x => { x with frames := x.frames.filter fun e => e.2 != g + 1 }).modGroup g fun x => { x with frame := 0 }

/-- Marks a word that hardware itself stores, for no group (R320). -/
def noGroup : Nat := 2 ^ 40

/-- Hardware can store to a virtual address through a partition's tables: the page is there with W, inside the windows, and the
line holds no poison. -/
def State.canStore (part : Nat) (s : State) (va : W64) : Bool :=
  canonical va && match s.walk part (va56 va) with
    | .ok _ e => e.testBit 2 && match s.place (fld e 16 36 * 2 ^ 16 + fld va.toNat 0 16) with
      | some a => s.homePsn (a / 128) == 0
      | none => false
    | _ => false

/-- Bytes of one line stored by hardware through a partition's tables, as a WB store of a core. -/
def State.hwStore (core part : Nat) (va : W64) (data : Line) (bytes : BitVec 128) (s : State) : State :=
  match s.walkServed part va false true with
  | (s, .ok _ _, pa, c) => s.l1Store core (pa / 128) part c data bytes noGroup
  | (s, _) => s

/-- Lines stored one after another, where every one of them can be; none otherwise. -/
def State.hwStores (core part : Nat) (ls : List (W64 × Line × BitVec 128)) (s : State) : Option State :=
  if ls.all (fun e => s.canStore part e.1) then some (ls.foldl (fun s e => s.hwStore core part e.1 e.2.1 e.2.2) s) else none

/-- Lines that walks for the four pages of a frame read and that their home slices serve to nobody now: its stores wait (R144, R179). -/
def State.frameBusy (s : State) (part : Nat) (va : W64) : List Nat :=
  (List.range 4).flatMap fun i => s.walkBusy part (va + BitVec.ofNat 64 (65536 * i))

/-- Whole lines from a 128-byte-aligned address, given as bytes by offset. -/
def linesOf (va : W64) (n : Nat) (f : Nat → W8) : List (W64 × Line × BitVec 128) :=
  (List.range n).map fun i =>
    (va + BitVec.ofNat 64 (128 * i), BitVec.ofNat 1024 ((List.range 128).foldr (fun j v => (f (128 * i + j)).toNat + 256 * v) 0), BitVec.allOnes 128)

/-- `n` bytes of one line as a core's loads see them: words valid in its L1, the others at the home slice. -/
def State.coreRead (s : State) (core part : Nat) (va : W64) (n : Nat) : Option Nat :=
  match s.walk part (va56 va) with
  | .ok _ e => (s.place (fld e 16 36 * 2 ^ 16 + fld va.toNat 0 16)).map fun pa =>
      let l := s.l1 core (pa / 128)
      lineBytes (mergeLine (s.homeLine (pa / 128)) l.data (wordBytes (if l.live then l.valid else 0))) (pa % 128) n
  | _ => none

/-- One byte into the CRC register, reflected polynomial 0x82F63B78. -/
def crcStep (c : W32) (b : W8) : W32 :=
  (List.range 8).foldl (fun (c : W32) _ => if c.getLsbD 0 then (c >>> 1) ^^^ 0x82F63B78#32 else c >>> 1) (c ^^^ b.setWidth 32)
def crc32c (n : Nat) (f : Nat → W8) : W32 := ~~~((List.range n).foldl (fun c i => crcStep c (f i)) (BitVec.allOnes 32))

/-- Where the private areas start and how long they are. -/
def privBase : Nat := 0xB000
def privLen : Nat := 65536 + 129024

/-- Width code of a group (R114). -/
def widthCode (w : Nat) : Nat := if w = 16 then 0 else if w = 32 then 1 else 2

/-- The header of a group's frame of a kind, with the CRC of its private areas. -/
def Group.frameHeader (y : Group) (kind : Nat) (crc : W32) : Nat :=
  kind + (if y.handler ≠ 0 then 256 else 0) + (if y.region = .opened then 0 else 512) + 2048 * widthCode y.width + 8192 * (y.vc / 8) +
    2 ^ 21 * y.tc + 2 ^ 32 * crc.toNat

/-- The lines of a frame with the bytes that a test names. -/
def frameLines (va : W64) (has : Nat → Bool) (f : Nat → W8) : List (W64 × Line × BitVec 128) :=
  (List.range 2048).filterMap fun i =>
    let m : Nat := (List.range 128).foldl (fun m j => if has (128 * i + j) then m + 2 ^ j else m) 0
    if m = 0 then none
    else some (va + BitVec.ofNat 64 (128 * i),
      BitVec.ofNat 1024 ((List.range 128).foldr (fun j v => (if has (128 * i + j) then (f (128 * i + j)).toNat else 0) + 256 * v) 0), BitVec.ofNat 128 m)

/-! ### Named barriers (R199 to R201) -/

/-- The core that keeps a team's barriers and path counters (R5), and the core's barrier that stands for the team's `n`. -/
def barIndex (s : State) (t n : Nat) : Nat := (s.teams.rd t).bars.getD n 0
def barOf (s : State) (t n : Nat) : NBar := (s.cores.rd (s.teams.rd t).core).bars.rd (barIndex s t n)
def State.modBar (t n : Nat) (f : NBar → NBar) (s : State) : State :=
  s.modCore (s.teams.rd t).core fun c => { c with bars := c.bars.mod (barIndex s t n) f }

/-- Key of the grid barrier among a group's marks. -/
def gridMark : Nat := 32

/-- Phase of a waiting instruction whose barrier has let it go. -/
def letGo : Nat := 4

/-- Clocks from a completing arrival to the release of a core's waiters: more on the odd core of a pair (R201). -/
def barLag (t : Team) (core : Nat) : Nat := if core = t.core then 8 else 48

/-- Phase `r` of the team's barrier `n` is complete: what waits for it is to be let go at its release, and marks made in it count no
more (R200). -/
def State.barDone (t n : Nat) (r : Bool) (s : State) : State :=
  { s with
    splits := s.splits.map fun (e : Nat × Split) => (e.1,
      match e.2.wait with
      | .cond (.bar m _ q) => if e.1 / 512 = t ∧ m = n ∧ q = r then
          { e.2 with phase := letGo, until_ := s.clock + barLag (s.teams.rd t) (s.groups.rd (e.1 / 4)).core } else e.2
      | _ => e.2)
    groups := s.groups.map fun (e : Nat × Group) =>
      (e.1, if e.1 / 128 = t then { e.2 with marks := e.2.marks.wr n 0, markN := e.2.markN.wr n 0 } else e.2) }

/-- A group arrives at barrier `n` with participant count `c`. -/
def State.barArrive (g n c : Nat) (s : State) : State :=
  let t := g / 128
  let b := barOf s t n
  let b := { b with count := if b.arr = 0 then c else b.count }
  let s := s.modGroup g fun x => { x with
    barR := x.barR.wr n b.phase, barH := x.barH.wr n true, marks := x.marks.wr n 0, markN := x.markN.wr n 0 }
  if b.arr + 1 = b.count then
    let s := (((s.modBar t n fun _ => { b with phase := !b.phase, arr := 0, done := s.clock + 1 }).barDone t n b.phase)).later (s.clock + 8) (.barrierRelease t n)
    if (s.teams.rd t).pair then s.later (s.clock + 48) (.barrierRelease t n) else s
  else s.modBar t n fun _ => { b with arr := b.arr + 1 }

/-- A group arrives at the grid barrier (R212). -/
def State.gridArrive (g : Nat) (s : State) : State :=
  (s.modGroup g fun x => { x with marks := x.marks.wr gridMark 0 }).modGrid (s.teams.rd (g / 128)).grid
    fun y => { y with garr := y.garr ++ [g] }

/-- Every live split of a group has marked itself at a barrier. -/
def allMarked (s : State) (g n : Nat) : Bool :=
  (s.groups.rd g).marks.rd n != 0 && (liveSplits s g).all fun k => ((s.groups.rd g).marks.rd n).getLsbD (k % 4)

/-- The group arrives wherever every live split has marked itself. -/
def State.barCheck (g : Nat) (s : State) : State :=
  ((s.groups.rd g).marks.map (·.1)).foldl (fun s n =>
    if allMarked s g n then
      (if n = gridMark then s.gridArrive g else s.barArrive g n ((s.groups.rd g).markN.rd n))
    else s) s

/-- Splits `js` become split `k`: it counts as marked where each of them had marked itself (DEDUCED, log entry 12). Where `js` is
empty, `k` goes on as it stands. -/
def State.mergeMarks (g k : Nat) (js : List Nat) (s : State) : State :=
  if js = [] then s
  else s.modGroup g fun x => { x with marks := (x.marks.map fun (e : Nat × BitVec 4) =>
    let all := js.all fun j => e.2.getLsbD (j % 4)
    let clr := (k :: js).foldl (fun (m : BitVec 4) j => m &&& ~~~(1#4 <<< (j % 4))) e.2
    (e.1, if all then clr ||| (1#4 <<< (k % 4)) else clr)).filter fun e => e.2 != 0 }

/-- The marks of a split that ends go with it (R200). -/
def State.unmark (k : Nat) (s : State) : State :=
  s.modGroup (k / 4) fun x => { x with
    marks := (x.marks.map fun (e : Nat × BitVec 4) => (e.1, e.2 &&& ~~~(1#4 <<< (k % 4)))).filter fun e => e.2 != 0 }

/-! ### The end of splits and groups -/

/-- Operations of a split that has ended: their flags and paths go on, nothing waits for them as its own (R49, R57). -/
def State.orphans (k : Nat) (s : State) : State :=
  { s with ops := s.ops.map fun (e : Nat × Op) =>
      (e.1, if e.2.split = k then { e.2 with cls := 0, home := .lost, flag := if e.2.flag < 12 then e.2.flag else orphan } else e.2) }

/-- Rays of a mask that a `rtrace` or `rnext` still waits for are abandoned: their part of it is over (R292). -/
def State.dropRays (g : Nat) (m : W64) (s : State) : State :=
  let rs := (s.groups.rd g).ray.filter fun e => m.getLsbD e.1 && e.2.busy
  (rs.foldl (fun s e => s.partDone e.2.op 1) s).modGroup g fun y => { y with ray := y.ray.filter fun e => !m.getLsbD e.1 }

/-- A launched grid whose every group that has not ended is saved at a `cwait` of a spilled child does not count any more (R307). -/
def State.uncount (grid : Nat) (s : State) : State :=
  let g := s.grids.rd grid
  let mine := s.groups.filter fun e => e.2.live && (s.teams.rd (e.1 / 128)).live && (s.teams.rd (e.1 / 128)).grid == grid
  if g.counts && mine != [] && mine.all (fun e => e.2.saved && e.2.saveKind == 5) then
    (s.modGrid grid fun g => { g with counts := false }).modPart g.part fun p => { p with count := p.count - 1 }
  else s

/-- A group with no live lane ends (R57): its operations go on and their register results are discarded; its frames are
free (R334). With the last group, the team ends (R58). -/
def State.endGroup (g : Nat) (s : State) : State :=
  let s := (s.dropFrame g).dropRays g (BitVec.allOnes 64)
  let s := s.modGroup g fun x => { x with
    live := false, entries := [], marks := [], markN := [], late := [], handler := 0, saveKind := 0, saved := false }
  let s := s.uncount (s.teams.rd (g / 128)).grid
  let s := { s with ops := s.ops.map fun (e : Nat × Op) => (e.1, if e.2.split / 4 = g then { e.2 with discard := true } else e.2) }
  if teamHasLanes s (g / 128) then s else (s.modTeam (g / 128) fun t => { t with ending := true }).soon (.teamEnd (g / 128))

/-- A split is gone. Its slot is free unless its exit ended its team: that exit holds its slot until every operation of the
team has retired (R48, R58). -/
def State.dropSplit (k : Nat) (s : State) : State :=
  let s := ((s.orphans k).modSplit k fun _ => {}).unmark k
  let g := k / 4
  if groupLanes s g ≠ 0 then (s.freeSlot k).barCheck g
  else
    let s := s.endGroup g
    if (s.teams.rd (k / 512)).ending then s.modSplit k fun x => { x with wait := .ending } else s.freeSlot k

/-! ### Reconvergence (R53 to R57) -/

/-- A split starts a clause anew at `pc`. -/
def Split.restart (x : Split) (pc : W64) : Split :=
  { x with pc := pc, code := [], begun := false, count := 0, idx := 0, off := 0, phase := 0, aux := 0, xl := [], pass := 0,
           yielding := false, nap := 0, wait := .ready }

/-- A path that arrives by `join` is the one whose scalar registers entry `i` keeps, so far, when it is the `first` in position: the
results still on their way to an earlier such path go nowhere, those of this path to the entry; else those of this path go
nowhere. -/
def State.arriveHomes (g k i : Nat) (first : Bool) (s : State) : State :=
  if first then
    let s := (groupSplits g).foldl (fun s j => s.rehome j fun h => if h = .kept i then .lost else h) s
    s.rehome k fun h => if h = .own then .kept i else h
  else s.rehome k fun h => if h = .own then .lost else h

/-- Split `k` arrives at its innermost entry with the lanes `m`, by a `join` whose clause ends before `pc`, or by ending. A
`sleep` of the `join`'s clause delays the split that goes on from there, and is over where the split parks (DESIGN CHOICE, log
entry 102). -/
def State.arrive : Nat → Nat → W64 → Option W64 → State → State
  | 0, _, _, _, s => s
  | f + 1, k, m, pc, s =>
    let g := k / 4
    let x := s.splits.rd k
    if x.entry = 0 then s.dropSplit k
    else
      let i := x.entry - 1
      let e := (s.groups.rd g).entries.rd i
      let first := e.arrived = 0 || lowest m < e.low
      let e := if m = 0 then { e with pending := e.pending - 1 } else { e with
        pending := e.pending - 1, arrived := e.arrived ||| m,
        low := if first then lowest m else e.low, s := if first then x.s else e.s, joinPc := pc.getD e.joinPc }
      let put (e : Entry) (s : State) := s.modGroup g fun y => { y with entries := y.entries.wr i e }
      let s := if m = 0 then s.rehome k fun h => if h = .own then .lost else h
        else s.arriveHomes g k i first
      let until_ := if x.wait = .asleep then x.until_ else 0
      if e.dlanes ≠ 0 then
        (((put { e with dlanes := 0, dpc := 0, ds := [] } s).freeSlot k).rehome k fun h => if h = .deferred i then .own else h).modSplit k fun x =>
          { x.restart e.dpc with lanes := e.dlanes, s := e.ds, wait := .switching, until_ := max (s.clock + 32) until_ }
      else if e.pending ≠ 0 then
        if m = 0 then (put e s).dropSplit k else ((put e s).freeSlot k).modSplit k fun x => { x with wait := .parked }
      else
        let s := put {} s
        if e.arrived = 0 then (s.modSplit k fun x => { x with entry := e.parent }).arrive f k 0 none
        else
          let js := (groupSplits g).filter fun j => j != k && (s.splits.rd j).live && (s.splits.rd j).wait == .parked && (s.splits.rd j).entry == i + 1
          let s := s.mergeMarks g k (js ++ if m = 0 then [] else [k])
          let s := js.foldl (fun s j => ((s.retarget j k).freeSlot j).modSplit j fun _ => {}) s
          let s := (s.freeSlot k).rehome k fun h => if h = .kept i then .own else h
          let s := s.modSplit k fun x => { x.restart e.joinPc with
            live := true, lanes := e.arrived, s := e.s, entry := e.parent, wait := if until_ = 0 then .ready else .asleep, until_ := until_ }
          s.barCheck g

/-- The draw number of a DRAW record (R301). -/
def drawNumber (d : Draw) : Nat := fld d.rec_.toNat 192 32

/-- Null posts of dying lanes (R257): every slot owed and not posted to. -/
def State.nullPosts (m : W64) (s : State) : State :=
  (positions m).foldl (fun s p =>
    let f := s.gr.frag.rd p
    if !f.live || f.helper then s
    else (f.lines.filter fun e => !f.posted.getLsbD e.1).foldl (fun s e =>
      let g := s.gd
      { s with nextId := s.nextId + 1 }.soon (.nullPost { core := s.cr, part := g.part, op := 0, grid := s.tm.grid, slot := e.1, line := e.2,
                                                           x := f.x, y := f.y, draw := drawNumber (s.draws.rd g.draw), ord := f.ord, cov := 0, words := [], c := false, key := g.draw })) s) s

/-- The lanes of a mask die (R57): they leave their split and every entry, their rays are abandoned (R292), and fragment
lanes send the null posts they owe (R257). -/
def State.killLanes (m : W64) (s : State) : State :=
  let s := (s.nullPosts m).dropRays s.gk m
  let s := s.modSp fun x => { x with lanes := x.lanes &&& ~~~m }
  s.modGr fun g => { g with
    entries := g.entries.map fun (e : Nat × Entry) => (e.1, { e.2 with lanes := e.2.lanes &&& ~~~m }) }

end Sys2Proof.Machine
end

