-- ==== Sys2Proof/Machine/Control.lean ====
section
/-! DEFINITION. Control, clauses and splits (04_control.md): fetching a clause, readiness and arbitration, branches, joins and
exits, pacing and waiting, special registers and predicates, and the timed events of a split. -/

namespace Sys2Proof.Machine

/-! ### Branches and calls (R59 to R61) -/

/-- The target of a branch offset, which counts parcels from the header (R34), and the address after the clause when its last
instruction has `n` parcels. -/
def State.target (s : State) (off : BitVec 16) : W64 := s.sp.pc + 2 * off.signExtend 64
def State.fall (s : State) (n : Nat) : W64 := s.sp.pc + BitVec.ofNat 64 (2 * (s.sp.off + n))

/-- A branch of the whole split. -/
def State.branch (take : Bool) (off : BitVec 16) (s : State) : State := s.jumpTo (if take then s.target off else s.fall 2)

/-- Live lanes of the executing split whose bit of predicate n is set. -/
def State.liveP (s : State) (n : Nat) : W64 := s.sp.lanes &&& s.gr.pr n

def execBr (off : BitVec 16) (s : State) : Res := .next (s.branch true off)
def execBrAll (off : BitVec 16) (p : Fin 64) (s : State) : Res := .next (s.branch (s.liveP p == s.sp.lanes) off)
def execBrAny (off : BitVec 16) (p : Fin 64) (s : State) : Res := .next (s.branch (s.liveP p != 0) off)
def execBrNone (off : BitVec 16) (p : Fin 64) (s : State) : Res := .next (s.branch (s.liveP p == 0) off)

/-- STACK_SPILL with TRAP_INFO[15:0] = n (R56). -/
def State.stackSpill (n : W64) (s : State) : State := s.trap .stackSpill none none 16 n

/-- Entries of a group's reconvergence stack that the core holds. -/
def Group.inCore (g : Group) : List Nat := (g.entries.filter fun e => !e.2.spilled).map (·.1)

/-- Byte `o` of the frame of a group of which entry `i` moves to its context area: the entry's 576 bytes have no stated form, and the
header (kind 7, R334) holds the CRC of the private areas as they then stand. -/
def spillByte (s : State) (g i seed o : Nat) : W8 :=
  let y := s.groups.rd g
  let base := 0x1B000 + 576 * (i % 224)
  let body (o : Nat) : W8 :=
    if base ≤ o ∧ o < base + 576 then Config.privByte seed o
    else BitVec.ofNat 8 ((s.coreRead y.core (groupPart s g) (y.frame + BitVec.ofNat 64 o) 1).getD 0)
  if o < 8 then BitVec.ofNat 8 (y.frameHeader 7 (crc32c privLen fun i => body (privBase + i)) / 256 ^ o) else body o

/-- The least recently created entry of the core moves to the context area (R56). -/
def State.spillEntry (g i : Nat) (s : State) : State :=
  let y := s.groups.rd g
  let p := groupPart s g
  let va := y.frame
  let seed := s.tick
  let base := 0x1B000 + 576 * (i % 224)
  let w := (s.fresh 2, s.fresh 3)
  let hs := frameLines va (fun o => o < 8 || (base ≤ o && o < base + 576)) (spillByte s g i seed)
  let s := s.drawn 4
  match s.hwStores y.core p hs with
  | some s => s.modGroup g fun y => { y with entries := y.entries.mod i fun e => { e with spilled := true } }
  | none => s.modSp fun x => { x with wait := .handing { cause := .prot, pc := s.ia, addr := va, lanes := w.1, info := w.2 } 0 }

/-- R60. A new entry, then the split or its serialised form (R54, R55). Two points are the model's choice (DESIGN CHOICE, log entry
101): the split that a `brp` makes does not wait for the untracked operations of the `brp`'s clause, only the old one does
(R49); and the result of an operation still in flight at the `brp` goes to the scalar registers of the old split, which keeps the
not-taken lanes, alone. The serialised form gives the same results (R55): such a result goes to the deferred lanes'
registers. -/
def State.diverge (off : BitVec 16) (p : Nat) (s : State) : State :=
  let x := s.sp
  let live := x.lanes
  let t := s.liveP p
  let f := live &&& ~~~t
  let i := s.gr.nextEntry
  let e : Entry := { live := true, parent := x.entry, lanes := live, pending := 1 }
  let tgt := s.target off
  let after := s.fall 2
  let put (e : Entry) (s : State) : State := s.modGr fun g => { g with nextEntry := i + 1, entries := g.entries.wr i e }
  let own (s : State) : State := s.modSp fun x => { x with entry := i + 1 }
  if t = 0 || f = 0 then (own (put e s)).jumpTo (if t = 0 then after else tgt)
  else
    match (groupSplits s.gk).find? fun k => !(s.splits.rd k).live with
    | some k =>
      let s := (own (put { e with pending := 2 } s)).modSp fun x => { x with lanes := f }
      let s := s.modSplit k fun _ => { live := true, lanes := t, pc := tgt, s := x.s, entry := i + 1 }
      s.jumpTo after
    | none =>
      let s := (own (put { e with pending := 2, dlanes := f, dpc := after, ds := x.s } s)).modSp fun x => { x with lanes := t }
      (s.rehome s.cur fun h => if h = .own then .deferred i else h).jumpTo tgt

/-- A `brp`: the 257th live entry traps; the 33rd spills the oldest (R56), and stalls in place while a line of its frame's page tables is
served to nobody (R144, R179). -/
def execBrp (off : BitVec 16) (p : Fin 64) (s : State) : Res :=
  let g := s.gr
  if g.entries.length ≥ 256 then .next (s.stackSpill 0)
  else if g.inCore.length < 32 then .next (s.diverge off p)
  else match s.takeFrame s.gk with
    | none => .next (s.stackSpill 3)
    | some t => match t.frameBusy t.pt t.gr.frame with
      | ls@(_ :: _) => .next (s.recall ls)
      | [] =>
        let t := t.spillEntry t.gk (g.inCore.headD 0)
        match t.sp.wait with
        | .handing _ _ => .next (t.freeSlot t.cur)
        | _ => .next (t.diverge off p)

def execCall (l : Fin 64) (off : BitVec 16) (s : State) : Res :=
  .next ((s.setLate l 4 0 (s.fall 2)).branch true off)

/-- The checks of a register target (R61). -/
def State.jumpReg (a : Nat) (s : State) : State :=
  let t := s.sr a
  if t.getLsbD 0 then s.trap .align none none 0 0
  else if !canonical t then s.trap .prot none (some t) 8 2
  else s.jumpTo t
def execJmp (a : Fin 64) (s : State) : Res := .next (s.jumpReg a)
def execRet (a : Fin 64) (s : State) : Res := .next (s.jumpReg a)

/-! ### Joins and exits -/

/-- R62: the split arrives at its innermost entry; an entry in the context area returns first, and the `join` stalls in place
meanwhile (R48, R56). -/
def execJoin (s : State) : Res :=
  let x := s.sp
  if x.entry = 0 then .next (s.stackSpill 1)
  else if (s.gr.entries.rd (x.entry - 1)).spilled then
    .next (s.modSp fun x => { x with wait := .entryReturn, until_ := s.clock + 40 })
  else
    let pc := s.fall 2
    .next ((s.jumpTo pc).arrive 257 s.cur x.lanes (some pc))

/-- R63, R57: the effective mask dies. The exit of a split's last lane is a waiting point (R330), which passes only when the
split's register-returning operations have retired; a `yield` of its clause takes effect as the clause ends (R64). -/
def execExit (s : State) : Res :=
  let x := s.sp
  let m := s.act
  if m = 0 then .next (s.jumpTo (s.fall 2))
  else if x.lanes &&& ~~~m ≠ 0 then .next ((s.killLanes m).jumpTo (s.fall 2))
  else if splitOps s s.cur (·.returning) ≠ [] then .next s.stall
  else match x.defer with
    | d :: _ => .next (s.raiseDefer d)
    | [] =>
      let s := if x.yielding then s.modGr fun g => { g with age := s.clock } else s
      .next (((s.killLanes m).coreEv s.cr s.pt 0x03 1).arrive 257 s.cur 0 none)

/-! ### Pacing and waiting (R64 to R66) -/

def execNop (s : State) : Res := .next (s.adv 2)
def execYield (s : State) : Res := .next ((s.modSp fun x => { x with yielding := true }).adv 2)
def execSleep (b : SclB) (s : State) : Res :=
  .next ((s.modSp fun x => { x with nap := max x.nap (fld (s.bScl b).toNat 0 20) }).adv 2)

/-- Flags of a mask that count above zero. -/
def flagsOver (g : Group) (mask : Nat) : Bool := (List.range 12).any fun i => mask.testBit i && g.flags.rd i != 0

/-- A deferred trap due at a point that waits for the flags of a mask, and for untracked operations when `u` (R330). -/
def dueDefer (x : Split) (mask : Nat) (u : Bool) : Option Defer :=
  x.defer.find? fun d => (d.flag < 12 && mask.testBit d.flag) || (u && d.flag == 15)

def execWflag (mask : BitVec 12) (s : State) : Res :=
  if flagsOver s.gr mask.toNat then .next (s.waitFor (.flags mask.toNat))
  else match dueDefer s.sp mask.toNat false with
    | some d => .next (s.raiseDefer d)
    | none => .next (s.adv 2)

def execWpath (n : Fin 4) (k : Fin 64) (s : State) : Res :=
  if (s.tm.path.rd n).length ≤ (s.sr k).toNat then .next (s.adv 2) else .next (s.waitFor (.path n (s.sr k).toNat))

/-! ### Special registers (R68, R328, R347) -/

/-- User level may not read TRAP_CAUSE to TRAP_INFO (R328). -/
def SReg.supOnly : SReg → Bool
  | .trapCause | .trapPc | .trapLanes | .trapAddr | .trapInfo => true
  | _ => false

/-- The value of a special register at a position. -/
def State.sreg (s : State) (r : SReg) (p : Nat) : W64 :=
  let n (x : Nat) : W64 := BitVec.ofNat 64 x
  match r with
  | .laneid => n (s.gr.laneid.rd p)
  | .lanepos => n p
  | .groupid => n s.gid
  | .teamid => n s.tm.teamId
  | .gridSize => n s.gd.teams
  | .coreId => n s.cr
  | .partitionId => n s.pt
  | .gwidth => n s.gr.width
  | .ordinal => if s.tm.kind = .fragment then n (s.gr.frag.rd p).ord else 0
  | .fpstat => s.gr.fpstat
  | .clock => n s.clock
  | .trapCause => n s.gr.tCause.code
  | .trapPc => s.gr.tPc
  | .trapLanes => s.gr.tLanes
  | .trapAddr => s.gr.tAddr
  | .trapInfo => s.gr.tInfo
  | .featBase => Config.featBase
  | .featExt0 | .featExt1 | .featExt2 | .featExt3 => 0

/-- A read or write without rights. -/
def State.noRight (s : State) : State := s.trap .prot none none 0 0

/-- With an empty mask nothing is read and nothing traps (R51). -/
def execSregVector (r : SReg) (d : Fin 128) (s : State) : Res :=
  if s.act ≠ 0 && SReg.supOnly r && !s.isSup then .next s.noRight
  else .next (s.laneOut d 4 2 [] fun p => (s.sreg r p).setWidth 32)

/-- A per-lane register gives its value at the lowest live lane of the split. -/
def execSregScalar (r : SReg) (d : Fin 64) (s : State) : Res :=
  if SReg.supOnly r && !s.isSup then .next s.noRight
  else .next (s.sclOut d 4 2 (s.sreg r (lowest s.sp.lanes)))

/-- A supervisor instruction but for FPSTAT (R326); TRAP_PC and TRAP_INFO in handler mode only. TRAP_PC keeps the bits that
a virtual address needs: bits 63:56 repeat bit 55 (DEDUCED, log entry 13). -/
def execSwreg (r : SReg) (a : Fin 64) (s : State) : Res :=
  let x := s.sr a
  match r with
  | .fpstat => .next ((s.modGr fun g => { g with fpstat := g.fpWritten s.clock x }).adv 2)
  | .trapPc => .next (s.sup fun s =>
      if s.inHandler then (s.modGr fun g => { g with tPc := ((x.setWidth 56).signExtend 64) &&& ~~~1#64 }).adv 2 else s.noRight)
  | .trapInfo => .next (s.sup fun s => if s.inHandler then (s.modGr fun g => { g with tInfo := x }).adv 2 else s.noRight)
  | _ => .next (s.sup State.noRight)

/-! ### Predicates (R69 to R71) -/

/-- A predicate of the active lanes from bits by position. -/
def State.predBits (d : Nat) (x : W64) (s : State) : State := s.predOut d 4 2 [] fun p => x.getLsbD p

def execPlogAnd (d a b : Fin 64) (s : State) : Res := .next (s.predBits d (s.gr.pr a &&& s.gr.pr b))
def execPlogOr (d a b : Fin 64) (s : State) : Res := .next (s.predBits d (s.gr.pr a ||| s.gr.pr b))
def execPlogXor (d a b : Fin 64) (s : State) : Res := .next (s.predBits d (s.gr.pr a ^^^ s.gr.pr b))
def execPlogAndn (d a b : Fin 64) (s : State) : Res := .next (s.predBits d (s.gr.pr a &&& ~~~s.gr.pr b))
def execPmov (d a : Fin 64) (s : State) : Res := .next (s.predBits d (s.gr.pr a))
def execPget (d a : Fin 64) (s : State) : Res := .next (s.sclOut d 4 2 (s.gr.pr a &&& ones s.gr.width))
def execPset (d : Fin 64) (b : SclB) (s : State) : Res := .next (s.predBits d (s.bScl b))

/-! ### Fetching a clause (R26) -/

/-- Parcels that a clause needs, as far as the parcels `ps` at hand after its header tell: `n` instructions are still to come
from parcel `off`. `some m`: at least m; `none`: no more than those. -/
def needMore : Nat → List W16 → Nat → Option Nat
  | 0, _, _ => none
  | n + 1, ps, off =>
    match ps with
    | [] => some (off + 1)
    | p :: _ =>
      if !p.getLsbD 0 then needMore n (ps.drop 1) (off + 1)
      else match ps with
        | _ :: _ :: _ =>
          let l := parcelsAt ps
          if ps.length < l then some (off + l) else needMore n (ps.drop l) (off + l)
        | _ => some (off + 2)

/-- The header of a clause as fetched. -/
def headerOf (ps : List W16) : Option Header :=
  match ps with
  | a :: b :: _ => decodeHeader (join32 a b)
  | _ => none

/-- The wait mask that a clause's header word names, also one that R19 rejects. -/
def waitMask (ps : List W16) : Nat := (ps.headD 0).toNat % 4096

/-- Parcels still needed of a clause that begins with `ps`. -/
def clauseNeeds (ps : List W16) : Option Nat :=
  if ps.length < 2 then some 2
  else match headerOf ps with
    | none => none
    | some h => needMore h.count (ps.drop 2) 2

/-- Fetch until the clause is whole: through the LLC, not the L1; it waits for its lines as other requests do (R144, R179). A poisoned sector stops the fetch with POISON at the header
(DEDUCED, log entry 14). -/
def State.fetchClause : Nat → List W16 → State → State
  | 0, _, s => s
  | f + 1, ps, s =>
    match clauseNeeds ps with
    | none => s.modSp fun x => { x with code := ps, wait := .ready, xl := [] }
    | some n =>
      let ls := (List.range (n - ps.length)).map fun i => (64, s.sp.pc + BitVec.ofNat 64 (2 * (ps.length + i)))
      s.access 2 false false true 2 ls (fun hs s =>
        if hs.any fun h => s.busy (h.pa / 128) || (!s.present (h.pa / 128) && s.memHeld (h.pa / 128) s.pt) then s.recall (hs.map (·.pa / 128))
        else
          let s := hs.foldl (fun s h => (s.fillLine (h.pa / 128) s.pt h.c).recent (h.pa / 128)) s
          match hs.find? fun h => (s.homePsn (h.pa / 128)).getLsbD (h.pa % 128 / 32) with
          | some h => s.trap .poison (some 0) (some h.ea) 0 0
          | none => s.fetchClause f (ps ++ hs.map fun h => BitVec.ofNat 16 (lineBytes (s.homeLine (h.pa / 128)) (h.pa % 128) 2)))

/-- The split's next clause is fetched whole. -/
def execClauseFetch (split : Nat) (s : State) : Res :=
  let s := { s with cur := split }
  let x := s.sp
  if x.live && !x.begun && x.code = [] && s.gr.live && s.gr.saveKind == 0 then .next (s.fetchClause 200 [])
  else .next s

/-! ### Readiness (R46, R48, R119) -/

/-- The memory instructions of R119 and the lane forms of major 49 (R172), by their words. -/
def memMajors : List Nat := [37, 38, 39, 40, 41, 44, 45, 46, 47, 50, 51, 52, 53]
def isMemWord (w : Nat) : Bool := memMajors.contains (fld w 1 6) || (fld w 1 6 == 49 && fld w 7 3 != 3)

/-- A clause, without its header, that holds a memory instruction. -/
def memClause : Nat → List W16 → Bool
  | 0, _ => false
  | n + 1, ps =>
    match ps with
    | a :: b :: _ => (a.getLsbD 0 && isMemWord (join32 a b)) || memClause n (ps.drop (parcelsAt ps))
    | _ => false

/-- Groups resident on a core. -/
def coreGroups (s : State) (core : Nat) : List Nat :=
  (s.groups.filter fun e => e.2.live && e.2.core == core && !e.2.saved).map (·.1)

/-- The order of R47 among groups: age, then placement, then GROUPID. -/
def older (s : State) (g h : Nat) : Bool :=
  let a := s.groups.rd g
  let b := s.groups.rd h
  a.age < b.age || (a.age == b.age && (a.placed < b.placed || (a.placed == b.placed && g < h)))

/-- The throttle admits the group's memory clauses. -/
def throttleAdmits (s : State) (g : Nat) : Bool :=
  let gs := coreGroups s (s.groups.rd g).core
  let sum := (gs.map fun h => (s.groups.rd h).score).sum
  let n := if sum < 512 then 64 else if sum < 1024 then 32 else if sum < 2048 then 16 else if sum < 4096 then 8 else 4
  (gs.filter fun h => older s h g).length < n

/-- What a waiting instruction waits for has come. What waits at a barrier is let go by the barrier. -/
def condHolds (s : State) (k : Nat) (c : Cond) : Bool :=
  let g := s.groups.rd (k / 4)
  let t := s.teams.rd (k / 512)
  match c with
  | .flags m => !flagsOver g m
  | .path n v => (t.path.rd n).length ≤ v
  | .xlate => (s.splits.rd k).xl.all fun e => e.2 != 1
  | .ops ids => ids.all fun i => !(s.ops.rd i).live
  | .rel id sy => !s.wtPending g.core id sy
  | .bar _ _ _ => false
  | .abar off r => (scratchVal s (k / 512) (off + 4) 1).testBit 0 != r
  | .gbar ph => (s.grids.rd t.grid).gphase != ph
  | .slots n =>
    let p := s.parts.rd (s.grids.rd t.grid).part
    p.rallocQ.headD k == k && n ≤ ((List.range (fld (p.regs.rd 9).toNat 48 16)).filter fun i => (p.wg.rd i).st == .free).length
  | .child i => (s.grids.rd i).done || !(s.grids.rd i).live

/-- The split holds an issue slot. -/
def inSlot (s : State) (k : Nat) : Bool := (s.cores.rd (s.groups.rd (k / 4)).core).slots.any fun e => e.2 == k + 1

/-- A `tsample` of the group has p60 still to write: what reads it waits (R277). -/
def samplePending (s : State) (g : Nat) : Bool := groupOps s g (·.kind == .sample) != []

/-- A split that an issue slot may choose. -/
def readySplit (s : State) (k : Nat) : Bool :=
  let x := s.splits.rd k
  let g := s.groups.rd (k / 4)
  x.live && g.live && !g.saved && (g.saveKind == 0 || (g.saveKind == 4 && x.begun)) && x.code != [] && !inSlot s k && !otherTraps s k &&
    match x.wait with
    | .ready =>
      x.begun || x.untracked == 0 && !flagsOver g (waitMask x.code) && match headerOf x.code with
        | none => true
        | some h => !memClause h.count (x.code.drop 2) || throttleAdmits s (k / 4)
    | .cond c => x.begun && condHolds s k c
    | _ => false

/-! ### Arbitration (R47) -/

/-- Splits of a core's resident groups that are ready. -/
def readySplits (s : State) (core : Nat) : List Nat :=
  ((coreGroups s core).flatMap groupSplits).filter (readySplit s)

/-- The choice of R47 among ready splits. -/
def chooseSplit (s : State) (ks : List Nat) : Option Nat :=
  let old := ks.filter fun k => (s.splits.rd k).pass ≥ 64
  let first (a b : Nat) : Bool :=
    if a / 4 = b / 4 then lowest (s.splits.rd a).lanes < lowest (s.splits.rd b).lanes else older s (a / 4) (b / 4)
  (if old = [] then ks else old).foldl (fun (r : Option Nat) k => match r with
    | none => some k
    | some y => if first k y then some k else some y) none

/-- Parcels of the first `n` instructions of a list. -/
def parcelsOf : Nat → List W16 → Nat
  | 0, _ => 0
  | n + 1, ps => parcelsAt ps + parcelsOf n (ps.drop (parcelsAt ps))

/-- The chosen split takes the slot. A split at an instruction goes on with it; at a header, a deferred trap that is due there
is raised (R330), also before the trap of a header that R19 rejects (DEDUCED, log entry 20), and otherwise the slot is to begin the clause. -/
def State.startSplit (core slot k : Nat) (s : State) : State :=
  let s := { s with cur := k }
  let x := s.sp
  let take (s : State) : State := s.modCore core fun c => { c with slots := c.slots.wr slot (k + 1) }
  if x.begun then take (s.modSp fun x => { x with wait := .ready, pass := 0 })
  else match headerOf x.code with
    | none => match dueDefer x (waitMask x.code) true with
      | some d => s.raiseDefer d
      | none => s.trap .illegalOp none none 16 0
    | some h => match dueDefer x h.wait.toNat true with
      | some d => s.raiseDefer d
      | none => take (s.modSp fun x => { x with pass := 0, flagA := h.flagA, flagB := h.flagB, count := h.count })

/-- One arbitration of a core: its free slots choose in ascending order; every ready split that none chose is passed over. -/
def execIssueArbitration (core : Nat) (s : State) : Res :=
  let free := (List.range 4).filter fun i => (s.cores.rd core).slots.rd i == 0
  let ks := readySplits s core
  if free = [] ∨ ks = [] then .next s
  else
    let pick := free.foldl (fun (r : List (Nat × Nat) × List Nat) i => match chooseSplit s r.2 with
      | none => r
      | some k => (r.1 ++ [(i, k)], r.2.erase k)) ([], ks)
    let s := pick.2.foldl (fun s k => s.modSplit k fun x => { x with pass := x.pass + 1 }) s
    .next (pick.1.foldl (fun s e => s.startSplit core e.1 e.2) s)

/-- The guard predicate of a clause. -/
def guardOf (code : List W16) : Nat := match headerOf code with
  | some h => h.guard
  | none => 0

/-- A slot begins a clause: the check of the whole clause (R44), whose `bad` is the offset of the first offending word; then its guard
is read once (R50). -/
def State.beginClause (bad : Option Nat) (s : State) : State :=
  match bad with
  | some n => s.trap .illegalOp none none 16 (BitVec.ofNat 64 n)
  | none =>
    let s := s.modSp fun x => { x with
      begun := true, guard := s.gr.pr (guardOf x.code), idx := x.skip % x.count
      off := 2 + parcelsOf (x.skip % x.count) (x.code.drop 2), skip := 0 }
    s.coreEv s.cr s.pt 0x02 1

/-- The offset of the first illegal word of `n` instructions at parcel `off` (R44). -/
noncomputable def firstBad (w v t : Nat) : Nat → List W16 → Nat → Option Nat
  | 0, _, _ => none
  | n + 1, ps, off =>
    match decode ps with
    | .error _ => some off
    | .ok (i, rest) =>
      if !i.fits w v t || (i.endsClause && n != 0) then some off else firstBad w v t n rest (off + i.parcels)

/-- The same for a split's clause as fetched; a clause has an instruction (R19). -/
noncomputable def clauseBad (s : State) (k : Nat) : Option Nat :=
  let x := s.splits.rd k
  let g := s.groups.rd (k / 4)
  if x.count = 0 then some 0 else firstBad g.width g.vc g.tc x.count (x.code.drop 2) 2

/-! ### Timed events -/

/-- The clock of the next write of a group. -/
def Group.nextDue (g : Group) (clock : Nat) : Nat := (g.late.map (·.due)).foldl min ((g.late.map (·.due)).headD clock)

/-- The results whose clock has come are written: their readers go on (R52, R72), their float flags are ORed in (R88). -/
def execFixedLatencyWrite (group : Nat) (s : State) : Res :=
  let s := { s with clock := max s.clock ((s.groups.rd group).nextDue s.clock) }
  .next (s.modGroup group (Group.settle s.clock))

/-- A split waits no longer than its clock. -/
def State.wakeAt (split : Nat) (w : Wait) (s : State) : State :=
  let x := s.splits.rd split
  if x.live && x.wait = w then ({ s with clock := max s.clock x.until_ }).modSplit split fun x => { x with wait := .ready, until_ := 0 }
  else s

def execSleepExpiry (split : Nat) (s : State) : Res := .next (s.wakeAt split .asleep)
def execSplitSwitch (split : Nat) (s : State) : Res := .next (s.wakeAt split .switching)

/-- An entry returns from the context area to the core (R56): with 32 there, the least recently created of them makes room;
a frame kept for no other entry is free (R334). The spill waits for the lines of its page tables (R144, R179). -/
def execStackEntryReturn (split : Nat) (s : State) : Res :=
  let x := s.splits.rd split
  let g := split / 4
  let full := (s.groups.rd g).inCore.length ≥ 32
  let wait := if full then s.frameBusy (groupPart s g) (s.groups.rd g).frame else []
  if x.live && x.wait = .entryReturn && wait != [] then
    let s : State := { s with clock := max s.clock x.until_ }
    .next ((s.recall wait).modSplit split fun y => { y with until_ := s.clock + 1 })
  else if x.live && x.wait = .entryReturn then
    let s := s.wakeAt split .entryReturn
    let s := if full then { s with cur := split }.spillEntry g ((s.groups.rd g).inCore.headD 0) else s
    let s := s.modGroup g fun y => { y with entries := y.entries.mod (x.entry - 1) fun e => { e with spilled := false } }
    let y := s.groups.rd g
    .next (if y.entries.any (·.2.spilled) || y.saveKind != 0 then s else s.dropFrame g)
  else .next s

/-- Every score of a core is halved (R119). -/
def execThrottleScoreHalving (core : Nat) (s : State) : Res :=
  let s := (coreGroups s core).foldl (fun s g => s.modGroup g fun x => { x with score := x.score / 2 }) s
  .next (if (coreGroups s core).any fun g => (s.groups.rd g).score != 0 then s.halveNext core else s)

end Sys2Proof.Machine
end

