-- ==== Sys2Proof/Machine/Memory.lean ====
section
/-! DEFINITION. Memory access instructions, majors 37 to 47 (08_memory_access.md), the events that carry them through the L1 and
the home slices, translation events, and the memory controllers' events. -/

namespace Sys2Proof.Machine

/-! ### The time of requests to a peer (R355) -/

/-- Clocks in 1 ms. -/
def slotlinkLimit : Nat := 1600000
/-- A request of an operation goes out to a peer: its time runs from here. `key` is 0 for those that go out as it issues, else the work of
a transfer. -/
def State.timePeer (op key : Nat) (s : State) : State :=
  (s.modOp op fun o => { o with sent := o.sent.wr key (s.clock + 1) }).later (s.clock + slotlinkLimit) (.slotlinkTimeout op)
/-- Requests of an operation go out as it issues, one for each of some lines. -/
def State.timePeers (op : Nat) (lines : List Nat) (s : State) : State := (lines.filter isPeer).foldl (fun s _ => s.timePeer op 0) s

/-! ### Words that accesses touch -/

/-- Bytes of a line that accesses of `n` bytes touch. -/
def touchBytes (line n : Nat) (pas : List Nat) : BitVec 128 :=
  pas.foldl (fun m pa => if pa / 128 = line then m ||| BitVec.ofNat 128 ((2 ^ n - 1) * 2 ^ (pa % 128)) else m) 0
/-- Words of a line. -/
def touchMask (line n : Nat) (pas : List Nat) : W32 := bytesWords (touchBytes line n pas)
/-- The distinct lines of some physical addresses. -/
def linesOfPas (pas : List Nat) : List Nat := (pas.map (· / 128)).eraseDups

/-- Words captured from a line for an operation, which awaits them no more, and the lanes whose words lie in a poisoned sector. -/
def State.capture (id line : Nat) (data : Line) (psn : BitVec 4) (mask : W32) (s : State) : State :=
  s.modOp id fun o =>
    let hit (pa : Nat) : Bool := pa / 128 == line && mask.getLsbD (pa % 128 / 4) && psn.getLsbD (pa % 128 / 32)
    { o with
      cap := (positions (mask.setWidth 64)).foldl (fun m i => m.wr (32 * line + i) (lineWord data i)) o.cap
      awaits := o.awaits.filter fun w => !(w / 32 == line && mask.getLsbD (w % 32))
      bad := o.bad ||| maskOf ((o.pas.filter fun e => hit e.2).filterMap fun e => laneOf e.1)
      badS := o.badS || o.pas.any fun e => laneOf e.1 == none && hit e.2 }

/-- `n` bytes at a physical address from the words an operation has captured. -/
def Op.bytesAt (o : Op) (pa n : Nat) : Nat :=
  fld ((o.cap.rd (pa / 4)).toNat + 2 ^ 32 * (o.cap.rd (pa / 4 + 1)).toNat) (8 * (pa % 4)) (8 * n)

/-- Element size of an access that an operation makes, in bytes. -/
def OpKind.size : OpKind → Nat
  | .load sz _ _ | .sload sz _ | .gather sz _ => sz.bytes
  | _ => 4

/-- The words of a line among words named by PA / 4. -/
def lineWordsOf (line : Nat) (ws : List Nat) : W32 := ws.foldl (fun m w => if w / 32 = line then m ||| (1#32 <<< (w % 32)) else m) 0

/-- Words of a line that stores of a core older than operation `id` write once their fill has come (R117). -/
def storeWords (s : State) (core line id : Nat) : W32 :=
  s.ops.foldl (fun m e => if e.1 < id && e.2.live && e.2.core == core && e.2.kind == .store then m ||| lineWordsOf line (e.2.pas.map (·.1)) else m) 0
/-- Some of these words are among them. -/
def storePending (s : State) (core line : Nat) (m : W32) (id : Nat) : Bool := storeWords s core line id &&& m != 0

/-- Words of a line that loads of a group older than operation `id` still await: a younger load of the group takes its value of them
later than those loads, so that the values follow the words' order at the home slice (R146), and nothing younger of the group changes
them before (R192). -/
def awaited (s : State) (group line id : Nat) : W32 :=
  s.ops.foldl (fun m e => if e.1 < id && e.2.live && e.2.split / 4 == group then m ||| lineWordsOf line e.2.awaits else m) 0

/-- Words of a line that load `id` of a group can take from the L1 now. -/
def State.takes (s : State) (core group line id : Nat) (m : W32) : W32 :=
  let l := s.l1 core line
  (if l.live then l.valid &&& m else 0) &&& ~~~(storeWords s core line id) &&& ~~~(awaited s group line id)

/-- Older accesses to a line come first: a narrow store of the core that waits for its fill, or a load of the group that awaits words. -/
def State.olderFirst (s : State) (line : Nat) (m : W32) : Bool :=
  storePending s s.cr line m s.nextId || awaited s s.gk line s.nextId &&& m != 0

/-- Words of a line that a `st.rel` of this core is writing (R157): a load of them waits. -/
def relPending (s : State) (core line : Nat) (m : W32) : Bool :=
  let hit (r : WtReq) : Bool := r.upd && r.core == core && r.line == line && bytesWords r.bytes &&& m != 0
  (s.agenda.any fun p => match p.ev with
    | .writeThrough r => hit r
    | .slotlinkRequest q => match q.kind with
      | .write r => !q.incoming && hit r
      | _ => false
    | _ => false) || s.acks.any fun e => e.2.live && hit e.2.wt

/-! ### Loads (R117, R132, R136, R157) -/

/-- Operation `id` awaits words of a line. -/
def State.awaitWords (id line : Nat) (m : W32) (s : State) : State :=
  s.modOp id fun o => { o with awaits := o.awaits ++ (positions (m.setWidth 64)).map (32 * line + ·) }

/-- One line of a load: served word by word from the L1, by a merging fill, or at the home slice (ST memory, and `ld.acq` when `home`).
The answer is the parts still to come. -/
def loadLine (id : Nat) (home : Bool) (n : Nat) (hs : List Hit) (h : Hit) (r : State × Nat) : State × Nat :=
  let s := r.1
  let core := s.cr
  let line := h.pa / 128
  let m := touchMask line n (hs.map (·.pa))
  let req (mask : W32) (dest : RdTo) : Ev := .homeSliceRead { core := core, part := s.pt, line := line, mask := mask, c := h.c, op := id, dest := dest }
  let l := s.l1 core line
  if h.ty = 1 then ((((s.l1Drop core line).purgeReplies core line).awaitWords id line m).soon (req m .op), r.2 + 1)
  else if home then
    let own := if l.live then l.dirty &&& m else 0
    let s := (s.capture id line l.data l.psn own).l1Seen core line own s.gk
    if m &&& ~~~own = 0 then (s, r.2) else ((s.awaitWords id line (m &&& ~~~own)).soon (req (m &&& ~~~own) .op), r.2 + 1)
  else
    let got := s.takes core s.gk line id m
    let s := s.l1Count core s.pt s.gk line (got == m)
    let s := (s.capture id line l.data l.psn got).l1Seen core line got s.gk
    if got = m then (s.l1Touch core line, r.2)
    else ((s.awaitWords id line (m &&& ~~~got)).soon (req (if l.live then ~~~l.valid else BitVec.allOnes 32) (.fill core)), r.2 + 1)

/-- The accesses of a load, one for each distinct line, as operation `s.nextId`. -/
def State.startLoad (kind : OpKind) (home : Bool) (hs : List Hit) (s : State) : State :=
  let id := s.nextId
  let lanes := hs.foldl (fun (v : TMap W64 × TMap Nat) h => (v.1.wr h.pos h.ea, v.2.wr h.pos h.pa)) ([], [])
  let s := s.issue { s.op0 with kind := kind, flag := s.fa, returning := true, cls := 1, vas := lanes.1, pas := lanes.2
                                lanes := maskOf (hs.filterMap fun h => laneOf h.pos) }
  let ds := (linesOfPas (hs.map (·.pa))).filterMap fun l => hs.find? fun h => h.pa / 128 == l
  let r := ds.foldl (fun r h => loadLine id home kind.size hs h r) (s, 0)
  (r.1.modOp id fun o => { o with need := r.2 }).readyIfDone id

/-- Accesses that must wait in place: a `st.rel` of the core is writing their words (R157), one that goes to the home slice (ST
memory, `ld.acq`, `st.rel`) would pass a narrow store of the core that waits for its fill (R117, R133), or such a one or a store would
pass a load of the group that still awaits their words (R146). -/
def State.mustWait (s : State) (home load : Bool) (n : Nat) (hs : List Hit) : Bool :=
  let pas := hs.map (·.pa)
  (linesOfPas pas).any fun l =>
    let m := touchMask l n pas
    let out := home || hs.any fun h => h.pa / 128 == l && h.ty == 1
    (load && relPending s s.cr l m) || (out && storePending s s.cr l m s.nextId) || ((out || !load) && awaited s s.gk l s.nextId &&& m != 0)

/-- A load of some accesses: it stalls while its flag is full or it must wait; `k` goes on. -/
def State.loadAccess (kind : OpKind) (akind : Nat) (home : Bool) (ls : List (Nat × W64)) (k : State → State) (s : State) : State :=
  if s.full s.fa then s.stall
  else s.access akind true false false kind.size ls (fun hs s =>
    if s.mustWait home true kind.size hs then s.stall else k (s.startLoad kind home hs))

/-- A lane load. -/
def State.laneLoad (sz : MemSz) (signed : Bool) (d b o i : Nat) (s : State) : State :=
  if s.act = 0 then s.adv 2
  else s.sram s.act [o] (State.loadAccess (.load sz signed d) 0 false (s.eas s.act b o sz.bytes i) (·.adv 2))

def execLd (sz : MemSz) (d : Fin 128) (b : Fin 32) (o : Fin 128) (i : Fin 16) (s : State) : Res :=
  .next (s.laneLoad sz false d b o i)
def execLdSigned (half : Bool) (d : Fin 128) (b : Fin 32) (o : Fin 128) (i : Fin 16) (s : State) : Res :=
  .next (s.laneLoad (if half then .b2 else .b1) true d b o i)
def execSld (sz : MemSz) (d : Fin 64) (b : Fin 32) (i : Fin 16) (s : State) : Res :=
  .next (s.loadAccess (.sload sz d) 4 false [(64, s.sea b sz.bytes i)] (·.adv 2))

/-- R157: the load, then an acquire whose earlier loads include it. At `.dv` and `.sy` it reads at the home slice. -/
def execLdAcq (sc : Scope) (sz : MemSz) (d : Fin 128) (b : Fin 32) (o : Fin 128) (s : State) : Res :=
  if s.act = 0 then .next (s.adv 2)
  else if s.sp.phase = 0 then
    .next (s.sram s.act [o.val] (State.loadAccess (.load sz false d) 0 (s.wide sc) (s.eas s.act b o sz.bytes 0)
      fun s => (s.phased 1).acquire sc 1 (·.adv 2)))
  else .next (s.acquire sc 1 (·.adv 2))

/-! ### Stores (R117, R133, R136, R157) -/

/-- The bytes that accesses of `n` bytes, ascending, leave in a line. -/
def storeData (line n : Nat) (hs : List (Hit × Nat)) : Line × BitVec 128 :=
  hs.foldl (fun r h => if h.1.pa / 128 = line then
      let b := touchBytes line n [h.1.pa]
      (mergeLine r.1 (BitVec.ofNat 1024 (fld h.2 0 (8 * n) * 2 ^ (8 * (h.1.pa % 128)))) b, r.2 ||| b) else r) (0, 0)

/-- Words all of whose bytes a mask covers. -/
def fullWords (b : BitVec 128) : W32 :=
  BitVec.ofNat 32 ((List.range 32).foldl (fun r i => if fld b.toNat (4 * i) 4 = 15 then r + 2 ^ i else r) 0)

/-- One line of a store: at the home slice for ST memory and for `st.rel` at a wide scope (`rel`), otherwise in the L1, where
a store of 1 or 2 bytes to a word that is not valid waits for a merging fill. The answer is the parts still to come. -/
def storeLine (id : Nat) (rel : Bool) (n : Nat) (hs : List (Hit × Nat)) (h : Hit) (r : State × Nat) : State × Nat :=
  let s := r.1
  let core := s.cr
  let line := h.pa / 128
  let d := storeData line n hs
  let wt (upd : Bool) : WtReq := { core := core, part := s.pt, line := line, bytes := d.2, data := d.1, c := h.c, own := true, upd := upd, op := id, seq := 0 }
  if h.ty = 1 then ((s.l1Drop core line).sendWt (wt false), r.2 + 1)
  else if rel then (s.sendWt (wt true), r.2 + 1)
  else
    let l := s.l1 core line
    let valid := if l.live then l.valid else 0
    let m := bytesWords d.2
    let s := s.l1Count core s.pt s.gk line l.live
    let late : W32 := BitVec.ofNat 32 ((List.range 32).foldl (fun r i =>
      let w : W32 := 1#32 <<< i
      if m &&& w != 0 && ((n < 4 && valid &&& w == 0) || storePending s core line w id) then r + 2 ^ i else r) 0)
    let now := d.2 &&& ~~~(wordBytes late)
    let s := if now = 0 then s else s.l1Store core line s.pt h.c d.1 now s.gk
    if late = 0 then (s, r.2)
    else
      let s := s.modOp id fun o => (positions (late.setWidth 64)).foldl (fun o i =>
        { o with pas := o.pas.wr (32 * line + i) (fld d.2.toNat (4 * i) 4), cap := o.cap.wr (32 * line + i) (lineWord d.1 i) }) o
      (s.soon (.homeSliceRead { core := core, part := s.pt, line := line, mask := ~~~valid, c := h.c, op := id, dest := .fill core }), r.2 + 1)

/-- The accesses of a store with the value of each, ascending. A store to ST memory seals the group's region (R321). -/
def State.startStore (rel : Bool) (n : Nat) (hs : List (Hit × Nat)) (s : State) : State :=
  let id := s.nextId
  let s := if hs.any fun h => h.1.ty = 1 then s.sealNow else s
  let s := s.issue { s.op0 with kind := .store, flag := s.fb, cls := 2, lanes := maskOf ((hs.map (·.1.pos)).filter (· < 64)) }
  let ds := (linesOfPas (hs.map (·.1.pa))).filterMap fun l => (hs.map (·.1)).find? fun h => h.pa / 128 == l
  let r := ds.foldl (fun r h => storeLine id rel n hs h r) (s, 0)
  (r.1.modOp id fun o => { o with need := r.2 }).readyIfDone id

/-- A store of some accesses; `val` gives the value at a position. -/
def State.storeAccess (akind n : Nat) (rel : Bool) (ls : List (Nat × W64)) (val : Nat → Nat) (k : State → State) (s : State) : State :=
  if s.full s.fb then s.stall
  else s.access akind false true false n ls (fun hs s =>
    if s.mustWait rel false n hs then s.stall else k (s.startStore rel n (hs.map fun h => (h, val h.pos))))

/-- The data of a lane store. -/
def Group.storeVal (g : Group) (sz : MemSz) (d p : Nat) : Nat :=
  match sz with
  | .b8 => (g.pair d p).toNat
  | _ => (g.vr d p).toNat
def storeRegs (sz : MemSz) (d : Nat) : List Nat :=
  match sz with
  | .b8 => [d, d + 1]
  | _ => [d]

/-- A lane store, released first when `rel` names a scope. -/
def State.laneStore (sz : MemSz) (rel : Bool) (d b o i : Nat) (s : State) : State :=
  s.sram s.wact (o :: storeRegs sz d)
    (State.storeAccess 1 sz.bytes rel (s.eas s.wact b o sz.bytes i) (s.gr.storeVal sz d) (·.adv 2))

def execSt (sz : MemSz) (d : Fin 128) (b : Fin 32) (o : Fin 128) (i : Fin 16) (s : State) : Res :=
  .next (if s.wact = 0 then s.adv 2 else s.laneStore sz false d b o i)
def execSst (sz : MemSz) (d : Fin 64) (b : Fin 32) (i : Fin 16) (s : State) : Res :=
  .next (s.storeAccess 5 sz.bytes false [(64, s.sea b sz.bytes i)] (fun _ => (s.sr d).toNat) (·.adv 2))

/-- R157: the release of its scope, then the store; at a wide scope the store is written through at once. -/
def execStRel (sc : Scope) (sz : MemSz) (d : Fin 128) (b : Fin 32) (o : Fin 128) (s : State) : Res :=
  .next (if s.wact = 0 then s.adv 2 else s.release sc 0 (fun s => s.laneStore sz (s.wide sc) d b o 0))

/-! ### Scratchpad (R116, R135) -/

/-- The cores of a team. -/
def teamCores (t : Team) : List Nat := if t.pair then [t.core, t.core + 1] else [t.core]

/-- An offset lies in the half of the partner of a core (R116). -/
def remoteHalf (t : Team) (core off : Nat) : Bool := t.pair && ((off < t.spSize / 2) != (core == t.core))

/-- Some armed arrival barrier of the team covers a byte of the access (R209). -/
def armedOver (s : State) (t off n : Nat) : Bool :=
  (teamCores (s.teams.rd t)).any fun c => (s.cores.rd c).armed.any fun a => a.1 == t && a.2 < off + n && off < a.2 + 16

/-- The checks of scratchpad accesses (R127), then `k`. -/
def State.scratchAccess (akind n : Nat) (ls : List (Nat × W64)) (k : State → State) (s : State) : State :=
  let bad (c : Cause) (l : List (Nat × W64)) : State :=
    s.trap c (some (laneMask l)) (some ((l.map (·.2)).headD 0)) 8 (BitVec.ofNat 64 akind)
  match ls.filter (fun p => p.2.toNat % n ≠ 0), ls.filter (fun p => s.tm.spSize < p.2.toNat + n) with
  | l@(_ :: _), _ => bad .align l
  | [], l@(_ :: _) => bad .prot l
  | [], [] => k s

/-- Each byte of scratchpad is read at issue; the registers are written when the load retires. -/
def execLds (sz : MemSz) (d : Fin 128) (b : Fin 32) (o : Fin 128) (i : Fin 16) (s : State) : Res :=
  let n := sz.bytes
  if s.act = 0 then .next (s.adv 2)
  else if s.full s.fa then .next s.stall
  else .next (s.sram s.act [o.val] (fun s =>
    let ls := s.eas s.act b o n i
    s.scratchAccess 6 n ls (fun s =>
      if ls.any fun p => s.tm.bad.rd (p.2.toNat / 4) || (n == 8 && s.tm.bad.rd (p.2.toNat / 4 + 1)) then s.trap .poison none (some 0) 8 15
      else
        let res := ls.foldl (fun (m : TMap W32) p =>
          let v := scratchVal s s.tk p.2.toNat n
          let m := m.wr (64 * d + p.1) (BitVec.ofNat 32 v)
          if n = 8 then m.wr (64 * (d + 1) + p.1) (BitVec.ofNat 32 (v / 2 ^ 32)) else m) []
        let rs := (ls.map fun p => 64 * d.val + p.1) ++ if n = 8 then ls.map fun p => 64 * (d.val + 1) + p.1 else []
        let id := s.nextId
        ((s.issue { s.op0 with kind := .regs, flag := s.fa, returning := true, cls := 1, lanes := s.act, res := res, todo := rs }).readyIfDone id).adv 2)))

/-- Every byte of the store lands at issue, in ascending position. -/
def execSts (sz : MemSz) (d : Fin 128) (b : Fin 32) (o : Fin 128) (i : Fin 16) (s : State) : Res :=
  let n := sz.bytes
  let m := s.wact
  let ls := s.eas m b o n i
  let remote := ls.any fun p => remoteHalf s.tm s.cr p.2.toNat
  if m = 0 then .next (s.adv 2)
  else if s.full s.fb || (remote && s.pathFull 3) then .next s.stall
  else .next (s.sram m (o.val :: storeRegs sz d) (fun s => s.scratchAccess 7 n ls (fun s =>
    match ls.filter fun p => armedOver s s.tk p.2.toNat n with
    | l@(_ :: _) =>
      s.trap .barClobber (some (laneMask l)) (some (BitVec.ofNat 64 ((l.map (·.2.toNat)).foldl min ((l.map (·.2.toNat)).headD 0)))) 8 0
    | [] =>
      let s := ls.foldl (fun s p => (s.setScratch s.tk p.2.toNat n (s.gr.storeVal sz d p.1)).modTm fun t =>
        if n < 4 then t else { t with bad := (t.bad.wr (p.2.toNat / 4) false).wr (p.2.toNat / 4 + n / 8) false }) s
      let id := s.nextId
      ((s.issue { s.op0 with kind := .none, flag := s.fb, cls := 2, lanes := m, path := if remote then 4 else 0 }).readyIfDone id).adv 2)))

/-! ### Gathers and prefetches (R129, R137, R138) -/

/-- A gather: the dirty words of its lines are written through first, narrow stores that wait for a fill among them; each lane lands
as an event of its own. -/
def execGth (sz : MemSz) (d : Fin 64) (b : Fin 32) (o : Fin 128) (i : Fin 16) (s : State) : Res :=
  let n := sz.bytes
  let m := s.wact
  let dst := (s.sr d).toNat
  let ls := s.eas m b o n i
  if m = 0 then .next (s.adv 2)
  else if s.full s.fb || s.pathFull 1 then .next s.stall
  else .next (s.sram m [o.val] (fun s =>
    if dst % n ≠ 0 then s.trap .align none none 8 3
    else if s.tm.spSize < dst + s.gr.width * n && ls.all fun p => p.2.toNat % n == 0 then s.trap .prot none none 8 3
    else s.access 3 true false false n ls (fun hs s =>
      if (linesOfPas (hs.map (·.pa))).any fun l => storePending s s.cr l (BitVec.allOnes 32) s.nextId then s.stall else
      let s := (linesOfPas (hs.map (·.pa))).foldl (fun s l => s.writeThrough s.cr l (BitVec.allOnes 32) 0) s
      let id := s.nextId
      let s := s.issue { s.op0 with
        kind := .gather sz dst, flag := s.fb, path := 2, lanes := m, need := hs.length
        pas := hs.foldl (fun (v : TMap Nat) h => v.wr h.pos h.pa) [] }
      ((hs.foldl (fun s h => s.soon (.gatherLanding id h.pos)) s).timePeers id (hs.map (·.pa / 128))).adv 2)))

/-- R138: lanes that cannot be prefetched are dropped, and nothing traps. A prefetch that misses the L1 is no access that R119 counts
(DESIGN CHOICE, log entry 106). -/
def execPrf (llc : Bool) (b : Fin 32) (o : Fin 128) (i : Fin 16) (s : State) : Res :=
  if s.act = 0 then .next (s.adv 2)
  else .next (
    let s' : State := { s with splits := (s.modSp fun x => { x with xl := [] }).splits }
    let hs := (s.eas s.act b o 4 i).filterMap fun p => match s'.fate true false false 4 p with
      | .ok h _ => some h
      | _ => none
    let ds := (linesOfPas (hs.map (·.pa))).filterMap fun l => hs.find? fun h => h.pa / 128 == l
    (ds.foldl (fun s h =>
      let line := h.pa / 128
      let l := s.l1 s.cr line
      let below := llc || h.ty == 1 || (l.live && l.valid == BitVec.allOnes 32)
      s.soon (.homeSliceRead { core := s.cr, part := s.pt, line := line
                               mask := if below then 0 else if l.live then ~~~l.valid else BitVec.allOnes 32
                               c := h.c, op := 0, dest := .fill s.cr, grid := s.tm.grid })) s).adv 2)

/-! ### Translation events (R122 to R126) -/

/-- The outcome of a walk for the splits that wait for the page: 0 translated, 2 page fault, 3 PROT. -/
def State.walkAnswer (core part vpn v : Nat) (s : State) : State :=
  { s with splits := s.splits.map fun (e : Nat × Split) =>
      (e.1, if (s.groups.rd (e.1 / 4)).core = core ∧ groupPart s (e.1 / 4) = part ∧ e.2.xl.rd vpn = 1 then { e.2 with xl := e.2.xl.wr vpn v } else e.2) }

/-- A translation that missed: the die-level TLB, then the walk (R124). The chart engine's TLB is its own (R221). -/
def execTlbWalk (chart : Bool) (unit part vpn : Nat) (s : State) : Res :=
  let va := vpn * 2 ^ 16
  let die := if chart then unit else dieOfCore unit
  let put (t : Tlb) (s : State) : State :=
    if chart then s.modDie die fun d => { d with chartTlb := tlbInsert 1024 (Config.pick s.tick) t d.chartTlb }
    else (s.modCore unit fun c => { c with tlb := tlbInsert 128 (Config.pick s.tick) t c.tlb }).walkAnswer unit part vpn 0
  match if chart then none else s.tlbServe (s.dies.rd die).tlb part va with
  | some t => .next ((put t s).drawn 1)
  | none =>
    let ls := walkLines s part va
    if ls.any fun l => s.busy l || (!s.present l && s.memHeld l part) then .next ((s.recall ls).again (.tlbWalk chart unit part vpn))
    else
      let s := ls.foldl (fun s l => (s.fillLine l part true).recent l) s
      match s.walk part va with
      | .ok ent e =>
        let t := s.mergeBlock part va ent e
        let s := s.setAccessed t
        let s := if chart then s else s.modDie die fun d => { d with tlb := tlbInsert 65536 (Config.pick (s.tick + 1)) t d.tlb }
        .next ((put t s).drawn 2)
      | .fault => .next (if chart then s else s.walkAnswer unit part vpn 2)
      | _ => .next (if chart then s else s.walkAnswer unit part vpn 3)

/-! ### Home-slice events (R140, R141, R144, R163) -/

/-- A request reaches its home slice: it waits for an engine hold (R144), for what else `homeWait` names, and for the line (R163);
then `k` serves it. -/
def State.atHome (line part : Nat) (c : Bool) (ev : Ev) (k : State → State) (s : State) : State :=
  if s.held line then (s.ask (.engineRecall line)).again ev
  else if s.homeWait line then s.again ev
  else if !s.present line then (s.ask (.llcFill line part c)).again ev
  else k s

/-- A write of hardware of its own: `k` performs it once the owners of its words have acknowledged their revokes (R141). -/
def State.whenClear (line : Nat) (mask : W32) (k : State → State) (s : State) : State :=
  let r := s.cleared line mask noOwner
  if r.2 then k r.1 else r.1

/-- A request for a peer's line goes out over Slotlink, before what its core sends after it (R354); its time runs from here (R355). -/
def State.toPeer (line part : Nat) (op : Nat) (k : SlotKind) (s : State) : State :=
  (s.later (s.clock + slotlinkLimit) (.slotlinkTimeout op)).again (.slotlinkRequest
    { incoming := false, dev := peerDev line, part := part, line := line, bytes := 0, data := 0, kind := k, op := op, sent := s.clock + 1 })

/-- The answer of a home-slice read goes to its L1 or straight to its operation. -/
def State.answerRead (r : LineReq) (data : Line) (psn : BitVec 4) (s : State) : State :=
  match r.dest with
  | .fill core => s.soon (.mergingFillReturn { core := core, part := r.part, line := r.line, mask := r.mask, data := data, psn := psn, c := r.c, op := r.op })
  | .op => (s.capture r.op r.line data psn r.mask).partDone r.op 1

/-- A home-slice read of one line, in one slice access. -/
def execHomeSliceRead (r : LineReq) (s : State) : Res :=
  if isPeer r.line then .next (s.toPeer r.line r.part r.op (.read r))
  else .next (s.atHome r.line r.part r.c (.homeSliceRead r) (fun s =>
    (s.answerRead r (s.homeLine r.line) (s.homePsn r.line)).recent r.line))

/-- Words return to the L1; what waited for them takes those that it can, and asks again for words that it still awaits. -/
def execMergingFillReturn (r : LineReply) (s : State) : Res :=
  let s := if r.mask = 0 then s else s.l1Fill r.core r.line r.part r.c r.data r.mask r.psn
  let o := s.ops.rd r.op
  let l := s.l1 r.core r.line
  let ask : Ev := .homeSliceRead { core := r.core, part := r.part, line := r.line, mask := if l.live then ~~~l.valid else BitVec.allOnes 32
                                   c := r.c, op := r.op, dest := .fill r.core }
  if r.op = 0 || !o.live then .next s
  else if o.kind = .store then
    let ws := (o.pas.filter fun w => w.1 / 32 == r.line).map (·.1)
    let m : W32 := ws.foldl (fun m w => m ||| (1#32 <<< (w % 32))) 0
    if s.l1Has r.core r.line m && !storePending s r.core r.line m r.op then
      let bytes : BitVec 128 := BitVec.ofNat 128 (ws.foldl (fun n w => n + o.pas.rd w * 2 ^ (4 * (w % 32))) 0)
      let data : Line := BitVec.ofNat 1024 (ws.foldl (fun n w => n + (o.cap.rd w).toNat * 2 ^ (32 * (w % 32))) 0)
      let s := s.l1Store r.core r.line r.part r.c data bytes (o.split / 4)
      .next ((s.modOp r.op fun o => { o with pas := o.pas.filter fun w => w.1 / 32 != r.line }).partDone r.op 1)
    else .next (s.soon ask)
  else
    let m := lineWordsOf r.line o.awaits
    let got := s.takes r.core (o.split / 4) r.line r.op m
    let s := (s.capture r.op r.line l.data l.psn got).l1Seen r.core r.line got (o.split / 4)
    .next (if got = m then s.partDone r.op 1 else s.soon ask)

/-- A write-through is acknowledged: the words that the core still owns are owned in its L1, and the copy of a `st.rel` takes
its value (R157). -/
def State.acknowledge (r : WtReq) (s : State) : State :=
  let ws := fullWords r.bytes
  let s := if r.upd then
      let s := s.l1Alloc r.core r.line r.part r.c
      s.modL1 r.core r.line fun l =>
        let b := r.bytes &&& wordBytes (~~~l.dirty &&& (l.valid ||| ws))
        { l with data := mergeLine l.data r.data b, valid := l.valid ||| (ws &&& ~~~l.dirty), psn := l.psn &&& ~~~(fullSectors b) }
    else s
  let own := (((s.slices.rd (sliceOf r.line)).reg.find? fun e => e.line == r.line && e.owner == r.core).map (·.mask)).getD 0
  let l := s.l1 r.core r.line
  let s := if r.own && l.live then s.modL1 r.core r.line fun l => { l with owned := l.owned ||| (own &&& bytesWords r.bytes &&& l.valid &&& ~~~l.dirty) } else s
  if r.op ≠ 0 && (r.upd || (s.ops.rd r.op).kind = .cacheOp) then s.partDone r.op 1 else s

/-- A request's words change hands at its home slice: other owners are revoked, and the writer becomes the owner unless the
request is a `czero` (R141, R175) or comes from no core. A store to ST memory is performed here; a `st.rel`, a `cflush` and a `czero` wait for the
acknowledgement. -/
def State.handOver (r : WtReq) (s : State) : State :=
  let id := s.nextId
  let s := { s with nextId := id + 1 }
  let a := s.revokeWords r.line (bytesWords r.bytes) (if r.own then r.core else noOwner) id
  let b := if r.own ∧ r.core ≠ noOwner then a.1.register r.line r.core (bytesWords r.bytes) id else (a.1, 0)
  let s := if !r.upd && r.op ≠ 0 && (b.1.ops.rd r.op).kind ≠ .cacheOp then b.1.partDone r.op 1 else b.1
  if a.2 + b.2 = 0 then s.acknowledge r else { s with acks := s.acks.wr id { live := true, left := a.2 + b.2, wt := r } }

/-- A write-through is applied, with the poison that it brings (R339). -/
def State.applyWt (r : WtReq) (s : State) : State := (s.writeSectors r.line r.part r.data r.bytes r.psn r.c).handOver r

/-- A `czero` at the home slice (R175): the line is zero, dirty and free of poison, without being read from HBM. -/
def State.applyZero (r : WtReq) (s : State) : State :=
  let s := if s.present r.line then
      (if isPeer r.line then s else s.setTag r.line { s.tagOf r.line with psn := 0 }).setHome r.line r.part 0 0 r.c
    else s.insertLine r.line r.part 0 0 true (chooseForm 0 0 r.c)
  let s := if isPeer r.line then s
    else
      let t := s.tagOf r.line
      let s := s.setTag r.line { t with dirty := true }
      if t.form = 0 then s.sliceEv (sliceOf r.line) r.part 0x49 1 else s
  s.handOver r

def execWriteThrough (r : WtReq) (s : State) : Res :=
  if isPeer r.line then .next (s.toPeer r.line r.part r.op (.write r))
  else if r.own then .next (s.atHome r.line r.part r.c (.writeThrough r) (State.applyWt r))
  else if s.held r.line then .next ((s.ask (.engineRecall r.line)).again (.writeThrough r))
  else if s.homeWait r.line then .next (s.again (.writeThrough r))
  else .next (s.applyZero r)

/-- A revoke clears the owned bits of the words and leaves them valid; it is acknowledged. -/
def execRevoke (core line : Nat) (mask : W32) (ack : Nat) (s : State) : Res :=
  let s := if (s.l1 core line).live then s.modL1 core line fun l => { l with owned := l.owned &&& ~~~mask } else s
  .next (if ack = 0 then s else s.soon (.revokeAcknowledge ack))

def execRevokeAcknowledge (ack : Nat) (s : State) : Res :=
  let a := s.acks.rd ack
  if !a.live then .next s
  else if a.left ≤ 1 then
    let s := { s with acks := s.acks.del ack }
    .next (if a.wt.bytes = 0 then s else s.acknowledge a.wt)
  else .next { s with acks := s.acks.wr ack { a with left := a.left - 1 } }

/-- A line arrives from HBM, when the partition's bandwidth allows (R130) and no carve is adding it (R171). -/
def execLlcFill (line part : Nat) (c : Bool) (s : State) : Res :=
  if s.present line then .next s
  else if s.carving line || s.memHeld line part then .next (s.again (.llcFill line part c))
  else .next (s.fillLine line part c)

/-- A recall: a hold whose engine has written every byte it will write to the line is released (R144). -/
def execEngineRecall (line : Nat) (s : State) : Res :=
  .next ((s.modSlice (sliceOf line) fun x => match x.holds.find? (·.line == line) with
    | some h => if h.done then { x with holds := x.holds.erase h } else x
    | none => x).lateOrs (sliceOf line))

/-! ### Landing of gathers (R129, R137) -/

/-- A peer opens a physical range to a partition of this device (R355). -/
def State.peerAllows (s : State) (part line : Nat) : Bool :=
  s.peerGrants.any fun g => g.dev == peerDev line && g.part == part && g.lo ≤ 128 * line && 128 * line < g.hi

/-- Scratchpad bytes written by an engine: bytes of an armed object are dropped, and the launch counts an error (R209). -/
def State.land (t grid off n v : Nat) (s : State) : State :=
  let ok := (List.range n).filter fun i => !armedOver s t (off + i) 1
  let s := ok.foldl (fun s i => s.setScratch t (off + i) 1 (v / 256 ^ i)) s
  if ok.length = n then s.cleanWords t off n else s.asyncErr grid

/-- What a gather has read lands for one lane; an element of a poisoned sector counts an error instead (R137). -/
def State.landElement (op lane : Nat) (s : State) : State :=
  let o := s.ops.rd op
  match o.kind with
  | .gather sz dst =>
    let n := sz.bytes
    (if o.bad.getLsbD lane then s.asyncErr o.grid
      else s.land (o.split / 512) o.grid (dst + lane * n) n (o.bytesAt (o.pas.rd lane) n)).partDone op 1
  | _ => s

/-- One element of a gather. The first of a line reads it for all of them, in one slice access (R140); a miss reads the requested
bytes at the expander and allocates no line. Addresses that do not exist count one error for the instruction (R9; DEDUCED, log
entry 105). -/
def execGatherLanding (op lane : Nat) (s : State) : Res :=
  let o := s.ops.rd op
  let pa := o.pas.rd lane
  let line := pa / 128
  let ev : Ev := .gatherLanding op lane
  match o.live, o.kind with
  | true, .gather sz _ =>
    let pas := o.pas.map (·.2)
    let read (data : Line) (psn : BitVec 4) (s : State) : State :=
      ((s.capture op line data psn (touchMask line sz.bytes pas)).modOp op fun o => { o with todo := line :: o.todo }).landElement op lane
    if o.todo.contains line then .next (s.landElement op lane)
    else if (s.place pa).isNone then
      .next ((if o.badS then s else (s.modOp op fun o => { o with badS := true }).asyncErr o.grid).partDone op 1)
    else if isPeer line then
      if s.peerAllows o.part line then .next (read (s.homeLine line) (s.homePsn line) s) else .next ((s.asyncErr o.grid).partDone op 1)
    else if s.held line then .next ((s.ask (.engineRecall line)).again ev)
    else if s.homeWait line || (!s.present line && s.memHeld line o.part) then .next (s.again ev)
    else
      let data := s.homeLine line
      let psn := s.homePsn line
      let s := if s.present line then s.recent line
        else s.hbmUnits false line o.part (((pas.filter (· / 128 == line)).map (· % 128 / 64)).eraseDups)
      .next (read data psn s)
  | _, _ => .next s

/-! ### Memory controllers (R130, R131) -/

/-- Lines that requests under way want of HBM: fills, gathers, fetches of routine entries, walks, chart transfers. -/
def memQueue (s : State) : List Nat :=
  let at_ (pa : Nat) : List Nat := ((s.place pa).map (· / 128)).toList
  let asked := s.agenda.flatMap fun p => match p.ev with
    | .llcFill line _ _ => [line]
    | .gatherLanding op lane => if !(s.ops.rd op).live then [] else at_ ((s.ops.rd op).pas.rd lane)
    | .routineEntryFetch _ part id => (List.range 4).flatMap fun i => at_ (fld (s.preg part 0x18).toNat 17 35 * 2 ^ 17 + 512 * id + 128 * i)
    | .tlbWalk _ _ part vpn => walkLines s part (vpn * 2 ^ 16)
    | _ => []
  (asked.filter fun l => !s.present l)

/-- Lines of memory that a chart transfer under way has yet to move, and its partition. -/
def burstQueue (s : State) : List (Nat × Nat) :=
  s.ops.flatMap fun e => match e.2.live && e.2.started && !e.2.parked, e.2.kind with
    | true, .chart _ _ _ _ => ((e.2.todo.filter (· != 0)).filterMap fun w => match s.walk e.2.part (va56 (BitVec.ofNat 64 (128 * (w - 1)))) with
        | .ok _ x => (s.place (fld x 16 36 * 2 ^ 16 + fld (128 * (w - 1)) 0 16)).map fun pa => (pa / 128, e.2.part)
        | _ => none).filter fun v => !s.present v.1
    | _, _ => []

/-- Some 64-byte unit of a line of a controller passes a test. -/
def unitOf (ctl : Nat) (f : Nat → Bool) (line : Nat) : Bool := !isPeer line && ctlOf line == ctl && (f (2 * line) || f (2 * line + 1))

/-- A bank's idle timer expires: its row is closed, unless a request for that row is queued; then the timer restarts (R130).
`stack` is the controller's global number, `bank` its key in the die. -/
def execRowIdleTimer (stack bank : Nat) (s : State) : Res :=
  let d := s.dies.rd (stack / 2)
  let r := d.rows.rd bank
  let s := { s with clock := max s.clock r.2 }
  let wants (u : Nat) : Bool := bankKey u == bank && Config.rowOf u + 1 == r.1
  if r.1 = 0 then .next s
  else if d.idle (stack % 2) ≠ 0 ∧ (memQueue s ++ (burstQueue s).map (·.1)).any (unitOf stack wants) = true then
    .next (s.modDie (stack / 2) fun d => { d with rows := d.rows.wr bank (r.1, s.clock + d.idle (stack % 2)) })
  else .next (s.modDie (stack / 2) fun d => { d with rows := d.rows.del bank })

/-- A new bandwidth period begins: held requests go on. -/
def execMemBudgetPeriod (s : State) : Res :=
  .next { s with dies := s.dies.map fun (e : Nat × Die) => (e.1, { e.2 with used := [] }) }

/-- A refresh of a pseudo-channel of a stack is due, of which one is the device's matter: it is postponed while requests are queued
for it, at most eight times; then it closes every row of the pseudo-channel, also one that a chart-engine burst holds open, which counts
(R131). -/
def execRefresh (stack : Nat) (s : State) : Res :=
  let d := s.dies.rd (stack / 2)
  let ch := Config.channelOf (Config.pick s.tick)
  let key := 2 * ch + stack % 2
  let ours (u : Nat) : Bool := Config.channelOf (Config.bankOf u) == ch
  let bursts := burstQueue s
  let busy := (memQueue s ++ bursts.map (·.1)).any (unitOf stack ours)
  let n := d.postponed.rd key
  let s := s.drawn 1
  if busy && n < 8 then .next (s.modDie (stack / 2) fun d => { d with postponed := d.postponed.wr key (n + 1) })
  else
    let cut := bursts.find? fun v => unitOf stack (fun u => ours u && d.opened u s.clock) v.1
    let s := match cut with
      | some v => s.mcEv stack v.2 0x83 1
      | none => s
    .next (s.modDie (stack / 2) fun d => { d with
      postponed := d.postponed.wr key 0
      rows := d.rows.filter fun e => !(e.1 / 2 ^ 32 == stack % 2 && Config.channelOf (e.1 % 2 ^ 32) == ch) })

end Sys2Proof.Machine
end

