-- ==== Sys2Proof/Machine/Cache.lean ====
section
/-! DEFINITION. Cache-control instructions, major 49, and carving (10_llc_compression.md). -/

namespace Sys2Proof.Machine

/-- What a cache operation does at the home slices when it retires (`Op.a`). -/
def coFlushDv : W64 := 0
def coFlushSy : W64 := 1
def coInvDv : W64 := 2
def coInvSy : W64 := 3
def coZero : W64 := 4

/-- Addresses of a lane form (R172). -/
def State.lineAddrs (s : State) (m : W64) (b o : Nat) : List (Nat × W64) :=
  (positions m).map fun p => (p, s.sr b + (s.gr.vr o p).signExtend 64)

/-- A lane form: translated under R126 with what it needs, then `act` on each distinct line in this core, as one operation.
`act` gives the parts to wait for; `seals` says that the instruction seals the group's region (R321). It stalls in place while older
accesses to its lines are to come first (R173, R192). -/
def State.cacheForm (sub : W64) (seals w : Bool) (m : W64) (b o : Nat) (act : Nat → Hit → State × Nat → State × Nat) (s : State) : State :=
  if m = 0 then s.adv 2
  else if s.full s.fb then s.stall
  else s.sram m [o] (State.access (if w then 1 else 0) (!w) w false 1 (s.lineAddrs m b o) (fun hs s =>
    let id := s.nextId
    let ds := (linesOfPas (hs.map (·.pa))).filterMap fun l => hs.find? fun h => h.pa / 128 == l
    if ds.any fun h => s.olderFirst (h.pa / 128) (BitVec.allOnes 32) then s.stall else
    let s := if seals then s.sealNow else s
    let s := s.issue { s.op0 with kind := .cacheOp, flag := s.fb, cls := 2, lanes := m, a := sub, todo := ds.map fun h => h.pa / 128 }
    let r := ds.foldl (fun r h => act id h r) (s, 0)
    ((r.1.modOp id fun o => { o with need := r.2 }).readyIfDone id).adv 2))

/-- R173: dirty words are written through and their acknowledgements waited for. -/
def execCflush (sc : Scope) (b : Fin 64) (o : Fin 128) (s : State) : Res :=
  .next (s.cacheForm (if sc = .sy then coFlushSy else coFlushDv) true false s.wact b o fun id h r =>
    let l := r.1.l1 r.1.cr (h.pa / 128)
    if l.live && l.dirty ≠ 0 then (r.1.writeThrough r.1.cr (h.pa / 128) (BitVec.allOnes 32) id, r.2 + 1) else r)

/-- R174: valid words that are not dirty are invalidated. -/
def execCinv (sc : Scope) (b : Fin 64) (o : Fin 128) (s : State) : Res :=
  .next (s.cacheForm (if sc = .sy then coInvSy else coInvDv) false false s.wact b o fun _ h r =>
    let line := h.pa / 128
    let s := r.1.purgeReplies r.1.cr line
    (if (s.l1 s.cr line).live then s.modL1 s.cr line fun l => { l with valid := l.valid &&& l.dirty, owned := l.owned &&& l.dirty } else s, r.2))

/-- R175: the line is written through and dropped from the L1; its zeroing goes to the home slice after that. -/
def execCzero (b : Fin 64) (o : Fin 128) (s : State) : Res :=
  .next (s.cacheForm coZero true true s.wact b o fun id h r =>
    let s := r.1.l1Drop r.1.cr (h.pa / 128)
    (s.sendWt { core := s.cr, part := s.pt, line := h.pa / 128, bytes := BitVec.allOnes 128, data := 0, c := h.c, own := false, upd := false, op := id, seq := 0 }, r.2 + 1))

/-- R177: the tags are read when the query retires. -/
def execCquery (d : Fin 128) (b : Fin 64) (o : Fin 128) (s : State) : Res :=
  let m := s.act
  if m = 0 then .next (s.adv 2)
  else if s.full s.fa then .next s.stall
  else .next (s.sram m [o.val] (State.access 0 true false false 1 (s.lineAddrs m b o) (fun hs s =>
    let id := s.nextId
    let s := s.issue { s.op0 with
      kind := .query d, flag := s.fa, returning := true, cls := 1, lanes := m
      pas := hs.foldl (fun (v : TMap Nat) h => v.wr h.pos h.pa) [], todo := linesOfPas (hs.map (·.pa)) }
    (s.readyIfDone id).adv 2)))

/-- The forms and the sectors each can take (R160). -/
def formTable : List (Nat × Nat) :=
  [(0, 0), (1, 1), (1, 2), (1, 3), (2, 1), (3, 2), (4, 2), (5, 3), (6, 3), (7, 3), (15, 4)]

/-- The word of `cquery` for a line: a peer's tag is not the package's to see, so it is some word of R177's form that a free
value chooses (DEDUCED, log entry 15). -/
def State.queryWord (s : State) (line : Nat) : W32 :=
  if isPeer line then
    let w := (s.fresh (line % 1024)).toNat
    let f := formTable.getD (w / 64 % 11) (0, 0)
    if w % 2 = 0 then 0
    else BitVec.ofNat 32 (f.1 + 16 * f.2 + 128 + 256 * fld w 1 1 + if f.1 = 15 then 512 * fld w 2 1 + 1024 * fld w 20 4 else 0)
  else
    let t := s.tagOf line
    if !t.valid then 0
    else BitVec.ofNat 32 (t.form + 16 * t.secs.length + 128 + (if t.dirty then 256 else 0) + (if t.carved then 512 else 0) + 1024 * t.psn.toNat)

/-- The home step of a cache operation that retires; `none` while a line is held by an engine (R144). -/
def State.cacheStep (o : Op) (s : State) : State :=
  o.todo.foldl (fun s line =>
    if isPeer line then s
    else if o.a = coFlushSy then s.writeBack line
    else if o.a = coInvSy then
      let s := s.writeBack line
      let t := s.tagOf line
      if !t.valid || t.carved then s else s.evictLine false false line
    else s) s

/-! ### Carving (R167 to R171, R176) -/

/-- Chunks of a partition on a die. -/
def State.chunksOf (s : State) (part die : Nat) : List Chunk := (s.dies.rd die).chunks.filter (·.part == part)

def execCarve (d a : Fin 64) (b : SclB) (s : State) : Res :=
  .next (s.sup fun s =>
    let die := fld (s.sr a).toNat 0 2
    let c := (s.bScl b).toNat
    let base := s.carveBase s.pt die
    let out (x : W64) (s : State) : State := s.sclOut d 4 2 x
    if fld (s.preg s.pt 0x13).toNat 0 4 < c then out 1 s
    else if c ≠ 0 && !base.1 then out 2 s
    else if !(List.range (c * 768)).all fun i => s.inWindows s.pt (base.2 + i * 2 ^ 16) then out 3 s
    else if s.pathFull 3 then s.stall
    else
      let id := s.nextId
      let s := s.sealNow
      let s := s.issue { s.op0 with kind := .carve s.pt die c, flag := orphan, path := 4, need := 256 }
      out 0 ((List.range 256).foldl (fun s i => s.soon (.carveSliceApply id (256 * die + i))) s))

/-- The line of a chunk that lies in a slice, in block `j` of the chunk. -/
def chunkLine (base k slice j : Nat) : Nat :=
  let l := (base + k * chunkBytes + j * 2 ^ 15) / 128
  l + ((slice % 256) ^^^ fld l 8 8 ^^^ fld l 16 8 ^^^ fld l 24 6)

/-- A line gives up its sectors in a bank for free ones elsewhere; eligible lines are evicted until they suffice. -/
def State.relocate (bank line : Nat) (s : State) : State :=
  let t := s.tagOf line
  let keep := t.secs.filter fun x => x / 4 != bank
  let n := t.secs.length - keep.length
  if n = 0 || t.carved then s
  else
    let s := s.makeSectors 32 false true bank line n
    let k := sliceOf line
    (s.setTag line { s.tagOf line with secs := keep ++ (s.freeSectors bank line).take n }).sliceEv k t.part 0x4A 1

/-- One set takes a chunk's line into its bank (R170, growth). Lines of the set with sectors in the bank are relocated in ascending order of
their numbers (DESIGN CHOICE, log entry 122). -/
def State.carveSet (part bank line : Nat) (s : State) : State :=
  let k := sliceOf line
  let s := ((s.setTags line).map (·.1)).foldl (fun s v => if v = line then s else s.relocate bank v) s
  let secs := [4 * bank, 4 * bank + 1, 4 * bank + 2, 4 * bank + 3]
  let t := s.tagOf line
  if t.valid then
    ((s.levels k t (-1)).setTag line { t with carved := true, form := 15, secs := secs }).levels k { t with secs := secs } 1
  else
    let s := if (s.setTags line).length < 32 then s else match s.victim line with
      | some v => s.evictLine false true v
      | none => s
    let t : Tag := { valid := true, form := 15, secs := secs, psn := s.hbmPsn line, carved := true, part := part, data := s.mem.line line }
    (((s.hbm false line part).setTag line t).levels k t 1).recent line

/-- The highest-numbered free banks of a die. -/
def freeBanks (s : State) (die n : Nat) : List Nat :=
  (((List.range 16).filter fun b => !(s.carvedBanks die).contains b).reverse).take n

/-- One set gives a chunk's line back to caching (R170, release); its bank's sectors are then the line's own. -/
def State.releaseSet (line : Nat) (s : State) : State := (s.setTag line { s.tagOf line with carved := false }).recent line

/-- The chunks that a carve to `target` from `have_` banks adds, ascending, or releases, descending. -/
def State.carveChunks (s : State) (part die have_ target : Nat) : List Chunk :=
  let cs := s.chunksOf part die
  if have_ < target then cs.filter fun c => have_ ≤ c.k else (cs.filter fun c => target ≤ c.k).reverse

/-- A slice changes its next set for a carve, as one event, or has finished it (R170). Carves of one partition on one die are applied one
at a time, in the order of issue. The blocks of a chunk come in ascending order (DESIGN CHOICE, log entry 93). -/
def execCarveSliceApply (op slice : Nat) (s : State) : Res :=
  let o := s.ops.rd op
  match o.live, o.kind with
  | true, .carve part die target =>
    let earlier := s.ops.any fun e => e.1 < op && e.2.live && match e.2.kind with
      | .carve p d _ => p == part && d == die
      | _ => false
    if earlier then .next (s.again (.carveSliceApply op slice))
    else
      let base := (s.carveBase part die).2
      let s := if o.started then s
        else
          let have_ := (s.chunksOf part die).length
          let banks := freeBanks s die (target - have_)
          let new : List Chunk := banks.mapIdx fun i b => { part := part, k := have_ + i, bank := b }
          (s.modDie die fun x => { x with chunks := x.chunks ++ new }).modOp op fun o => { o with started := true, b := BitVec.ofNat 64 have_ }
      let have_ := (s.ops.rd op).b.toNat
      let n := (s.slices.rd slice).carveAt.rd part
      match (s.carveChunks part die have_ target)[n / 1536]? with
      | some c =>
        let l := chunkLine base c.k slice (n % 1536)
        let s := if have_ < target then s.carveSet part c.bank l else s.releaseSet l
        .next ((s.modSlice slice fun x => { x with carveAt := x.carveAt.wr part (n + 1) }).soon (.carveSliceApply op slice))
      | none =>
        let s := s.modSlice slice fun x => { x with carveAt := x.carveAt.del part }
        let s := if (s.ops.rd op).need = 1 then s.modDie die fun x => { x with chunks := x.chunks.filter fun c => !(c.part == part && target ≤ c.k) } else s
        .next (s.partDone op 1)
  | _, _ => .next s

end Sys2Proof.Machine
end

