-- ==== Sys2Proof/Machine/Float.lean ====
section
/-! DEFINITION. The floating-point, special-function and narrow-format instructions, majors 19 to 30, the 16-bit float forms
and the random-number generator (06_float.md). -/

namespace Sys2Proof.Machine

/-! ### Values in registers (R85) -/

/-- Two halves computed independently. -/
def halvesOp (f : Nat → Nat × Nat) : W32 × Nat :=
  let lo := f 0
  let hi := f 1
  (BitVec.ofNat 32 (lo.1 + 65536 * hi.1), lo.2 ||| hi.2)

/-- Half i of a word. -/
def half (w : W32) (i : Nat) : Nat := fld w.toNat (16 * i) 16

/-- A function of codes on every element of a lane register. -/
def elementwise (t : FTy) (f : FmtP → Nat → Nat × Nat) : W32 × Nat :=
  match t with
  | .f16 | .bf16 => halvesOp fun i => f (Fmt.p (FTy.fmt t)) i
  | _ => f (Fmt.p .f32) 0 |> fun r => (BitVec.ofNat 32 r.1, r.2)

/-- Element i of a word for a type. -/
def elemOf (t : FTy) (w : W32) (i : Nat) : Nat :=
  match t with
  | .f16 | .bf16 => half w i
  | _ => w.toNat

/-- A binary32 code converted exactly to binary64. -/
def widen64 (w : W32) : Nat := ((Fmt.p .f64).conv .rne false (f32p.val w.toNat)).1

/-- Operand b of an `.f64` form: an even pair, or binary32 converted exactly (R38, R92). -/
def State.b64 (s : State) (b : LaneB) (p : Nat) : Nat :=
  match b with
  | .v r => (s.gr.pair r p).toNat
  | .s r => widen64 ((s.sr r).setWidth 32)
  | .c k => widen64 (constBits k)

/-- A two-operand float instruction (R92, R93), `n` parcels. -/
def State.float2 (F : FmtP → Nat → Nat → Nat × Nat) (t : FTy) (n : Nat) (d a : Nat) (b : LaneB) (s : State) : State :=
  match t with
  | .f64 => s.floatOut2 d 8 n (a :: (a + 1) :: bPair b) fun p =>
      let r := F (Fmt.p .f64) (s.gr.pair a p).toNat (s.b64 b p)
      (BitVec.ofNat 64 r.1, r.2)
  | _ => s.floatOut d 4 n (a :: bRegs b) fun p =>
      elementwise t fun q i => F q (elemOf t (s.gr.vr a p) i) (elemOf t (s.bLane b p) i)

def addF (p : FmtP) (x y : Nat) : Nat × Nat := p.add (p.val x) (p.val y)
def subF (p : FmtP) (x y : Nat) : Nat × Nat := p.add (p.val x) (p.val y).neg
def mulF (p : FmtP) (x y : Nat) : Nat × Nat := p.mul (p.val x) (p.val y)
def fmaF (p : FmtP) (x y z : Nat) : Nat × Nat := p.fma (p.val x) (p.val y) (p.val z)
def minF (p : FmtP) (x y : Nat) : Nat × Nat := (p.minmax false x y, 0)
def maxF (p : FmtP) (x y : Nat) : Nat × Nat := (p.minmax true x y, 0)

def execFadd (t : FTy) (d a : Fin 128) (b : LaneB) (s : State) : Res := .next (s.float2 addF t 2 d a b)
def execFsub (t : FTy) (d a : Fin 128) (b : LaneB) (s : State) : Res := .next (s.float2 subF t 2 d a b)
def execFmul (t : FTy) (d a : Fin 128) (b : LaneB) (s : State) : Res := .next (s.float2 mulF t 2 d a b)
/-- d is also a source. -/
def execFfma (t : FTy) (d a : Fin 128) (b : LaneB) (s : State) : Res :=
  .next (match t with
    | .f64 => s.floatOut2 d 8 2 (d.val :: (d.val + 1) :: a.val :: (a.val + 1) :: bPair b) fun p =>
        let r := fmaF (Fmt.p .f64) (s.gr.pair a p).toNat (s.b64 b p) (s.gr.pair d p).toNat
        (BitVec.ofNat 64 r.1, r.2)
    | _ => s.floatOut d 4 2 (d.val :: a.val :: bRegs b) fun p =>
        elementwise t fun q i => fmaF q (elemOf t (s.gr.vr a p) i) (elemOf t (s.bLane b p) i) (elemOf t (s.gr.vr d p) i))
def execFmin (t : FTy) (d a : Fin 128) (b : LaneB) (s : State) : Res := .next (s.float2 minF t 2 d a b)
def execFmax (t : FTy) (d a : Fin 128) (b : LaneB) (s : State) : Res := .next (s.float2 maxF t 2 d a b)

/-- The 16-bit float forms (R27). -/
def vregF (b : Nat) : LaneB := .v ⟨b % 128, Nat.mod_lt _ (by decide)⟩
def execFadd16 (d : Fin 64) (b : Fin 32) (s : State) : Res := .next (s.float2 addF .f32 1 d d (vregF b))
def execFsub16 (d : Fin 64) (b : Fin 32) (s : State) : Res := .next (s.float2 subF .f32 1 d d (vregF b))
def execFmul16 (d : Fin 64) (b : Fin 32) (s : State) : Res := .next (s.float2 mulF .f32 1 d d (vregF b))
def execFmax16 (d : Fin 64) (b : Fin 32) (s : State) : Res := .next (s.float2 maxF .f32 1 d d (vregF b))

/-- R94. -/
def execFcmpF32 (cc : FCond) (d : Fin 64) (a : Fin 128) (b : LaneB) (s : State) : Res :=
  .next (s.predOut d 4 2 (a.val :: bRegs b) fun p => fcmpHolds cc (f32p.val (s.gr.vr a p).toNat) (f32p.val (s.bLane b p).toNat))
def execFcmpF64 (cc : FCond) (d : Fin 64) (a : Fin 128) (b : LaneB) (s : State) : Res :=
  .next (s.predOut d 4 2 (a.val :: (a.val + 1) :: bPair b) fun p =>
    fcmpHolds cc ((Fmt.p .f64).val (s.gr.pair a p).toNat) ((Fmt.p .f64).val (s.b64 b p)))

/-- R95. -/
def execFrndF32 (rnd : RMode) (d a : Fin 128) (s : State) : Res :=
  .next (s.laneOut d 4 2 [a.val] fun p => BitVec.ofNat 32 (f32p.integral rnd (s.gr.vr a p).toNat))
def execFrndF64 (rnd : RMode) (d a : Fin 128) (s : State) : Res :=
  .next (s.laneOut2 d 8 2 [a.val, a.val + 1] fun p => BitVec.ofNat 64 ((Fmt.p .f64).integral rnd (s.gr.pair a p).toNat))

/-! ### Special functions (R99) -/

def State.special (F : Nat → Nat × Nat) (d a : Nat) (s : State) : State :=
  s.floatOut d 16 2 [a] fun p => let r := F (s.gr.vr a p).toNat; (BitVec.ofNat 32 r.1, r.2)

def execFrcp (d a : Fin 128) (s : State) : Res := .next (s.special rcpF d a)
def execFrsq (d a : Fin 128) (s : State) : Res := .next (s.special rsqF d a)
def execFsqrt (d a : Fin 128) (s : State) : Res := .next (s.special sqrtF d a)
def execFexp2 (d a : Fin 128) (s : State) : Res := .next (s.special exp2F d a)
def execFlog2 (d a : Fin 128) (s : State) : Res := .next (s.special log2F d a)
def execFsin (d a : Fin 128) (s : State) : Res := .next (s.special sinF d a)
def execFcos (d a : Fin 128) (s : State) : Res := .next (s.special cosF d a)
def execFtanh (d a : Fin 128) (s : State) : Res := .next (s.special tanhF d a)

/-! ### Conversions (R90, R96, R97) -/

def CvtMode.rnd : CvtMode → RMode
  | .rne | .rneSat => .rne | .rz | .rzSat => .rz | .rp => .rp | .rm => .rm
def CvtMode.sat : CvtMode → Bool
  | .rneSat | .rzSat => true
  | _ => false

/-- Bits of one element; a 6-bit element is held in a byte (R85). -/
def Fmt.bits : Fmt → Nat
  | .f64 => 64 | .f32 | .e8m10 | .s32 | .z32 => 32 | .f16 | .bf16 => 16 | .e5m2 | .e4m3 | .i8 | .u8 => 8
  | .e3m2 | .e2m3 => 6 | .e2m1 | .i4 | .u4 => 4
/-- Bits between elements of a packed register or of memory. -/
def Fmt.pitch (f : Fmt) : Nat := if (Fmt.bits f) = 6 then 8 else (Fmt.bits f)

/-- The exact value of one element given in the low bits (E8M10 in its container). -/
def Fmt.value (f : Fmt) (x : Nat) : FVal :=
  match f with
  | .e8m10 => (Fmt.p .e8m10).val (fld x 13 19)
  | .s32 => intVal (BitVec.ofNat 32 x).toInt
  | .z32 => intVal (x % 2 ^ 32)
  | .i8 => intVal (BitVec.ofNat 8 x).toInt
  | .u8 => intVal (x % 256)
  | .i4 => intVal (BitVec.ofNat 4 x).toInt
  | .u4 => intVal (x % 16)
  | _ => (Fmt.p f).val (x % 2 ^ (Fmt.bits f))

/-- A value converted to one element of a format (R90), as it stands in a register; the widening conversions are exact and
raise no flag because nothing is rounded. -/
def Fmt.store (f : Fmt) (mode : RMode) (sat : Bool) (v : FVal) : Nat × Nat :=
  match f with
  | .s32 => let r := toInt true mode v; (r.1.toNat, r.2)
  | .z32 => let r := toInt false mode v; (r.1.toNat, r.2)
  | .e8m10 => let r := (Fmt.p .e8m10).conv mode sat v; (r.1 * 2 ^ 13, r.2)
  | _ => (Fmt.p f).conv mode sat v

/-- A format every value of which another holds: that conversion ignores its mode and raises no flag (R90). -/
def widening (src dst : Fmt) : Bool :=
  match src.isFloat, dst.isFloat with
  | true, true =>
    let p := Fmt.p src
    let q := Fmt.p dst
    -- every finite value, the infinities and NaN of `src` have their like in `dst`
    p.mb ≤ q.mb && (q.inf != 0 || p.inf == 0) && (q.nan != 0 || p.nan == 0) &&
      q.bias + q.mb ≥ p.bias + p.mb &&
      (match p.val p.big with
        | .num n m e => (q.round .rne false n m e).2 == 0
        | _ => false)
  | _, _ => false

/-- `cvt` of one value. -/
def cvtVal (src dst : Fmt) (mode : CvtMode) (x : Nat) : Nat × Nat :=
  if widening src dst then Fmt.store dst .rne false (Fmt.value src x) |> fun r => (r.1, 0)
  else Fmt.store dst (CvtMode.rnd mode) (CvtMode.sat mode) (Fmt.value src x)

def execCvt (src dst : Fmt) (mode : CvtMode) (d a : Fin 128) (s : State) : Res :=
  let lat := if src = .f64 ∨ dst = .f64 then 8 else 4
  let srcs := if src = .f64 then [a.val, a.val + 1] else [a.val]
  let x (p : Nat) : Nat := if src = .f64 then (s.gr.pair a p).toNat else (s.gr.vr a p).toNat
  .next (if dst = .f64 then
      s.floatOut2 d lat 2 srcs fun p => let r := cvtVal src dst mode (x p); (BitVec.ofNat 64 r.1, r.2)
    else s.floatOut d lat 2 srcs fun p => let r := cvtVal src dst mode (x p); (BitVec.ofNat 32 r.1, r.2))

/-- CONV of `pk` and `pk.sat` (R97). -/
def packElem (src dst : Fmt) (sat : Bool) (x : Nat) : Nat × Nat :=
  if dst.isFloat then Fmt.store dst .rne sat (Fmt.value src x)
  else
    let v : Int := if src = .s32 then (BitVec.ofNat 32 x).toInt else (x % 2 ^ 32 : Nat)
    let signed := dst = .i8 ∨ dst = .i4
    let lo : Int := if signed then -2 ^ ((Fmt.bits dst) - 1) else 0
    let hi : Int := if signed then 2 ^ ((Fmt.bits dst) - 1) - 1 else 2 ^ (Fmt.bits dst) - 1
    let c := max lo (min hi v)
    if sat then ((c % 2 ^ (Fmt.bits dst)).toNat, if c = v then 0 else fSV) else (x % 2 ^ (Fmt.bits dst), 0)

def State.pack (src dst : Fmt) (sat : Bool) (d a : Nat) (s : State) : State :=
  let n := dst.perReg
  s.floatOut d 4 2 ((List.range n).map (a + ·)) fun p =>
    (List.range n).foldl (fun (r : W32 × Nat) i =>
      let e := packElem src dst sat (s.gr.vr (a + i) p).toNat
      (r.1 ||| BitVec.ofNat 32 (e.1 * 2 ^ ((Fmt.pitch dst) * i)), r.2 ||| e.2)) (0, 0)

def execPk (src dst : Fmt) (d a : Fin 128) (s : State) : Res := .next (s.pack src dst false d a)
def execPkSat (src dst : Fmt) (d a : Fin 128) (s : State) : Res := .next (s.pack src dst true d a)

/-- Element i of a packed register, widened exactly. -/
def unpackElem (src : Fmt) (w : W32) (i : Nat) : W32 :=
  let x := fld w.toNat ((Fmt.pitch src) * i) (Fmt.bits src)
  match src with
  | .i8 => (BitVec.ofNat 8 x).signExtend 32
  | .i4 => (BitVec.ofNat 4 x).signExtend 32
  | .u8 | .u4 => BitVec.ofNat 32 x
  | _ => BitVec.ofNat 32 (f32p.conv .rne false (Fmt.value src x)).1

/-- All reads of a lane precede its writes. -/
def execUpk (src dst : Fmt) (d a : Fin 128) (s : State) : Res :=
  let _ := dst
  let m := s.act
  let n := src.perReg
  .next (s.sram m [a.val] fun s =>
    (if m = 0 then s
     else (s.modGr fun g => (List.range n).foldl (fun (h : Group) i => h.setVs (d + i) (s.lands (d + i) 4) fun p => unpackElem src (s.gr.vr a p) i) g)
      |> fun s => (List.range n).foldl (fun s i => s.lateWrite (d + i) 4 0) s).adv 2)

/-- R98. -/
def execFclass (src : Fmt) (d a : Fin 128) (s : State) : Res :=
  let c (p : Nat) : W32 :=
    let w := (s.gr.vr a p).toNat
    match src with
    | .f64 => BitVec.ofNat 32 ((Fmt.p .f64).cls (s.gr.pair a p).toNat)
    | .e8m10 => BitVec.ofNat 32 ((Fmt.p .e8m10).cls (fld w 13 19))
    | .f16 | .bf16 => BitVec.ofNat 32 ((Fmt.p src).cls (fld w 0 16) + 65536 * (Fmt.p src).cls (fld w 16 16))
    | _ => BitVec.ofNat 32 ((Fmt.p src).cls (w % 2 ^ (Fmt.bits src)))
  .next (s.laneOut d (if src = .f64 then 8 else 4) 2 (if src = .f64 then [a.val, a.val + 1] else [a.val]) c)

/-! ### Dot products (R100, R101) -/

/-- Integer element i of a packed register. -/
def intElem (f : Fmt) (w : W32) (i : Nat) : Int :=
  let x := fld w.toNat ((Fmt.bits f) * i) (Fmt.bits f)
  if f = .i8 ∨ f = .i4 then (BitVec.ofNat (Fmt.bits f) x).toInt else x

def State.intDot (f : Fmt) (d a : Nat) (b : LaneB) (s : State) : State :=
  s.laneOut d 8 2 (d :: a :: bRegs b) fun p =>
    s.gr.vr d p + BitVec.ofInt 32 ((List.range f.perReg).foldl (fun (r : Int) i =>
      r + intElem f (s.gr.vr a p) i * intElem f (s.bLane b p) i) 0)

def execDp4I8x4 (d a : Fin 128) (b : LaneB) (s : State) : Res := .next (s.intDot .i8 d a b)
def execDp4N8x4 (d a : Fin 128) (b : LaneB) (s : State) : Res := .next (s.intDot .u8 d a b)
def execDp8I4x8 (d a : Fin 128) (b : LaneB) (s : State) : Res := .next (s.intDot .i4 d a b)
def execDp8N4x8 (d a : Fin 128) (b : LaneB) (s : State) : Res := .next (s.intDot .u4 d a b)

/-- The elements of a packed register as values. -/
def elemVal (f : Fmt) (w : W32) (i : Nat) : FVal := Fmt.value f (fld w.toNat ((Fmt.pitch f) * i) (Fmt.bits f))

def State.floatDot (f : Fmt) (d a : Nat) (b : LaneB) (s : State) : State :=
  s.floatOut d 8 2 (d :: a :: bRegs b) fun p =>
    let r := f32p.dot (f32p.val (s.gr.vr d p).toNat)
      ((List.range f.perReg).map fun i => (elemVal f (s.gr.vr a p) i, elemVal f (s.bLane b p) i))
    (BitVec.ofNat 32 r.1, r.2)

def execFdp2F16 (d a : Fin 128) (b : LaneB) (s : State) : Res := .next (s.floatDot .f16 d a b)
def execFdp2Bf16 (d a : Fin 128) (b : LaneB) (s : State) : Res := .next (s.floatDot .bf16 d a b)
def execFdp4E5m2 (d a : Fin 128) (b : LaneB) (s : State) : Res := .next (s.floatDot .e5m2 d a b)
def execFdp4E4m3 (d a : Fin 128) (b : LaneB) (s : State) : Res := .next (s.floatDot .e4m3 d a b)
def execFdp4E3m2 (d a : Fin 128) (b : LaneB) (s : State) : Res := .next (s.floatDot .e3m2 d a b)
def execFdp4E2m3 (d a : Fin 128) (b : LaneB) (s : State) : Res := .next (s.floatDot .e2m3 d a b)
def execFdp8E2m1 (d a : Fin 128) (b : LaneB) (s : State) : Res := .next (s.floatDot .e2m1 d a b)

/-! ### Block scales and random numbers (R102, R103) -/

def State.qexp (f : Fmt) (d a : Nat) (s : State) : State :=
  s.floatOut d 4 2 [a] fun p => let r := qexpF f (s.gr.vr a p).toNat; (BitVec.ofNat 32 r.1, r.2)

def execQexpE5m2 (d a : Fin 128) (s : State) : Res := .next (s.qexp .e5m2 d a)
def execQexpE4m3 (d a : Fin 128) (s : State) : Res := .next (s.qexp .e4m3 d a)
def execQexpE3m2 (d a : Fin 128) (s : State) : Res := .next (s.qexp .e3m2 d a)
def execQexpE2m3 (d a : Fin 128) (s : State) : Res := .next (s.qexp .e2m3 d a)
def execQexpE2m1 (d a : Fin 128) (s : State) : Res := .next (s.qexp .e2m1 d a)

/-- STEP. -/
def rngStep (state inc : W64) : W64 := state * 0x5851F42D4C957F2D#64 + inc

/-- The output of `rng` from the old state. -/
def rngOut (old : W64) : W32 :=
  let x : W32 := BitVec.ofNat 32 (((old.toNat / 2 ^ 18) ^^^ old.toNat) / 2 ^ 27)
  x.rotateRight (old.toNat / 2 ^ 59)

/-- State and increment after `rng.seed` with values a and b. -/
def rngSeed (a b : W32) : W64 × W64 :=
  let inc : W64 := a.setWidth 64 * 2 + 1
  let st := rngStep 0 inc
  (rngStep (st + b.setWidth 64) inc, inc)

def execRng (d : Fin 128) (s : State) : Res :=
  let m := s.act
  .next ((if m = 0 then s
    else (s.modGr fun g => { g.setVs d (s.lands d 4) (fun p => rngOut (g.rng.rd p)) with
        rng := (positions m).foldl (fun r p => r.wr p (rngStep (g.rng.rd p) (g.inc.rd p))) g.rng }).lateWrite d 4 0).adv 2)

def execRngSeed (a : Fin 128) (b : LaneB) (s : State) : Res :=
  let m := s.act
  .next (s.sram m (a.val :: bRegs b) fun s =>
    (if m = 0 then s
     else s.modGr fun g => (positions m).foldl (fun (h : Group) p =>
        let r := rngSeed (s.gr.vr a p) (s.bLane b p)
        { h with rng := h.rng.wr p r.1, inc := h.inc.wr p r.2 }) g).adv 2)

end Sys2Proof.Machine
end

