-- ==== Sys2Proof/Machine/Integer.lean ====
section
/-! DEFINITION. The integer instructions, majors 5 to 18, and their 16-bit forms (05_integer.md, R27). -/

namespace Sys2Proof.Machine

/-! ### The functions of R75 to R82 at any width -/

/-- A signed value clamped to N bits. -/
def clampS (n : Nat) (x : Int) : BitVec n :=
  BitVec.ofInt n (max (-2 ^ (n - 1)) (min (2 ^ (n - 1) - 1) x))
/-- An unsigned value clamped to N bits. -/
def clampZ (n : Nat) (x : Int) : BitVec n := BitVec.ofInt n (max 0 (min (2 ^ n - 1) x))

def fAdd (n : Nat) (x y : BitVec n) : BitVec n := x + y
def fSub (n : Nat) (x y : BitVec n) : BitVec n := x - y
def fAddSatS (n : Nat) (x y : BitVec n) : BitVec n := clampS n (x.toInt + y.toInt)
def fSubSatS (n : Nat) (x y : BitVec n) : BitVec n := clampS n (x.toInt - y.toInt)
def fAddSatZ (n : Nat) (x y : BitVec n) : BitVec n := clampZ n (x.toNat + y.toNat)
def fSubSatZ (n : Nat) (x y : BitVec n) : BitVec n := clampZ n ((x.toNat : Int) - y.toNat)
def fMul (n : Nat) (x y : BitVec n) : BitVec n := x * y
def fMulhS (n : Nat) (x y : BitVec n) : BitVec n := BitVec.ofInt n (x.toInt * y.toInt / 2 ^ n)
def fMulhZ (n : Nat) (x y : BitVec n) : BitVec n := BitVec.ofNat n (x.toNat * y.toNat / 2 ^ n)
def fMad (n : Nat) (x y d : BitVec n) : BitVec n := x * y + d
def fMinS (n : Nat) (x y : BitVec n) : BitVec n := if x.toInt ≤ y.toInt then x else y
def fMaxS (n : Nat) (x y : BitVec n) : BitVec n := if x.toInt ≤ y.toInt then y else x
def fMinZ (n : Nat) (x y : BitVec n) : BitVec n := if x.toNat ≤ y.toNat then x else y
def fMaxZ (n : Nat) (x y : BitVec n) : BitVec n := if x.toNat ≤ y.toNat then y else x
def fAnd (n : Nat) (x y : BitVec n) : BitVec n := x &&& y
def fOr (n : Nat) (x y : BitVec n) : BitVec n := x ||| y
def fXor (n : Nat) (x y : BitVec n) : BitVec n := x ^^^ y
def fAndn (n : Nat) (x y : BitVec n) : BitVec n := x &&& ~~~y
/-- The shift count y AND (N − 1). -/
def shAmt (n : Nat) (y : BitVec n) : Nat := y.toNat % n
def fShl (n : Nat) (x y : BitVec n) : BitVec n := x <<< shAmt n y
def fShr (n : Nat) (x y : BitVec n) : BitVec n := x >>> shAmt n y
def fSar (n : Nat) (x y : BitVec n) : BitVec n := x.sshiftRight (shAmt n y)
def fRot (n : Nat) (x y : BitVec n) : BitVec n := x.rotateLeft (shAmt n y)

/-- The field that a descriptor names: offset and length (R80). -/
def field (n : Nat) (b : BitVec n) : Nat × Nat :=
  let off := min (fld b.toNat 0 8) n
  (off, min (fld b.toNat 8 8) (n - off))
def fBfeZ (n : Nat) (x b : BitVec n) : BitVec n :=
  let f := field n b
  BitVec.ofNat n (fld x.toNat f.1 f.2)
def fBfeS (n : Nat) (x b : BitVec n) : BitVec n :=
  let f := field n b
  if f.2 = 0 then 0
  else
    let v := fld x.toNat f.1 f.2
    BitVec.ofInt n (if v < 2 ^ (f.2 - 1) then (v : Int) else v - 2 ^ f.2)
def fBfi (n : Nat) (x b d : BitVec n) : BitVec n :=
  let f := field n b
  let mask : BitVec n := BitVec.ofNat n ((2 ^ f.2 - 1) * 2 ^ f.1)
  (d &&& ~~~mask) ||| (BitVec.ofNat n (x.toNat * 2 ^ f.1) &&& mask)

def fAbs (n : Nat) (x : BitVec n) : BitVec n := BitVec.ofNat n x.toInt.natAbs
def fPopc (n : Nat) (x : BitVec n) : BitVec n := BitVec.ofNat n ((List.range n).filter fun i => x.getLsbD i).length
def fClz (n : Nat) (x : BitVec n) : BitVec n := BitVec.ofNat n (if x.toNat = 0 then n else n - 1 - x.toNat.log2)
def fCtz (n : Nat) (x : BitVec n) : BitVec n := BitVec.ofNat n (((List.range n).find? fun i => x.getLsbD i).getD n)
def fBrev (n : Nat) (x : BitVec n) : BitVec n :=
  BitVec.ofNat n ((List.range n).foldl (fun r i => if x.getLsbD i then r + 2 ^ (n - 1 - i) else r) 0)

def ordHolds (cc : OrdCond) (x y : Int) : Bool :=
  match cc with
  | .lt => x < y | .le => x ≤ y | .gt => x > y | .ge => x ≥ y

/-! ### Two-operand forms -/

def execAddLane (d a : Fin 128) (b : LaneB) (s : State) : Res := .next (s.lane2 (fAdd 32) 4 2 d a b)
def execAddScalar (wide : Bool) (d a : Fin 64) (b : SclB) (s : State) : Res := .next (s.scl2 fAdd false 4 wide d a b)
def execSubLane (d a : Fin 128) (b : LaneB) (s : State) : Res := .next (s.lane2 (fSub 32) 4 2 d a b)
def execSubScalar (wide : Bool) (d a : Fin 64) (b : SclB) (s : State) : Res := .next (s.scl2 fSub false 4 wide d a b)
def execAddSatSLane (d a : Fin 128) (b : LaneB) (s : State) : Res := .next (s.lane2 (fAddSatS 32) 4 2 d a b)
def execAddSatSScalar (wide : Bool) (d a : Fin 64) (b : SclB) (s : State) : Res := .next (s.scl2 fAddSatS true 4 wide d a b)
def execSubSatSLane (d a : Fin 128) (b : LaneB) (s : State) : Res := .next (s.lane2 (fSubSatS 32) 4 2 d a b)
def execSubSatSScalar (wide : Bool) (d a : Fin 64) (b : SclB) (s : State) : Res := .next (s.scl2 fSubSatS true 4 wide d a b)
def execAddSatZLane (d a : Fin 128) (b : LaneB) (s : State) : Res := .next (s.lane2 (fAddSatZ 32) 4 2 d a b)
def execAddSatZScalar (wide : Bool) (d a : Fin 64) (b : SclB) (s : State) : Res := .next (s.scl2 fAddSatZ false 4 wide d a b)
def execSubSatZLane (d a : Fin 128) (b : LaneB) (s : State) : Res := .next (s.lane2 (fSubSatZ 32) 4 2 d a b)
def execSubSatZScalar (wide : Bool) (d a : Fin 64) (b : SclB) (s : State) : Res := .next (s.scl2 fSubSatZ false 4 wide d a b)
def execMulLane (d a : Fin 128) (b : LaneB) (s : State) : Res := .next (s.lane2 (fMul 32) 8 2 d a b)
def execMulScalar (wide : Bool) (d a : Fin 64) (b : SclB) (s : State) : Res := .next (s.scl2 fMul false 8 wide d a b)
def execMulhSLane (d a : Fin 128) (b : LaneB) (s : State) : Res := .next (s.lane2 (fMulhS 32) 8 2 d a b)
def execMulhSScalar (wide : Bool) (d a : Fin 64) (b : SclB) (s : State) : Res := .next (s.scl2 fMulhS true 8 wide d a b)
def execMulhZLane (d a : Fin 128) (b : LaneB) (s : State) : Res := .next (s.lane2 (fMulhZ 32) 8 2 d a b)
def execMulhZScalar (wide : Bool) (d a : Fin 64) (b : SclB) (s : State) : Res := .next (s.scl2 fMulhZ false 8 wide d a b)
def execMadLane (d a : Fin 128) (b : LaneB) (s : State) : Res := .next (s.lane3 (fMad 32) 8 2 d a b)
def execMadScalar (wide : Bool) (d a : Fin 64) (b : SclB) (s : State) : Res := .next (s.scl3 fMad 8 wide d a b)
def execMinSLane (d a : Fin 128) (b : LaneB) (s : State) : Res := .next (s.lane2 (fMinS 32) 4 2 d a b)
def execMinSScalar (wide : Bool) (d a : Fin 64) (b : SclB) (s : State) : Res := .next (s.scl2 fMinS true 4 wide d a b)
def execMaxSLane (d a : Fin 128) (b : LaneB) (s : State) : Res := .next (s.lane2 (fMaxS 32) 4 2 d a b)
def execMaxSScalar (wide : Bool) (d a : Fin 64) (b : SclB) (s : State) : Res := .next (s.scl2 fMaxS true 4 wide d a b)
def execMinZLane (d a : Fin 128) (b : LaneB) (s : State) : Res := .next (s.lane2 (fMinZ 32) 4 2 d a b)
def execMinZScalar (wide : Bool) (d a : Fin 64) (b : SclB) (s : State) : Res := .next (s.scl2 fMinZ false 4 wide d a b)
def execMaxZLane (d a : Fin 128) (b : LaneB) (s : State) : Res := .next (s.lane2 (fMaxZ 32) 4 2 d a b)
def execMaxZScalar (wide : Bool) (d a : Fin 64) (b : SclB) (s : State) : Res := .next (s.scl2 fMaxZ false 4 wide d a b)
def execAndLane (d a : Fin 128) (b : LaneB) (s : State) : Res := .next (s.lane2 (fAnd 32) 4 2 d a b)
def execAndScalar (wide : Bool) (d a : Fin 64) (b : SclB) (s : State) : Res := .next (s.scl2 fAnd false 4 wide d a b)
def execOrLane (d a : Fin 128) (b : LaneB) (s : State) : Res := .next (s.lane2 (fOr 32) 4 2 d a b)
def execOrScalar (wide : Bool) (d a : Fin 64) (b : SclB) (s : State) : Res := .next (s.scl2 fOr false 4 wide d a b)
def execXorLane (d a : Fin 128) (b : LaneB) (s : State) : Res := .next (s.lane2 (fXor 32) 4 2 d a b)
def execXorScalar (wide : Bool) (d a : Fin 64) (b : SclB) (s : State) : Res := .next (s.scl2 fXor false 4 wide d a b)
def execAndnLane (d a : Fin 128) (b : LaneB) (s : State) : Res := .next (s.lane2 (fAndn 32) 4 2 d a b)
def execAndnScalar (wide : Bool) (d a : Fin 64) (b : SclB) (s : State) : Res := .next (s.scl2 fAndn false 4 wide d a b)
def execShlLane (d a : Fin 128) (b : LaneB) (s : State) : Res := .next (s.lane2 (fShl 32) 4 2 d a b)
def execShlScalar (wide : Bool) (d a : Fin 64) (b : SclB) (s : State) : Res := .next (s.scl2 fShl false 4 wide d a b)
def execShrLane (d a : Fin 128) (b : LaneB) (s : State) : Res := .next (s.lane2 (fShr 32) 4 2 d a b)
def execShrScalar (wide : Bool) (d a : Fin 64) (b : SclB) (s : State) : Res := .next (s.scl2 fShr false 4 wide d a b)
def execSarLane (d a : Fin 128) (b : LaneB) (s : State) : Res := .next (s.lane2 (fSar 32) 4 2 d a b)
def execSarScalar (wide : Bool) (d a : Fin 64) (b : SclB) (s : State) : Res := .next (s.scl2 fSar true 4 wide d a b)
def execRotLane (d a : Fin 128) (b : LaneB) (s : State) : Res := .next (s.lane2 (fRot 32) 4 2 d a b)
def execRotScalar (wide : Bool) (d a : Fin 64) (b : SclB) (s : State) : Res := .next (s.scl2 fRot false 4 wide d a b)

/-! ### Carry (R78) -/

/-- p62 is the carry in and out. -/
def State.carryOp (F : Nat → Nat → Nat → Int) (d a : Nat) (b : LaneB) (s : State) : State :=
  let m := s.act
  let t (p : Nat) : Int := F (s.gr.vr a p).toNat (s.bLane b p).toNat (if (s.gr.pr 62).getLsbD p then 1 else 0)
  s.sram m (a :: bRegs b) fun s =>
    (if m = 0 then s
     else (s.modGr fun g => (g.setVs d (s.lands d 4) fun p => BitVec.ofInt 32 (t p)).setP 62 m
        (maskOf ((positions m).filter fun p => t p < 0 || t p ≥ 2 ^ 32))).lateWrite d 4 0 |>.lateWrite (192 + 62) 4 0).adv 2

def execAddc (d a : Fin 128) (b : LaneB) (s : State) : Res := .next (s.carryOp (fun x y c => (x : Int) + y + c) d a b)
def execSubc (d a : Fin 128) (b : LaneB) (s : State) : Res := .next (s.carryOp (fun x y c => (x : Int) - y - c) d a b)

/-! ### Bit fields and one-operand forms -/

def execBfeSLane (d a : Fin 128) (b : LaneB) (s : State) : Res := .next (s.lane2 (fBfeS 32) 4 2 d a b)
def execBfeSScalar (wide : Bool) (d a : Fin 64) (b : SclB) (s : State) : Res := .next (s.scl2 fBfeS true 4 wide d a b)
def execBfeZLane (d a : Fin 128) (b : LaneB) (s : State) : Res := .next (s.lane2 (fBfeZ 32) 4 2 d a b)
def execBfeZScalar (wide : Bool) (d a : Fin 64) (b : SclB) (s : State) : Res := .next (s.scl2 fBfeZ false 4 wide d a b)
def execBfiLane (d a : Fin 128) (b : LaneB) (s : State) : Res := .next (s.lane3 (fBfi 32) 4 2 d a b)
def execBfiScalar (wide : Bool) (d a : Fin 64) (b : SclB) (s : State) : Res := .next (s.scl3 fBfi 4 wide d a b)
def execAbsLane (d a : Fin 128) (s : State) : Res := .next (s.lane1 (fAbs 32) 4 d a)
def execAbsScalar (wide : Bool) (d a : Fin 64) (s : State) : Res := .next (s.scl1 fAbs true wide d a)
def execPopcLane (d a : Fin 128) (s : State) : Res := .next (s.lane1 (fPopc 32) 4 d a)
def execPopcScalar (wide : Bool) (d a : Fin 64) (s : State) : Res := .next (s.scl1 fPopc false wide d a)
def execClzLane (d a : Fin 128) (s : State) : Res := .next (s.lane1 (fClz 32) 4 d a)
def execClzScalar (wide : Bool) (d a : Fin 64) (s : State) : Res := .next (s.scl1 fClz false wide d a)
def execCtzLane (d a : Fin 128) (s : State) : Res := .next (s.lane1 (fCtz 32) 4 d a)
def execCtzScalar (wide : Bool) (d a : Fin 64) (s : State) : Res := .next (s.scl1 fCtz false wide d a)
def execBrevLane (d a : Fin 128) (s : State) : Res := .next (s.lane1 (fBrev 32) 4 d a)
def execBrevScalar (wide : Bool) (d a : Fin 64) (s : State) : Res := .next (s.scl1 fBrev false wide d a)

/-! ### Compares (R81) -/

/-- Lane compare. -/
def State.cmpLane (F : W32 → W32 → Bool) (d a : Nat) (b : LaneB) (s : State) : State :=
  s.predOut d 4 2 (a :: bRegs b) fun p => F (s.gr.vr a p) (s.bLane b p)
/-- Scalar compare: one result at all W positions. -/
def State.cmpScl (F : (n : Nat) → BitVec n → BitVec n → Bool) (wide : Bool) (d a : Nat) (b : SclB) (s : State) : State :=
  let c := if wide then F 64 (s.sr a) (s.bScl b) else F 32 ((s.sr a).setWidth 32) ((s.bScl b).setWidth 32)
  ((s.modGr fun g => g.setP d (ones g.width) (if c then ones g.width else 0)).lateWrite (192 + d) 4 0).adv 2

def execCmpSignedLane (cc : OrdCond) (d : Fin 64) (a : Fin 128) (b : LaneB) (s : State) : Res :=
  .next (s.cmpLane (fun x y => ordHolds cc x.toInt y.toInt) d a b)
def execCmpSignedScalar (cc : OrdCond) (wide : Bool) (d a : Fin 64) (b : SclB) (s : State) : Res :=
  .next (s.cmpScl (fun _ x y => ordHolds cc x.toInt y.toInt) wide d a b)
def execCmpUnsignedLane (cc : OrdCond) (d : Fin 64) (a : Fin 128) (b : LaneB) (s : State) : Res :=
  .next (s.cmpLane (fun x y => ordHolds cc x.toNat y.toNat) d a b)
def execCmpUnsignedScalar (cc : OrdCond) (wide : Bool) (d a : Fin 64) (b : SclB) (s : State) : Res :=
  .next (s.cmpScl (fun _ x y => ordHolds cc x.toNat y.toNat) wide d a b)
def execCmpEqualityLane (ne : Bool) (d : Fin 64) (a : Fin 128) (b : LaneB) (s : State) : Res :=
  .next (s.cmpLane (fun x y => (x == y) != ne) d a b)
def execCmpEqualityScalar (ne wide : Bool) (d a : Fin 64) (b : SclB) (s : State) : Res :=
  .next (s.cmpScl (fun _ x y => (x == y) != ne) wide d a b)

/-! ### Moves and literals (R82, R83) -/

def execMovLane (d : Fin 128) (b : LaneB) (s : State) : Res := .next (s.laneOut d 4 2 (bRegs b) fun p => s.bLane b p)
def execMovScalar (wide : Bool) (d : Fin 64) (b : SclB) (s : State) : Res :=
  .next (s.sclOut d 4 2 (if wide then s.bScl b else (s.bScl b).setWidth 32 |>.setWidth 64))
/-- The selector is p61. -/
def execSel (d a : Fin 128) (b : LaneB) (s : State) : Res :=
  .next (s.laneOut d 4 2 (a.val :: bRegs b) fun p => if (s.gr.pr 61).getLsbD p then s.gr.vr a p else s.bLane b p)
def execLiLane (d : Fin 128) (lit : W32) (s : State) : Res := .next (s.laneOut d 4 4 [] fun _ => lit)
def execLiScalar (d : Fin 64) (lit : Literal) (s : State) : Res := .next (s.sclOut d 4 (if lit.wd then 6 else 4) lit.zext)
/-- The address of its own first parcel plus the offset; no access is made. -/
def execLea (d : Fin 64) (lit : Literal) (s : State) : Res := .next (s.sclOut d 4 (if lit.wd then 6 else 4) (s.ia + lit.sext))

/-! ### Literal b (R31, R76) -/

def immLane (F : W32 → W32 → W32) (y : W32) (d a : Nat) (s : State) : State := s.laneOut d 4 2 [a] fun p => F (s.gr.vr a p) y
def immScl (F : W64 → W64 → W64) (y : W64) (d a : Nat) (s : State) : State := s.sclOut d 4 2 (F (s.sr a) y)

def execAddImmLane (d a : Fin 128) (imm : BitVec 8) (s : State) : Res := .next (immLane (fAdd 32) (imm.signExtend 32) d a s)
def execAddImmScalar (d a : Fin 64) (imm : BitVec 8) (s : State) : Res := .next (immScl (fAdd 64) (imm.signExtend 64) d a s)
def execAndImmLane (d a : Fin 128) (imm : BitVec 8) (s : State) : Res := .next (immLane (fAnd 32) (imm.setWidth 32) d a s)
def execAndImmScalar (d a : Fin 64) (imm : BitVec 8) (s : State) : Res := .next (immScl (fAnd 64) (imm.setWidth 64) d a s)
def execOrImmLane (d a : Fin 128) (imm : BitVec 8) (s : State) : Res := .next (immLane (fOr 32) (imm.setWidth 32) d a s)
def execOrImmScalar (d a : Fin 64) (imm : BitVec 8) (s : State) : Res := .next (immScl (fOr 64) (imm.setWidth 64) d a s)
def execXorImmLane (d a : Fin 128) (imm : BitVec 8) (s : State) : Res := .next (immLane (fXor 32) (imm.setWidth 32) d a s)
def execXorImmScalar (d a : Fin 64) (imm : BitVec 8) (s : State) : Res := .next (immScl (fXor 64) (imm.setWidth 64) d a s)
def execShlImmLane (d a : Fin 128) (i : Fin 32) (s : State) : Res := .next (immLane (fShl 32) (BitVec.ofNat 32 i) d a s)
def execShlImmScalar (d a i : Fin 64) (s : State) : Res := .next (immScl (fShl 64) (BitVec.ofNat 64 i) d a s)
def execShrImmLane (d a : Fin 128) (i : Fin 32) (s : State) : Res := .next (immLane (fShr 32) (BitVec.ofNat 32 i) d a s)
def execShrImmScalar (d a i : Fin 64) (s : State) : Res := .next (immScl (fShr 64) (BitVec.ofNat 64 i) d a s)
def execSarImmLane (d a : Fin 128) (i : Fin 32) (s : State) : Res := .next (immLane (fSar 32) (BitVec.ofNat 32 i) d a s)
def execSarImmScalar (d a i : Fin 64) (s : State) : Res := .next (immScl (fSar 64) (BitVec.ofNat 64 i) d a s)
def execRotImmLane (d a : Fin 128) (i : Fin 32) (s : State) : Res := .next (immLane (fRot 32) (BitVec.ofNat 32 i) d a s)
def execRotImmScalar (d a i : Fin 64) (s : State) : Res := .next (immScl (fRot 64) (BitVec.ofNat 64 i) d a s)

/-! ### 16-bit forms: d also in the a position, b a vector register (R27) -/

/-- A number below a bound as a number below a larger one. -/
def vreg (b : Nat) : LaneB := .v ⟨b % 128, Nat.mod_lt _ (by decide)⟩

def execAdd16 (d : Fin 64) (b : Fin 32) (s : State) : Res := .next (s.lane2 (fAdd 32) 4 1 d d (vreg b))
def execSub16 (d : Fin 64) (b : Fin 32) (s : State) : Res := .next (s.lane2 (fSub 32) 4 1 d d (vreg b))
def execMul16 (d : Fin 64) (b : Fin 32) (s : State) : Res := .next (s.lane2 (fMul 32) 8 1 d d (vreg b))
def execAnd16 (d : Fin 64) (b : Fin 32) (s : State) : Res := .next (s.lane2 (fAnd 32) 4 1 d d (vreg b))
def execOr16 (d : Fin 64) (b : Fin 32) (s : State) : Res := .next (s.lane2 (fOr 32) 4 1 d d (vreg b))
def execXor16 (d : Fin 64) (b : Fin 32) (s : State) : Res := .next (s.lane2 (fXor 32) 4 1 d d (vreg b))
def execShl16 (d : Fin 64) (b : Fin 32) (s : State) : Res := .next (s.lane2 (fShl 32) 4 1 d d (vreg b))
def execShr16 (d : Fin 64) (b : Fin 32) (s : State) : Res := .next (s.lane2 (fShr 32) 4 1 d d (vreg b))
def execSar16 (d : Fin 64) (b : Fin 32) (s : State) : Res := .next (s.lane2 (fSar 32) 4 1 d d (vreg b))
def execMov16 (d : Fin 64) (b : Fin 32) (s : State) : Res := .next (s.laneOut d 4 1 [b.val] fun p => s.gr.vr b p)
def execMin16 (d : Fin 64) (b : Fin 32) (s : State) : Res := .next (s.lane2 (fMinS 32) 4 1 d d (vreg b))
def execMax16 (d : Fin 64) (b : Fin 32) (s : State) : Res := .next (s.lane2 (fMaxS 32) 4 1 d d (vreg b))

end Sys2Proof.Machine
end

