-- ==== Sys2Proof/Machine/Slice.lean ====
section
/-! DEFINITION. Home-slice atomics and slice routines, majors 50 to 54 and the anvil words (11_slice_routines.md), with the
running of method chains (R261 to R263) and the order cursor of render-target lines (R264). -/

namespace Sys2Proof.Machine

/-! ### Target slots (R250 to R253) -/

/-- A field of a target record, and the slot of a partition. -/
def recField (r : BitVec 512) (lo n : Nat) : Nat := fld r.toNat lo n
def State.slot (s : State) (part n : Nat) : TSlot := (s.parts.rd part).slots.rd n

/-- Samples per pixel; words per sample. -/
def recSamples (r : BitVec 512) : Nat := 2 ^ recField r 99 2
def recWords (r : BitVec 512) : Nat := if recField r 96 3 = 1 then 2 else 1
def recWidth (r : BitVec 512) : Nat := recField r 64 16
def recHeight (r : BitVec 512) : Nat := recField r 80 16
def recLinear (r : BitVec 512) : Bool := recField r 101 1 == 1

/-- Width and height of a level. -/
def levelSize (r : BitVec 512) (l : Nat) : Nat × Nat := (max 1 (recWidth r / 2 ^ l), max 1 (recHeight r / 2 ^ l))

/-- Pixels that a line's block is wide and high (R252). -/
def blockSize (r : BitVec 512) : Nat × Nat :=
  if recLinear r then (32, 1)
  else match 4 * recWords r * recSamples r with
    | 4 => (8, 4) | 8 => (4, 4) | 16 => (4, 2) | 32 => (2, 2) | _ => (2, 1)

def ceilDiv (a b : Nat) : Nat := (a + b - 1) / b

/-- Lines of one level of a tiled target; lines of the levels below `l`. -/
def levelLines (r : BitVec 512) (l : Nat) : Nat :=
  ceilDiv (levelSize r l).1 (blockSize r).1 * ceilDiv (levelSize r l).2 (blockSize r).2
def linesBelow (r : BitVec 512) (l : Nat) : Nat := (List.range l).foldl (fun n i => n + levelLines r i) 0

/-- The line that holds a pixel of a level: its number across all levels, and its virtual address. -/
def lineNumber (r : BitVec 512) (l x y : Nat) : Nat :=
  if recLinear r then y * recField r 160 32 / 128 + x / 32
  else linesBelow r l + y / (blockSize r).2 * ceilDiv (levelSize r l).1 (blockSize r).1 + x / (blockSize r).1
def lineVa (r : BitVec 512) (l x y : Nat) : W64 :=
  if recLinear r then BitVec.ofNat 64 (recField r 0 64 + y * recField r 160 32 + 128 * (x / 32))
  else BitVec.ofNat 64 (recField r 0 64 + 128 * lineNumber r l x y)

/-- The number of a pixel in its line; the first word of a sample. -/
def pixInLine (r : BitVec 512) (x y : Nat) : Nat := y % (blockSize r).2 * (blockSize r).1 + x % (blockSize r).1
def sampleWord (r : BitVec 512) (p sm : Nat) : Nat := (p * recSamples r + sm) * recWords r

/-- A pixel word (R252). -/
def pixelWord (x y sm : Nat) : W32 := BitVec.ofNat 32 (fld x 0 14 + 2 ^ 14 * fld y 0 14 + 2 ^ 28 * fld sm 0 3)
def pixX (w : W32) : Nat := fld w.toNat 0 14
def pixY (w : W32) : Nat := fld w.toNat 14 14
def pixS (w : W32) : Nat := fld w.toNat 28 3

/-- Routine ids of a record's chain, method 0 first. -/
def recChain (r : BitVec 512) : List Nat := (List.range (recField r 105 3)).map fun i => recField r (128 + 8 * i) 8

/-! ### The routine table (R180 to R182) -/

/-- RT_BASE of a partition: its enable bit, and the address of entry `id`. -/
def State.rtOn (s : State) (part : Nat) : Bool := (s.preg part 0x18).getLsbD 63
def State.rtEntry (s : State) (part id : Nat) : Nat := fld (s.preg part 0x18).toNat 17 35 * 2 ^ 17 + 512 * id

/-- The line that serves line `i` of an entry (R10); none where no memory stands, which no access reaches (R9). -/
def State.rtLine (s : State) (part id i : Nat) : Option Nat := (s.place (s.rtEntry part id + 128 * i)).map (· / 128)
def State.rtLines (s : State) (part id : Nat) : List Nat := (List.range 4).filterMap (s.rtLine part id)
/-- Some line of an entry does not exist. -/
def State.rtAbsent (s : State) (part id : Nat) : Bool := (List.range 4).any fun i => (s.rtLine part id i).isNone

/-- The 128 words of an entry as the home slices hold them; those of a line that does not exist are zero (DESIGN CHOICE, log entry 135). -/
def State.rtWords (s : State) (part id : Nat) : List W32 :=
  (List.range 128).map fun i => match s.rtLine part id (i / 32) with
    | some l => lineWord (s.homeLine l) (i % 32)
    | none => 0

/-- A line of an entry is held or keeps requests waiting (R144, R179). -/
def State.rtBusy (s : State) (part id : Nat) : Bool := (s.rtLines part id).any fun l => s.held l || s.homeWait l

/-- Fields of header word 0. -/
def hdrClass (w : W32) : Nat := fld w.toNat 0 2
def hdrOps (w : W32) : Nat := fld w.toNat 2 4
def hdrRets (w : W32) : Nat := fld w.toNat 6 3
def hdrFree (w : W32) : Bool := w.getLsbD 9
def hdrLength (w : W32) : Nat := fld w.toNat 11 6

/-! ### The gate of an anvil (R179, R188, R193) -/

/-- The partition's anvil clocks of the period are used up; 0 and values from 16,000 on hold nothing back (R193). -/
def State.anvilSpent (s : State) (slice part : Nat) : Bool :=
  let b := fld (s.preg part 0x11).toNat 0 16
  b != 0 && b < 16000 && (s.slices.rd slice).charge.rd part ≥ b

/-- A request for the anvil waits for an engine hold, for the anvil, for its budget, for what has arrived before it (R182), for its line,
and until every owner of the line's words has been revoked; then `k` runs. An invocation that has arrived has been accepted: neither
holds it back. -/
def State.anvilGate (line part : Nat) (c : Bool) (ev : Ev) (k : State → State) (s : State) : State :=
  let i := sliceOf line
  let mine := (s.slices.rd i).waits.any fun r => r.line == line && ev == .anvilInvocationStart r
  let own := match ev with
    | .anvilInvocationStart r => r.hold
    | _ => 0
  if !mine && s.heldFrom line own then (s.ask (.engineRecall line)).again ev
  else if (s.slices.rd i).inv.live || (!mine && (s.anvilSpent i part || s.reserved line)) || s.carving line then s.again ev
  else if !s.present line then (s.ask (.llcFill line part c)).again ev
  else
    let r := s.cleared line (BitVec.allOnes 32) noOwner
    if r.2 then k r.1 else r.1.again ev

/-- Hold clocks are charged and counted (R193, R194). -/
def State.anvilCharge (slice part clocks : Nat) (s : State) : State :=
  ((s.modSlice slice fun x => { x with charge := x.charge.mod part (· + clocks) }).sliceEv slice part 0x50 1).sliceEv slice part 0x51 clocks

/-! ### Answers to the issuing core -/

/-- A read of poison at the anvil (R190): a returning operation fails when it retires, a posted one adds an asynchronous
error, one for each invocation that reads poison (DESIGN CHOICE, log entry 124). -/
def State.poisoned (op lane grid : Nat) (s : State) : State :=
  let o := s.ops.rd op
  if o.live && o.returning then
    s.modOp op fun o => if lane < 64 then { o with bad := o.bad ||| (1#64 <<< lane) } else { o with badS := true }
  else s.asyncErr grid

/-- Access kind of a register-returning operation (R127). -/
def OpKind.akind : OpKind → Nat
  | .load _ _ _ => 0
  | .atomic | .call => 8
  | .sample | .tex _ _ _ | .texf _ _ _ => 13
  | _ => 4

/-- A request that a peer refuses or does not answer (R355): a returning operation raises a deferred PROT, any other adds an
asynchronous error. -/
def State.refusedAt (op lane grid : Nat) (s : State) : State :=
  let o := s.ops.rd op
  if o.live && o.returning then
    (s.drawn 1).modOp op fun o =>
      let t := o.fail.trap
      let m := match laneOf lane with
        | some p => t.lanes ||| (1#64 <<< p)
        | none => t.lanes
      { o with failed := true, fail := { id := op, flag := o.flag, trap :=
        { cause := .prot, lanes := m, addr := if o.failed && lowest t.lanes < lane then t.addr else o.vas.rd lane
          info := lowInfo (s.fresh 0) 8 (BitVec.ofNat 64 (OpKind.akind o.kind)) } } }
  else s.asyncErr grid

/-- A word, or a pair, returned to a lane's registers. -/
def State.answer (op lane dreg : Nat) (vs : List W32) (s : State) : State :=
  s.modOp op fun o => { o with res := vs.mapIdx (fun i v => (64 * (dreg + i) + lane, v)) |>.foldl (fun m e => m.wr e.1 e.2) o.res
                               todo := o.todo ++ vs.mapIdx fun i _ => 64 * (dreg + i) + lane }
/-- Words returned to scalar registers, zero-extended. -/
def State.answerS (op dreg : Nat) (vs : List W32) (s : State) : State :=
  s.modOp op fun o => { o with sres := vs.mapIdx (fun i v => (dreg + i, v)) |>.foldl (fun m e => m.wr e.1 (e.2.setWidth 64)) o.sres
                               todo := o.todo ++ vs.mapIdx fun i _ => dreg + i }

/-! ### Fixed atomics (R195, R196) -/

/-- F(old, x) of `atm`, in `n` bits. -/
def atmF (a : AtmOp) (n : Nat) (old x : BitVec n) : BitVec n :=
  match a with
  | .add => old + x
  | .minS => fMinS n old x
  | .maxS => fMaxS n old x
  | .minZ => fMinZ n old x
  | .maxZ => fMaxZ n old x
  | .and => old &&& x
  | .or => old ||| x
  | .xor => old ^^^ x
  | .exch => x
  | .inc => if old.toNat ≥ x.toNat then 0 else old + 1
  | .dec => if old = 0 ∨ old.toNat > x.toNat then x else old - 1
  | .faddF32 => BitVec.ofNat n (addF f32p old.toNat x.toNat).1
  | .faddF16 =>
    let h (i : Nat) : Nat := (addF (Fmt.p .f16) (fld old.toNat (16 * i) 16) (fld x.toNat (16 * i) 16)).1
    BitVec.ofNat n (h 0 + 2 ^ 16 * h 1)

/-- The words of a value of 4 or 8 bytes. -/
def valWords (wide : Bool) (v : Nat) : List W32 :=
  if wide then [BitVec.ofNat 32 v, BitVec.ofNat 32 (v / 2 ^ 32)] else [BitVec.ofNat 32 v]

/-- `n` bytes of a line replaced at its home slice by a commit. -/
def State.commitBytes (line part o n v : Nat) (c : Bool) (s : State) : State :=
  s.writeHome line part (BitVec.ofNat 1024 (fld v 0 (8 * n) * 2 ^ (8 * o))) (BitVec.ofNat 128 ((2 ^ n - 1) * 2 ^ o)) c

/-- A fixed routine on `n` bytes at `pa`: `f old` is what it stores, if it stores. The answer goes to `op`. -/
def State.fixedRoutine (op lane part pa n dreg : Nat) (c ret : Bool) (f : Nat → Option Nat) (s : State) : State :=
  let line := pa / 128
  let i := sliceOf line
  if (s.homePsn line).getLsbD (pa % 128 / 32) then
    (((((s.anvilCharge i part 3).sliceEv i part 0x52 1).recent line).poisoned op lane (s.ops.rd op).grid)).partDone op 1
  else
    let old := lineBytes (s.homeLine line) (pa % 128) n
    let s := match f old with
      | some v => (s.anvilCharge i part 9).commitBytes line part (pa % 128) n v c
      | none => (s.anvilCharge i part 3).recent line
    (if ret then s.answer op lane dreg (valWords (n == 8) old) else s).partDone op 1

def execAtomicInvocation (r : AtmReq) (s : State) : Res :=
  let n := if r.wide then 8 else 4
  if isPeer (r.pa / 128) then .next (s.toPeer (r.pa / 128) r.part r.op (.atomic r))
  else .next (s.anvilGate (r.pa / 128) r.part r.c (.atomicInvocation r) (fun s =>
    s.fixedRoutine r.op r.lane r.part r.pa n r.dreg r.c r.ret fun old =>
      some (atmF r.aop (8 * n) (BitVec.ofNat (8 * n) old) (BitVec.ofNat (8 * n) r.x.toNat)).toNat))

def execCasInvocation (r : CasReq) (s : State) : Res :=
  let n := if r.wide then 8 else 4
  if isPeer (r.pa / 128) then .next (s.toPeer (r.pa / 128) r.part r.op (.cas r))
  else .next (s.anvilGate (r.pa / 128) r.part r.c (.casInvocation r) (fun s =>
    s.fixedRoutine r.op r.lane r.part r.pa n r.dreg r.c r.ret fun old =>
      if old = fld r.cmp.toNat 0 (8 * n) then some r.new.toNat else none))

/-! ### Calls from the cores (R191, R192) -/

/-- The steps before any invocation leaves the core, then the invocations in ascending position. It stalls in place while older accesses to
the lines are to come first; a fill under way for others brings none of the lines' words to the L1 any more (R192). -/
def State.invoke (kind : OpKind) (ret : Bool) (al : Nat) (ls : List (Nat × W64)) (mk : Nat → Hit → State → Ev) (s : State) : State :=
  s.access 8 true true false al ls fun hs s =>
    if (linesOfPas (hs.map (·.pa))).any fun l => s.olderFirst l (BitVec.allOnes 32) then s.stall else
    let s := (linesOfPas (hs.map (·.pa))).foldl (fun s l => ((s.l1Drop s.cr l).purgeFills s.cr l (BitVec.allOnes 32))) s.sealNow
    let id := s.nextId
    let s := s.issue { s.op0 with
      kind := kind, flag := if ret then s.fa else s.fb, returning := ret, cls := if ret then 1 else 2, need := hs.length
      lanes := laneMask ls, vas := hs.foldl (fun (m : TMap W64) h => m.wr h.pos h.ea) [] }
    (hs.foldl (fun s h => s.soon (mk id h s)) s).adv 2

/-- An `atm` of either form. -/
def State.atm (ret : Bool) (aop : AtmOp) (wide : Bool) (d b o : Nat) (s : State) : State :=
  let m := s.wact
  let n := if wide then 8 else 4
  if m = 0 then s.adv 2
  else if s.full (if ret then s.fa else s.fb) then s.stall
  else s.sram m (o :: if wide then [d, d + 1] else [d]) (State.invoke .atomic ret n (s.eas m b o n 0) fun id h s =>
    .atomicInvocation { core := s.cr, part := s.pt, op := id, lane := h.pos, pa := h.pa, wide := wide, aop := aop
                        x := if wide then s.gr.pair d h.pos else (s.gr.vr d h.pos).setWidth 64, c := h.c, ret := ret, dreg := d })

def execAtmReturning (aop : AtmOp) (wide : Bool) (d : Fin 128) (b : Fin 32) (o : Fin 128) (s : State) : Res :=
  .next (s.atm true aop wide d b o)
def execAtmPosted (aop : AtmOp) (wide : Bool) (d : Fin 128) (b : Fin 32) (o : Fin 128) (s : State) : Res :=
  .next (s.atm false aop wide d b o)

/-- A `cas` of either form. -/
def State.cas (ret wide : Bool) (d b o : Nat) (s : State) : State :=
  let m := s.wact
  let n := if wide then 8 else 4
  if m = 0 then s.adv 2
  else if s.full (if ret then s.fa else s.fb) then s.stall
  else s.sram m (o :: if wide then [d, d + 1, d + 2, d + 3] else [d, d + 1]) (State.invoke .atomic ret n (s.eas m b o n 0) fun id h s =>
    .casInvocation { core := s.cr, part := s.pt, op := id, lane := h.pos, pa := h.pa, wide := wide
                     cmp := if wide then s.gr.pair d h.pos else (s.gr.vr d h.pos).setWidth 64
                     new := if wide then s.gr.pair (d + 2) h.pos else (s.gr.vr (d + 1) h.pos).setWidth 64
                     c := h.c, ret := ret, dreg := d })

def execCasReturning (wide : Bool) (d : Fin 128) (b : Fin 32) (o : Fin 128) (s : State) : Res := .next (s.cas true wide d b o)
def execCasPosted (wide : Bool) (d : Fin 128) (b : Fin 32) (o : Fin 128) (s : State) : Res := .next (s.cas false wide d b o)

/-- The checks of `rcall` at issue (R197): the id's class, and the range of its data registers below `lim`. -/
def State.rcallCheck (id d lim : Nat) (k : CallEnt → State → State) (s : State) : State :=
  let e := (s.parts.rd s.pt).calls.rd id
  if e.cls ≠ 1 || !s.rtOn s.pt then s.trap .prot none none 16 (BitVec.ofNat 64 (9 + 256 * id))
  else if lim < d + max e.ops e.rets then s.trap .prot none none 8 10
  else k e s

def State.callReq (s : State) (scalar : Bool) (op id d : Nat) (ops : List W32) (h : Hit) : InvReq :=
  { kind := .call, core := s.cr, part := s.pt, op := op, lane := h.pos, line := h.pa / 128, ids := [id], ops := ops
    ks := [BitVec.ofNat 32 (h.pa % 128 / 4)], slot := 0, draw := 0, ord := 0, grid := s.tm.grid, c := h.c, scalar := scalar, dreg := d }

def execRcallLane (d : Fin 128) (b : Fin 32) (o : Fin 128) (i : Fin 64) (s : State) : Res :=
  let m := s.wact
  let id := fld (s.sr i).toNat 0 8
  if m = 0 then .next (s.adv 2)
  else .next (s.rcallCheck id d s.gr.vc (fun e s =>
    let ret := e.rets != 0
    if s.full (if ret then s.fa else s.fb) then s.stall
    else s.sram m (o.val :: (List.range e.ops).map (d.val + ·)) (State.invoke .call ret 1
      ((positions m).map fun p => (p, s.sr b + (s.gr.vr o p).signExtend 64)) fun op h s =>
        .anvilInvocationStart (s.callReq false op id d ((List.range e.ops).map fun j => s.gr.vr (d + j) h.pos) h))))

def execRcallScalar (d : Fin 64) (b : Fin 32) (i : Fin 64) (s : State) : Res :=
  let id := fld (s.sr i).toNat 0 8
  .next (s.rcallCheck id d 64 (fun e s =>
    let ret := e.rets != 0
    if s.full (if ret then s.fa else s.fb) then s.stall
    else s.invoke .call ret 1 [(64, s.sr b)] fun op h s =>
      .anvilInvocationStart (s.callReq true op id d ((List.range e.ops).map fun j => (s.sr (d + j)).setWidth 32) h)))

/-! ### Installing and dropping routines (R185 to R187) -/

/-- Fields of an anvil word (R40). -/
def hOp (w : W32) : Nat := fld w.toNat 0 5
def hMode (w : W32) : Nat := fld w.toNat 5 3
def hD (w : W32) : Nat := fld w.toNat 8 7
def hA (w : W32) : Nat := fld w.toNat 15 7
def hB (w : W32) : Nat := fld w.toNat 22 7
def hC (w : W32) : Nat := fld w.toNat 29 2

/-- Modes of each opcode (R41); none of 29 to 31. -/
def hModes (op : Nat) : Nat :=
  if op < 4 then 1 else if op = 4 then 2 else if op < 8 then 3 else if op < 14 then 1 else if op < 16 then 2
  else if op < 21 then 3 else if op = 21 then 7 else if op = 22 then 8 else if op = 23 then 1 else if op = 24 then 3
  else if op < 29 then 1 else 0

/-- Only k, Q and L are destinations; codes 28 to 31 are reserved (R40). -/
def hDstOk (c : Nat) : Bool := c < 16 || (24 ≤ c && c < 28) || (32 ≤ c && c < 64)
def hSrcOk (c : Nat) : Bool := !(28 ≤ c && c < 32)

/-- R41 and R184's limits on a word's fields, but for the counts of `h.skip` and `h.fwd`. -/
def hWordOk (w : W32) : Bool :=
  let op := hOp w
  let d0 := hD w == 0
  let a0 := hA w == 0
  let b0 := hB w == 0
  let c0 := hC w == 0
  !w.getLsbD 31 && hMode w < hModes op &&
    if op = 0 ∨ op = 2 ∨ op = 3 then hDstOk (hD w) && hA w < 16 && b0 && c0
    else if op = 1 then d0 && hA w < 16 && hSrcOk (hB w) && c0
    else if op = 4 then hDstOk (hD w)
    else if op < 21 then hDstOk (hD w) && hSrcOk (hA w) && hSrcOk (hB w) && c0
    else if op = 21 then hDstOk (hD w) && hSrcOk (hA w) && (if hMode w = 4 then hSrcOk (hB w) else b0) && c0
    else if op = 22 then d0 && hSrcOk (hA w) && hSrcOk (hB w)
    else if op = 23 then hDstOk (hD w) && hSrcOk (hA w) && hSrcOk (hB w)
    else if op = 24 then d0 && a0 && (hMode w != 2 || c0)
    else if op = 26 then d0 && hSrcOk (hA w) && c0
    else if op = 27 then d0 && a0 && hSrcOk (hB w) && c0
    else d0 && a0 && b0 && c0

/-- `n` operand codes from `a` lie within one kind. -/
def oneKind (a n : Nat) : Bool :=
  [(0, 16), (16, 24), (24, 28), (32, 64), (64, 128)].any fun k => k.1 ≤ a && a + n ≤ k.2

/-- The status of `rinst` for a table that exists (R186, from IN_USE on); `cls` is the class of the entry as it stands. -/
def rinstStatus (cls : Nat) (img : List W32) : Nat :=
  let w0 := img.getD 0 0
  let c := hdrClass w0
  let len := hdrLength w0
  let code := (img.drop 4).take len
  let fwds := code.filter fun w => hOp w == 26
  let ends : List Nat := [25, 27, 28]
  if cls ≠ 0 then 3
  else if c = 0 ∨ c = 3 ∨ w0.toNat / 2 ^ 17 ≠ 0 ∨ (c = 1 ∧ (hdrFree w0 ∨ img.getD 1 0 ≠ 0)) then 4
  else if hdrOps w0 > 8 ∨ hdrRets w0 > 4 ∨ (c = 2 ∧ hdrRets w0 ≠ 0) then 5
  else if len = 0 ∨ len > 32 ∨ !ends.contains (hOp (img.getD (3 + len) 0)) then 6
  else if !code.all hWordOk then 7
  else if (List.range len).any fun i =>
      let w := code.getD i 0
      hOp w == 24 && (hB w == 0 || hB w > 31 || i + 1 + hB w ≥ len) then 8
  else if fwds.length > 1 || (c == 1 && fwds != []) || w0.getLsbD 10 != (fwds != []) ||
      fwds.any fun w => hB w == 0 || hB w > 8 || !oneKind (hA w) (hB w) then 9
  else 0

/-- The words of an entry made from an image (R181, R186). -/
def entryWords (img : List W32) : List W32 :=
  let len := hdrLength (img.getD 0 0)
  (List.range 128).map fun i =>
    if i = 2 ∨ i = 3 ∨ (4 + len ≤ i ∧ i < 36) ∨ 100 ≤ i then 0 else img.getD i 0

/-- An entry is removed from every anvil's cache (R182). -/
def State.uncache (part id : Nat) (s : State) : State :=
  { s with slices := s.slices.map fun (e : Nat × Slice) => (e.1, { e.2 with cache := e.2.cache.filter fun c => c.key != 256 * part + id }) }

/-- Words written into the table at the home slices; their owners are revoked, and a line that does not exist takes none. The writes have no
translation, and carry C = 1 as the walker's do (DESIGN CHOICE, log entry 107). -/
def State.rtWrite (part id : Nat) (ws : List W32) (s : State) : State :=
  (List.range 4).foldl (fun s i => match s.rtLine part id i with
    | none => s
    | some l =>
      let s := (s.revokeWords l (BitVec.allOnes 32) noOwner 0).1
      let d := (List.range 32).foldr (fun j n => (ws.getD (32 * i + j) 0).toNat + 2 ^ 32 * n) 0
      s.writeHome l part (BitVec.ofNat 1024 d) (BitVec.allOnes 128) true) s

/-- `rinst` has read its image: the status, and with status 0 the new entry. -/
def State.rinstEnd (part id : Nat) (img : List W32) (s : State) : State × Nat :=
  if id > 255 then (s, 1)
  else if !s.rtOn part then (s, 2)
  else
    match rinstStatus (hdrClass ((s.rtWords part id).getD 0 0)) img with
    | 0 =>
      let w0 := img.getD 0 0
      let s := (s.rtWrite part id (entryWords img)).uncache part id
      (s.modPart part fun p => { p with calls := p.calls.wr id { cls := hdrClass w0, ops := hdrOps w0, rets := hdrRets w0 } }, 0)
    | n => (s, n)

/-- A supervisor instruction with an image at s[a]. -/
def execRinst (d a : Fin 64) (b : SclB) (s : State) : Res :=
  .next (s.sup fun s =>
    if s.full s.fa then s.stall
    else
      let va := s.sr a
      let ls := (List.range 128).map fun i => (64 + i, va + BitVec.ofNat 64 (4 * i))
      if va.toNat % 128 ≠ 0 then s.trap .align (some 0) (some va) 8 4
      else s.loadAccess (.rinst (s.bScl b).toNat d) 4 false ls (fun s => s.sealNow.adv 2))

/-- Steps 1 of a drop: the status, and the call table without the id. -/
def State.dropStatus (s : State) (part id : Nat) : Nat :=
  let bound := (List.range 16).any fun n => let t := s.slot part n; t.bound && (recChain t.rec_).contains id
  if id > 255 then 1
  else if !s.rtOn part || hdrClass ((s.rtWords part id).getD 0 0) = 0 then 2
  else if bound then 3 else 0

/-- Some invocation of an id of a partition has been issued and has not ended: at a slice or on its way to one, called from a
partition of a peer that uses this one's table (R355), gone out to a peer, posted, or to come from a `tmeth`. -/
def routineBusy (s : State) (part id : Nat) : Bool :=
  let chain (p n : Nat) : Bool := p == part && (recChain (s.slot p n).rec_).contains id
  (s.agenda.any fun p => match p.ev with
    | .anvilInvocationStart r => r.part == part && r.ids.contains id
    | .tmethInvocation r => r.mode == 0 && chain r.part r.slot
    | .fragmentPost p | .postReturn p | .forwardPost p => chain p.part p.slot
    | .slotlinkRequest q => match q.kind with
      | .call r => r.ids.contains id && if q.incoming then s.grants.any fun g => g.dev == q.dev && g.part == r.part && g.rtPart == part else r.part == part
      | _ => false
    | _ => false) || s.slices.any fun e =>
      (e.2.inv.live && e.2.inv.req.part == part && e.2.inv.req.ids.contains id) || e.2.held.any fun p => chain p.part p.slot

def execRdrop (d : Fin 64) (b : SclB) (s : State) : Res :=
  .next (s.sup fun s =>
    if s.full s.fa then s.stall
    else
      let id := (s.bScl b).toNat
      let st := s.dropStatus s.pt id
      let s := s.sealNow
      let s := if st = 0 then s.modPart s.pt fun p => { p with calls := p.calls.del id } else s
      let op := s.nextId
      ((s.issue { s.op0 with kind := .rdrop id d, flag := s.fa, returning := true, cls := 1, a := BitVec.ofNat 64 st }).readyIfDone op).adv 2)

/-- Steps 2 and 3 of a drop; none while an invocation of the id has not ended. An entry is empty when its class is 0 (R181); the
rest of the entry stays (DEDUCED, log entry 16). -/
def State.rdropEnd (part id st : Nat) (s : State) : Option State :=
  if st ≠ 0 then some s
  else if routineBusy s part id then none
  else
    let ws := s.rtWords part id
    some ((s.rtWrite part id ((ws.getD 0 0 &&& ~~~3#32) :: ws.drop 1)).uncache part id)

/-! ### Notice entries and the order cursor (R257, R259, R264, R265) -/

/-- The post's pixel. -/
def postPix (s : State) (p : Post) : Nat := pixInLine (s.slot p.part p.slot).rec_ p.x p.y

/-- A line's notices, oldest first. -/
def State.noticesOf (s : State) (line : Nat) : List Notice := (s.slices.rd (sliceOf line)).notices.filter (·.line == line)

/-- The entries of a primitive's pixels in a line: of one draw, one target slot and one ordinal. -/
def entryFor (line key slot ord : Nat) (e : Notice) : Bool := e.line == line && e.key == key && e.slot == slot && e.ord == ord

/-- The notice entry of a post. -/
def State.entryOf (s : State) (p : Post) : Option Notice :=
  (s.noticesOf p.line).find? fun e => entryFor p.line p.key p.slot p.ord e && e.mask.getLsbD (postPix s p)

/-- A pixel's bit in its entry is cleared; an empty entry is freed. -/
def State.clearBit (line key slot ord pix : Nat) (s : State) : State :=
  s.modSlice (sliceOf line) fun x => { x with notices := (x.notices.map fun e =>
    if entryFor line key slot ord e then { e with mask := e.mask &&& ~~~(1#32 <<< pix) } else e).filter (·.mask != 0) }

/-- The request of a post's chain (R261). Of a forward post that carries fewer words than m, the words beyond are not stated: free values
(DESIGN CHOICE, log entry 129). -/
def State.postReq (s : State) (p : Post) (fwd : Bool) : InvReq :=
  let t := s.slot p.part p.slot
  let pix := postPix s p
  { kind := if fwd then .fwd else .post, core := p.core, part := p.part, op := p.op, lane := 0, line := p.line
    ids := recChain t.rec_
    ops := p.words.take t.m ++ if fwd then (List.range (t.m - p.words.length)).map fun i => (s.fresh i).setWidth 32 else []
    ks := [BitVec.ofNat 32 (sampleWord t.rec_ pix 0), p.cov, BitVec.ofNat 32 p.ord, pixelWord p.x p.y 0, BitVec.ofNat 32 (2 ^ pix),
           BitVec.ofNat 32 (recSamples t.rec_), BitVec.ofNat 32 (recWords t.rec_), if fwd then 1 else 0]
    slot := p.slot, draw := p.draw, ord := p.ord, grid := p.grid, c := p.c, scalar := false, dreg := 0, key := p.key }

/-- Held posts of a line's oldest entry become due, in arrival order (ADVANCE). -/
def State.advance (line : Nat) (s : State) : State :=
  match s.noticesOf line with
  | [] => s
  | e :: _ =>
    let due (p : Post) : Bool := entryFor p.line p.key p.slot p.ord e
    let ps := (s.slices.rd (sliceOf line)).held.filter due
    let s := s.modSlice (sliceOf line) fun x => { x with held := x.held.filter fun p => !due p }
    ps.reverse.foldl (fun s p => s.again (.anvilInvocationStart (s.postReq p false))) s

/-- A post, or a null post, has been applied: its bit is cleared, the cursor advances, its instruction may retire. -/
def State.postApplied (line key slot ord pix op : Nat) (s : State) : State :=
  ((s.clearBit line key slot ord pix).advance line).partDone op 1

/-- A chain of methods has ended. -/
def State.chainDone (r : InvReq) (s : State) : State :=
  match r.kind with
  | .call => s
  | .post => s.postApplied r.line r.key r.slot r.ord (positions ((r.ks.getD 4 0).setWidth 64) |>.headD 0) r.op
  | .fwd => (((s.dropHold r.line r.hold).lateOrs (sliceOf r.line)).sliceEv (sliceOf r.line) r.part 0x5C 1).partDone r.op 1
  | .tmeth => s.partDone r.op 1

/-! ### Invocations of routines (R178, R179, R261, R262) -/

/-- The entry of a routine in an anvil's cache. -/
def State.cached (s : State) (slice part id : Nat) : Option RtEnt := (s.slices.rd slice).cache.find? fun c => c.key == 256 * part + id

/-- An invocation that cannot be made is over: it changes nothing and adds an asynchronous error (DESIGN CHOICE, log entry 135). -/
def State.invFails (r : InvReq) (s : State) : State :=
  let s := (s.modSlice (sliceOf r.line) fun x => { x with waits := x.waits.erase r }).asyncErr r.grid
  match r.kind with
  | .call => s.partDone r.op 1
  | _ => s.chainDone r

/-- The state of an invocation at its start (R178): O[i] of a call below the entry's operand count; a method's are R261's. -/
def startInv (r : InvReq) (e : RtEnt) (l : Line) : Inv :=
  let w0 := e.words.getD 0 0
  let tab (ws : List W32) : TMap W32 := (ws.mapIdx fun i w => (i, w)).foldl (fun m x => m.wr x.1 x.2) []
  { live := true, req := r, l := l, o := tab (if r.kind = .call then r.ops.take (hdrOps w0) else r.ops), cst := tab ((e.words.drop 36).take 64), k := tab r.ks
    code := tab ((e.words.drop 4).take 32), len := hdrLength w0, rets := hdrRets w0, clocks := 2 }

/-- The request's method, or its routine, begins on the line as it stands. One whose entry is not cached waits for it at the slice: it
holds no line and no anvil, and what else asks for the line waits behind it (R182, R262). -/
def State.beginInv (r : InvReq) (s : State) : State :=
  let i := sliceOf r.line
  let id := r.ids.getD r.nth 0
  match s.cached i r.part id with
  | none =>
    let s := if (s.slices.rd i).waits.contains r then s else s.modSlice i fun x => { x with waits := x.waits ++ [r] }
    (s.ask (.routineEntryFetch i r.part id)).again (.anvilInvocationStart r)
  | some e => s.modSlice i fun x => { x with
      waits := x.waits.erase r
      inv := startInv r e (s.homeLine r.line), cache := e :: x.cache.filter fun c => c.key != e.key }

/-- An invocation reaches its line's slice. Without its table entry it waits there, and has its place among the line's requests (R182); an
entry that is nowhere ends it (R9). -/
def execAnvilInvocationStart (r : InvReq) (s : State) : Res :=
  let i := sliceOf r.line
  let ev : Ev := .anvilInvocationStart r
  let arrived := (s.slices.rd i).waits.contains r
  if isPeer r.line then .next (s.toPeer r.line r.part r.op (.call r))
  else if r.ids = [] then .next (if s.homeWait r.line then s.again ev else s.chainDone r)
  else if (s.cached i r.part (r.ids.getD r.nth 0)).isSome then .next (s.anvilGate r.line r.part r.c ev (State.beginInv r))
  else if !arrived && (s.homeWait r.line || s.heldFrom r.line r.hold || s.anvilSpent i r.part) then
    .next ((if s.heldFrom r.line r.hold then s.ask (.engineRecall r.line) else s).again ev)
  else .next (if s.rtAbsent r.part (r.ids.getD r.nth 0) then s.invFails r else s.beginInv r)

/-- The entry fetch of an invocation that found none cached (R182). -/
def execRoutineEntryFetch (slice part id : Nat) (s : State) : Res :=
  let ls := s.rtLines part id
  if s.rtAbsent part id then .next s
  else if ls.any fun l => s.held l || s.homeWait l || (!s.present l && s.memHeld l part) then
    .next ((s.recall ls).again (.routineEntryFetch slice part id))
  else
    let s := ls.foldl (fun s l => (s.fillLine l part true).recent l) s
    let e : RtEnt := { key := 256 * part + id, words := s.rtWords part id }
    .next ((s.modSlice slice fun x => { x with cache := (e :: x.cache.filter fun c => c.key != e.key).take 64 }).sliceEv slice part 0x54 1)

/-- Every slice's charges begin anew (R193). -/
def execAnvilBudgetPeriod (s : State) : Res :=
  .next { s with slices := s.slices.map fun (e : Nat × Slice) => (e.1, { e.2 with charge := [] }) }

/-! ### Running a routine (R183, R184) -/

def State.inv (s : State) : Inv := (s.slices.rd s.curSlice).inv
def State.modInv (f : Inv → Inv) (s : State) : State := s.modSlice s.curSlice fun x => { x with inv := f x.inv }

/-- A source operand; the L words it reads. -/
def Inv.src (v : Inv) : HSrc → W32
  | .k i => v.k.rd i
  | .o i => v.o.rd i
  | .q i => v.q.rd i
  | .l i => lineWord v.l i
  | .c i => v.cst.rd i
def HSrc.lWords : HSrc → List Nat
  | .l i => [i.val]
  | _ => []

/-- A destination as a source, and its L words. -/
def HDst.asSrc : HDst → HSrc
  | .k i => .k i
  | .q i => .q i
  | .l i => .l i

/-- Write an L word: it counts as written (R188). -/
def Inv.setL (v : Inv) (i : Nat) (x : W32) : Inv := { v with l := setLineWord v.l i x, wrote := v.wrote ||| (1#32 <<< i) }
def Inv.put (v : Inv) (d : HDst) (x : W32) : Inv :=
  match d with
  | .k i => { v with k := v.k.wr i x }
  | .q i => { v with q := v.q.wr i x }
  | .l i => v.setL i x

/-- The operand of a code, as `h.fwd` names it. -/
def Inv.code_ (v : Inv) (c : Nat) : W32 :=
  if c < 16 then v.k.rd c else if c < 24 then v.o.rd (c - 16) else if c < 28 then v.q.rd (c - 24)
  else if c < 32 then 0 else if c < 64 then lineWord v.l (c - 32) else v.cst.rd (c - 64)
def HSrc.code : HSrc → Nat
  | .k i => i
  | .o i => 16 + i
  | .q i => 24 + i
  | .l i => 32 + i
  | .c i => 64 + i

/-- The invocation's hold ends: clocks charged and counted. -/
def State.hClose (extra : Nat) (s : State) : State :=
  let v := s.inv
  (s.anvilCharge s.curSlice v.req.part (v.clocks + extra)).modInv fun _ => {}

/-- The words a returning call gets (R188). -/
def State.hReturn (v : Inv) (ws : List W32) (s : State) : State :=
  let r := v.req
  match r.kind with
  | .call =>
    let ws := ws.take v.rets
    (if r.scalar then s.answerS r.op r.dreg ws else s.answer r.op r.lane r.dreg ws).partDone r.op 1
  | _ => s.chainDone r

/-- Q[0] to Q[rets − 1]. -/
def Inv.results (v : Inv) : List W32 := (List.range v.rets).map v.q.rd

/-- A poisoned word was read (R190). -/
def State.hPoison (s : State) : State :=
  let v := s.inv
  let s := (((s.hClose 0).sliceEv s.curSlice v.req.part 0x52 1).recent v.req.line).lateOrs s.curSlice
  let s := s.poisoned v.req.op v.req.lane v.req.grid
  match v.req.kind with
  | .call => s.partDone v.req.op 1
  | _ => s.chainDone v.req

/-- An anvil word that reads the L words `ls`: one clock; poison stops the routine; otherwise `f` acts and the next word
follows. -/
def State.hRead (ls : List Nat) (f : State → State) (s : State) : State :=
  let s := s.modInv fun v => { v with clocks := v.clocks + 1 }
  if ls.any fun i => (s.homePsn s.inv.req.line).getLsbD (i / 8) then s.hPoison else f s
def State.hWord (ls : List Nat) (f : Inv → Inv) (s : State) : State :=
  s.hRead ls (State.modInv fun v => let w := f v; { w with pc := v.pc + 1 })

/-- d ← F(a, b). -/
def State.h2 (F : W32 → W32 → W32) (d : HDst) (a b : HSrc) (s : State) : State :=
  s.hWord (HSrc.lWords a ++ HSrc.lWords b) fun v => v.put d (F (v.src a) (v.src b))

def execHLdl (d : HDst) (k : Fin 16) (s : State) : Res :=
  let i := fld (s.inv.k.rd k).toNat 0 5
  .next (s.hWord [i] fun v => v.put d (lineWord v.l i))
def execHStl (k : Fin 16) (b : HSrc) (s : State) : Res :=
  .next (s.hWord (HSrc.lWords b) fun v => v.setL (fld (v.k.rd k).toNat 0 5) (v.src b))
def execHLdo (d : HDst) (k : Fin 16) (s : State) : Res := .next (s.hWord [] fun v => v.put d (v.o.rd (fld (v.k.rd k).toNat 0 3)))
def execHLdc (d : HDst) (k : Fin 16) (s : State) : Res := .next (s.hWord [] fun v => v.put d (v.cst.rd (fld (v.k.rd k).toNat 0 6)))
def execHLi (d : HDst) (imm : BitVec 16) (s : State) : Res := .next (s.hWord [] fun v => v.put d (imm.signExtend 32))
/-- d[15:0] is kept, so d is read (DEDUCED, log entry 91). -/
def execHLiHi (d : HDst) (imm : BitVec 16) (s : State) : Res :=
  .next (s.hWord (HSrc.lWords (HDst.asSrc d)) fun v => v.put d (imm ++ (v.src (HDst.asSrc d)).setWidth 16))

/-- Arithmetic by its mode: wrapping, saturating signed, saturating unsigned. -/
def hArith (m : HArith) (w s z : W32 → W32 → W32) : W32 → W32 → W32 :=
  match m with
  | .wrap => w
  | .satS => s
  | .satZ => z
def execHAdd (m : HArith) (d : HDst) (a b : HSrc) (s : State) : Res := .next (s.h2 (hArith m (fAdd 32) (fAddSatS 32) (fAddSatZ 32)) d a b)
def execHSub (m : HArith) (d : HDst) (a b : HSrc) (s : State) : Res := .next (s.h2 (hArith m (fSub 32) (fSubSatS 32) (fSubSatZ 32)) d a b)
def execHMul (m : HArith) (d : HDst) (a b : HSrc) (s : State) : Res :=
  .next (s.h2 (hArith m (fMul 32) (fun x y => clampS 32 (x.toInt * y.toInt)) (fun x y => clampZ 32 (x.toNat * y.toNat))) d a b)
def execHAnd (d : HDst) (a b : HSrc) (s : State) : Res := .next (s.h2 (fAnd 32) d a b)
def execHOr (d : HDst) (a b : HSrc) (s : State) : Res := .next (s.h2 (fOr 32) d a b)
def execHXor (d : HDst) (a b : HSrc) (s : State) : Res := .next (s.h2 (fXor 32) d a b)
def execHShl (d : HDst) (a b : HSrc) (s : State) : Res := .next (s.h2 (fShl 32) d a b)
def execHShr (d : HDst) (a b : HSrc) (s : State) : Res := .next (s.h2 (fShr 32) d a b)
def execHSar (d : HDst) (a b : HSrc) (s : State) : Res := .next (s.h2 (fSar 32) d a b)
def execHMin (unsigned : Bool) (d : HDst) (a b : HSrc) (s : State) : Res := .next (s.h2 (if unsigned then fMinZ 32 else fMinS 32) d a b)
def execHMax (unsigned : Bool) (d : HDst) (a b : HSrc) (s : State) : Res := .next (s.h2 (if unsigned then fMaxZ 32 else fMaxS 32) d a b)

/-- Float operations of the anvil raise no flag (R183). -/
def HFloat.ty : HFloat → FTy
  | .f32 => .f32
  | .f16 => .f16
  | .bf16 => .bf16
def hFloat2 (F : FmtP → Nat → Nat → Nat × Nat) (m : HFloat) (x y : W32) : W32 :=
  (elementwise (HFloat.ty m) fun p i => F p (elemOf (HFloat.ty m) x i) (elemOf (HFloat.ty m) y i)).1
def execHFadd (m : HFloat) (d : HDst) (a b : HSrc) (s : State) : Res := .next (s.h2 (hFloat2 addF m) d a b)
def execHFmul (m : HFloat) (d : HDst) (a b : HSrc) (s : State) : Res := .next (s.h2 (hFloat2 mulF m) d a b)
def execHFmin (m : HFloat) (d : HDst) (a b : HSrc) (s : State) : Res := .next (s.h2 (hFloat2 minF m) d a b)
def execHFmax (m : HFloat) (d : HDst) (a b : HSrc) (s : State) : Res := .next (s.h2 (hFloat2 maxF m) d a b)
def execHFfma (m : HFloat) (d : HDst) (a b : HSrc) (s : State) : Res :=
  .next (s.hWord (HSrc.lWords a ++ HSrc.lWords b ++ HSrc.lWords (HDst.asSrc d)) fun v =>
    let t := HFloat.ty m
    v.put d (elementwise t fun p i => fmaF p (elemOf t (v.src a) i) (elemOf t (v.src b) i) (elemOf t (v.src (HDst.asSrc d)) i)).1)

/-- R184, op 21. -/
def hCvtF (m : HCvt) (a b : W32) : W32 :=
  let h (x : W32) : Nat := ((Fmt.p .f16).conv .rne false (f32p.val x.toNat)).1
  let w (x : Nat) : W32 := BitVec.ofNat 32 (f32p.conv .rne false ((Fmt.p .f16).val x)).1
  match m with
  | .f32S32 => BitVec.ofNat 32 (f32p.rne (intVal a.toInt)).1
  | .f32Z32 => BitVec.ofNat 32 (f32p.rne (intVal a.toNat)).1
  | .s32F32 => (toInt true .rne (f32p.val a.toNat)).1
  | .z32F32 => (toInt false .rne (f32p.val a.toNat)).1
  | .f16F32 => BitVec.ofNat 32 (h a + 2 ^ 16 * h b)
  | .f32F16Lo => w (fld a.toNat 0 16)
  | .f32F16Hi => w (fld a.toNat 16 16)
def execHCvt (m : HCvt) (d : HDst) (a b : HSrc) (s : State) : Res :=
  .next (s.hWord (HSrc.lWords a ++ if m = .f16F32 then HSrc.lWords b else []) fun v => v.put d (hCvtF m (v.src a) (v.src b)))

def hCondHolds (m : HCond) (a b : W32) : Bool :=
  match m with
  | .eq => a == b
  | .ne => a != b
  | .ltS => a.toInt < b.toInt
  | .leS => a.toInt ≤ b.toInt
  | .ltZ => a.toNat < b.toNat
  | .leZ => a.toNat ≤ b.toNat
  | .ltF => fcmpHolds .lt (f32p.val a.toNat) (f32p.val b.toNat)
  | .leF => fcmpHolds .le (f32p.val a.toNat) (f32p.val b.toNat)
def setBit4 (c : BitVec 4) (i : Nat) (x : Bool) : BitVec 4 := if x then c ||| (1#4 <<< i) else c &&& ~~~(1#4 <<< i)
def execHCmp (m : HCond) (c : Fin 4) (a b : HSrc) (s : State) : Res :=
  .next (s.hWord (HSrc.lWords a ++ HSrc.lWords b) fun v => { v with cond := setBit4 v.cond c (hCondHolds m (v.src a) (v.src b)) })
def execHSel (d : HDst) (c : Fin 4) (a b : HSrc) (s : State) : Res :=
  .next (s.hWord (HSrc.lWords a ++ HSrc.lWords b) fun v => v.put d (if v.cond.getLsbD c then v.src a else v.src b))
def execHSkip (m : HSkip) (n : Fin 128) (c : Fin 4) (s : State) : Res :=
  .next (s.hRead [] (State.modInv fun v =>
    let take := match m with
      | .onSet => v.cond.getLsbD c
      | .onClear => !v.cond.getLsbD c
      | .always => true
    { v with pc := v.pc + 1 + if take then n.val else 0 }))

/-! ### Endings (R188, R260, R263) -/

/-- A forward post leaves for slot `p.slot`, from the line `p.line`; one that names no pixel or sample of its target is dropped
(R263). -/
def State.forwardTo (p : Post) (sm : Nat) (s : State) : State :=
  let f := (s.slot p.part p.slot).rec_
  if p.x ≥ recWidth f || p.y ≥ recHeight f || sm ≥ recSamples f then s.asyncErr p.grid
  else
    (s.modOp p.op fun o => if o.live then { o with need := o.need + 1 } else o).soon
      (.forwardPost { p with cov := BitVec.ofNat 32 (2 ^ recSamples f - 1) })

/-- A recorded forward post leaves at the commit, where the record's fwd is 1. -/
def State.sendForward (v : Inv) (s : State) : State :=
  let r := v.req
  let t := (s.slot r.part r.slot).rec_
  let w := v.k.rd 3
  if v.fwdA = 0 || recField t 116 1 = 0 then s
  else if w.getLsbD 31 then s.asyncErr r.grid
  else s.forwardTo { core := r.core, part := r.part, op := r.op, grid := r.grid, slot := recField t 112 4, line := r.line, x := pixX w, y := pixY w
                     draw := r.draw, ord := r.ord, cov := 0, words := (List.range v.fwdN).map fun i => v.code_ (v.fwdA - 1 + i), c := true, key := r.key } (pixS w)

/-- The depth bounds of a line (R260), minimum first. -/
def depthBounds (t : BitVec 512) (l : Line) : Nat × Nat :=
  let n := (blockSize t).1 * (blockSize t).2 * recSamples t
  let zs := ((List.range n).map fun i => (lineWord l i).toNat).filter fun z => f32p.val z != .nan
  match zs with
  | [] => (0xFF800000, 0x7F800000)
  | z :: r => (r.foldl (f32p.minmax false) z, r.foldl (f32p.minmax true) z)

/-- Address of the contour map's entry for the line of a pixel; none where its target has no map. -/
def State.contourVa (s : State) (part slot x y : Nat) : Option W64 :=
  let t := (s.slot part slot).rec_
  if recField t 96 3 ≠ 2 || recField t 192 64 = 0 then none else some (BitVec.ofNat 64 (recField t 192 64 + 8 * lineNumber t 0 x y))

/-- The page of the contour map's entry is one that a snapshot launch must copy before its first write (R341): the commit that would
write the entry waits for the copy. -/
def State.contourPage (s : State) (part grid slot x y : Nat) : Option Nat :=
  (s.contourVa part slot x y).bind fun va =>
    if !canonical va then none
    else match s.walk part (va56 va) with
      | .ok _ e => (s.place (fld e 16 36 * 2 ^ 16 + fld va.toNat 0 16)).bind fun pa =>
          if s.uncopied grid (e.testBit 5) pa then some (pa / 2 ^ 16) else none
      | _ => none
/-- A commit to `line` goes on when the walk for the entry finds its lines served (R144, R179) and the entry's page needs no copy; else
the recalls and the copy are asked for, and it waits. -/
def State.contourCopied (line part grid slot x y : Nat) (k wait : State → State) (s : State) : State :=
  match ((s.contourVa part slot x y).map fun va => (s.walkBusy part va).filter (· != line)).getD [], s.contourPage part grid slot x y with
  | ls@(_ :: _), _ => wait (s.recall ls)
  | [], some page => wait (s.ask (.snapshotCopy (s.grids.rd grid).root page))
  | [], none => k s

/-- After a commit to a line of a D32F target with a contour map, one posted write of the line's bounds `l`. `x`, `y` name a pixel
of the line. -/
def State.contourWrite (line part slot x y : Nat) (l : Line) (s : State) : State :=
  match s.contourVa part slot x y with
  | none => s
  | some va =>
    match s.walkServed part va false true with
    | (s, .ok _ _, pa, c) =>
      let b := depthBounds (s.slot part slot).rec_ l
      s.soon (.writeThrough { core := noOwner, die := dieOf line, part := part, line := pa / 128, bytes := BitVec.ofNat 128 (255 * 2 ^ (pa % 128))
                              data := BitVec.ofNat 1024 ((b.1 + 2 ^ 32 * b.2) * 2 ^ (8 * (pa % 128))), c := c, own := true, upd := false, op := 0, seq := 0 })
    | (s, _, _, _) => s

/-- Sectors all of whose words a routine has written. -/
def wroteSectors (w : W32) : BitVec 4 := fullSectors (wordBytes w)

/-- L words that the forward post of a commit carries: their reading meets poison as any other (R183, R184). -/
def State.fwdWords (s : State) : List Nat :=
  let v := s.inv
  if v.req.kind = .call || v.fwdA = 0 || recField (s.slot v.req.part v.req.slot).rec_ 116 1 = 0 then []
  else ((List.range v.fwdN).map (v.fwdA - 1 + ·)).filterMap fun c => if 32 ≤ c && c < 64 then some (c - 32) else none

/-- `h.end`: the line takes L as one event and is recompressed; then the next method, or the end of the chain. -/
def execHEnd (s : State) : Res :=
  let r := s.inv.req
  let w0 := r.ks.getD 3 0
  let ready (k : State → State) (s : State) : State := match r.kind with
    | .call => k s
    | _ => s.contourCopied r.line r.part r.grid r.slot (pixX w0) (pixY w0) k id
  .next (ready (State.hRead s.fwdWords fun s =>
    let v := s.inv
    let s := s.hClose 6
    let s := s.setHome r.line r.part v.l (s.homePsn r.line &&& ~~~(wroteSectors v.wrote)) r.c
    match r.kind with
    | .call => (s.lateOrs s.curSlice).hReturn v v.results
    | _ =>
      let s := (s.contourWrite r.line r.part r.slot (pixX w0) (pixY w0) v.l).sendForward v
      if r.nth + 1 < r.ids.length then s.beginInv { r with nth := r.nth + 1 } else (s.lateOrs s.curSlice).chainDone r) s)

def execHRet (s : State) : Res :=
  .next (s.hRead [] fun s =>
    let v := s.inv
    (((s.hClose 0).sliceEv s.curSlice v.req.part 0x53 1).lateOrs s.curSlice).hReturn v v.results)

def execHAbt (b : HSrc) (s : State) : Res :=
  .next (s.hRead (HSrc.lWords b) fun s =>
    let v := s.inv
    ((((s.hClose 0).sliceEv s.curSlice v.req.part 0x52 1).recent v.req.line).lateOrs s.curSlice).hReturn v ((v.src b ||| 0x80000000#32) :: List.replicate 3 0))

def execHFwd (n : Fin 128) (a : HSrc) (s : State) : Res :=
  .next (s.hWord [] fun v => { v with fwdA := HSrc.code a + 1, fwdN := n })

end Sys2Proof.Machine
end

