-- ==== Sys2Proof/Machine/Sync.lean ====
section
/-! DEFINITION. Barriers, major 55 (12_sync.md): named barriers, arrival barriers and the grid barrier. -/

namespace Sys2Proof.Machine

/-- BAR_CLOBBER with its code (R210). -/
def State.clobber (code : Nat) (s : State) : State := s.trap .barClobber none none 8 (BitVec.ofNat 64 code)

/-! ### Named barriers (R199 to R201) -/

/-- The executing split marks itself at a barrier, unless it has, with count `c`; its group arrives when every live split
has. -/
def State.markAt (n c : Nat) (s : State) : State :=
  let s := s.modGr fun g => { g with
    markN := if g.markN.rd n = 0 then g.markN.wr n c else g.markN
    marks := g.marks.wr n (g.marks.rd n ||| (1#4 <<< (s.cur % 4))) }
  s.barCheck s.gk

/-- The phase that a `barw` waits to be over: its group's last arrival, or the phase in progress. -/
def State.barPhase (s : State) (n : Nat) : Bool := if s.gr.barH.rd n then s.gr.barR.rd n else (barOf s s.tk n).phase

/-- Wait for the barrier's release, then acquire: phase 3 waits for the completion of the phase, phase `letGo` for the release. A split at
`bar` waits for the phase in which it marked itself, whether its group arrives in it or others complete it first (DEDUCED, log entry
110); the one that completes the phase waits for the release too (DEDUCED, log entry 90). -/
def State.barWait (n : Nat) (own : Bool) (s : State) : State :=
  let r := if own then s.sp.aux == 1 else s.barPhase n
  let go (s : State) : State := (if s.sp.phase < letGo then s.phased letGo else s).acquire .tm letGo (·.adv 2)
  if s.sp.phase ≥ letGo then go s
  else
    let b := barOf s s.tk n
    let due := b.done + barLag s.tm s.cr - 1
    if b.phase = r then (s.phased 3).waitFor (.bar n own r)
    else if b.done ≠ 0 ∧ s.clock < due then (s.modSp fun x => { x with phase := letGo, until_ := due }).waitFor (.bar n own r)
    else go s

/-- The checks and the arrival of `bar` and `barr`, then `k`. -/
def State.barEnter (n c : Nat) (k : State → State) (s : State) : State :=
  let b := barOf s s.tk n
  if s.sp.phase ≥ 3 then k s
  else if s.tm.bars.length ≤ n then s.trap .prot none none 8 11
  else if s.sp.phase = 0 ∧ (c = 0 ∨ c > s.tm.ngroups ∨ (b.arr > 0 ∧ c ≠ b.count)) then s.clobber 1
  else s.release .tm 0 (fun s =>
    let b := barOf s s.tk n
    if (s.gr.markN.rd n ≠ 0 ∧ s.gr.markN.rd n ≠ c) ∨ (b.arr > 0 ∧ c ≠ b.count) then s.clobber 1
    else k (((s.modSp fun x => { x with aux := if b.phase then 1 else 0 }).markAt n c).phased 3))

def execBar (n : Fin 32) (b : SclB) (s : State) : Res :=
  .next (s.barEnter n (s.bScl b).toNat (State.barWait n true))
def execBarr (n : Fin 32) (b : SclB) (s : State) : Res :=
  .next (s.barEnter n (s.bScl b).toNat (·.adv 2))
def execBarw (n : Fin 32) (s : State) : Res :=
  .next (if s.tm.bars.length ≤ n then s.trap .prot none none 8 11 else s.barWait n false)

/-- Waiters that were let go leave their wait once their release has come. -/
def execBarrierRelease (team bar : Nat) (s : State) : Res :=
  let now := s.splits.filter fun e => e.1 / 512 == team && e.2.phase == letGo && e.2.until_ ≤ s.clock && match e.2.wait with
    | .cond (.bar m _ _) => m == bar
    | _ => false
  .next (now.foldl (fun s e => s.modSplit e.1 fun x => { x with wait := .ready, until_ := 0 }) s)

/-! ### Arrival barriers (R202 to R209) -/

/-- Fields of an object's 128 bits. -/
def abExpected (x : Nat) : Nat := fld x 0 16
def abPending (x : Nat) : Nat := fld x 16 16
def abPhase (x : Nat) : Bool := x.testBit 32
def abBytes (x : Nat) : Int := if x.testBit 99 then (fld x 64 36 : Int) - 2 ^ 36 else fld x 64 36

/-- An object with new fields; the reserved bits stay. -/
def abMake (x expected pending : Nat) (phase : Bool) (bytes : Int) : Nat :=
  fld x 100 28 * 2 ^ 100 + (bytes % 2 ^ 36).toNat * 2 ^ 64 + fld x 33 31 * 2 ^ 33 + (if phase then 2 ^ 32 else 0) + pending * 2 ^ 16 + expected

/-- A phase that leaves nothing pending is complete (R203). -/
def abComplete (x : Nat) : Nat :=
  if abPending x = 0 ∧ abBytes x = 0 then abMake x (abExpected x) (abExpected x) (!abPhase x) 0 else x

def abGet (s : State) (t off : Nat) : Nat := scratchVal s t off 16

/-- An update of an object that can complete its phase: what waits for the phase goes on, and the armed entry is free. -/
def State.abPut (t off x : Nat) (s : State) : State :=
  let old := abGet s t off
  let x := abComplete x
  let s := s.setScratch t off 16 x
  if abPhase x = abPhase old then s
  else
    let s : State := { s with splits := s.splits.map fun (e : Nat × Split) =>
      (e.1, if e.1 / 512 = t ∧ e.2.wait = .cond (.abar off (abPhase old)) then { e.2 with wait := .ready, phase := 1 } else e.2) }
    (teamCores (s.teams.rd t)).foldl (fun s c => s.modCore c fun x => { x with armed := x.armed.filter (· != (t, off)) }) s

/-- The byte counter's range (R206). -/
def abInRange (b : Int) : Bool := -2 ^ 35 ≤ b && b < 2 ^ 35

/-- A chart transfer's decrement (R203, R208). -/
def State.abLand (t off n grid : Nat) (s : State) : State :=
  let x := abGet s t off
  let b := abBytes x - n
  if abInRange b then s.abPut t off (abMake x (abExpected x) (abPending x) (abPhase x) b) else s.asyncErr grid

/-- The address checks, and the poison check (R339), then `k` with the object. -/
def State.abAccess (akind : Nat) (va : W64) (k : Nat → State → State) (s : State) : State :=
  s.scratchAccess akind 16 [(64, va)] fun s =>
    if (List.range 4).any fun i => s.tm.bad.rd (va.toNat / 4 + i) then s.trap .poison none (some 0) 8 15
    else k (abGet s s.tk va.toNat) s

/-- The address checks come before those of R204 (DESIGN CHOICE, log entry 111). -/
def execAbinit (a : Fin 64) (b : SclB) (s : State) : Res :=
  let e := (s.bScl b).toNat
  let off := (s.sr a).toNat
  .next (s.scratchAccess 7 16 [(64, s.sr a)] fun s =>
    if e = 0 ∨ e > 65535 then s.clobber 2
    else if armedOver s s.tk off 16 then s.clobber 0
    else (((s.setScratch s.tk off 16 (abMake (abGet s s.tk off) e e false 0)).cleanWords s.tk off 16).adv 2))

def execAbarr (d a : Fin 64) (s : State) : Res :=
  .next (s.abAccess 7 (s.sr a) fun _ s => s.release .tm 0 (fun s =>
    let off := (s.sr a).toNat
    let x := abGet s s.tk off
    if abPending x = 0 then s.clobber 2
    else
      let s := s.abPut s.tk off (abMake x (abExpected x) (abPending x - 1) (abPhase x) (abBytes x))
      s.sclOut d 4 2 (if abPhase x then 1 else 0)))

/-- The address checks come first here too. -/
def execAbexp (a : Fin 64) (b : SclB) (s : State) : Res :=
  let n := (s.bScl b).toNat
  .next (s.abAccess 7 (s.sr a) fun x s =>
    if n ≥ 2 ^ 35 || !abInRange (abBytes x + n) then s.clobber 2
    else (s.abPut s.tk (s.sr a).toNat (abMake x (abExpected x) (abPending x) (abPhase x) (abBytes x + n))).adv 2)

/-- An object is armed in the core whose half holds it; a full table leaves the wait unarmed. -/
def State.arm (t off : Nat) (s : State) : State :=
  let tm := s.teams.rd t
  let c := if tm.pair && tm.spSize / 2 ≤ off then tm.core + 1 else tm.core
  let l := (s.cores.rd c).armed
  if l.contains (t, off) || l.length ≥ 64 then s else s.modCore c fun x => { x with armed := x.armed ++ [(t, off)] }

def execAbwait (a : Fin 64) (b : SclB) (s : State) : Res :=
  .next (if s.sp.phase ≥ 1 then s.acquire .tm 1 (·.adv 2)
    else s.abAccess 6 (s.sr a) fun x s =>
      let r := (s.bScl b).getLsbD 0
      if abPhase x = r then (s.arm s.tk (s.sr a).toNat).waitFor (.abar (s.sr a).toNat r)
      else (s.phased 1).acquire .tm 1 (·.adv 2))

/-! ### The grid barrier (R211, R212) -/

def execGbar (s : State) : Res :=
  .next (if !s.gd.coop then s.trap .gbarNoncoop none none 0 0
    else
      let wait (s : State) : State :=
        if s.gd.gphase ≠ s.sp.aux then s.acquire .dv 3 (·.adv 2) else s.waitFor (.gbar s.sp.aux)
      if s.sp.phase ≥ 3 then wait s
      else s.release .dv 0 (fun s =>
        let ph := s.gd.gphase
        wait ((s.modSp fun x => { x with phase := 3, aux := ph }).markAt gridMark 0)))

/-- Groups of a grid that have not ended. -/
def gridGroups (s : State) (grid : Nat) : List Nat :=
  (s.groups.filter fun e => e.2.live && (s.teams.rd (e.1 / 128)).live && (s.teams.rd (e.1 / 128)).grid == grid).map (·.1)

/-- Every group of the grid has arrived or has ended, and some waits. -/
def gridArrived (s : State) (grid : Nat) : Bool :=
  let g := s.grids.rd grid
  g.garr != [] && g.placed == g.teams && (gridGroups s grid).all g.garr.contains

def execGridBarrierRelease (grid : Nat) (s : State) : Res :=
  .next (if gridArrived s grid then s.modGrid grid fun g => { g with gphase := g.gphase + 1, garr := [] } else s)

end Sys2Proof.Machine
end

