-- ==== Sys2Proof/Machine/Chart.lean ====
section
/-! DEFINITION. The chart engine, major 56 (13_chart_engine.md): records, the layout of a box, and transfers that move one
memory line at a time. -/

namespace Sys2Proof.Machine

/-! ### Chart records (R213, R214) -/

def chFmt (r : BitVec 512) : Fmt := (Fmt.ofCode (recField r 64 4)).getD .f32
def chArr (r : BitVec 512) : Nat := recField r 68 2
def chDims (r : BitVec 512) : Nat := recField r 70 3
def chFill (r : BitVec 512) : Nat := recField r 96 32
def chSize (r : BitVec 512) (i : Nat) : Nat := recField r (128 + 32 * i) 32
def chStride (r : BitVec 512) (i : Nat) : Nat := if i = 0 then 0 else recField r (248 + 40 * i) 40
/-- Box size of a dimension, in elements. -/
def chBox (r : BitVec 512) (i : Nat) : Nat := recField r (448 + 8 * i) 8 + 1
/-- Element width in bits (R216). -/
def chBits (r : BitVec 512) : Nat := Fmt.pitch (chFmt r)

/-- The code of the first failure of a record, 0 for none (R214). -/
def trecCode (r : BitVec 512) : Nat :=
  let is := List.range 5
  let dims := chDims r
  let f := recField r 64 4
  let four : Bool := f = 9 || f = 12 || f = 13
  if recField r 488 24 ≠ 0 ∨ recField r 73 23 ≠ 0 then 1
  else if chArr r = 3 ∨ dims = 0 ∨ dims > 5 then 2
  else if is.any fun i => if i < dims then chSize r i == 0 else chSize r i != 1 || chStride r i != 0 || chBox r i != 1 then 3
  else if !canonical (BitVec.ofNat 64 (recField r 0 64)) || recField r 0 4 ≠ 0 || is.any fun i => chStride r i % 16 != 0 then 4
  else if (chArr r = 1 ∧ (f < 5 ∨ f > 9 ∨ chSize r 0 % 32 ≠ 0 ∨ chBox r 0 % 32 ≠ 0)) ∨
      (four ∧ (chSize r 0 % 2 = 1 ∨ chBox r 0 % 2 = 1)) ∨ (chArr r = 2 ∧ dims ≠ 2) then 5
  else 0

/-- RECORD (R214, R218). -/
def State.badRecord (code : Nat) (s : State) : State := s.trap .record none none 16 (BitVec.ofNat 64 (256 + code))

/-! ### Where elements stand (R216, R217) -/

/-- A transfer: its record, modifier, scratchpad offset, origin and, for `tgath`, its index list. -/
structure Xfer where
  rec_ : BitVec 512
  tr   : Bool
  dst  : Nat
  org  : List Int
  gath : Bool
  list : TMap W32
  deriving DecidableEq, Repr

/-- Positions within the box, b0 fastest. -/
def Xfer.boxes (x : Xfer) : List (List Nat) :=
  let d (i : Nat) := List.range (chBox x.rec_ i)
  (d 4).flatMap fun e => (d 3).flatMap fun c => (d 2).flatMap fun b => (d 1).flatMap fun a => (d 0).map fun z => [z, a, b, c, e]

/-- Coordinate i of a box position. -/
def Xfer.coord (x : Xfer) (b : List Nat) (i : Nat) : Int :=
  if x.gath && i = 1 then (x.list.rd (b.getD 1 0)).toNat
  else if chDims x.rec_ ≤ i then (b.getD i 0 : Int)
  else x.org.getD i 0 + b.getD i 0

/-- Coordinates 1 to 4 in bounds; all of them. -/
def Xfer.rowIn (x : Xfer) (b : List Nat) : Bool := [1, 2, 3, 4].all fun i => 0 ≤ x.coord b i && x.coord b i < chSize x.rec_ i
def Xfer.inside (x : Xfer) (b : List Nat) : Bool := x.rowIn b && 0 ≤ x.coord b 0 && x.coord b 0 < chSize x.rec_ 0

/-- ROW(g). -/
def Xfer.row (x : Xfer) (b : List Nat) : Int :=
  [1, 2, 3, 4].foldl (fun (n : Int) i => n + x.coord b i * chStride x.rec_ i) (recField x.rec_ 0 64 : Int)

/-- Address of an element in bits; address of its block's scale in bytes. -/
def Xfer.bitAt (x : Xfer) (b : List Nat) : Int :=
  let e : Int := chBits x.rec_
  let g0 := x.coord b 0
  if chArr x.rec_ = 1 then 8 * (x.row b + g0 / 32 * (4 + 4 * e) + 4) + g0 % 32 * e else 8 * x.row b + g0 * e
def Xfer.scaleAt (x : Xfer) (b : List Nat) : Int := x.row b + x.coord b 0 / 32 * (4 + 4 * (chBits x.rec_ : Int))

/-- Row, pitch, rows and bytes of the layout. -/
def Xfer.lrow (x : Xfer) (b : List Nat) : Nat :=
  let n := chBox x.rec_
  let g (i : Nat) := b.getD i 0
  if x.tr then g 0 + n 0 * (g 2 + n 2 * (g 3 + n 3 * g 4)) else g 1 + n 1 * (g 2 + n 2 * (g 3 + n 3 * g 4))
/-- Pitch for elements of `e` bits. -/
def Xfer.pitchE (x : Xfer) (e : Nat) : Nat := ceilDiv (chBox x.rec_ (if x.tr then 1 else 0) * e / 8) 32 * 32
def Xfer.rows (x : Xfer) : Nat := chBox x.rec_ (if x.tr then 0 else 1) * chBox x.rec_ 2 * chBox x.rec_ 3 * chBox x.rec_ 4
def Xfer.blocks (x : Xfer) : Nat := chBox x.rec_ 0 / 32
def Xfer.bytes (x : Xfer) : Nat :=
  x.rows * x.pitchE (chBits x.rec_) + if chArr x.rec_ = 1 then ceilDiv (4 * x.rows * x.blocks) 32 * 32 else 0

/-- Bit offset of an element of `e` bits in scratchpad; byte offset of a block's scale. -/
def Xfer.lbitE (x : Xfer) (e : Nat) (b : List Nat) : Nat :=
  8 * (x.dst + x.lrow b * x.pitchE e) + b.getD (if x.tr then 1 else 0) 0 * e
def Xfer.lbit (x : Xfer) (b : List Nat) : Nat := x.lbitE (chBits x.rec_) b
def Xfer.lscale (x : Xfer) (b : List Nat) : Nat :=
  x.dst + x.rows * x.pitchE (chBits x.rec_) + (x.lrow b * x.blocks + b.getD 0 0 / 32) * 4

/-- FILL, as an element's bits (R213). -/
def chFillBits (r : BitVec 512) : Nat :=
  match chFmt r with
  | .f64 => widen64 (BitVec.ofNat 32 (chFill r))
  | f => fld (chFill r) 0 (Fmt.bits f)

/-- A piece of a box: `n` bits in memory at a bit address, in scratchpad at a bit offset. A scale is a piece of 32 bits. -/
structure Piece where
  mem : Nat
  sp  : Nat
  n   : Nat
  scale : Bool
  b   : List Nat
  deriving DecidableEq, Repr

/-- A virtual address, as a number below 2^64, from an exact one. -/
def vaOf (x : Int) : Nat := (x % 2 ^ 64).toNat

/-- The pieces of a box that memory holds. -/
def Xfer.pieces (x : Xfer) : List Piece :=
  let bs := x.boxes.filter x.inside
  let el (b : List Nat) : Piece :=
    { mem := 8 * vaOf (x.bitAt b / 8) + (x.bitAt b % 8).toNat, sp := x.lbit b, n := chBits x.rec_, scale := false, b := b }
  let sc (b : List Nat) : Piece := { mem := 8 * vaOf (x.scaleAt b), sp := 8 * x.lscale b, n := 32, scale := true, b := b }
  bs.map el ++ if chArr x.rec_ = 1 then (bs.filter fun b => b.getD 0 0 % 32 == 0).map sc else []

/-- Memory lines of pieces, by virtual address / 128, ascending. -/
def pieceLines (ps : List Piece) : List Nat := ((ps.map fun p => p.mem / 1024).eraseDups).mergeSort
/-- Bytes that a piece counts for: a 4-bit element counts where it stands in the low half of its byte. -/
def Piece.count (p : Piece) : Nat := if p.n = 4 then (if p.sp % 8 = 0 then 1 else 0) else p.n / 8

/-! ### Scratchpad bits -/

def scratchBits (s : State) (t sp n : Nat) : Nat := fld (scratchVal s t (sp / 8) (ceilDiv (sp % 8 + n) 8)) (sp % 8) n

/-- Pieces that land: bits at bit offsets. Bytes of an armed object are dropped, and the launch counts an error (R209). -/
def State.landBits (t grid : Nat) (ws : List (Nat × Nat × Nat)) (s : State) : State :=
  let bad (w : Nat × Nat × Nat) : Bool := armedOver s t (w.1 / 8) (ceilDiv (w.1 % 8 + w.2.1) 8)
  let s' := ws.foldl (fun s w =>
    let o := w.1 / 8
    let k := ceilDiv (w.1 % 8 + w.2.1) 8
    let old := scratchVal s t o k
    let v := old - fld old (w.1 % 8) w.2.1 * 2 ^ (w.1 % 8) + fld w.2.2 0 w.2.1 * 2 ^ (w.1 % 8)
    (List.range k).foldl (fun s i => if armedOver s t (o + i) 1 then s else s.setScratch t (o + i) 1 (v / 256 ^ i)) s) s
  if ws.any bad then s'.asyncErr grid else s'

/-! ### Transfers in flight -/

/-- The transfer that an operation stands for. -/
def opXfer (o : Op) : Xfer :=
  let sx (x : W64) (i : Nat) : Int := (BitVec.ofNat 32 (fld x.toNat (32 * i) 32)).toInt
  let g := match o.kind with
    | .chart sub _ _ _ => sub == 4
    | _ => false
  { rec_ := o.rec_, dst := fld o.a.toNat 0 32, gath := g, list := o.res
    tr := match o.kind with
      | .chart _ _ tr _ => tr
      | _ => false
    org := [sx o.b 0, sx o.b 1, sx o.b1 0, sx o.b1 1, sx o.b2 0] }

/-- Sub-ops that land in scratchpad; that write memory. -/
def landing (sub : Nat) : Bool := sub == 1 || sub == 4
def storing (sub : Nat) : Bool := sub == 2 || sub == 3 || sub == 5

/-- An uncorrectable word of a team's scratchpad lies in one of these ranges, and POISON at the instruction that reads it
(R339). -/
def scratchBad (t : Team) (rs : List (Nat × Nat)) : Bool := t.bad.any fun e => rs.any fun r => r.1 < 4 * e.1 + 4 && 4 * e.1 < r.1 + r.2
def State.poisonRead (s : State) : State := s.trap .poison none (some 0) 8 15

/-- Scratchpad that a transfer reads: the layout, or the index list of a `tgath`. -/
def sourceBytes (sub off bytes list rows : Nat) : List (Nat × Nat) :=
  if sub = 4 then [(list, 4 * rows)] else if sub = 1 ∨ sub = 5 then [] else [(off, bytes)]

/-- Issue of a transfer (R218 to R220, R225): the checks in order, then the engine's queue. A register beyond s63 is not read (R219), and
a coordinate that it would give is 0 (DESIGN CHOICE, log entry 108). -/
def State.chartIssue (sub : Nat) (tr ab : Bool) (n c a : Nat) (s : State) : State :=
  let die := dieOfCore s.cr
  let r := s.tm.chart.rd n
  let reg (i : Nat) : W64 := if c + i ≤ 63 then s.sr (c + i) else 0
  let o : Op := { s.op0 with
    kind := .chart sub n tr ab, flag := s.fb, cls := 3, need := 1, path := if landing sub && !ab then 1 else 0, rec_ := r
    a := if sub = 5 then 0 else s.sr a, b := reg 0, b1 := reg 1, b2 := reg 2 }
  let x := opXfer o
  let f := recField r 64 4
  let arr := chArr r
  let four := chBits r = 4
  let okRec := match sub with
    | 1 | 2 => arr < 2 && (!tr || (arr == 0 && (!four || chBox r 1 % 2 == 0)))
    | 3 => arr == 1 && 5 ≤ f && f ≤ 9
    | 4 => arr == 2
    | 5 => arr < 2
    | _ => f == 0 && arr == 0
  let info := if landing sub then 7 else 6
  let off (k : Nat) : W64 := BitVec.ofNat 64 (fld (s.sr a).toNat (32 * k) 32)
  let align (info : Nat) (v : W64) (s : State) : State := s.trap .align (some 0) (some v) 8 (BitVec.ofNat 64 info)
  let bytes := if sub = 3 ∨ sub = 6 then x.rows * x.pitchE 32 else x.bytes
  let list := BitVec.ofNat 64 (fld (reg 0).toNat 32 32)
  let prot (v : W64) (s : State) : State := s.trap .prot (some 0) (some v) 8 (BitVec.ofNat 64 info)
  if s.full s.fb || (o.path != 0 && s.pathFull 0) || 256 ≤ (s.dies.rd die).chartQ.length then s.stall
  else if !s.tm.chartSet.getLsbD n then s.badRecord 6
  else if !okRec then s.badRecord 7
  else if sub ≠ 5 ∧ (off 0).toNat % 32 ≠ 0 then align info (off 0) s
  else if ab ∧ (off 1).toNat % 16 ≠ 0 then align info (off 1) s
  else if sub = 4 ∧ list.toNat % 4 ≠ 0 then align info list s
  else if sub ≠ 5 ∧ s.tm.spSize < (off 0).toNat + bytes then prot (off 0) s
  else if sub = 4 ∧ s.tm.spSize < list.toNat + 4 * chBox r 1 then prot list s
  else if ab ∧ s.tm.spSize < (off 1).toNat + 16 then prot (off 1) s
  else if (arr = 1 ∧ x.org.getD 0 0 % 32 ≠ 0) ∨ (four ∧ x.org.getD 0 0 % 2 ≠ 0) then align 12 (BitVec.ofInt 64 (x.org.getD 0 0)) s
  else if scratchBad s.tm (sourceBytes sub (off 0).toNat bytes list.toNat (chBox r 1)) then s.poisonRead
  else
    let id := s.nextId
    let s := if storing sub || sub = 6 then s.sealNow else s
    (((s.issue o).modDie die fun d => { d with chartQ := d.chartQ ++ [id] }).soon (.chartTransferStart die)).adv 2

def execTcopy (tr ab : Bool) (n : Fin 16) (c a : Fin 64) (s : State) : Res := .next (s.chartIssue 1 tr ab n c a)
def execTstore (tr : Bool) (n : Fin 16) (c a : Fin 64) (s : State) : Res := .next (s.chartIssue 2 tr false n c a)
def execTquant (n : Fin 16) (c a : Fin 64) (s : State) : Res := .next (s.chartIssue 3 false false n c a)
def execTgath (ab : Bool) (n : Fin 16) (c a : Fin 64) (s : State) : Res := .next (s.chartIssue 4 false ab n c a)
def execTfill (n : Fin 16) (c : Fin 64) (s : State) : Res := .next (s.chartIssue 5 false false n c 0)
def execTred (n : Fin 16) (c a : Fin 64) (s : State) : Res := .next (s.chartIssue 6 false false n c a)

/-- `trec`: 64 bytes as one home-slice read, checked when it retires (R226). -/
def execTrec (n : Fin 16) (a : Fin 64) (s : State) : Res :=
  let va := s.sr a
  .next (if s.full s.fa then s.stall
    else if va.toNat % 64 ≠ 0 then s.trap .align (some 0) (some va) 8 4
    else s.access 4 true false false 4 ((List.range 16).map fun i => (64 + i, va + BitVec.ofNat 64 (4 * i))) (fun hs s =>
      let id := s.nextId
      let s := s.issue { s.op0 with
        kind := .trec n, flag := s.fa, returning := true, cls := 1, need := 1, a := va
        pas := hs.foldl (fun (m : TMap Nat) h => m.wr h.pos h.pa) [] }
      let h := hs.headD default
      (s.soon (.homeSliceRead { core := s.cr, part := s.pt, line := h.pa / 128, mask := touchMask (h.pa / 128) 4 (hs.map (·.pa)), c := h.c, op := id, dest := .op })).adv 2))

/-! ### A transfer starts -/

/-- Engine holds on the destination lines that translate now (R144). -/
def State.takeHolds (op part : Nat) (ls : List Nat) (s : State) : State :=
  ls.foldl (fun s l =>
    let va := 128 * l
    match s.walk part (va56 (BitVec.ofNat 64 va)) with
    | .ok _ e =>
      match if e.testBit 2 then s.place (fld e 16 36 * 2 ^ 16 + fld va 0 16) else none with
      | some pa => if isPeer (pa / 128) then s else s.takeHold (pa / 128) op
      | none => s
    | _ => s) s

/-- The next transfer of a die's engine starts: the index list of a `tgath` is read, and a storing transfer takes its
holds. Work is named by memory line + 1; 0 is what no memory line gives. -/
def execChartTransferStart (die : Nat) (s : State) : Res :=
  match (s.dies.rd die).chartQ.find? fun id => !(s.ops.rd id).started with
  | none => .next s
  | some id =>
    let o := s.ops.rd id
    match o.kind with
    | .chart sub _ _ _ =>
      let t := o.split / 512
      let s := if sub = 4 then s.modOp id fun o => { o with
          res := (List.range (chBox o.rec_ 1)).foldl (fun (m : TMap W32) i =>
            m.wr i (BitVec.ofNat 32 (scratchVal s t (fld o.b.toNat 32 32 + 4 * i) 4))) [] }
        else s
      let ls := pieceLines (opXfer (s.ops.rd id)).pieces
      let s := if storing sub then s.takeHolds id o.part ls else s
      let todo := (if landing sub then [0] else []) ++ ls.map (· + 1)
      let s := s.modOp id fun o => { o with started := true, todo := todo }
      .next (if todo = [] then s.partDone id 1 else s.soon (.chartBytesLanding id))
    | _ => .next s

/-! ### Work of a transfer, one line at a time -/

/-- `n` bytes of a transfer have landed: each lowers the arrival barrier of a `.ab` transfer by one (R220). -/
def State.countLanded (o : Op) (n : Nat) (s : State) : State :=
  match o.kind with
  | .chart _ _ _ true => (List.range n).foldl (fun s _ => s.abLand (o.split / 512) (fld o.a.toNat 32 32) 1 o.grid) s
  | _ => s

/-- Pieces of a transfer on one line. -/
def linePieces (ps : List Piece) (l : Nat) : List Piece := ps.filter fun p => p.mem / 1024 == l

/-- Bytes that no memory line gives: elements out of bounds, default scales, padding. -/
def Xfer.restBytes (x : Xfer) : Nat := x.bytes - (x.pieces.map Piece.count).sum

/-- What a landing transfer writes there: zeros, then fill, then default scales. A block of an in-bounds row that lies beyond
dimension 0 has no stored scale either, and takes the default (DEDUCED, log entry 17). -/
def State.landRest (o : Op) (s : State) : State :=
  let x := opXfer o
  let t := o.split / 512
  let e := chBits x.rec_
  let out := x.boxes.filter fun b => !x.inside b
  let held := x.pieces.map fun p => (p.sp / 8, ceilDiv (p.sp % 8 + p.n) 8)
  let inPiece (i : Nat) : Bool := held.any fun h => h.1 ≤ i && i < h.1 + h.2
  let pads := ((List.range x.bytes).map (x.dst + ·)).filter fun i => !inPiece i
  let fills := out.map fun b => (x.lbit b, e, chFillBits x.rec_)
  let scales := if chArr x.rec_ = 1 then (out.filter fun b => b.getD 0 0 % 32 == 0).map fun b => (8 * x.lscale b, 32, 0x3F800000) else []
  s.landBits t o.grid ((pads.map fun i => (8 * i, 8, 0)) ++ fills ++ scales)

/-- A read line lands; the bytes of a poisoned sector do not, and each such sector counts an error (R222). -/
def State.landLine (o : Op) (ps : List Piece) (data : Line) (psn : BitVec 4) (s : State) : State :=
  let sec (p : Piece) : Nat := p.mem % 1024 / 256
  let good := ps.filter fun p => !psn.getLsbD (sec p)
  let bad := ((ps.filter fun p => psn.getLsbD (sec p)).map sec).eraseDups
  let s := s.landBits (o.split / 512) o.grid (good.map fun p => (p.sp, p.n, fld data.toNat (p.mem % 1024) p.n))
  bad.foldl (fun s _ => s.asyncErr o.grid) s

/-- The value that a storing transfer gives a piece (R228, R229). -/
def storeBits (s : State) (o : Op) (p : Piece) : Nat :=
  let x := opXfer o
  let t := o.split / 512
  match o.kind with
  | .chart 2 _ _ _ => scratchBits s t p.sp p.n
  | .chart 3 _ _ _ =>
    let b0 := p.b.getD 0 0 / 32 * 32
    let vs := (List.range 32).map fun j => f32p.val (scratchBits s t (x.lbitE 32 ((b0 + j) :: p.b.drop 1)) 32)
    let finite (v : FVal) : Bool := match v with
      | .num _ _ _ => true
      | _ => false
    if !vs.all finite then (if p.scale then 0x7FC00000 else 0)
    else
      let top := vs.foldl (fun (m : FVal) v => match v with
        | .num _ a e => if cmpVal m (.num false a e) < 0 then .num false a e else m
        | _ => m) (.num false 0 0)
      let sc := match top with
        | .num _ m e => scaleOf (chFmt x.rec_) m e
        | _ => 0
      if p.scale then sc else quant (chFmt x.rec_) sc (vs.getD (p.b.getD 0 0 % 32) (.num false 0 0))
  | _ => if p.scale then 0x3F800000 else chFillBits x.rec_

/-- A storing transfer writes everything it has for a line, as one change of the line, whose owners its hold has revoked. Of several
elements of the box that stand at one byte, that of the last box position in the order with b0 fastest stays (DESIGN CHOICE, log entry
126). -/
def State.storePieces (o : Op) (ps : List Piece) (line : Nat) (c : Bool) (s : State) : State :=
  let old := (s.homeLine line).toNat
  let new := ps.foldl (fun v p =>
    let k := p.mem % 1024
    v - fld v k p.n * 2 ^ k + fld (storeBits s o p) 0 p.n * 2 ^ k) old
  let bytes : BitVec 128 := ps.foldl (fun m p => m ||| BitVec.ofNat 128 ((2 ^ ceilDiv (p.mem % 8 + p.n) 8 - 1) * 2 ^ (p.mem % 1024 / 8))) 0
  s.writeHome line o.part (BitVec.ofNat 1024 new) bytes c

/-- The work named `w` is done; with the last of it the transfer can retire. -/
def State.workDone (op w : Nat) (s : State) : State :=
  let s := s.modOp op fun o => { o with todo := o.todo.erase w }
  if (s.ops.rd op).todo = [] then s.partDone op 1 else s.soon (.chartBytesLanding op)

/-- A PROT condition stops a transfer: what remains counts as landed, and the transfer retires (R222). -/
def State.chartStop (op : Nat) (s : State) : State :=
  let o := s.ops.rd op
  let x := opXfer o
  let n := (o.todo.map fun w => if w = 0 then x.restBytes else ((linePieces x.pieces (w - 1)).map Piece.count).sum).sum
  let s := (s.countLanded o n).asyncErr o.grid
  ((s.modOp op fun o => { o with todo := [] }).partDone op 1)

/-- An earlier `tred` of the same split has yet to add into a line of memory (R230), or may have: a line of its box that has no
translation yet could be it. -/
def tredBefore (s : State) (op line : Nat) : Bool :=
  s.ops.any fun e => e.1 < op && e.2.live && e.2.split == (s.ops.rd op).split && match e.2.kind with
    | .chart 6 _ _ _ => !e.2.started || (e.2.vas.any fun v => v.2 != 0 && e.2.pas.rd v.1 == line + 1) ||
        (e.2.todo.filter (· != 0)).any fun w => match s.walk e.2.part (va56 (BitVec.ofNat 64 (128 * (w - 1)))) with
          | .ok _ x => (s.place (fld x 16 36 * 2 ^ 16 + fld (128 * (w - 1)) 0 16)).map (· / 128) == some line
          | .fault => true
          | _ => false
    | _ => false

/-- The slice of a peer that a line belongs to, as one number. -/
def peerSlice (line : Nat) : Nat := 1024 * peerDev line + sliceOf (line % 2 ^ 32)

/-- The core, the line and the number of a request of a core that is on its way. -/
def peerReq (s : State) : Ev → Option (Nat × Nat × Nat)
  | .writeThrough r => some (r.core, r.line, r.seq)
  | .homeSliceRead r => some (r.core, r.line, r.op)
  | .atomicInvocation r => some (r.core, r.pa / 128, r.op)
  | .casInvocation r => some (r.core, r.pa / 128, r.op)
  | .anvilInvocationStart r => some (r.core, r.line, r.op)
  | .tsampleRead r => some (r.core, r.line, r.op)
  | .fragmentPost p => some (p.core, p.line, p.op)
  | .tmethInvocation r => some (r.core, r.line, r.op)
  | .tredInvocation o i => some ((s.ops.rd o).core, (s.ops.rd o).pas.rd i - 1, o)
  | .gatherLanding op lane => some ((s.ops.rd op).core, (s.ops.rd op).pas.rd lane / 128, op)
  | .slotlinkRequest q => if q.incoming then none else some (match q.kind with
    | .write r => (r.core, r.line, r.seq)
    | .read r => (r.core, r.line, r.op)
    | .atomic r => (r.core, r.pa / 128, r.op)
    | .cas r => (r.core, r.pa / 128, r.op)
    | .call r => (r.core, r.line, r.op))
  | _ => none

/-- A request of a core to a slice of a peer, issued before number `id`, is still on its way (R354). -/
def peerQueued (s : State) (core line id : Nat) : Bool :=
  s.agenda.any fun p => (peerReq s p.ev).any fun v => v.1 == core && isPeer v.2.1 && peerSlice v.2.1 == peerSlice line && v.2.2 < id

/-- A chart transfer's request for the work `w` has gone out to a peer, and no answer has come. -/
def Op.awaitsPeer (o : Op) (w : Nat) : Bool := o.sent.rd w != 0 && o.todo.contains w

/-- A chart transfer of a core has an unanswered request at the slice of a peer that a later request of the core goes to (R354). -/
def behindChart (s : State) (e : Ev) : Bool :=
  (peerReq s e).any fun v => isPeer v.2.1 && s.ops.any fun o => o.1 < v.2.2 && o.2.live && o.2.core == v.1 &&
    o.2.todo.any fun w => o.2.awaitsPeer w && peerSlice (o.2.pas.rd w - 1) == peerSlice v.2.1

/-- Work on the line of virtual number `l`, translated. -/
def State.chartLine (op l pa : Nat) (c : Bool) (s : State) : State :=
  let o := s.ops.rd op
  let line := pa / 128
  let ev : Ev := .chartBytesLanding op
  let ps := linePieces (opXfer o).pieces l
  match o.kind with
  | .chart sub _ _ _ =>
    if sub = 6 then
      if tredBefore s op line || (isPeer line && peerQueued s o.core line op) then s.again ev
      else
        let s := s.modOp op fun o => { o with need := o.need + 1, pas := o.pas.wr l (line + 1), vas := o.vas.wr l (if c then 3 else 1) }
        let s := if isPeer line then s.timePeer op (l + 1) else s
        (s.soon (.tredInvocation op l)).workDone op (l + 1)
    else if isPeer line && peerQueued s o.core line op then s.again ev
    else if isPeer line && !s.peerAllows o.part line then
      ((s.asyncErr o.grid).countLanded o (if landing sub then (ps.map Piece.count).sum else 0)).workDone op (l + 1)
    else if isPeer line && o.sent.rd (l + 1) = 0 then
      ((s.modOp op fun o => { o with pas := o.pas.wr (l + 1) (line + 1), vas := o.vas.wr (l + 1) (if c then 3 else 1) }).timePeer op (l + 1)).again ev
    else if landing sub then
      if !isPeer line && s.held line then (s.ask (.engineRecall line)).again ev
      else if !isPeer line && s.homeWait line then s.again ev
      else if !s.present line then (s.ask (.llcFill line o.part c)).again ev
      else
        let s := (s.landLine o ps (s.homeLine line) (s.homePsn line)).recent line
        (s.countLanded o (ps.map Piece.count).sum).workDone op (l + 1)
    else if !isPeer line && !s.holds line op then (s.takeHold line op).again ev
    else if !isPeer line && (s.homeWait line || s.heldFrom line op) then
      (if s.heldFrom line op then s.ask (.engineRecall line) else s).again ev
    else if !s.present line then (s.ask (.llcFill line o.part c)).again ev
    else ((s.storePieces o ps line c).holdDone line op).workDone op (l + 1)
  | _ => s

/-- The pages up to a work's own that a transfer has yet to touch, ascending: they translate in that order (R221). -/
def pagesUpTo (todo : List Nat) (w : Nat) : List Nat :=
  ((todo.filter fun v => v != 0 && v ≤ w).map fun v => (v - 1) / 512).eraseDups.mergeSort

/-- Translate pages in order; stop at the first that does not translate. -/
def State.chartPages (die part : Nat) (w : Bool) : List Nat → State → State × EngFate
  | [], s => (s, .ok 0 false false)
  | p :: ps, s => match s.engineXlate die part (BitVec.ofNat 64 (p * 2 ^ 16)) w with
    | (s, .ok _ _ _) => chartPages die part w ps s
    | r => r

/-- Work that the engine may take up: on pages of the box up to 64 beyond the first that has bytes to move (R221). -/
def Xfer.near (x : Xfer) (todo : List Nat) : List Nat :=
  let page (w : Nat) : Nat := (w - 1) / 512
  let first := (todo.filter (· != 0)).foldl (fun (m : Option Nat) w => some (match m with
    | none => page w
    | some p => min p (page w))) none
  match first with
  | none => todo
  | some p =>
    let pages := ((pieceLines x.pieces).map (· / 512)).eraseDups
    todo.filter fun w => w == 0 || (pages.filter fun q => p ≤ q && q < page w).length ≤ 64

/-- One piece of work of a transfer, in any order that the translations allow. A line of a `tred` is one that it writes: it needs W, and
not R (DEDUCED, log entry 125). -/
def execChartBytesLanding (op : Nat) (s : State) : Res :=
  let o := s.ops.rd op
  match o.live && o.started && !o.parked && o.todo != [], o.kind with
  | true, .chart sub _ _ _ =>
    let near := (opXfer o).near o.todo
    let w := near.getD (Config.pick s.tick % near.length) 0
    let s := s.drawn 1
    if w = 0 then .next (((s.landRest o).countLanded o (opXfer o).restBytes).workDone op 0)
    else
      let die := dieOfCore o.core
      let wr := !landing sub
      match s.chartPages die o.part wr (pagesUpTo o.todo w) with
      | (s, .ok _ _ _) =>
        match s.engineXlate die o.part (BitVec.ofNat 64 (128 * (w - 1))) wr with
        | (s, .ok pa c sb) =>
          if wr && s.uncopied o.grid sb pa then .next ((s.ask (.snapshotCopy (s.grids.rd o.grid).root (pa / 2 ^ 16))).again (.chartBytesLanding op))
          else .next (s.chartLine op (w - 1) pa c)
        | (s, _) => .next (s.again (.chartBytesLanding op))
      | (s, .miss) => .next (s.again (.chartBytesLanding op))
      | (s, .fault) => .next (s.soon (.chartPageFault op))
      | (s, .prot) => .next (s.chartStop op)
  | _, _ => .next s

/-- A page fault parks the transfer (R222): its record names the first byte not yet moved of the lowest page that has no
translation. -/
def execChartPageFault (op : Nat) (s : State) : Res :=
  let o := s.ops.rd op
  let x := opXfer o
  match o.live && o.started && !o.parked, (o.todo.filter (· != 0)).find? fun w => s.walk o.part (va56 (BitVec.ofNat 64 (128 * (w - 1)))) == .fault with
  | true, some w =>
    let a := ((linePieces x.pieces (w - 1)).map fun p => p.mem / 8).foldl min (128 * (w - 1) + 127)
    .next ((s.modOp op fun o => { o with parked := true }).engineFault o.part 12 (BitVec.ofNat 64 a) (ticketOf 0 op)
      (s.teams.rd (o.split / 512)).teamId o.core (o.split / 4 % 128))
  | true, none => .next (if o.todo = [] then s else s.soon (.chartBytesLanding op))
  | _, _ => .next s

/-- An invocation of a `tred` is over. -/
def State.tredEnd (op line : Nat) (s : State) : State := (s.modOp op fun o => { o with vas := o.vas.wr line 0 }).partDone op 1

/-- What it does to its line: every in-bounds element is added, each with one rounding. -/
def State.tredBody (op line : Nat) (s : State) : State :=
  let o := s.ops.rd op
  let pl := o.pas.rd line - 1
  let ps := linePieces (opXfer o).pieces line
  let i := sliceOf pl
  let psn := s.homePsn pl
  if ps.any fun p => psn.getLsbD (p.mem % 1024 / 256) then
    (((s.anvilCharge i o.part 3).sliceEv i o.part 0x52 1).recent pl).asyncErr o.grid
  else
    let l := ps.foldl (fun l p =>
      let w := p.mem % 1024 / 32
      setLineWord l w (BitVec.ofNat 32 (addF f32p (lineWord l w).toNat (scratchBits s (o.split / 512) p.sp 32)).1)) (s.homeLine pl)
    (s.anvilCharge i o.part 9).setHome pl o.part l psn ((o.vas.rd line).getLsbD 1)

/-- One invocation of a `tred` (R230). -/
def execTredInvocation (op line : Nat) (s : State) : Res :=
  let o := s.ops.rd op
  let pl := o.pas.rd line - 1
  let run (s : State) : State := (s.tredBody op line).tredEnd op line
  if !o.live then .next s
  else if isPeer pl then .next (if s.peerAllows o.part pl then run s else (s.asyncErr o.grid).tredEnd op line)
  else .next (s.anvilGate pl o.part ((o.vas.rd line).getLsbD 1) (.tredInvocation op line) run)

end Sys2Proof.Machine
end

