-- ==== Sys2Proof/Machine/Rays.lean ====
section
/-! DEFINITION. Ray traversal and regrouping, major 59 (16_rays.md). -/

namespace Sys2Proof.Machine

/-! ### The tests (R282 to R284) -/

def fNaN (x : W32) : Bool := f32p.val x.toNat == .nan
def fFinite (x : W32) : Bool :=
  match f32p.val x.toNat with
  | .num _ _ _ => true
  | _ => false
def fIsZero (x : W32) : Bool := (f32p.val x.toNat).isZero
def fGt (x y : W32) : Bool := fcmpHolds .gt (f32p.val x.toNat) (f32p.val y.toNat)
def fLe (x y : W32) : Bool := fcmpHolds .le (f32p.val x.toNat) (f32p.val y.toNat)

/-- A degenerate ray (R282): ox oy oz dx dy dz tmin tmax. -/
def degenerate (v : List W32) : Bool :=
  let at_ (i : Nat) : W32 := v.getD i 0
  v.any fNaN || (List.range 6).any (fun i => !fFinite (at_ i)) || [3, 4, 5].all (fun i => fIsZero (at_ i)) || fGt (at_ 6) (at_ 7)

/-- The slab test (R283): tnear of a box that is hit. Its six words are min x, y, z, max x, y, z (R280). -/
def slab (v : List W32) (tcur : W32) (box : List W32) : Option W32 :=
  let n (x : W32) : Nat := x.toNat
  let sub (a b : Nat) : Nat := (subF f32p a b).1
  let mul (a b : Nat) : Nat := (mulF f32p a b).1
  let ts := (List.range 3).map fun a =>
    let o := n (v.getD a 0)
    let r := (rcpF (n (v.getD (3 + a) 0))).1
    (mul (sub (n (box.getD a 0)) o) r, mul (sub (n (box.getD (3 + a) 0)) o) r)
  let los := ts.map fun t => f32p.minmax false t.1 t.2
  let his := ts.map fun t => f32p.minmax true t.1 t.2
  let lo := los.foldl (f32p.minmax true) (n (v.getD 6 0))
  let hi := his.foldl (f32p.minmax false) (n tcur)
  if box.any fNaN || (List.range 3).any (fun a => fGt (box.getD a 0) (box.getD (3 + a) 0)) then none
  else if fLe (BitVec.ofNat 32 lo) (BitVec.ofNat 32 hi) then some (BitVec.ofNat 32 lo) else none

/-- A finite FP32 value in units of 2^-149. -/
def fixed149 (x : W32) : Int :=
  match f32p.val x.toNat with
  | .num neg m e => FVal.at_ neg m e (-149)
  | _ => 0

abbrev Vec := Int × Int × Int
def vSub (a b : Vec) : Vec := (a.1 - b.1, a.2.1 - b.2.1, a.2.2 - b.2.2)
def vCross (a b : Vec) : Vec := (a.2.1 * b.2.2 - a.2.2 * b.2.1, a.2.2 * b.1 - a.1 * b.2.2, a.1 * b.2.1 - a.2.1 * b.1)
def vDot (a b : Vec) : Int := a.1 * b.1 + a.2.1 * b.2.1 + a.2.2 * b.2.2
def vecAt (ws : List W32) (i : Nat) : Vec := (fixed149 (ws.getD i 0), fixed149 (ws.getD (i + 1) 0), fixed149 (ws.getD (i + 2) 0))

/-- RNE of num / den, den > 0, in FP32. -/
def ratF32 (num : Int) (den : Nat) : W32 :=
  let n := num.natAbs
  if n = 0 then 0
  else
    let k := den.log2 + 64
    let q := n * 2 ^ k / den
    BitVec.ofNat 32 (f32p.approx (num < 0) q (-(k : Int)) (n * 2 ^ k % den = 0)).1

/-- num / den against an FP32 value: −1, 0, 1. -/
def ratCmp (num : Int) (den : Nat) (x : W32) : Int :=
  match f32p.val x.toNat with
  | .inf neg => if neg then 1 else -1
  | .num neg m e =>
    let a := num * 2 ^ 149
    let b := FVal.at_ neg m e (-149) * den
    if a < b then -1 else if a = b then 0 else 1
  | .nan => 0

/-- A candidate: exact t, u, v over one positive denominator, and front (R284). -/
structure Cand where
  t : Int
  u : Int
  v : Int
  den : Nat
  front : Bool
  deriving DecidableEq, Repr

/-- The triangle test; `tri` holds the nine vertex words. -/
def triTest (v : List W32) (tcur : W32) (tri : List W32) : Option Cand :=
  let o := vecAt v 0
  let d := vecAt v 3
  let a := vecAt tri 0
  let e1 := vSub (vecAt tri 3) a
  let e2 := vSub (vecAt tri 6) a
  let p := vCross d e2
  let det := vDot e1 p
  let s := vSub o a
  let q := vCross s e1
  let sg : Int := if det < 0 then -1 else 1
  let c : Cand := { t := sg * vDot e2 q, u := sg * vDot s p, v := sg * vDot d q, den := det.natAbs, front := det > 0 }
  if !tri.all fFinite || det = 0 || c.u < 0 || c.v < 0 || c.u + c.v > c.den then none
  else if ratCmp c.t c.den (v.getD 6 0) < 0 ∨ 0 < ratCmp c.t c.den tcur then none
  else some c

/-! ### Traversal (R285 to R287) -/

/-- The status word (R286). -/
def rayStatus (kind : Nat) (front susp : Bool) (err : Nat) : W32 :=
  BitVec.ofNat 32 (kind + (if front then 4 else 0) + (if susp then 8 else 0) + 256 * err)

/-- The record of a ray that meets nothing, or an error: u, v and the leaf address are stated nowhere, and free (DESIGN CHOICE, log entry
131). -/
def rayNone (s : State) (kind err : Nat) : RayRec :=
  { t := 0x7F800000, id := 0xFFFFFFFF, st := rayStatus kind false false err, u := (s.fresh 0).setWidth 32, v := (s.fresh 1).setWidth 32, leaf := s.fresh 2 }
def rayMiss (s : State) : RayRec := rayNone s 0 0
def rayError (code : Nat) (s : State) : RayRec := rayNone s 3 code

/-- A ray of a group's position. -/
def State.modRay (g p : Nat) (f : Ray → Ray) (s : State) : State := s.modGroup g fun y => { y with ray := y.ray.mod p f }

/-- A ray ends or is suspended: its record is written, to its three registers and to the unit's copy, and is no longer waited for
(R286). -/
def State.rayWrite (g p : Nat) (r : RayRec) (susp : Bool) (s : State) : State :=
  let y := (s.groups.rd g).ray.rd p
  let s := s.modRay g p fun y => { y with has := true, busy := false, susp := susp, rec_ := r, stack := if susp then y.stack else [] }
  let d := (s.ops.rd y.op).a.toNat
  let ws := [(64 * d + p, r.t), (64 * (d + 1) + p, r.id), (64 * (d + 2) + p, r.st)]
  (if (s.ops.rd y.op).live then s.results (s.ops.rd y.op) ws [] else s).partDone y.op 1

/-- An error ends the ray; codes 3 and 4 raise the launch's asynchronous error count. -/
def State.rayFail (g p code : Nat) (s : State) : State :=
  let s := if code ≥ 3 then s.asyncErr (s.teams.rd (g / 128)).grid else s
  (s.drawn 3).rayWrite g p (rayError code s) false

/-- A child reference is kind 3, or names a box node at an odd index (R279, R287). -/
def badRef (w : W32) : Bool := fld w.toNat 30 2 == 3 || (fld w.toNat 30 2 == 1 && w.getLsbD 0)

/-- Order in which children pop: ascending tnear, then child number. -/
def nearer (a b : W32 × Nat) : Bool := fcmpHolds .lt (f32p.val a.1.toNat) (f32p.val b.1.toNat) || (a.1 == b.1 && a.2 < b.2) ||
  (fcmpHolds .eq (f32p.val a.1.toNat) (f32p.val b.1.toNat) && a.2 < b.2)

/-- A box node of 32 words (R280, R285): its children that are hit, nearest first; or an error code. -/
def boxChildren (y : Ray) (ws : List W32) : Except Nat (List RayNode) :=
  let refs := (List.range 4).map fun i => ws.getD (24 + i) 0
  if (ws.drop 28).any (· != 0) || refs.any badRef then .error 1
  else
    let hits := (List.range 4).filterMap fun i =>
      let r := refs.getD i 0
      if fld r.toNat 30 2 = 0 then none
      else (slab y.vec y.tcur ((ws.drop (6 * i)).take 6)).map fun tn => (tn, i)
    let l := (hits.mergeSort nearer).map fun h =>
      let r := refs.getD h.2 0
      { addr := y.root + BitVec.ofNat 64 (64 * fld r.toNat 0 30), leaf := fld r.toNat 30 2 == 2, tn := h.1 : RayNode }
    if y.stack.length + l.length > 64 then .error 2 else .ok l

/-- A leaf of 16 words (R281, R285). -/
def State.rayLeaf (g p : Nat) (addr : W64) (ws : List W32) (s : State) : State :=
  let y := (s.groups.rd g).ray.rd p
  if (ws.drop 10).any (· != 0) then s.rayFail g p 1
  else match triTest y.vec y.tcur (ws.take 9) with
    | none => s.soon (.rayRecord g p)
    | some c =>
      let r (kind : Nat) (susp : Bool) : RayRec :=
        { t := ratF32 c.t c.den, id := ws.getD 9 0, st := rayStatus kind c.front susp 0, u := ratF32 c.u c.den, v := ratF32 c.v c.den, leaf := addr }
      if y.any then s.rayWrite g p (r 2 true) true
      else
        let better := !y.hasBest || c.t * y.den < y.num * c.den || (c.t * y.den == y.num * c.den && (ws.getD 9 0).toNat < y.best.id.toNat)
        let s := if better then s.modRay g p fun y => { y with
            hasBest := true, num := c.t, den := c.den, best := r 1 false, tcur := ratF32 c.t c.den } else s
        s.soon (.rayRecord g p)

/-- A node as read: its words go on through the traversal. -/
def State.rayNode (g p : Nat) (n : RayNode) (ws : List W32) (s : State) : State :=
  if n.leaf then s.rayLeaf g p n.addr ws
  else
    let s := s.modRay g p fun y => { y with visited := y.visited + 1 }
    match boxChildren ((s.groups.rd g).ray.rd p) ws with
    | .error c => s.rayFail g p c
    | .ok l => (s.modRay g p fun y => { y with stack := l ++ y.stack }).soon (.rayRecord g p)

/-- A ray proceeds by one node, read as a plain WB load of its core, or ends with its record. A node in words that a `st.rel` of the
core is writing (R157), or an older store of it is still to write (R117), waits for them. -/
def execRayRecord (group pos : Nat) (s : State) : Res :=
  let g := s.groups.rd group
  let y := g.ray.rd pos
  let ev : Ev := .rayRecord group pos
  let part := groupPart s group
  if !g.live || !y.busy || y.parked then .next s
  else match y.stack with
    | [] => .next (if !y.any && y.hasBest then s.rayWrite group pos y.best false else (s.drawn 3).rayWrite group pos (rayMiss s) false)
    | n :: rest =>
      let pop (s : State) : State := s.modRay group pos fun y => { y with stack := rest }
      if !y.any && fGt n.tn y.tcur then .next ((pop s).soon ev)
      else if !canonical n.addr then .next ((pop s).rayFail group pos 3)
      else match s.tlbServe (s.cores.rd g.core).tlb part (va56 n.addr) with
        | none => match s.tlbServe (s.dies.rd (dieOfCore g.core)).tlb part (va56 n.addr), s.walk part (va56 n.addr) with
          | some _, _ | none, .ok _ _ | none, .busy => .next ((s.ask (.tlbWalk false g.core part (pageOf n.addr))).again ev)
          | none, .fault => .next (s.soon (.rayPageFault group pos))
          | none, .prot => .next ((pop s).rayFail group pos 3)
        | some t => match if t.r then s.place (t.pa (va56 n.addr)) else none with
          | none => .next ((pop s).rayFail group pos 3)
          | some pa =>
            let line := pa / 128
            let w0 := pa % 128 / 4
            let cnt := if n.leaf then 16 else 32
            let m : W32 := BitVec.ofNat 32 ((2 ^ cnt - 1) * 2 ^ w0)
            let l := s.l1 g.core line
            if isPeer line && !s.peerAllows part line then .next ((pop s).rayFail group pos 3)
            else if relPending s g.core line m || storePending s g.core line m y.op then .next (s.soon ev)
            else if s.l1Has g.core line m then
              let s := if y.missed then s.modRay group pos fun y => { y with missed := false } else s.l1Count g.core part group line true
              let s := (s.l1Seen g.core line m group).l1Touch g.core line
              let bad := (List.range cnt).any fun i => l.psn.getLsbD ((w0 + i) / 8)
              .next (if bad then (pop s).rayFail group pos 4
                else (pop s).rayNode group pos n ((List.range cnt).map fun i => lineWord l.data (w0 + i)))
            else
              let s := if y.missed then s else (s.l1Count g.core part group line false).modRay group pos fun y => { y with missed := true }
              .next ((s.ask (.homeSliceRead { core := g.core, part := part, line := line, mask := if l.live then ~~~l.valid else BitVec.allOnes 32
                                              c := t.c, op := 0, dest := .fill g.core })).soon ev)

/-- A traversal parks at the node whose page is missing. -/
def execRayPageFault (group pos : Nat) (s : State) : Res :=
  let g := s.groups.rd group
  let y := g.ray.rd pos
  match g.live && y.busy && !y.parked, y.stack with
  | true, n :: _ =>
    .next ((s.modRay group pos fun y => { y with parked := true }).engineFault (groupPart s group) 14 n.addr (ticketOf 2 (64 * group + pos))
      (s.teams.rd (group / 128)).teamId g.core (group % 128))
  | _, _ => .next s

/-! ### The ray instructions (R288 to R291) -/

/-- Some lane of a mask has a record still to be written. -/
def rayBusy (s : State) (m : W64) : Bool := (positions m).any fun p => (s.gr.ray.rd p).busy

/-- Rays of some lanes go on under one operation that writes v[d] to v[d+2]. -/
def State.rayStart (d : Nat) (ps : List Nat) (f : Nat → Ray → Ray) (s : State) : State :=
  let id := s.nextId
  let s := s.issue { s.op0 with
    kind := .ray, flag := s.fa, returning := true, cls := 1, lanes := maskOf ps, need := ps.length, a := BitVec.ofNat 64 d }
  (ps.foldl (fun s p => (s.modRay s.gk p fun y => { f p y with op := id, busy := true, susp := false }).soon (.rayRecord s.gk p)) s).adv 2

def State.rtrace (any : Bool) (d a b : Nat) (s : State) : State :=
  let m := s.act
  let root := s.sr b
  if m = 0 then s.adv 2
  else s.sram m ((List.range 8).map (a + ·)) fun s =>
    if fld root.toNat 0 7 ≠ 0 then s.trap .align none (some root) 8 14
    else if !canonical root then s.trap .prot none (some root) 8 14
    else if rayBusy s m || s.full s.fa then s.stall
    else s.rayStart d (positions m) fun p _ =>
      let v := (List.range 8).map fun i => s.gr.vr (a + i) p
      { any := any, vec := v, root := root, tcur := v.getD 7 0
        stack := if root = 0 ∨ degenerate v then [] else [{ addr := root, tn := 0xFF800000 }] }

def execRtrace (d a : Fin 128) (b : Fin 64) (s : State) : Res := .next (s.rtrace false d a b)
def execRtraceAny (d a : Fin 128) (b : Fin 64) (s : State) : Res := .next (s.rtrace true d a b)

def execRnext (d : Fin 128) (s : State) : Res :=
  let ps := (positions s.act).filter fun p => (s.gr.ray.rd p).susp
  .next (if rayBusy s s.act then s.stall
    else if ps = [] then s.adv 2
    else if s.full s.fa then s.stall
    else s.rayStart d ps fun _ y => y)

def execRacc (s : State) : Res :=
  let ps := (positions s.act).filter fun p => (s.gr.ray.rd p).susp
  .next (if rayBusy s s.act then s.stall
    else (ps.foldl (fun s p => s.modRay s.gk p fun y => { y with
        susp := false, stack := [], rec_ := { y.rec_ with st := (y.rec_.st &&& ~~~0xB#32) ||| 1#32 } }) s).adv 2)

/-- A field of a ray's latest record (R291). -/
def Ray.field (y : Ray) (b : Nat) : W32 :=
  if !y.has then 0
  else match b with
    | 0 => y.rec_.t | 1 => y.rec_.u | 2 => y.rec_.v | 3 => y.rec_.id | 4 => y.rec_.st
    | 5 => y.rec_.leaf.setWidth 32 | 6 => (y.rec_.leaf >>> 32).setWidth 32 | 7 => BitVec.ofNat 32 y.visited
    | _ => 0

def execRhit (d : Fin 128) (b : SclB) (s : State) : Res :=
  .next (if rayBusy s s.act then s.stall else s.laneOut d 4 2 [] fun p => (s.gr.ray.rd p).field (s.bLow b))

/-! ### Regrouping (R293 to R296) -/

/-- Operations of a group that write vector registers or predicates. -/
def vectorOps (s : State) (g : Nat) : List Nat := groupOps s g fun o => o.returning && match o.kind with
  | .ctxld _ _ => true
  | _ => o.lanes != 0

/-- The wait for the group's results is no wait of R48's list: it stalls in place. -/
def execRegroup (s : State) : Res :=
  .next (if s.sp.entry ≠ 0 then s.stackSpill 2
    else match vectorOps s s.gk with
      | _ :: _ => s.stall
      | [] =>
        let first := !s.tm.rg.any (·.addr == s.ia)
        let a := s.ia
        let s := s.modTm fun t => { t with rg := t.rg ++ [{ group := s.gk, addr := a, clock := s.clock }] }
        let s := if first then s.later (s.clock + 256) (.regroupTimeout s.tk a.toNat) else s
        (s.modSp fun x => { x with wait := .regroup }).freeSlot s.cur)

/-- The one live split of a parked group. -/
def parkedSplit (s : State) (g : Nat) : Nat := ((groupSplits g).find? fun k => (s.splits.rd k).live).getD (4 * g)

/-- Groups that wait at an address. -/
def waitingAt (s : State) (t : Nat) (a : W64) : List Nat := (((s.teams.rd t).rg.filter (·.addr == a)).map (·.group)).mergeSort

/-- Where lanes go: old group and position, new group and position, in order (R294). -/
def regroupMap (s : State) (w : Nat) (gs : List Nat) : List (Nat × Nat × Nat × Nat) :=
  let lanes := gs.flatMap fun g => (positions (s.splits.rd (parkedSplit s g)).lanes).map fun p => (g, p)
  lanes.mapIdx fun j l => (l.1, l.2, gs.getD (j / w) 0, j % w)

/-- The start of a group's region after `regroup`: all lanes that it holds now, at the instruction at which its first split stood
(DESIGN CHOICE, log entry 103: no rule says where a rollback takes lanes that have moved in). -/
def regionStart (y : Group) (m : W64) : TMap Split :=
  match y.rSplits.find? fun e => e.2.live with
  | some e => [(e.1, { e.2 with lanes := m, entry := 0 })]
  | none => []

/-- A result group of the lanes that it receives. -/
def regrouped (s : State) (g : Nat) (mv : List (Nat × Nat × Nat × Nat)) : Group :=
  let y := s.groups.rd g
  let mine := mv.filter fun m => m.2.2.1 == g
  let old (m : Nat × Nat × Nat × Nat) : Group := s.groups.rd m.1
  let words (f : Group → TMap W32) : TMap W32 := mine.foldl (fun r m =>
    ((f (old m)).filter fun e => e.1 % 64 == m.2.1).foldl (fun (r : TMap W32) e => r.wr (e.1 - m.2.1 + m.2.2.2) e.2) r) []
  let mask (f : Group → W64) : W64 := maskOf ((mine.filter fun m => (f (old m)).getLsbD m.2.1).map (·.2.2.2))
  { y with
    v := words (·.v)
    badV := mine.foldl (fun r m => ((old m).badV.filter fun e => e.1 % 64 == m.2.1).foldl (fun (r : TMap Bool) e => r.wr (e.1 - m.2.1 + m.2.2.2) e.2) r) []
    p := (List.range 64).foldl (fun (r : TMap W64) n => r.wr n (mask fun x => x.p.rd n)) []
    rng := mine.foldl (fun (r : TMap W64) m => r.wr m.2.2.2 ((old m).rng.rd m.2.1)) []
    inc := mine.foldl (fun (r : TMap W64) m => r.wr m.2.2.2 ((old m).inc.rd m.2.1)) []
    laneid := mine.foldl (fun (r : TMap Nat) m => r.wr m.2.2.2 ((old m).laneid.rd m.2.1)) []
    frag := mine.foldl (fun (r : TMap Frag) m => r.wr m.2.2.2 ((old m).frag.rd m.2.1)) []
    ray := mine.foldl (fun (r : TMap Ray) m => r.wr m.2.2.2 ((old m).ray.rd m.2.1)) []
    fpstat := mine.foldl (fun r m => r ||| ((old m).settle (old m).lastDue).fpstat) 0
    late := []
    rSplits := regionStart y (maskOf (mine.map (·.2.2.2))), rEntries := [] }

/-- The groups waiting at an address on one core are compacted. -/
def State.compact (t : Nat) (gs : List Nat) (s : State) : State :=
  let tm := s.teams.rd t
  let w := tm.width
  let mv := regroupMap s w gs
  let s0 := s
  let s := s.modTeam t fun x => { x with rg := x.rg.filter fun e => !gs.contains e.group }
  let pos (g p : Nat) : Nat := g % 128 * w + p
  let cleared := gs.foldl (fun m g => (List.range w).foldl (fun (m : TMap Nat) p => m.wr (pos g p) 0) m) tm.laneMap
  let map := mv.foldl (fun (m : TMap Nat) e => m.wr (pos e.2.2.1 e.2.2.2) (tm.laneMap.rd (pos e.1 e.2.1))) cleared
  let s := s.modTeam t fun x => { x with laneMap := map }
  let s := gs.foldl (fun s g =>
    let mine := mv.filter fun m => m.2.2.1 == g
    let k := parkedSplit s0 g
    let from_ := parkedSplit s0 ((mine.map (·.1)).headD g)
    let s := s.modGroup g fun _ => regrouped s0 g mv
    s.modSplit k fun x => { x with lanes := maskOf (mine.map (·.2.2.2)), s := (s0.splits.rd from_).s, pass := 0 }) s
  let ended := gs.filter fun g => !mv.any fun m => m.2.2.1 == g
  let s := ended.foldl (fun s g =>
    let k := parkedSplit s0 g
    ((((s.orphans k).freeSlot k).modSplit k fun _ => {}).endGroup g)) s
  (gs.filter fun g => !ended.contains g).foldl (fun s g =>
    let far := (mv.filter fun m => m.2.2.1 == g && (m.1 != g || m.2.1 != m.2.2.2)).length
    s.later (s.clock + 32 + 2 * far) (.regroupResume g)) s

/-- The unit fires for an address: each core's groups among themselves. -/
def State.fire (t : Nat) (a : W64) (s : State) : State :=
  (teamCores (s.teams.rd t)).foldl (fun s c =>
    match (waitingAt s t a).filter fun g => (s.groups.rd g).core == c with
    | [] => s
    | gs => s.compact t gs) s

/-- Every group of the team that has not ended waits at this address. -/
def allWait (s : State) (t : Nat) (a : W64) : Bool :=
  (teamGroups s t).all fun g => !(s.groups.rd g).live || (waitingAt s t a).contains g

/-- A group has arrived, or the last group that was missing has ended: the unit fires when every one is there. -/
def execRegroupArrival (group : Nat) (s : State) : Res :=
  let t := group / 128
  match (s.teams.rd t).rg.find? (·.group == group) with
  | some e => .next (if allWait s t e.addr then s.fire t e.addr else s)
  | none => .next s

/-- 256 clocks have passed since the first arrival at an address; where that arrival has left the unit, the first of those that still
wait is the one that counts. -/
def execRegroupTimeout (team addr : Nat) (s : State) : Res :=
  let a := BitVec.ofNat 64 addr
  let es := (s.teams.rd team).rg.filter (·.addr == a)
  .next (if es.any fun e => e.clock + 256 ≤ s.clock then s.fire team a
    else match es.map (·.clock) with
      | [] => s
      | c :: cs => s.later (cs.foldl min c + 256) (.regroupTimeout team addr))

/-- A result group resumes after `regroup`, and reads its guard again. -/
def execRegroupResume (group : Nat) (s : State) : Res :=
  let k := parkedSplit s group
  let x := s.splits.rd k
  if (s.groups.rd group).live && x.wait = .regroup && !(s.teams.rd (group / 128)).rg.any (·.group == group) then
    let s := { s with cur := k }
    let g := match headerOf x.code with
      | some h => s.gr.pr h.guard
      | none => x.guard
    .next ((s.modSp fun x => { x with guard := g, wait := .ready }).adv (parcelsAt (x.code.drop x.off)))
  else .next s

end Sys2Proof.Machine
end

