-- ==== Sys2Proof/Machine/Graphics.lean ====
section
/-! DEFINITION. The graphics instructions, major 58, and posts on their way to render targets (15_targets.md). -/

namespace Sys2Proof.Machine

/-- TARGET, with the slot in TRAP_INFO[15:8] and the code in [7:0] (R269). Several codes that hold at once: the lowest. -/
def State.targetTrap (slot code : Nat) (s : State) : State := s.trap .target none none 16 (BitVec.ofNat 64 (256 * (slot % 256) + code))

/-- The first code whose condition holds traps; otherwise `k`. -/
def State.targetChecks (slot : Nat) (cs : List (Nat × Bool)) (k : State → State) (s : State) : State :=
  match cs.find? (·.2) with
  | some c => s.targetTrap slot c.1
  | none => k s


/-! ### Draws (R301) -/

/-- The draw of the executing team. -/
def State.dw (s : State) : Draw := s.draws.rd s.gd.draw
def drawField (d : Draw) (lo n : Nat) : Nat := fld d.rec_.toNat lo n
def drawAttrs (d : Draw) : Nat := drawField d 16 8
def drawFirst (d : Draw) : Nat := drawField d 128 32
def drawCount (d : Draw) : Nat := drawField d 160 32
/-- The slots that a draw names, ascending. -/
def drawSlots (d : Draw) : List Nat := (List.range 16).filter fun n => d.rec_.getLsbD (224 + n)

/-- The vertices of triangle i (R255), numbered from the draw's first vertex. -/
def drawTri (d : Draw) (i : Nat) : List Vert := [d.verts.rd (3 * i), d.verts.rd (3 * i + 1), d.verts.rd (3 * i + 2)]

/-- The vertex that a lane of the executing vertex team owns, from the draw's first vertex (R255). -/
def State.vertexOf (s : State) (p : Nat) : Nat := s.tm.teamId * s.tm.lanes + s.gr.laneid.rd p

/-! ### `vemit` (R272) -/

def execVemit (d a : Fin 128) (b : SclB) (s : State) : Res :=
  let m := s.act
  let n := s.bLow b
  let range (r n : Nat) : List Nat := (List.range n).map (r + ·)
  if m = 0 then .next (s.adv 2)
  else if s.full s.fb then .next s.stall
  else .next (s.targetChecks 0
    [(2, s.tm.kind != .vertex),
     (3, (positions m).any fun p => (s.dw.verts.rd (s.vertexOf p)).has),
     (5, s.gr.vc < a.val + 4 || (n != 0 && s.gr.vc < d.val + n)),
     (6, n != drawAttrs s.dw)]
    (State.sram m (range a 4 ++ range d n) fun s =>
      let vert (p : Nat) : Vert := { has := true, pos := (range a 4).map fun r => s.gr.vr r p, attr := (range d n).map fun r => s.gr.vr r p }
      let id := s.nextId
      let vs := (positions m).map fun p => (s.vertexOf p, vert p)
      let s := s.modDraw s.gd.draw fun x => { x with verts := vs.foldl (fun (t : TMap Vert) v => t.wr v.1 v.2) x.verts }
      ((s.issue { s.op0 with kind := .vemit, flag := s.fb, cls := 2, lanes := m }).readyIfDone id).adv 2))

/-! ### `intrp` (R273) -/

/-- Twice the signed area over each vertex's opposite edge at the centre of a pixel, in units of 2^-298: λ0, λ1, λ2 before
their division by the triangle's own, which comes last. -/
def bary (vs : List Vert) (x y : Nat) : Int × Int × Int × Int :=
  let px (i : Nat) : Int := fixed149 ((vs.getD i default).pos.getD 0 0)
  let py (i : Nat) : Int := fixed149 ((vs.getD i default).pos.getD 1 0)
  let cx : Int := (2 * x + 1) * 2 ^ 148
  let cy : Int := (2 * y + 1) * 2 ^ 148
  let cr (ax ay bx by_ : Int) : Int := ax * by_ - ay * bx
  (cr (px 1 - cx) (py 1 - cy) (px 2 - cx) (py 2 - cy), cr (px 2 - cx) (py 2 - cy) (px 0 - cx) (py 0 - cy),
   cr (px 0 - cx) (py 0 - cy) (px 1 - cx) (py 1 - cy), cr (px 1 - px 0) (py 1 - py 0) (px 2 - px 0) (py 2 - py 0))

/-- RNE of num / den for a nonzero den of either sign. -/
def quotF32 (num den : Int) : W32 := ratF32 (if den < 0 then -num else num) den.natAbs

/-- A perspective-correct attribute from λi qi (`ws`) and ai. -/
def attrValue (ws : List Int) (as_ : List W32) : W32 :=
  let den := ws.foldl (· + ·) 0
  let vals := as_.map fun a => f32p.val a.toNat
  let nan : W32 := BitVec.ofNat 32 f32p.nan
  if den = 0 || vals.contains .nan then nan
  else
    let infs := (ws.zip vals).filterMap fun e => match e.2 with
      | .inf neg => some (e.1, neg)
      | _ => none
    match infs with
    | [] => quotF32 ((ws.zip as_).foldl (fun (t : Int) e => t + e.1 * fixed149 e.2) 0) (den * 2 ^ 149)
    | e :: r =>
      let sg (e : Int × Bool) : Bool := (e.1 < 0) != e.2
      if infs.any (fun e => e.1 == 0) || r.any (fun f => sg f != sg e) then nan
      else BitVec.ofNat 32 (f32p.code (sg e != (den < 0)) f32p.inf)

/-- The value of an index for a lane. -/
def State.intrpValue (s : State) (n p : Nat) : W32 :=
  let f := s.gr.frag.rd p
  let d := s.dw
  let vs := drawTri d f.ord
  let l := bary vs f.x f.y
  if n < 16 then
    let q (i : Nat) : Int := fixed149 ((vs.getD i default).pos.getD 3 0)
    let at_ (i : Nat) : W32 := if n < drawAttrs d then (vs.getD i default).attr.getD n 0 else 0
    let sg : Int := if l.2.2.2 < 0 then -1 else 1
    attrValue [sg * l.1 * q 0, sg * l.2.1 * q 1, sg * l.2.2.1 * q 2] [at_ 0, at_ 1, at_ 2]
  else if n = 16 then
    let z (i : Nat) : Int := fixed149 ((vs.getD i default).pos.getD 2 0)
    if l.2.2.2 = 0 then 0 else quotF32 (l.1 * z 0 + l.2.1 * z 1 + l.2.2.1 * z 2) (l.2.2.2 * 2 ^ 149)
  else if n = 17 then pixelWord f.x f.y 0
  else if n = 18 then f.cov.rd ((drawSlots d).headD 0)
  else if f.helper then 1 else 0

def execIntrp (d : Fin 128) (b : SclB) (s : State) : Res :=
  let n := s.bLow b
  if s.act = 0 then .next (s.adv 2)
  else .next (s.targetChecks 0 [(2, s.tm.kind != .fragment), (6, n > 19)] (fun s => s.laneOut d 16 2 [] fun p => s.intrpValue n p))

/-! ### `fpost` (R274) -/

/-- The `fpost` of the lanes `ms` to slot `n`: one post of each lane `ps` that owes one (R373), posts of no coverage apart (R257). -/
def State.sendPosts (n a d : Nat) (ms ps : List Nat) (hs : List Hit) (s : State) : State :=
  let t := s.slot s.pt n
  let id := s.nextId
  let mk (e : Nat × Hit) : Post :=
    let f := s.gr.frag.rd e.1
    { core := s.cr, part := s.pt, op := id, grid := s.tm.grid, slot := n, line := e.2.pa / 128, x := f.x, y := f.y, draw := drawNumber s.dw
      ord := f.ord, cov := f.cov.rd n &&& (s.gr.vr a e.1 &&& BitVec.ofNat 32 (2 ^ recSamples t.rec_ - 1))
      words := (List.range t.m).map fun i => s.gr.vr (d + i) e.1, c := e.2.c, key := s.gd.draw }
  let posts := (ps.zip hs).map mk
  let full := posts.filter fun p => p.cov != 0
  if 64 < (s.cores.rd s.cr).posts.length + full.length && full != [] then s.stall
  else
    let s := s.sealNow
    let s := s.modGr fun g => { g with frag := ms.foldl (fun (m : TMap Frag) p => m.mod p fun f => { f with posted := f.posted ||| (1#16 <<< n) }) g.frag }
    let s := s.issue { s.op0 with kind := .post, flag := s.fb, cls := 2, need := posts.length, lanes := maskOf ps }
    let s := s.modCore s.cr fun c => { c with posts := c.posts ++ full }
    let s := posts.foldl (fun s p => s.soon (if p.cov = 0 then .nullPost p else .fragmentPost p)) s
    (s.readyIfDone id).adv 2

def execFpost (d a : Fin 128) (b : SclB) (s : State) : Res :=
  let m := s.wact
  let n := s.bLow b
  let t := s.slot s.pt n
  if m = 0 then .next (s.adv 2)
  else if s.full s.fb then .next s.stall
  else .next (s.targetChecks n
    [(1, n > 15 || !t.bound),
     (2, s.tm.kind != .fragment),
     (3, (positions m).any fun p => (s.gr.frag.rd p).posted.getLsbD n),
     (4, !(drawSlots s.dw).contains n),
     (5, t.m != 0 && s.gr.vc < d.val + t.m)]
    (State.sram m (a.val :: (List.range t.m).map (d.val + ·)) fun s =>
      let ps := (positions m).filter fun p => (s.gr.frag.rd p).cov.rd n != 0
      s.access 13 false true false 1 (ps.map fun p => (p, lineVa t.rec_ 0 (s.gr.frag.rd p).x (s.gr.frag.rd p).y))
        (State.sendPosts n a d (positions m) ps)))

/-! ### Posts at their lines (R257, R262 to R265) -/

/-- A post is accepted: its core keeps it no longer. -/
def State.acceptPost (p : Post) (s : State) : State := s.modCore p.core fun c => { c with posts := c.posts.erase p }

def execFragmentPost (p : Post) (s : State) : Res :=
  let i := sliceOf p.line
  if s.homeWait p.line then .next (s.again (.fragmentPost p)) else
  let go (s : State) : State := (s.acceptPost p).again (.anvilInvocationStart (s.postReq p false))
  match s.entryOf p with
  | none => .next (((s.acceptPost p).sliceEv i p.part 0x5B 1).partDone p.op 1)
  | some e =>
    if recField (s.slot p.part p.slot).rec_ 102 1 = 1 then .next (go s)
    else if (s.noticesOf p.line).head? = some e then .next (go s)
    else if (s.slices.rd i).held.length < 511 then
      .next (((s.acceptPost p).modSlice i fun x => { x with held := x.held ++ [p] }).sliceEv i p.part 0x59 1)
    else .next ((s.sliceEv i p.part 0x5A 1).soon (.postReturn p))

/-- A refused post is at its core again, and is sent again. -/
def execPostReturn (p : Post) (s : State) : Res := .next (s.soon (.fragmentPost p))

def execNullPost (p : Post) (s : State) : Res :=
  .next ((s.sliceEv (sliceOf p.line) p.part 0x5B 1).postApplied p.line p.key p.slot p.ord (postPix s p) p.op)

/-- A forward post is translated by the chart engine of the die that sends it, takes its engine hold (R144), and is applied on arrival
(R263). -/
def execForwardPost (p : Post) (s : State) : Res :=
  let die := dieOf p.line
  let ev : Ev := .forwardPost p
  match s.engineXlate die p.part (lineVa (s.slot p.part p.slot).rec_ 0 p.x p.y) true with
  | (s, .ok pa c sb) =>
    if s.uncopied p.grid sb pa then .next ((s.ask (.snapshotCopy (s.grids.rd p.grid).root (pa / 2 ^ 16))).again ev)
    else
      let r := { s.postReq { p with line := pa / 128, c := c } true with hold := s.nextId, die := die }
      let s := { s.drawn 8 with nextId := s.nextId + 1 }
      .next ((if isPeer r.line then s else s.takeHold r.line r.hold).soon (.anvilInvocationStart r))
  | (s, .miss) => .next (s.again ev)
  | (s, _) => .next ((s.asyncErr p.grid).partDone p.op 1)

/-! ### `tbind` (R253, R254, R275) -/

/-- R275's BAD_RECORD. -/
def badTarget (r : BitVec 512) : Bool :=
  let f (lo n : Nat) : Nat := recField r lo n
  let w := recWidth r
  let h := recHeight r
  f 256 256 != 0 || f 117 11 != 0 || f 96 3 > 4 || f 103 2 == 3 || w == 0 || w > 16384 || h == 0 || h > 16384 || f 0 64 % 128 != 0 ||
    f 105 3 > 4 || (max w h).log2 < f 108 4 ||
    if recLinear r then recSamples r != 1 || recWords r != 1 || f 108 4 != 0 || f 160 32 % 128 != 0 || f 160 32 < ceilDiv (4 * w) 128 * 128
    else f 160 32 != 0

/-- R275's BAD_METHOD: header words 0 and 1 of each method of the chain. -/
def badMethods (r : BitVec 512) (hs : List (W32 × W32)) : Bool :=
  hs.any fun e =>
    let w := e.2.toNat
    hdrClass e.1 != 2 || fld w 3 1 != 0 || fld w 6 9 != 0 || w / 2 ^ 16 != 0 ||
      (e.2.getLsbD 15 && (fld w 0 3 != recField r 96 3 || fld w 4 2 != recField r 99 2)) ||
      (recField r 102 1 == 1 && !hdrFree e.1)

/-- Header words of the methods of a record's chain as the table holds them; none where there is no table. -/
def State.chainHeaders (s : State) (part : Nat) (r : BitVec 512) : List (W32 × W32) :=
  (recChain r).map fun id => if s.rtOn part then let ws := s.rtWords part id; (ws.getD 0 0, ws.getD 1 0) else (0, 0)

/-- R275's BAD_FORWARD for slot `n` taking record `r`, or none. A record that forwards to slot `n` itself is judged by the record that the
slot holds before (DESIGN CHOICE, log entry 128). -/
def State.badForward (s : State) (part n : Nat) (r : Option (BitVec 512)) : Bool :=
  let ours := (List.range 16).any fun i =>
    let t := s.slot part i
    i != n && t.bound && recField t.rec_ 116 1 == 1 && recField t.rec_ 112 4 == n
  match r with
  | none => ours
  | some r =>
    let t := s.slot part (recField r 112 4)
    recField r 116 1 == 1 && (ours || !t.bound || recWidth t.rec_ != recWidth r || recHeight t.rec_ != recHeight r ||
      recField t.rec_ 108 4 != recField r 108 4 || recField t.rec_ 116 1 == 1)

/-- Physical lines of a slot's target that translate. -/
def State.targetLine (s : State) (part n line : Nat) : Bool :=
  let t := s.slot part n
  let vas : List W64 :=
    if recLinear t.rec_ then
      (List.range (recHeight t.rec_)).flatMap fun y => (List.range (ceilDiv (recWidth t.rec_) 32)).map fun x => lineVa t.rec_ 0 (32 * x) y
    else (List.range (linesBelow t.rec_ (recField t.rec_ 108 4 + 1))).map fun i => BitVec.ofNat 64 (recField t.rec_ 0 64 + 128 * i)
  t.bound && vas.any fun va => match s.walk part (va56 va) with
    | .ok _ e => (s.place (fld e 16 36 * 2 ^ 16 + fld va.toNat 0 16)).map (· / 128) == some line
    | _ => false

/-- R275's BUSY. -/
def State.slotBusy (s : State) (part n : Nat) : Bool :=
  (s.draws.any fun e => e.2.live && e.2.part == part && (drawSlots e.2).contains n) ||
    (s.slices.any fun e => (e.2.notices.any fun x => x.part == part && s.targetLine part n x.line) ||
      e.2.held.any fun p => p.part == part && s.targetLine part n p.line)

/-- The status of a `tbind` to slot `n`. -/
def State.tbindStatus (s : State) (part n : Nat) (r : Option (BitVec 512)) : Nat :=
  if n > 15 then 1
  else if s.slotBusy part n then 2
  else match r with
    | none => if s.badForward part n none then 5 else 0
    | some r =>
      if badTarget r then 3
      else if badMethods r (s.chainHeaders part r) then 4
      else if s.badForward part n (some r) then 5
      else if recField r 192 64 ≠ 0 ∧ (recField r 96 3 ≠ 2 ∨ recField r 192 64 % 8 ≠ 0) then 6
      else 0

/-- `tbind` has its record: its status, and with status 0 the slot as every unit then holds it. -/
def State.tbindEnd (part n : Nat) (r : Option (BitVec 512)) (s : State) : State × Nat :=
  match s.tbindStatus part n r with
  | 0 =>
    let t : TSlot := match r with
      | none => {}
      | some r => { bound := true, rec_ := r, m := ((s.chainHeaders part r).map fun e => hdrOps e.1).foldl max 0 }
    (s.modPart part fun p => { p with slots := p.slots.wr n t }, 0)
  | k => (s, k)

def execTbind (d a : Fin 64) (b : SclB) (s : State) : Res :=
  .next (s.sup fun s =>
    let va := s.sr a
    let n := min (s.bScl b).toNat 16
    if s.full s.fa then s.stall
    else if va.toNat % 64 ≠ 0 then s.trap .align (some 0) (some va) 8 4
    else if va = 0 then
      let id := s.nextId
      let s := s.sealNow
      ((s.issue { s.op0 with kind := .tbind n d, flag := s.fa, returning := true, cls := 1 }).readyIfDone id).adv 2
    else s.access 4 true false false 4 ((List.range 16).map fun i => (64 + i, va + BitVec.ofNat 64 (4 * i)))
      (fun hs s => if s.mustWait false true 4 hs then s.stall else (s.sealNow.startLoad (.tbind n d) false hs).adv 2))

/-! ### `tmeth` (R267, R276) -/

/-- The rectangle of s[K], clipped to a target: x0, y0, x1, y1. -/
def rectOf (r : BitVec 512) (w : W64) : Nat × Nat × Nat × Nat :=
  (fld w.toNat 0 16, fld w.toNat 16 16, min (fld w.toNat 32 16) (recWidth r), min (fld w.toNat 48 16) (recHeight r))

/-- The lines that hold a pixel of a rectangle: pixel 0 of each, and the bits of its pixels inside. -/
def rectLines (r : BitVec 512) (q : Nat × Nat × Nat × Nat) : List (Nat × Nat × W32) :=
  let (x0, y0, x1, y1) := q
  let (bw, bh) := blockSize r
  if x1 ≤ x0 ∨ y1 ≤ y0 then []
  else
    (List.range ((y1 - 1) / bh + 1 - y0 / bh)).flatMap fun j => (List.range ((x1 - 1) / bw + 1 - x0 / bw)).map fun i =>
      let x := (x0 / bw + i) * bw
      let y := (y0 / bh + j) * bh
      (x, y, BitVec.ofNat 32 ((List.range (bw * bh)).foldl (fun m p =>
        let px := x + p % bw
        let py := y + p / bw
        if x0 ≤ px && px < x1 && y0 ≤ py && py < y1 then m + 2 ^ p else m) 0))

/-- `tmeth` in a mode; `a` names its first scalar operand. -/
def State.tmeth (mode a k : Nat) (s : State) : State :=
  let ctl := s.sr (k + 1)
  let n := fld ctl.toNat 0 4
  let t := s.slot s.pt n
  if s.full s.fb then s.stall
  else s.targetChecks n
    [(1, !t.bound),
     (5, mode == 0 && t.m != 0 && 63 < a + t.m - 1),
     (6, ctl.toNat / 16 != 0 || mode == 3),
     (7, mode == 2 && (recSamples t.rec_ == 1 || recField t.rec_ 116 1 == 0))]
    (fun s =>
      let ls := rectLines t.rec_ (rectOf t.rec_ (s.sr k))
      s.access 13 (mode == 2) (mode != 2) false 1 (ls.map fun l => (64, lineVa t.rec_ 0 l.1 l.2.1)) (fun hs s =>
        let id := s.nextId
        let s := s.sealNow
        let s := s.issue { s.op0 with kind := .tmeth, flag := s.fb, cls := 2, need := ls.length }
        let args := if mode = 0 then (List.range t.m).map fun i => s.sr (a + i) else [s.sr a]
        let s := (ls.zip hs).foldl (fun s e => s.soon (.tmethInvocation
          { core := s.cr, part := s.pt, op := id, grid := s.tm.grid, slot := n, mode := mode, line := e.2.pa / 128, x := e.1.1, y := e.1.2.1
            bits := e.1.2.2, args := args, c := e.2.c })) s
        let s := if mode = 0 then s else s.timePeers id (hs.map (·.pa / 128))
        (s.readyIfDone id).adv 2))

def execTmeth (mode3 : Bool) (a k : Fin 64) (s : State) : Res := .next (s.tmeth (if mode3 then 3 else 0) a k)
def execTmethClear (a k : Fin 64) (s : State) : Res := .next (s.tmeth 1 a k)
def execTmethResolve (k : Fin 64) (s : State) : Res := .next (s.tmeth 2 0 k)

/-- Words of the pixels of `bits`, in order. -/
def pixelWords (r : BitVec 512) (bits : W32) : List Nat :=
  (positions (bits.setWidth 64)).flatMap fun p => (List.range (recSamples r * recWords r)).map (p * (recSamples r * recWords r) + ·)

/-- A clear's line (R267). -/
def clearLine (r : BitVec 512) (bits : W32) (pat : W64) (l : Line) : Line :=
  (pixelWords r bits).foldl (fun l w => setLineWord l w (BitVec.ofNat 32 (pat.toNat / 2 ^ (32 * (w % recWords r))))) l

/-- The mean of a channel's samples in a float format (R267). -/
def meanF (p : FmtP) (xs : List Nat) : Nat :=
  let wide := xs.map fun x => (f32p.conv .rne false (p.val x)).1
  let sum := match wide with
    | [] => 0
    | x :: r => r.foldl (fun a b => (addF f32p a b).1) x
  match f32p.val sum with
  | .num n m e => (p.rne (.num n m (e - xs.length.log2))).1
  | v => (p.rne v).1

/-- The mean of an 8-bit channel: nearest, ties to even. -/
def mean8 (xs : List Nat) : Nat := roundUp .rne false (xs.sum / xs.length) (xs.sum % xs.length) xs.length.log2

/-- The resolved words of pixel `p` of a line, in the target's format. -/
def resolvePixel (r : BitVec 512) (l : Line) (p : Nat) : List W32 :=
  let word (sm i : Nat) : Nat := (lineWord l (sampleWord r p sm + i)).toNat
  let sms := List.range (recSamples r)
  let halves (i : Nat) : W32 :=
    let h (k : Nat) : Nat := meanF (Fmt.p .f16) (sms.map fun sm => fld (word sm i) (16 * k) 16)
    BitVec.ofNat 32 (h 0 + 2 ^ 16 * h 1)
  match recField r 96 3 with
  | 0 => [BitVec.ofNat 32 ((List.range 4).foldl (fun v c => v + mean8 (sms.map fun sm => fld (word sm 0) (8 * c) 8) * 2 ^ (8 * c)) 0)]
  | 1 => [halves 0, halves 1]
  | 4 => [halves 0]
  | _ => [BitVec.ofNat 32 (meanF f32p (sms.map fun sm => word sm 0))]

/-- A clear or a resolve on one line at its home. -/
def State.tmethBody (r : TmReq) (s : State) : State :=
  let t := (s.slot r.part r.slot).rec_
  let i := sliceOf r.line
  let l := s.homeLine r.line
  let ps := positions (r.bits.setWidth 64)
  if r.mode = 1 then
    let ws := pixelWords t r.bits
    let l := clearLine t r.bits (r.args.headD 0) l
    let wrote : W32 := ws.foldl (fun m w => m ||| (1#32 <<< w)) 0
    let s := (s.anvilCharge i r.part 9).setHome r.line r.part l (s.homePsn r.line &&& ~~~(wroteSectors wrote)) r.c
    (s.contourWrite r.line r.part r.slot r.x r.y l).partDone r.op 1
  else
    let s := (s.anvilCharge i r.part (2 + ps.length)).recent r.line
    if (pixelWords t r.bits).any fun w => (s.homePsn r.line).getLsbD (w / 8) then
      (((s.sliceEv i r.part 0x52 1).asyncErr r.grid).partDone r.op 1)
    else
      let bw := (blockSize t).1
      let s := ps.foldl (fun s p => s.forwardTo
        { core := r.core, part := r.part, op := r.op, grid := r.grid, slot := recField t 112 4, line := r.line, x := r.x + p % bw, y := r.y + p / bw
          draw := 0, ord := 0, cov := 0, words := resolvePixel t l p, c := true } 0) s
      s.partDone r.op 1

/-- One line of a `tmeth`, in any order among the lines. -/
def execTmethInvocation (r : TmReq) (s : State) : Res :=
  let t := s.slot r.part r.slot
  if r.mode = 0 then
    .next (s.again (.anvilInvocationStart
      { kind := .tmeth, core := r.core, part := r.part, op := r.op, lane := 0, line := r.line, ids := recChain t.rec_
        ops := r.args.map (·.setWidth 32)
        ks := [0, BitVec.ofNat 32 (2 ^ recSamples t.rec_ - 1), 0, pixelWord r.x r.y 0, r.bits, BitVec.ofNat 32 (recSamples t.rec_),
               BitVec.ofNat 32 (recWords t.rec_), 2]
        slot := r.slot, draw := 0, ord := 0, grid := r.grid, c := r.c, scalar := false, dreg := 0 }))
  else
    let body := State.contourCopied r.line r.part r.grid r.slot r.x r.y (State.tmethBody r) (State.again (.tmethInvocation r))
    if isPeer r.line then .next (if s.peerAllows r.part r.line then body s else (s.asyncErr r.grid).partDone r.op 1)
    else .next (s.anvilGate r.line r.part r.c (.tmethInvocation r) body)

/-! ### `tsample` (R266, R277) -/

/-- The fence of a lane as the value that every counted (draw, ordinal) lies below: F + 1, or the lane's own where that is
lower. -/
def State.fenceOf (s : State) (F p : Nat) : Nat :=
  if s.tm.kind = .fragment then min (F + 1) (2 ^ 32 * drawNumber s.dw + (s.gr.frag.rd p).ord) else F + 1

def State.tsample (settle : Bool) (d a k : Nat) (s : State) : State :=
  let m := s.act
  let ctl := s.sr (k + 1)
  let n := fld ctl.toNat 0 4
  let t := (s.slot s.pt n).rec_
  let nw := recWords t
  if m = 0 then s.adv 2
  else if s.full s.fa then s.stall
  else s.targetChecks n [(1, !(s.slot s.pt n).bound), (5, s.gr.vc < d + nw), (6, ctl.toNat / 16 != 0)]
    (State.sram m [a] fun s =>
      let w (p : Nat) : W32 := s.gr.vr a p
      let ok (p : Nat) : Bool := !(w p).getLsbD 31 && pixX (w p) < recWidth t && pixY (w p) < recHeight t && pixS (w p) < recSamples t
      let ins := (positions m).filter ok
      let outs := (positions m).filter fun p => !ok p
      let word (p : Nat) : Nat := sampleWord t (pixInLine t (pixX (w p)) (pixY (w p))) (pixS (w p))
      s.access 13 true false false 1 (ins.map fun p => (p, lineVa t 0 (pixX (w p)) (pixY (w p)) + BitVec.ofNat 64 (4 * word p))) (fun hs s =>
        let id := s.nextId
        let zs := outs.flatMap fun p => (List.range nw).map fun i => 64 * (d + i) + p
        let s := s.issue { s.op0 with
          kind := .sample, flag := s.fa, returning := true, cls := 1, need := ins.length, lanes := m, todo := zs, pclr := maskOf outs
          vas := hs.foldl (fun (v : TMap W64) h => v.wr h.pos h.ea) [] }
        let s := (ins.zip hs).foldl (fun s e => s.soon (.tsampleRead
          { core := s.cr, part := s.pt, op := id, lane := e.1, line := e.2.pa / 128, pix := pixInLine t (pixX (w e.1)) (pixY (w e.1))
            word := word e.1, nwords := nw, fence := s.fenceOf (s.sr k).toNat e.1, settle := settle, c := e.2.c, dreg := d })) s
        ((s.timePeers id (hs.map (·.pa / 128))).readyIfDone id).adv 2))

def execTsample (d a : Fin 128) (k : Fin 64) (s : State) : Res := .next (s.tsample false d a k)
def execTsampleSettle (d a : Fin 128) (k : Fin 64) (s : State) : Res := .next (s.tsample true d a k)

/-- A pixel of a line is settled for a fence (R266). -/
def State.settled (s : State) (line pix fence : Nat) : Bool :=
  !(s.noticesOf line).any fun e => 2 ^ 32 * e.draw + e.ord < fence && e.mask.getLsbD pix

/-- The reads of an instruction on a line that have yet to be served, `r` first: the slice serves them in one access (R140). -/
def State.lineReads (s : State) (r : TsReq) : List TsReq :=
  r :: s.agenda.filterMap fun p => match p.ev with
    | .tsampleRead q => if q.op = r.op ∧ q.line = r.line ∧ q ≠ r then some q else none
    | _ => none

/-- Those reads can be served: for a `.settle`, every pixel is settled (DEDUCED, log entry 109). -/
def State.readsSettled (s : State) (r : TsReq) : Bool := !r.settle || (s.lineReads r).all fun q => s.settled q.line q.pix q.fence

/-- One lane's words and bit, as the slice holds them. -/
def State.sampleLane (r : TsReq) (s : State) : State :=
  let ok := s.settled r.line r.pix r.fence
  let ws := (List.range r.nwords).map (r.word + ·)
  let bit : W64 := 1#64 <<< r.lane
  if ws.any fun w => (s.homePsn r.line).getLsbD (w / 8) then (s.poisoned r.op r.lane (s.ops.rd r.op).grid).partDone r.op 1
  else
    let s := s.answer r.op r.lane r.dreg (ws.map (lineWord (s.homeLine r.line)))
    (s.modOp r.op fun o => { o with pset := if ok then o.pset ||| bit else o.pset, pclr := if ok then o.pclr else o.pclr ||| bit }).partDone r.op 1

/-- The reads of one instruction on one line, at the home slice. -/
def execTsampleRead (r : TsReq) (s : State) : Res :=
  if isPeer r.line && !s.peerAllows r.part r.line then
    .next ((s.refusedAt r.op r.lane (s.ops.rd r.op).grid).partDone r.op 1)
  else .next (s.atHome r.line r.part r.c (.tsampleRead r) (fun s =>
    if !s.readsSettled r then s.again (.tsampleRead r)
    else
      let qs := s.lineReads r
      qs.foldl (fun s q => s.sampleLane q) ({ s with agenda := s.agenda.filter fun p => !qs.any fun q => p.ev == Ev.tsampleRead q }.recent r.line)))

/-! ### `tex` and `texf` (R268, R278) -/

/-- A texel with its weight: level, coordinates. -/
structure Texel where
  l : Nat
  i : Nat
  j : Nat
  w : Nat
  deriving DecidableEq, Repr, Inhabited

/-- A finite value times 2^k, floored; infinities and NaN as far as any clamp. -/
def floorF (v : FVal) (k : Nat) : Int :=
  match v with
  | .num neg m e => FVal.at_ neg m e (min e (-(k : Int))) / (2 ^ (-(min e (-(k : Int))) - k).toNat : Nat)
  | .inf neg => if neg then -(2 ^ 200) else 2 ^ 200
  | .nan => 0

def clampI (lo hi x : Int) : Nat := (max lo (min hi x)).toNat

/-- The texels that a filter reads and their weights: 65,536 in all for one level, 16,777,216 for two; 1 for a point. -/
def texPlan (r : BitVec 512) (filter : Nat) (u v lam : W32) : List Texel :=
  let levels := recField r 108 4 + 1
  let val (x : W32) : FVal := match f32p.val x.toNat with
    | .nan => .num false 0 0
    | y => y
  let l := clampI 0 (levels - 1) (floorF (val lam) 0)
  let prod (x : W32) (n : Nat) : FVal := match mulVal (val x) (.num false n 0) with
    | some y => f32p.val (f32p.rne y).1
    | none => .num false 0 0
  let axis (x : W32) (n : Nat) : List (Nat × Nat) :=
    let X := floorF (prod x n) 8 - 128
    let f := (X % 256).toNat
    [(clampI 0 (n - 1) (X / 256), 256 - f), (clampI 0 (n - 1) (X / 256 + 1), f)]
  let bil (l k : Nat) : List Texel :=
    let (w, h) := levelSize r l
    (axis v h).flatMap fun b => (axis u w).map fun a => { l := l, i := a.1, j := b.1, w := a.2 * b.2 * k }
  let all : List Texel := match filter with
    | 0 => let (w, h) := levelSize r l
      [{ l := l, i := clampI 0 (w - 1) (floorF (prod u w) 0), j := clampI 0 (h - 1) (floorF (prod v h) 0), w := 1 }]
    | 1 => bil l 1
    | _ =>
      let neg := match val lam with
        | .num n m _ => n && m != 0
        | .inf n => n
        | .nan => false
      let lf := if neg || l + 1 = levels then 0 else fld (floorF (val lam) 8 - 256 * l).toNat 0 8
      bil l (256 - lf) ++ if lf = 0 then [] else bil (l + 1) lf
  all.filter (·.w != 0)

/-- The exact channels of a sample's words: k for k / 255 in an RGBA8 target. -/
def texelChannels (r : BitVec 512) (ws : List W32) : List (Option FVal) :=
  let w (i : Nat) : Nat := (ws.getD i 0).toNat
  let h (i k : Nat) : Option FVal := some ((Fmt.p .f16).val (fld (w i) (16 * k) 16))
  match recField r 96 3 with
  | 0 => (List.range 4).map fun c => some (.num false (fld (w 0) (8 * c) 8) 0)
  | 1 => [h 0 0, h 0 1, h 1 0, h 1 1]
  | 4 => [h 0 0, h 0 1, none, none]
  | _ => [some (f32p.val (w 0)), none, none, none]

/-- The four results of `tex` from its texels with their words. -/
def texResult (r : BitVec 512) (ts : List (Texel × List W32)) : List W32 :=
  let total := (ts.map (·.1.w)).sum
  (List.range 4).map fun c =>
    let vs := ts.map fun t => (t.1.w, (texelChannels r t.2).getD c none)
    if recField r 96 3 = 0 then
      ratF32 (vs.foldl (fun (n : Int) v => match v.2 with
        | some (.num _ m _) => n + v.1 * m
        | _ => n) 0) (255 * total)
    else match vs.head? with
      | some (_, some _) =>
        match sumTerms (vs.filterMap fun v => v.2.bind fun x => mulVal x (.num false v.1 0)) with
        | .invalid => BitVec.ofNat 32 f32p.nan
        | .val (.num n m e) => BitVec.ofNat 32 (f32p.rne (.num n m (e - total.log2))).1
        | .val x => BitVec.ofNat 32 (f32p.rne x).1
      | _ => if c = 3 then 0x3F800000 else 0

/-- Where word `w` of a sample stands, in a level. -/
def sampleVa (r : BitVec 512) (l x y sm w : Nat) : W64 := lineVa r l x y + BitVec.ofNat 64 (4 * (sampleWord r (pixInLine r x y) sm + w))

/-- Position under which word `w` of texel `j` of a lane is held. -/
def texKey (j w nw p : Nat) : Nat := 256 + 64 * (j * nw + w) + p

/-- The reads of texels through the L1; `ins` keeps what the operation computes from at its retirement. -/
def State.texRead (kind : OpKind) (r : BitVec 512) (ls : List (Nat × W64)) (ins : List (Nat × W64)) (s : State) : State :=
  let m := s.act
  s.access 13 true false false 1 ls (fun hs s =>
    if s.mustWait false true 4 hs then s.stall
    else
      let id := s.nextId
      ((s.startLoad kind false hs).modOp id fun o => { o with
        lanes := m, rec_ := r, sres := ins.foldl (fun (t : TMap W64) e => t.wr e.1 e.2) [] }).adv 2)

def execTex (d a : Fin 128) (b : SclB) (s : State) : Res :=
  let w := s.bLow b
  let n := fld w 0 4
  let filter := fld w 4 2
  let t := (s.slot s.pt n).rec_
  let nw := recWords t
  let m := s.act
  if m = 0 then .next (s.adv 2)
  else if s.full s.fa then .next s.stall
  else .next (s.targetChecks n
    [(1, !(s.slot s.pt n).bound), (5, s.gr.vc < d.val + 4 || s.gr.vc < a.val + 3), (6, filter == 3 || w / 64 != 0), (7, recSamples t != 1)]
    (State.sram m [a.val, a.val + 1, a.val + 2] fun s =>
      let arg (p i : Nat) : W32 := s.gr.vr (a + i) p
      let ls := (positions m).flatMap fun p =>
        ((texPlan t filter (arg p 0) (arg p 1) (arg p 2)).mapIdx fun j x =>
          (List.range nw).map fun i => (texKey j i nw p, sampleVa t x.l x.i x.j 0 i)).flatten
      s.texRead (.tex n filter d) t ls ((positions m).flatMap fun p => (List.range 3).map fun i => (4 * p + i, (arg p i).setWidth 64))))

/-- The pixel word, and the level, name a sample of a target (R278). -/
def texfInside (r : BitVec 512) (l : Nat) (w : W32) : Bool :=
  l ≤ recField r 108 4 && !w.getLsbD 31 && pixX w < (levelSize r l).1 && pixY w < (levelSize r l).2 && pixS w < recSamples r

def execTexf (d a : Fin 128) (b : SclB) (s : State) : Res :=
  let w := s.bLow b
  let n := fld w 0 4
  let l := fld w 4 4
  let t := (s.slot s.pt n).rec_
  let nw := recWords t
  let m := s.act
  if m = 0 then .next (s.adv 2)
  else if s.full s.fa then .next s.stall
  else .next (s.targetChecks n [(1, !(s.slot s.pt n).bound), (5, s.gr.vc < d.val + nw), (6, w / 256 != 0)]
    (State.sram m [a.val] fun s =>
      let px (p : Nat) : W32 := s.gr.vr a p
      let ls := ((positions m).filter fun p => texfInside t l (px p)).flatMap fun p =>
        (List.range nw).map fun i => (texKey 0 i nw p, sampleVa t l (pixX (px p)) (pixY (px p)) (pixS (px p)) i)
      s.texRead (.texf n l d) t ls ((positions m).map fun p => (4 * p, (px p).setWidth 64))))

/-- The registers that a `tex` or `texf` writes when it retires: register 64 r + p, and the word. -/
def texOut (o : Op) : List (Nat × W32) :=
  let nw := recWords o.rec_
  let arg (p i : Nat) : W32 := (o.sres.rd (4 * p + i)).setWidth 32
  let words (j p : Nat) : List W32 := (List.range nw).map fun i => BitVec.ofNat 32 (o.bytesAt (o.pas.rd (texKey j i nw p)) 4)
  match o.kind with
  | .tex _ filter d => (positions o.lanes).flatMap fun p =>
      let plan := texPlan o.rec_ filter (arg p 0) (arg p 1) (arg p 2)
      (texResult o.rec_ (plan.mapIdx fun j x => (x, words j p))).mapIdx fun i w => (64 * (d + i) + p, w)
  | .texf _ l d => (positions o.lanes).flatMap fun p =>
      (if texfInside o.rec_ l (arg p 0) then words 0 p else List.replicate nw 0).mapIdx fun i w => (64 * (d + i) + p, w)
  | _ => []

end Sys2Proof.Machine
end

