-- ==== Sys2Proof/Machine/Frames.lean ====
section
/-! DEFINITION. Accesses that hardware makes for itself, context frames (R128, R334), the saves and restores of groups (R307,
R320 to R323), fault records (R327), and the end of teams whose trap is handed off (R333). -/

namespace Sys2Proof.Machine

/-! ### Hardware's own accesses through a partition's tables -/

/-- A translation made for hardware. -/
inductive HwAcc where
  | ok (pa : Nat) (c : Bool)
  | fault | prot
  /-- a line of the page tables is served to nobody now: the access comes again -/
  | wait
  deriving DecidableEq, Repr

def State.hwXlate (part : Nat) (va : W64) (w : Bool) (s : State) : State × HwAcc :=
  match s.walkNow part va (!w) w with
  | (s, .ok _ _, pa, c) => (s, .ok pa c)
  | (s, .fault, _, _) => (s, .fault)
  | (s, .prot, _, _) => (s, .prot)
  | (s, .busy, _, _) => (s, .wait)

/-- What a home-slice read of hardware finds. -/
inductive HwVal where
  | ok (v : Nat)
  | fault | prot
  /-- its home slice does not serve it now: the read comes again -/
  | wait
  deriving DecidableEq, Repr

/-- `n` bytes that lie in one line, read at the home slice as a number; a poisoned sector reads as PROT does (R374), and so does a peer's
line that its grants refuse (R355; DEDUCED, log entry 133). The read waits at the home slice as every read does, and starts the recall of a
held line (R144); a line that is absent waits for the partition's bandwidth (R130). -/
def State.hwRead (part : Nat) (va : W64) (n : Nat) (s : State) : State × HwVal :=
  match s.hwXlate part va false with
  | (s, .ok pa c) =>
    let line := pa / 128
    if isPeer line && !s.peerAllows part line then (s, .prot)
    else if s.busy line || (!s.present line && s.memHeld line part) then (s.recall [line], .wait)
    else
      let s := (s.fillLine line part c).recent line
      let psn := s.homePsn line
      if (List.range n).any fun i => psn.getLsbD ((pa % 128 + i) / 32) then (s, .prot)
      else (s, .ok (lineBytes (s.homeLine line) (pa % 128) n))
  | (s, .fault) => (s, .fault)
  | (s, .prot) => (s, .prot)
  | (s, .wait) => (s, .wait)

/-- `n` bytes at an aligned address of any length, line by line. -/
def State.hwReadLines (part : Nat) (va : W64) : Nat → State → State × HwVal
  | 0, s => (s, .ok 0)
  | n + 1, s => match s.hwRead part va 128 with
    | (s, .ok v) => match hwReadLines part (va + 128) n s with
      | (s, .ok w) => (s, .ok (v + 2 ^ 1024 * w))
      | r => r
    | r => r

/-- A write of `n` bytes of one line by the front end of a die, as one event at its home slice, posted. -/
def State.hwPost (die part pa n v : Nat) (c : Bool) (s : State) : State :=
  s.soon (.writeThrough
    { core := noOwner, die := die, part := part, line := pa / 128, bytes := BitVec.ofNat 128 ((2 ^ n - 1) * 2 ^ (pa % 128))
      data := BitVec.ofNat 1024 (fld v 0 (8 * n) * 2 ^ (8 * (pa % 128))), c := c, own := true, upd := false, op := 0, seq := 0 })

/-- The same performed at once, with the owners revoked. -/
def State.hwWrite (part pa n v : Nat) (c : Bool) (s : State) : State :=
  let b : BitVec 128 := BitVec.ofNat 128 ((2 ^ n - 1) * 2 ^ (pa % 128))
  (s.revokeWords (pa / 128) (bytesWords b) noOwner 0).1.writeHome (pa / 128) part (BitVec.ofNat 1024 (fld v 0 (8 * n) * 2 ^ (8 * (pa % 128)))) b c

/-! ### The frame (R334) -/

/-- Bytes of a frame that a save writes. -/
def Group.frameHas (y : Group) (tiles : BitVec 16) (o : Nat) : Bool :=
  o < 0x20 || (0x40 ≤ o && o < 0x100) || (0x200 ≤ o && o < 0xC80) ||
    (0x1000 ≤ o && o < 0x9000 && (o - 0x1000) / 256 < y.vc && (o - 0x1000) % 256 / 4 < y.width) ||
    (0x9000 ≤ o && o < 0xB000 && tiles.getLsbD ((o - 0x9000) / 512)) || (privBase ≤ o && o < privBase + privLen)

/-- Byte `o` of a group's frame. `seed` names the free bytes: the private areas, the state in a split record, the team area's
address of a group whose team is not saved, and what the layout leaves unnamed. A split record holds the header address, the
index, the mask and the state in 8 bytes each (DEDUCED, log entry 30). -/
def frameByte (s : State) (g kind seed o : Nat) : W8 :=
  let y := s.groups.rd g
  let sp (i : Nat) : Split := s.splits.rd (4 * g + i)
  let at_ (base v : Nat) : W8 := BitVec.ofNat 8 (v / 256 ^ (o - base))
  let free : W8 := Config.privByte seed o
  if o < 8 then
    at_ 0 (y.frameHeader kind (crc32c privLen fun i => Config.privByte seed (privBase + i)))
  else if o < 0x10 then free
  else if o < 0x18 then at_ 0x10 (fld (s.teams.rd (g / 128)).teamId 0 16 + 2 ^ 16 * (g % 128) + 2 ^ 24 * y.core)
  else if o < 0x20 then at_ 0x18 y.fpstat.toNat
  else if 0x40 ≤ o ∧ o < 0xC0 then
    let x := sp ((o - 0x40) / 32)
    let r := (o - 0x40) % 32
    let b (v : Nat) : W8 := BitVec.ofNat 8 (v / 256 ^ (r % 8))
    if r < 8 then b x.pc.toNat else if r < 16 then b x.idx else if r < 24 then b x.lanes.toNat else free
  else if 0xC0 ≤ o ∧ o < 0x100 then BitVec.ofNat 8 ((y.unf.rd ((o - 0xC0) / 16)).toNat / 256 ^ ((o - 0xC0) % 16))
  else if 0x200 ≤ o ∧ o < 0xA00 then
    BitVec.ofNat 8 (((sp ((o - 0x200) / 512)).s.rd ((o - 0x200) % 512 / 8)).toNat / 256 ^ (o % 8))
  else if 0xA00 ≤ o ∧ o < 0xC00 then BitVec.ofNat 8 ((y.pr ((o - 0xA00) / 8)).toNat / 256 ^ (o % 8))
  else if 0xC00 ≤ o ∧ o < 0xC80 then BitVec.ofNat 8 ((y.bank.rd ((o - 0xC00) / 8)).toNat / 256 ^ (o % 8))
  else if 0x1000 ≤ o ∧ o < 0x9000 then BitVec.ofNat 8 ((y.vr ((o - 0x1000) / 256) ((o - 0x1000) % 256 / 4)).toNat / 256 ^ (o % 4))
  else if 0x9000 ≤ o ∧ o < 0xB000 then BitVec.ofNat 8 ((y.tile.rd ((o - 0x9000) / 4)).toNat / 256 ^ (o % 4))
  else free

/-- Tiles that a save of a kind keeps: those a `ppoint` named, or all below the launch's count (R240, R241). -/
def Group.keptTiles (y : Group) (kind : Nat) : BitVec 16 :=
  BitVec.ofNat 16 (2 ^ y.tc - 1) &&& if kind = 2 ∨ kind = 3 then y.rMask else BitVec.allOnes 16

/-- The registers as a frame lays them out: s56 to s63 and p56 to p63 of the program among its registers, and the handler's bank
apart, in handler mode too (R334; DEDUCED, log entry 30). -/
def State.frameView (g : Nat) (s : State) : State :=
  let h := (s.groups.rd g).handler
  if h = 0 then s else s.swapBank (4 * g + (h - 1))

/-- A frame is written as WB stores of the group's core; none where it cannot be. -/
def State.writeFrame (g kind : Nat) (s : State) : Option State :=
  let y := s.groups.rd g
  (s.drawn 1).hwStores y.core (groupPart s g)
    (frameLines y.frame (y.frameHas (y.keptTiles kind)) (frameByte (s.frameView g) g kind s.tick))

/-- The public registers of a group, laid out as a frame lays them out, as its frame holds them; tiles that the save did not keep are zero. A split whose record
the supervisor has changed starts at the header and the instruction that it names now. -/
def State.readRegs (g : Nat) (s : State) : State :=
  let y := s.groups.rd g
  let p := groupPart s g
  let rd (o n old : Nat) : Nat := (s.coreRead y.core p (y.frame + BitVec.ofNat 64 o) n).getD old
  let kept := y.keptTiles y.saveKind
  let vs := (List.range y.vc).flatMap fun r => (List.range y.width).map fun q => (64 * r + q, BitVec.ofNat 32 (rd (0x1000 + 256 * r + 4 * q) 4 (y.vr r q).toNat))
  let ts := ((List.range y.tc).filter kept.getLsbD).flatMap fun t => (List.range 128).map fun w =>
    (128 * t + w, BitVec.ofNat 32 (rd (0x9000 + 512 * t + 4 * w) 4 (y.tile.rd (128 * t + w)).toNat))
  let put {α : Type} [Inhabited α] [DecidableEq α] (m : TMap α) (es : List (Nat × α)) : TMap α := es.foldl (fun m e => m.wr e.1 e.2) m
  let s := s.modGroup g fun y => { y with
    fpstat := BitVec.ofNat 64 (fld (rd 0x18 8 y.fpstat.toNat) 0 6)
    v := put y.v vs
    tile := put [] ts
    unf := put y.unf ((List.range 4).map fun n => (n, BitVec.ofNat 128 (rd (0xC0 + 16 * n) 16 (y.unf.rd n).toNat)))
    p := put y.p (((List.range 64).drop 1).map fun n => (n, BitVec.ofNat 64 (rd (0xA00 + 8 * n) 8 (y.p.rd n).toNat)))
    bank := put y.bank ((List.range 16).map fun n => (n, BitVec.ofNat 64 (rd (0xC00 + 8 * n) 8 (y.bank.rd n).toNat))) }
  (List.range 4).foldl (fun s i => s.modSplit (4 * g + i) fun x =>
    if !x.live then x
    else
      let pc := BitVec.ofNat 64 (rd (0x40 + 32 * i) 8 x.pc.toNat)
      let idx := rd (0x48 + 32 * i) 8 x.idx
      let x := { x with
        lanes := BitVec.ofNat 64 (rd (0x50 + 32 * i) 8 x.lanes.toNat)
        s := put x.s ((List.range 64).map fun n => (n, BitVec.ofNat 64 (rd (0x200 + 512 * i + 8 * n) 8 (x.s.rd n).toNat))) }
      if pc = x.pc ∧ idx = x.idx then x
      else { x with pc := pc, code := [], begun := false, count := 0, idx := 0, off := 0, skip := idx % 24, phase := 0, aux := 0, xl := [], wait := .ready }) s

/-- The same for the group as it runs. -/
def State.readFrame (g : Nat) (s : State) : State := ((s.frameView g).readRegs g).frameView g

/-- The CRC of a frame as it stands matches its header (R334, R349). -/
def State.frameOk (s : State) (core part : Nat) (va : W64) : Bool :=
  let byte (o : Nat) : Option Nat := s.coreRead core part (va + BitVec.ofNat 64 o) 1
  match s.coreRead core part va 8 with
  | none => false
  | some h =>
    (List.range privLen).all (fun i => (byte (privBase + i)).isSome) &&
      fld h 32 32 == (crc32c privLen fun i => BitVec.ofNat 8 ((byte (privBase + i)).getD 0)).toNat

/-! ### Fault records (R128, R327) -/

/-- The 32 bytes of a record, as a number. -/
def FaultInfo.bytes (f : FaultInfo) : Nat :=
  f.addr.toNat + 2 ^ 64 * f.frame.toNat + 2 ^ 128 * fld f.team 0 32 + 2 ^ 160 * fld f.core 0 16 + 2 ^ 176 * fld f.group 0 8 +
    2 ^ 184 * fld f.kind 0 8 + 2 ^ 192 * f.lanes.toNat

/-- The oldest waiting record can be posted: FAULT_Q is set and its ring is not full. -/
def State.faultReady (s : State) (part : Nat) : Bool :=
  let n := fld (s.preg part 4).toNat 48 4
  (s.parts.rd part).waiting != [] && s.preg part 4 != 0 &&
    (s.preg part 5 - s.preg part 6).toNat < 2 ^ n

/-- A report record of the service. -/
def State.report (r : Report) (s : State) : State := { s with reports := s.reports ++ [r] }

/-! ### The end of a grid by hand-off (R333) -/

/-- Every lane of a team dies: fragment lanes send the null posts they owe; its operations run to their end, their results
discarded. -/
def State.killTeam (t : Nat) (s : State) : State :=
  let cur := s.cur
  let s := (teamGroups s t).foldl (fun s g =>
    if !(s.groups.rd g).live then s
    else
      let s := ({ s with cur := 4 * g }).nullPosts (groupLanes s g)
      let s := (groupSplits g).foldl (fun s k => ((s.orphans k).freeSlot k).modSplit k fun _ => {}) s
      s.endGroup g) s
  let part := groupPart s (128 * t)
  ({ s with cur := cur }.modTeam t fun x => { x with rg := [], path := x.path }).modPart part fun p =>
    { p with rallocQ := p.rallocQ.filter fun k => k / 512 != t }

/-- Live teams of a grid. -/
def gridTeams (s : State) (grid : Nat) : List Nat := (s.teams.filter fun e => e.2.live && e.2.grid == grid).map (·.1)

/-- The grid and every grid descended from it by `launch`, and for a draw its two grids. -/
def gridFamily (s : State) : Nat → List Nat → List Nat
  | 0, gs => gs
  | f + 1, gs =>
    let more := (s.grids.filter fun e => e.2.live && !gs.contains e.1 && gs.any fun g =>
      e.2.parent == g + 1 || (e.2.draw != 0 && e.2.draw == (s.grids.rd g).draw)).map (·.1)
    if more = [] then gs else gridFamily s f (gs ++ more)
def State.family (s : State) (grid : Nat) : List Nat := gridFamily s (s.grids.length + 1) [grid]

/-- A draw stops: nothing more of it is launched, and the notice entries of fragments never launched are cleared as null posts
clear them (R257). -/
def State.stopDraw (d : Nat) (s : State) : State :=
  let x := s.draws.rd d
  let n := drawNumber x
  let s : State := { s with
    agenda := s.agenda.filter fun p => match p.ev with
      | .noticeEntry e => e.key != d
      | .primitiveAssembly i _ | .rasterTileBegin i | .rasterPageFault i | .fragmentGroupLaunch i => i != d
      | _ => true }
  let s := (x.quads ++ x.newQuads).foldl (fun s q => q.frags.foldl (fun s f =>
    if f.helper || !f.live then s
    else f.lines.foldl (fun s l => s.soon (.nullPost
      { core := 0, part := x.part, op := 0, grid := x.vgrid, slot := l.1, line := l.2, x := f.x, y := f.y, draw := n, ord := f.ord
        cov := 0, words := [], c := false, key := d })) s) s) s
  s.modDraw d fun x => { x with quads := [], newQuads := [], notices := 0, rasterDone := true, stopped := false, parked := false }

/-- Every team of these grids is ended and no more are placed. -/
def State.endGrids (gs : List Nat) (s : State) : State :=
  let s := gs.foldl (fun s g => s.modGrid g fun x => { x with placed := x.teams }) s
  let ds := (gs.map fun g => (s.grids.rd g).draw).eraseDups.filter (· != 0)
  let s := ds.foldl (fun s d => s.stopDraw d) s
  let s := (gs.flatMap (gridTeams s)).foldl (fun s t => s.killTeam t) s
  let dead (i : Nat) : Bool := gs.contains (s.graphs.rd i).grid
  let s : State := { s with graphs := s.graphs.map fun (e : Nat × Graph) => (e.1, if dead e.1 then { e.2 with ready := [], nodes := e.2.nodes.map fun n => (n.1, { n.2 with queued := [] }) } else e.2) }
  let s : State := { s with parts := s.parts.map fun (e : Nat × Part) => (e.1, { e.2 with
    spilled := e.2.spilled.filter fun g => !gs.contains g
    wg := e.2.wg.filter fun w => !(w.2.st == .queued && dead w.2.graph) }) }
  s

/-- A trap goes to the service: it ends the trapping grid and its descendants, or has the launch that carries the snapshot
rolled back (R333, R342). -/
def State.handOff (grid : Nat) (code : W64) (t : Trap) (f : FaultInfo) (s : State) : State :=
  let g := s.grids.rd grid
  let s := s.report { part := g.part, code := code, trap := t, fault := f }
  let root := s.grids.rd g.root
  if g.snap && !root.unprotected && !root.replayed then (s.ask (.snapshotRollback g.root))
  else
    let fam := s.family grid
    let s := fam.foldl (fun s i => s.modGrid i fun x => { x with trapped := true, admitted := true }) s
    s.endGrids fam

def execTrapHandoff (split : Nat) (s : State) : Res :=
  match (s.splits.rd split).wait with
  | .handing t code =>
    let grid := (s.teams.rd (split / 512)).grid
    let root := s.grids.rd (s.grids.rd grid).root
    if (s.grids.rd grid).snap && !root.unprotected && !root.replayed then
      .next ((s.modSplit split fun x => { x with wait := .saved }).handOff grid code t {})
    else .next (s.handOff grid code t {})
  | _ => .next s

/-- The group's register-returning operations have retired: the trapping split enters its handler (R331). -/
def execTrapEntry (split : Nat) (s : State) : Res :=
  match (s.splits.rd split).wait with
  | .trapping t => if returning s (split / 4) then .next s else .next (s.enterTrap split t)
  | _ => .next s

/-! ### Saving a group -/

/-- Rays of a group that a `rtrace` or `rnext` still traces, whatever becomes of its results (R292). -/
def tracing (s : State) (g : Nat) : Bool := s.ops.any fun e => e.2.live && e.2.split / 4 == g && e.2.kind == .ray

/-- The group's regroup unit has fired, and the group does not run again yet (R294). -/
def resuming (s : State) (g : Nat) : Bool :=
  (liveSplits s g).any fun k => (s.splits.rd k).wait == .regroup && !(s.teams.rd (g / 128)).rg.any (·.group == g)

/-- A full save waits for the next clause boundary of each split, or finds it waiting at an instruction; every save waits until
the matrix operations (R241) and the ray queries (R292) have retired, and but for a rollback until the register-returning ones have
(R128). -/
def saveDue (s : State) (g : Nat) : Bool :=
  let y := s.groups.rd g
  y.live && !y.saved && y.saveKind != 0 && y.mtx == [] && !tracing s g && (y.saveKind == 3 || !returning s g) &&
    (y.saveKind != 4 || (!resuming s g && (liveSplits s g).all fun k => !(s.splits.rd k).begun || !inSlot s k))

/-- The scalar registers that the lowest lane of a mask has as its group stands: those of its split, or those that a reconvergence entry
keeps for it (R54, R55). -/
def State.scalarsOf (s : State) (g : Nat) (m : W64) (old : TMap W64) : TMap W64 :=
  let p := lowest m
  match (liveSplits s g).find? fun k => (s.splits.rd k).lanes.getLsbD p with
  | some k => (s.splits.rd k).s
  | none => match (s.groups.rd g).entries.find? fun e => e.2.dlanes.getLsbD p || e.2.arrived.getLsbD p with
    | some e => if e.2.dlanes.getLsbD p then e.2.ds else e.2.s
    | none => old

/-- A rollback (R323), made at the request (R322): the group's dirty words are dropped, its splits go back to the region's start with
the lanes that still live, the results of its operations are discarded, matrix operations among them, which run to their end. Its frame is
written later. A split whose lanes have met others or parted since keeps the scalar registers of its lowest live lane (DESIGN CHOICE, log
entry 134). -/
def State.rollback (g : Nat) (s : State) : State :=
  let y := s.groups.rd g
  let alive := groupLanes s g
  let drop (c : Core) : Core := { c with l1 := c.l1.map fun e =>
    let m : W32 := (e.2.tag.filter fun t => t.2 == g + 1).foldl (fun m t => m ||| (1#32 <<< t.1)) 0
    (e.1, { e.2.untag m with valid := e.2.valid &&& ~~~m, dirty := e.2.dirty &&& ~~~m, owned := e.2.owned &&& ~~~m }) }
  let s0 := s
  let s := s.modCore y.core drop
  let s := (groupSplits g).foldl (fun s k =>
    let old := y.rSplits.rd (k % 4)
    let m := old.lanes &&& alive
    (s.freeSlot k).modSplit k fun _ => if old.live && m != 0 then { old with lanes := m, s := s0.scalarsOf g m old.s, wait := match old.wait with
        | .cond _ => .ready
        | w => w } else {}) s
  let s : State := { s with ops := s.ops.map fun (e : Nat × Op) => (e.1, if e.2.split / 4 = g then { e.2 with discard := true } else e.2) }
  let s : State := { s with agenda := s.agenda.filter fun p => p.ev != .regroupResume g }
  let s := (s.modTeam (g / 128) fun t => { t with rg := t.rg.filter (·.group != g) }).modPart (groupPart s g) fun p =>
    { p with rallocQ := p.rallocQ.filter fun k => k / 4 != g }
  (s.modGroup g fun y => { (y.settle y.lastDue) with
    entries := y.rEntries.map fun e => (e.1, { e.2 with arrived := e.2.arrived &&& alive, dlanes := e.2.dlanes &&& alive, spilled := false })
    unf := y.rUnf, unfSet := y.rUnfSet, flags := [], saveKind := 3 }).coreEv y.core (groupPart s g) 0x0A 1

/-- The group's context goes to a frame; with none free the save waits (R128), and while a line of its page tables is served to nobody
(R144, R179). A frame that cannot be written ends the group, and the fault is handed off (R334). A group parked at `regroup` leaves the
unit and executes the `regroup` anew once it is restored (DESIGN CHOICE, log entry 132). -/
def execPageFaultSave (group : Nat) (s : State) : Res :=
  let y := s.groups.rd group
  let part := groupPart s group
  if !saveDue s group then .next s
  else match s.takeFrame group with
    | none => .next s
    | some s =>
      let s := s.modGroup group fun y => y.settle y.lastDue
      let va := (s.groups.rd group).frame
      match s.frameBusy part va, s.writeFrame group y.saveKind with
      | ls@(_ :: _), _ => .next (s.recall ls)
      | [], none =>
        let grid := (s.teams.rd (group / 128)).grid
        let s := (groupSplits group).foldl (fun s k => ((s.orphans k).freeSlot k).modSplit k fun _ => {}) s
        .next ((s.endGroup group).handOff grid 0 { cause := .prot, addr := va } y.fault)
      | [], some s =>
        let s := (groupSplits group).foldl (fun s k => (s.freeSlot k).modSplit k fun x => match x.wait with
          | .faulting => { x with wait := .ready }
          | .cond (.slots _) => { x with wait := .ready }
          | .regroup => { x with wait := .ready }
          | _ => x) s
        let s := s.modTeam (group / 128) fun t => { t with rg := t.rg.filter (·.group != group) }
        let s := s.modPart part fun p => { p with rallocQ := p.rallocQ.filter fun k => k / 4 != group }
        let s := if y.saveKind = 4 then s.coreEv y.core part 0x0C 1 else s
        let s := s.modGroup group fun y => { y with saved := true }
        if y.saveKind = 1 ∨ y.saveKind = 6 then
          .next ((s.modPart part fun p => { p with waiting := p.waiting ++ [{ y.fault with frame := va }] }).ask (.faultRecordPost part))
        else .next (if y.saveKind = 5 then s.uncount (s.teams.rd (group / 128)).grid else s)

/-- The grid that a record's fault belongs to: that of the group whose frame it names, or the owner of the operation, the draw or the ray
that its engine ticket names (R349). A fault of the front end's own has none. -/
def State.recordGrid (s : State) (part : Nat) (f : FaultInfo) : Option Nat :=
  let i := (f.lanes.toNat - 1) / 8
  if f.frame ≠ 0 then (s.teams.find? fun e => e.2.live && (s.grids.rd e.2.grid).part == part &&
    (teamGroups s e.1).any fun g => (s.groups.rd g).frame == f.frame).map (·.2.grid)
  else if f.kind = 16 then none
  else match (f.lanes.toNat - 1) / 2 % 4 with
    | 0 => if (s.ops.rd i).live then some (s.ops.rd i).grid else none
    | 1 => if (s.draws.rd i).live then some (s.draws.rd i).vgrid else none
    | 2 => some (s.teams.rd (i / 64 / 128)).grid
    | _ => none

/-- A record that its ring cannot take: the fault is handed off as PROT (R333), with its fields in the report (R327). -/
def State.recordFails (part : Nat) (va : W64) (f : FaultInfo) (s : State) : State :=
  let t : Trap := { cause := .prot, addr := va }
  match s.recordGrid part f with
  | some g => s.handOff g 0 t f
  | none => s.report { part := part, code := 0, trap := t, fault := f }

/-- A record is posted at FAULT_TAIL, which advances when its 32 bytes have been written: the owners of its words have then acknowledged
their revokes (R141, R370). -/
def execFaultRecordPost (part : Nat) (s : State) : Res :=
  match (s.parts.rd part).waiting with
  | [] => .next s
  | f :: rest =>
    if !s.faultReady part then .next s
    else
      let q := s.preg part 4
      let tail := s.preg part 5
      let va := BitVec.ofNat 64 (fld q.toNat 5 43 * 32 + 32 * (tail.toNat % 2 ^ fld q.toNat 48 4))
      let s0 := s
      let s := s.modPart part fun p => { p with waiting := rest }
      let more (s : State) : State := if rest = [] then s else s.ask (.faultRecordPost part)
      match s.hwXlate part va true with
      | (s, .ok pa c) =>
        if s.held (pa / 128) then .next ((s0.ask (.engineRecall (pa / 128))).ask (.faultRecordPost part))
        else if s.homeWait (pa / 128) then .next (s0.ask (.faultRecordPost part))
        else if (s.homePsn (pa / 128)).getLsbD (pa % 128 / 32) then .next (more (s.recordFails part va f))
        else
          let r := s0.cleared (pa / 128) (bytesWords (BitVec.ofNat 128 ((2 ^ 32 - 1) * 2 ^ (pa % 128)))) noOwner
          .next (if r.2 then more ((s.hwWrite part pa 32 f.bytes c).modPart part fun p => { p with regs := p.regs.wr 5 (tail + 1) })
            else r.1.ask (.faultRecordPost part))
      | (s, .wait) => .next ((s.modPart part fun p => { p with waiting := f :: rest }).ask (.faultRecordPost part))
      | (s, _) => .next (more (s.recordFails part va f))

end Sys2Proof.Machine
end

