-- ==== Sys2Proof/Machine/Admit.lean ====
section
/-! DEFINITION. Room for teams and their placement (R114, R115, R199, R304, R325, R335), and the checks of a LAUNCH record
(R300, R311). -/

namespace Sys2Proof.Machine

/-! ### The partition word (R114) -/

def wWidth (w : W32) : Nat := 16 * 2 ^ fld w.toNat 21 2
def wTiles (w : W32) : Nat := fld w.toNat 16 5
/-- Scratchpad bytes of a team. -/
def wScratch (w : W32) : Nat := 4096 * fld w.toNat 8 8
/-- Vector registers of a lane. -/
def wVregs (w : W32) : Nat := 8 * fld w.toNat 0 8
/-- Every field in its range, no reserved bit set. -/
def wordOk (w : W32) : Bool :=
  fld w.toNat 23 9 == 0 && fld w.toNat 21 2 != 3 && wTiles w ≤ 16 && 8 ≤ wVregs w && wVregs w ≤ 128

/-! ### What a team takes of a core -/

/-- A part of a core: lanes, bytes of vector registers, bytes of scratchpad, tiles, groups, named barriers. -/
structure Use where
  lanes  : Nat := 0
  vb     : Nat := 0
  sb     : Nat := 0
  tiles  : Nat := 0
  groups : Nat := 0
  bars   : Nat := 0
  deriving DecidableEq, Repr, Inhabited

def Use.add (a b : Use) : Use :=
  { lanes := a.lanes + b.lanes, vb := a.vb + b.vb, sb := a.sb + b.sb, tiles := a.tiles + b.tiles, groups := a.groups + b.groups
    bars := a.bars + b.bars }

/-- Bytes of the SRAM pool. -/
def Use.bytes (u : Use) : Nat := u.vb + u.sb + 512 * u.tiles

/-- R114: the share of a launch, for a group and its shadow alike (R343): registers, scratchpad and tiles. That a shadow counts neither
among the 64 groups nor among the 2,048 lanes of its core (R4) is the model's choice (DESIGN CHOICE, log entry 114). -/
def Use.twice (u : Use) : Use := { u with vb := 2 * u.vb, sb := 2 * u.sb, tiles := 2 * u.tiles }

/-- Lanes of group `i` of a team. -/
def laneCount (lanes width i : Nat) : Nat := min width (lanes - i * width)

/-- A team to be placed. -/
structure TeamSpec where
  kind  : TeamKind := .compute
  word  : W32 := 0
  entry : W64 := 0
  lanes : Nat := 0
  bars  : Nat := 0
  pair  : Bool := false
  verify : Bool := false
  teamId : Nat := 0
  node  : Nat := 0
  graph : Nat := 0
  batch : List Nat := []
  deriving DecidableEq, Repr, Inhabited

def TeamSpec.ngroups (x : TeamSpec) : Nat := (x.lanes + wWidth x.word - 1) / wWidth x.word
/-- Groups on the lead core: all, or the lower half of a pair team's. -/
def TeamSpec.onLead (x : TeamSpec) : Nat := if x.pair then (x.ngroups + 1) / 2 else x.ngroups

/-- What the team takes of its core, or of the lead (`odd` false) or the odd core of its pair. -/
def TeamSpec.use (x : TeamSpec) (odd : Bool) : Use :=
  let w := wWidth x.word
  let leadLanes := min x.lanes (x.onLead * w)
  let lanes := if odd then x.lanes - leadLanes else leadLanes
  let groups := if odd then x.ngroups - x.onLead else x.onLead
  let u : Use := { lanes := lanes, vb := lanes * wVregs x.word * 4, sb := if x.pair then wScratch x.word / 2 else wScratch x.word
                   tiles := groups * wTiles x.word, groups := groups, bars := if odd then 0 else x.bars }
  if x.verify then u.twice else u

/-- The share is not more than a core's pool; for a pair team the larger of the two. -/
def TeamSpec.shareOk (x : TeamSpec) : Bool :=
  (x.use false).bytes ≤ Config.poolBytes && (!x.pair || (x.use true).bytes ≤ Config.poolBytes)

/-- What a resident team takes of a core: a saved group has freed its registers and tiles, a saved team its scratchpad and
barriers (R128, R323); a group that has ended counts until its team ends (R58). -/
def teamUse (s : State) (t core : Nat) : Use :=
  let x := s.teams.rd t
  let gs := (teamGroups s t).filter fun g => (s.groups.rd g).core == core && !(s.groups.rd g).saved
  let lanes := (gs.map fun g => laneCount x.lanes x.width (g % 128)).sum
  let here : Bool := core == x.core || (x.pair && core == x.core + 1)
  let u : Use := { lanes := lanes, vb := lanes * x.vregs * 4, tiles := gs.length * x.tiles, groups := gs.length
                   sb := if !here || x.saved then 0 else if x.pair then x.spSize / 2 else x.spSize
                   bars := if core == x.core then x.bars.length else 0 }
  if (s.grids.rd x.grid).verify then u.twice else u

/-- Live teams on a core. -/
def coreTeams (s : State) (core : Nat) : List Nat :=
  (s.teams.filter fun e => e.2.live && (e.2.core == core || (e.2.pair && e.2.core + 1 == core))).map (·.1)
def coreUse (s : State) (core : Nat) : Use := (coreTeams s core).foldl (fun u t => u.add (teamUse s t core)) {}

/-- How many more shares of a kind a core holds. -/
def shareRoom (used u : Use) : Nat :=
  let q (lim have_ x : Nat) : Nat := if x = 0 then 2 ^ 32 else (lim - have_) / x
  min (q 2048 used.lanes u.lanes) (min (q Config.poolBytes used.bytes u.bytes) (min (q 64 used.groups u.groups) (q 32 used.bars u.bars)))

/-- A core's load times 2 MiB (R304). -/
def Use.load (u : Use) : Nat := max (max (u.lanes * 1024) u.vb) (max u.sb (u.tiles * 2048))

/-! ### Pairs (R304, R325, R335) -/

/-- Guaranteed and margin pairs of a partition, by global pair number. -/
def State.guaranteed (s : State) (part p : Nat) : Bool := (s.preg part (0x1A + p / 48)).getLsbD (p % 48)
def State.margin (s : State) (part p : Nat) : Bool := (s.preg part (0x1E + p / 48)).getLsbD (p % 48)
def pairs : List Nat := List.range 192

/-- Partitions with a resident team on a pair. -/
def pairParts (s : State) (p : Nat) : List Nat :=
  (((coreTeams s (2 * p) ++ coreTeams s (2 * p + 1)).filter fun t => !(s.teams.rd t).saved).map fun t => (s.grids.rd (s.teams.rd t).grid).part).eraseDups

/-- TLB entries or L1 lines that another partition has left on a pair, which a scrub removes (R335). -/
def pairDirty (s : State) (part p : Nat) : Bool :=
  [2 * p, 2 * p + 1].any fun c => (s.cores.rd c).tlb.any (·.part != part) || (s.cores.rd c).l1.any fun e => e.2.live && e.2.part != part

/-- A pair of the display reserve (R324). -/
def State.onReserve (s : State) (p : Nat) : Bool := p < 48 && s.reserve.getLsbD p

/-- The queue is the compositor queue of an enabled output. -/
def State.compositor (s : State) (q : Nat) : Bool :=
  [0, 1].any fun n => (s.outs.rd n).ctl.getLsbD 63 && fld (s.outs.rd n).ctl.toNat 50 6 == q

/-- The teams of a grid may use the reserve (R325). -/
def State.reserveOk (s : State) (g : Grid) : Bool :=
  g.kind == .reproj || (g.queue != 0 && s.compositor (g.queue - 1)) || (!g.coop && g.region ≤ s.regionMax)

/-- A pair that may hold a team of a grid, were it free; `own` also counts a margin pair that a borrower still holds. -/
def State.pairFor (s : State) (own : Bool) (g : Grid) (p : Nat) : Bool :=
  (if g.kind == .reproj then s.onReserve p else !s.onReserve p || s.reserveOk g) &&
    (s.guaranteed g.part p ||
      (!g.coop && s.margin g.part p && (own || ((pairParts s p).all (· == g.part) && !pairDirty s g.part p))) ||
      (!g.coop && (s.preg g.part 0x22).getLsbD 0 && g.region ≤ (s.dies.rd (p / 48)).borrowMax &&
        s.parts.any fun e => e.2.live && e.1 != g.part && s.margin e.1 p && !(pairParts s p).contains e.1))

/-! ### The place of a team -/

/-- A group that only room on its core keeps from being restored: new teams leave that room to it (R128). -/
def State.pairKept (s : State) (restores : List Nat) (p : Nat) : Bool := restores.any fun g => (s.groups.rd g).core / 2 == p

/-- Cores, lead cores for a pair team, where the team has room, with the load of each, lowest number first. -/
def places (s : State) (restores : List Nat) (g : Grid) (x : TeamSpec) : List (Nat × Nat) :=
  ((pairs.filter fun p => s.pairFor false g p && !s.pairKept restores p).map fun p =>
    let a := 2 * p
    let b := 2 * p + 1
    let ua := coreUse s a
    let ub := coreUse s b
    if x.pair then
      if shareRoom ua (x.use false) ≠ 0 ∧ shareRoom ub (x.use true) ≠ 0 then [(a, max ua.load ub.load)] else []
    else (if shareRoom ua (x.use false) ≠ 0 then [(a, ua.load)] else []) ++ (if shareRoom ub (x.use false) ≠ 0 then [(b, ub.load)] else [])).flatten

/-- The core of least load. -/
def bestPlace (l : List (Nat × Nat)) : Option Nat :=
  (l.foldl (fun (r : Option (Nat × Nat)) e => match r with
    | none => some e
    | some x => if e.2 < x.2 then some e else some x) none).map (·.1)

/-- How many teams of a cooperative grid its guaranteed pairs hold, empty or as they are (R211). -/
def coopRoom (s : State) (whole : Bool) (restores : List Nat) (g : Grid) (x : TeamSpec) : Nat :=
  ((pairs.filter fun p => s.guaranteed g.part p && (!s.onReserve p || s.reserveOk g) && !s.pairKept restores p).map fun p =>
    let used (c : Nat) : Use := if whole then {} else coreUse s c
    if x.pair then min (shareRoom (used (2 * p)) (x.use false)) (shareRoom (used (2 * p + 1)) (x.use true))
    else shareRoom (used (2 * p)) (x.use false) + shareRoom (used (2 * p + 1)) (x.use false)).sum

/-- Every team of a cooperative grid has room now (R211). -/
def coopFits (s : State) (restores : List Nat) (g : Grid) (x : TeamSpec) : Bool := g.teams ≤ coopRoom s false restores g x
/-- There is room for the next team of a grid, for every team of a cooperative one. -/
def roomFor (s : State) (restores : List Nat) (g : Grid) (x : TeamSpec) : Bool :=
  if g.coop then coopFits s restores g x else places s restores g x != []

/-! ### Placing -/

/-- The next team of a grid. -/
def nextTeam (s : State) (grid : Nat) : TeamSpec :=
  let g := s.grids.rd grid
  { kind := if g.kind = .vertex then .vertex else .compute, word := g.word, entry := g.entry, lanes := g.lanes, bars := g.bars, pair := g.pair
    verify := g.verify, teamId := g.placed, node := if g.graph = 0 then 0 else 1, graph := g.graph }

/-- A lane map from the positions of a team to their virtual numbers + 1 (R113). -/
def identMap (n : Nat) : TMap Nat := (List.range n).map fun i => (i, i + 1)

/-- A team becomes resident on a core (R115, R199): everything reads zero, the random-number state of every lane is seeded
(R103), and the lowest free barriers are its own. The answer is its number. -/
def State.placeTeam (grid : Nat) (x : TeamSpec) (core : Nat) (s : State) : State × Nat :=
  let t := s.nextId
  let w := wWidth x.word
  let bars := ((List.range 32).filter fun n => ((s.cores.rd core).bars.rd n).team == 0).take x.bars
  let s : State := { s with nextId := t + 1 }
  let s := s.modTeam t fun _ => {
    live := true, kind := x.kind, grid := grid, teamId := x.teamId, core := core, pair := x.pair, lanes := x.lanes
    ngroups := x.ngroups, width := w, vregs := wVregs x.word, tiles := wTiles x.word, spSize := wScratch x.word
    bars := bars, laneMap := identMap x.lanes, node := x.node, graph := x.graph, batch := x.batch }
  let s := s.modCore core fun c => { c with bars := bars.foldl (fun (m : TMap NBar) n => m.wr n { team := t + 1 }) c.bars }
  let s := (List.range x.ngroups).foldl (fun s i =>
    let n := laneCount x.lanes w i
    let seeds := (List.range n).map fun p => (p, rngSeed (BitVec.ofNat 32 (i * w + p)) 0)
    let sp : Split := { live := true, lanes := ones n, pc := x.entry }
    let s := s.modGroup (128 * t + i) fun _ => {
      live := true, core := if i < x.onLead then core else core + 1, width := w, vc := wVregs x.word, tc := wTiles x.word
      sup := (s.grids.rd grid).sup
      rng := seeds.foldl (fun (m : TMap W64) e => m.wr e.1 e.2.1) [], inc := seeds.foldl (fun (m : TMap W64) e => m.wr e.1 e.2.2) []
      laneid := (List.range n).foldl (fun (m : TMap Nat) p => m.wr p (i * w + p)) []
      age := s.clock, placed := t, rSplits := [(0, sp)] }
    s.modSplit (512 * t + 4 * i) fun _ => sp) s
  let cs := if x.pair then [core, core + 1] else [core]
  (s.modGrid grid fun g => { g with ran := g.ran ++ cs.filter fun c => !g.ran.contains c }, t)

/-! ### LAUNCH records (R300) and graph tables (R311) -/

/-- What a LAUNCH record asks for. -/
structure LaunchRec where
  word   : W32 := 0
  entry  : W64 := 0
  teams  : Nat := 0
  lanes  : Nat := 0
  bars   : Nat := 0
  coop   : Bool := false
  pair   : Bool := false
  verify : Bool := false
  snap   : Bool := false
  isGraph : Bool := false
  region : Nat := 0
  compl  : W64 := 0
  nodes  : List Node := []
  deriving DecidableEq, Repr, Inhabited

/-- A field of a 64-byte record, in bits. -/
def rf (r : BitVec 512) (lo n : Nat) : Nat := fld r.toNat lo n

/-- Team lanes of a launch: a nonzero multiple of the group width, up to 1,024, or 2,048 for a pair team. -/
def lanesOk (w : W32) (pair : Bool) (n : Nat) : Bool := n != 0 && n % wWidth w == 0 && n ≤ (if pair then 2048 else 1024)

/-- A completion address. -/
def complOk (x : Nat) : Bool := x % 8 == 0

/-- A node of a graph table from its 32 bytes. -/
def nodeOf (x : Nat) : Node :=
  { entry := BitVec.ofNat 64 (fld x 0 64), word := BitVec.ofNat 32 (fld x 64 32), lanes := fld x 96 16, bars := fld x 112 8, depth := fld x 120 8
    timeout := fld x 128 32, words := fld x 160 8, pair := fld x 168 1 == 1, outs := (List.range 4).map fun i => fld x (192 + 8 * i) 8 }

def nodeSpec (n : Node) : TeamSpec := { word := n.word, entry := n.entry, lanes := n.lanes, bars := n.bars, pair := n.pair }

/-- A node's fields are in their ranges; `k` nodes stand in the table. -/
def nodeOk (k x : Nat) : Bool :=
  let n := nodeOf x
  8 ≤ n.lanes && n.lanes ≤ (if n.pair then 2048 else 1024) && n.bars ≤ 32 && 64 ≤ n.timeout && n.timeout ≤ 1048575 &&
    n.outs.all fun o => o == 0xFF || o < k

/-- The nodes of the table at an address, as the front end reads it: none while a line of it is served to nobody, none of it where it
cannot be read or is not one. -/
def State.graphTable (part : Nat) (va : W64) (s : State) : State × Option (Option (List Nat)) :=
  match s.hwRead part va 1 with
  | (s, .ok n) =>
    if n = 0 ∨ n > 16 then (s, some none)
    else
      let o := va.toNat % 128
      match s.hwReadLines part (va - BitVec.ofNat 64 o) ((o + 16 + 32 * n + 127) / 128) with
      | (s, .ok v) =>
        let at_ (b k : Nat) : Nat := fld v (8 * (o + b)) (8 * k)
        let xs := (List.range n).map fun i => at_ (16 + 32 * i) 32
        (s, some (if at_ 1 15 = 0 ∧ xs.all (nodeOk n) then some xs else none))
      | (s, .wait) => (s, none)
      | (s, _) => (s, some none)
  | (s, .wait) => (s, none)
  | (s, _) => (s, some none)

/-- Status of a record's completion word (R303). -/
def stAsync : Nat := 2
def stTrapped : Nat := 3
def stBadRecord : Nat := 5
def stPool : Nat := 6
def stTooLarge : Nat := 7

/-- A cooperative grid that can never fit is refused (R211). -/
def State.neverFits (s : State) (g : Grid) (x : TeamSpec) : Bool := g.coop && coopRoom s true [] g x < g.teams

/-- The checks of a LAUNCH record of a partition: a refused word, any other failure, a share beyond the pool. `queue`: the
flags that only a queue record has count too. None while a line that it reads is served to nobody. -/
def State.checkLaunch (part : Nat) (queue : Bool) (r : BitVec 512) (s : State) : State × Option (Except Nat LaunchRec) :=
  let flag (i : Nat) : Bool := r.getLsbD (8 + i)
  let x : LaunchRec :=
    { word := BitVec.ofNat 32 (rf r 32 32), entry := BitVec.ofNat 64 (rf r 64 64), teams := rf r 128 32, lanes := rf r 160 16, bars := rf r 16 8
      coop := flag 0, pair := flag 1, verify := queue && flag 2, snap := queue && flag 3, isGraph := flag 4
      region := if rf r 192 32 = 0 then 16000 else rf r 192 32, compl := BitVec.ofNat 64 (rf r 256 64) }
  let bad := rf r 0 8 != 1 || rf r 13 3 != 0 || rf r 24 8 != 0 || rf r 176 16 != 0 || rf r 224 32 != 0 || rf r 320 192 != 0 || x.teams == 0 ||
    !complOk x.compl.toNat || (x.verify && !x.snap)
  if x.isGraph then
    if bad then (s, some (.error stBadRecord))
    else match s.graphTable part x.entry with
      | (s, none) => (s, none)
      | (s, some none) => (s, some (.error stBadRecord))
      | (s, some (some xs)) =>
        let ns := xs.map nodeOf
        if !ns.all (fun n => wordOk n.word && { nodeSpec n with verify := x.verify }.shareOk) then (s, some (.error stPool))
        else
          let n := ns.headD default
          (s, some (.ok { x with word := n.word, entry := n.entry, lanes := n.lanes, bars := n.bars, pair := n.pair, coop := false, nodes := ns }))
  else if !wordOk x.word then (s, some (.error stPool))
  else if bad || x.bars > 32 || !lanesOk x.word x.pair x.lanes then (s, some (.error stBadRecord))
  else if !{ (default : TeamSpec) with word := x.word, lanes := x.lanes, pair := x.pair, verify := x.verify }.shareOk then (s, some (.error stPool))
  else (s, some (.ok x))

/-- A grid from its record. -/
def LaunchRec.grid (x : LaunchRec) (g : Grid) : Grid :=
  { g with live := true, kind := if x.isGraph then .graph else .compute, entry := x.entry, word := x.word, teams := x.teams, lanes := x.lanes
           bars := x.bars, pair := x.pair, coop := x.coop, region := x.region, compl := x.compl }

/-- A record is recognised as a launch's: its grid takes number `nextId`, its graph the next. -/
def State.addGrid (x : LaunchRec) (g : Grid) (s : State) : State × Nat :=
  let id := s.nextId
  let g := { x.grid g with order := id, root := if g.parent = 0 then id else g.root, graph := if x.isGraph then id + 1 else 0 }
  let s : State := { s with nextId := id + 2, grids := s.grids.wr id g }
  (if x.isGraph then
    { s with graphs := s.graphs.wr (id + 1) { live := true, part := g.part, grid := id, count := x.nodes.length
                                              nodes := (x.nodes.mapIdx fun i n => (i, n)).foldl (fun (m : TMap Node) e => m.wr e.1 e.2) [] } }
   else s, id)

end Sys2Proof.Machine
end

