-- ==== Sys2Proof/Machine/Preempt.lean ====
section
/-! DEFINITION. Giving cores back and taking them again: `ppoint` and the regions of groups (R318 to R323), the restore of
groups and teams (R128, R304, R307), borrowed pairs (R335), and snapshots (R341 to R343). -/

namespace Sys2Proof.Machine

/-! ### `ppoint` (R240, R320) -/

/-- Every dirty word that bears a group's tag is written through; the group's own doing does not seal it. -/
def State.flushTagged (g : Nat) (s : State) : State :=
  let core := (s.groups.rd g).core
  ((s.cores.rd core).l1.filter (·.2.live)).foldl (fun s e =>
    let m : W32 := (e.2.tag.filter fun t => t.2 == g + 1).foldl (fun m t => m ||| (1#32 <<< t.1)) 0
    if m = 0 then s else (s.modL1 core e.1 (L1Line.untag · m)).writeThrough core e.1 m 0) s

/-- The region starts here: the splits and entries as they stand, the unfold slots, the mask. Tiles it does not name are
zero. A draining group is saved at this point; one whose region time is over is still to be fully saved, and resumes SEALED (R322). -/
def State.startRegion (g : Nat) (mask : BitVec 16) (s : State) : State :=
  s.modGroup g fun y => { y with
    region := if y.saveKind = 4 then .draining else .opened, rMask := mask, rUnf := y.unf, rUnfSet := y.unfSet, rEntries := y.entries
    rSplits := (groupSplits g).foldl (fun (m : TMap Split) k => m.wr (k % 4) (s.splits.rd k)) []
    tile := y.tile.filter fun e => mask.getLsbD (e.1 / 128), badT := y.badT.filter fun e => mask.getLsbD (e.1 / 128)
    saveKind := if y.region = .draining && y.saveKind == 0 then 2 else y.saveKind }

def execPpoint (mask : BitVec 16) (s : State) : Res :=
  .next (if s.sp.phase = 0 then
      if groupOps s s.gk (fun _ => true) ≠ [] then s.stall
      else
        let s := s.flushTagged s.gk
        s.modSp fun x => { x with phase := 1, aux := s.nextId }
    else if s.wtPending s.cr s.sp.aux true then s.stall
    else
      let g := s.gk
      (s.adv 2).startRegion g mask)

/-! ### The order of work (R304) -/

/-- Rank of a grid: re-projection, then descending priority, then the queue of its root grid, then admission. -/
def gridRank (s : State) (id : Nat) : List Nat :=
  let g := s.grids.rd id
  [if g.kind = .reproj then 0 else 1, 7 - g.prio, (s.grids.rd g.root).queue, g.order]
def listLt : List Nat → List Nat → Bool
  | a :: r, b :: t => a < b || (a == b && listLt r t)
  | _, _ => false
def ranksBefore (s : State) (a b : Nat) : Bool := listLt (gridRank s a) (gridRank s b)

/-- The output whose re-projection grid this is has used its budget for the frame (R324). -/
def overBudget (s : State) (id : Nat) : Bool :=
  (s.grids.rd id).kind == .reproj && [0, 1].any fun n =>
    let o := s.outs.rd n
    o.grid == id && fld o.ctl.toNat 0 32 != 0 && o.used ≥ fld o.ctl.toNat 0 32

/-- Teams of the grid wait to be placed. -/
def gridWaits (s : State) (id : Nat) : Bool :=
  let g := s.grids.rd id
  g.live && g.admitted && !g.trapped && !g.done && g.kind != .fragment && g.placed < g.teams && !overBudget s id

/-- Work of a grid waits to be placed: teams of its own, formed batches of its graph, quads of its draw. -/
def workWaits (s : State) (id : Nat) : Bool :=
  gridWaits s id || (!(s.grids.rd id).trapped &&
    ((s.graphs.any fun e => e.2.live && e.2.grid == id && e.2.ready != []) || s.draws.any fun e => e.2.live && e.2.fgrid == id && e.2.quads != []))

/-- Work of a higher queue priority than a grid's waits for a pair that its team is to have. -/
def outranked (s : State) (id p : Nat) : Bool :=
  s.grids.any fun e => workWaits s e.1 && listLt ((gridRank s e.1).take 2) ((gridRank s id).take 2) && s.pairFor false e.2 p

/-! ### Restores (R128, R304, R307, R322) -/

/-- What a saved group waits for has come, but for its pair. -/
def restoreWanted (s : State) (g : Nat) : Bool :=
  let y := s.groups.rd g
  let t := s.teams.rd (g / 128)
  let back : Bool := match y.saveKind with
    | 1 | 6 => y.child == 1
    | 5 => (s.grids.rd y.child).done || !(s.grids.rd y.child).live
    | 2 | 3 | 4 => true
    | _ => false
  let pre : Bool := t.saved || y.saveKind == 2 || y.saveKind == 3 || y.saveKind == 4
  y.live && y.saved && t.live && back && (!t.preempt || t.saved) && !overBudget s t.grid && (!pre || !outranked s t.grid (y.core / 2))

/-- What a saved group waits for has come, and its pair may hold it. -/
def restoreReady (s : State) (g : Nat) : Bool :=
  restoreWanted s g && s.pairFor false (s.grids.rd (s.teams.rd (g / 128)).grid) ((s.groups.rd g).core / 2)

/-- The share of a group, and of its team's area on a core where the team is saved. -/
def groupShare (s : State) (g : Nat) : Use :=
  let t := s.teams.rd (g / 128)
  let n := laneCount t.lanes t.width (g % 128)
  let u : Use := { lanes := n, vb := n * t.vregs * 4, tiles := t.tiles, groups := 1 }
  if (s.grids.rd t.grid).verify then u.twice else u
def areaShare (s : State) (t core : Nat) : Use :=
  let x := s.teams.rd t
  let u : Use := { sb := if x.pair then x.spSize / 2 else x.spSize, bars := if core = x.core then x.savedBars.length else 0 }
  if !x.saved then {} else if (s.grids.rd x.grid).verify then u.twice else u

/-- The group's core, and its team's, have room for it. -/
def restoreRoom (s : State) (g : Nat) : Bool :=
  let y := s.groups.rd g
  let x := s.teams.rd (g / 128)
  let cs := if x.pair then [x.core, x.core + 1] else [x.core]
  cs.all fun c =>
    let u := (areaShare s (g / 128) c).add (if c = y.core then groupShare s g else {})
    let v := (coreUse s c).add u
    v.lanes ≤ 2048 && v.bytes ≤ Config.poolBytes && v.groups ≤ 64 && v.bars ≤ 32

/-- Groups that only room keeps out. -/
def pendingRestores (s : State) : List Nat := (s.groups.filter fun e => e.2.saved && restoreReady s e.1).map (·.1)

/-- Offset of scratchpad byte `o` in a team's frames: which of them, and where. -/
def areaAt (o : Nat) : Nat × Nat := ((0x4000 + o) / 2 ^ 18, (0x4000 + o) % 2 ^ 18)
/-- Frames that a team's area takes. -/
def areaFrames (spSize : Nat) : Nat := (0x4000 + spSize + 2 ^ 18 - 1) / 2 ^ 18
/-- Marks a frame as a team's. -/
def teamFrames (t : Nat) : Nat := 2 ^ 50 + t

/-- A team's scratchpad and chart slots come back from its frames, and its barriers stand for free barriers of its core. -/
def State.restoreTeam (t : Nat) (s : State) : State :=
  let x := s.teams.rd t
  let p := groupPart s (128 * t)
  let rd (f o n : Nat) : Option Nat := s.coreRead x.core p (BitVec.ofNat 64 (x.frames.getD f 0 + o)) n
  let chart := (List.range 16).foldl (fun (m : TMap (BitVec 512)) i =>
    match rd 0 (64 * i) 64 with
    | some v => m.wr i (BitVec.ofNat 512 v)
    | none => m) x.chart
  let scratch := (List.range x.spSize).foldl (fun (m : TMap W8) o =>
    match rd (areaAt o).1 (areaAt o).2 1 with
    | some v => m.wr o (BitVec.ofNat 8 v)
    | none => m) x.scratch
  let bars := ((List.range 32).filter fun n => ((s.cores.rd x.core).bars.rd n).team == 0).take x.savedBars.length
  let s := s.modCore x.core fun c => { c with bars := (bars.zip x.savedBars).foldl (fun (m : TMap NBar) e => m.wr e.1 e.2) c.bars }
  let s := s.modPart p fun y => { y with frames := y.frames.filter fun e => e.2 != teamFrames t }
  s.modTeam t fun x => { x with chart := chart, scratch := scratch, bars := bars, savedBars := [], frames := [], saved := false, preempt := false }

def execGroupRestore (group : Nat) (s : State) : Res :=
  let y := s.groups.rd group
  let t := group / 128
  if !(restoreReady s group && restoreRoom s group) then .next s
  else
    let grid := (s.teams.rd t).grid
    let s := if (s.teams.rd t).saved then s.restoreTeam t else s
    let s := s.readFrame group
    let s := if (s.groups.rd group).entries.any (·.2.spilled) then s else s.dropFrame group
    let s := s.modGroup group fun y => { y with
      saved := false, saveKind := 0, child := 0, fault := {}
      placed := if y.saveKind = 5 ∧ y.placed ≠ 0 then y.placed else s.nextId
      region := if y.saveKind = 2 ∨ y.saveKind = 3 then .opened else if y.region = .opened then .opened else .sealed }
    let s : State := { s with nextId := s.nextId + 1 }
    let g := s.grids.rd grid
    .next (if y.saveKind = 5 ∧ g.parent ≠ 0 ∧ !g.counts then
        (s.modGrid grid fun g => { g with counts := true }).modPart g.part fun p => { p with count := p.count + 1 }
      else s)

/-! ### Pre-emption (R318, R319, R322) -/

/-- A team of a draw. -/
def Team.graphics (x : Team) : Bool := x.kind == .vertex || x.kind == .fragment

/-- A team has been asked for its cores. -/
def asked (s : State) (t : Nat) : Bool :=
  let x := s.teams.rd t
  if x.graphics then (s.draws.rd (s.grids.rd x.grid).draw).stopped else x.preempt

def State.preempt (t : Nat) (s : State) : State :=
  let x := s.teams.rd t
  let g := s.grids.rd x.grid
  if !x.live || x.saved then s
  else if x.graphics then s.modDraw g.draw fun d => { d with stopped := true }
  else
    let s := s.modTeam t fun x => { x with preempt := true }
    (teamGroups s t).foldl (fun s k =>
      let y := s.groups.rd k
      if !y.live || y.saved || y.saveKind != 0 then s
      else match y.region with
        | .opened => s.rollback k
        | .sealed => (s.modGroup k fun y => { y with region := .draining, expiry := s.clock + g.region }).later (s.clock + g.region) (.regionTimerExpiry k)
        | .draining => s) s

def execPreemptRequest (team : Nat) (s : State) : Res := .next (s.preempt team)

/-- The region time of a draining group is over, counted from its last request: a full save at the next clause boundary. -/
def execRegionTimerExpiry (group : Nat) (s : State) : Res :=
  let y := s.groups.rd group
  .next (if y.live && !y.saved && y.saveKind == 0 && y.region == .draining && y.expiry ≤ s.clock then s.modGroup group fun y => { y with saveKind := 4 } else s)

/-- The teams that pre-emption takes for a team of a grid, or for every team of a cooperative one: of lower queue priority, the lowest
first and then the most recently admitted, and no more than make room. Those asked already are counted as gone. -/
def victims (s : State) (grid : Nat) (x : TeamSpec) : List Nat :=
  let g := s.grids.rd grid
  let rs := pendingRestores s
  let without (ts : List Nat) : State := { s with teams := s.teams.filter fun e => !ts.contains e.1 }
  let gone := (s.teams.filter fun e => e.2.live && asked s e.1).map (·.1)
  let lower (t : Nat) : Bool :=
    let y := s.teams.rd t
    listLt ((gridRank s grid).take 2) ((gridRank s y.grid).take 2) && s.pairFor true g (y.core / 2)
  let key (t : Nat) : List Nat := let y := s.teams.rd t; [(s.grids.rd y.grid).prio, 2 ^ 64 - (s.grids.rd y.grid).order, 2 ^ 64 - t]
  let cs := ((s.teams.filter fun e => e.2.live && !e.2.saved && !e.2.ending && !asked s e.1 && lower e.1).map (·.1)).mergeSort fun a b => !listLt (key b) (key a)
  match (List.range (cs.length + 1)).find? fun n => roomFor (without (gone ++ cs.take n)) rs g x with
  | some n => cs.take n
  | none => []

/-! ### The save of a team (R323, R334) -/

/-- Every live group of a pre-empted team is saved, its path counters are zero, no transfer, counted on a path or not, is still to land
in its scratchpad, and frames for its area are free. -/
def teamSaveDue (s : State) (t : Nat) : Bool :=
  let x := s.teams.rd t
  let gs := (teamGroups s t).filter fun g => (s.groups.rd g).live
  let p := groupPart s (128 * t)
  let lands (o : Op) : Bool := match o.kind with
    | .chart _ _ _ _ | .gather _ _ => true
    | _ => false
  x.live && x.preempt && !x.saved && gs != [] && gs.all (fun g => (s.groups.rd g).saved) && x.path.all (fun e => e.2 == []) &&
    s.ops.all (fun e => !(e.2.live && e.2.split / 512 == t && lands e.2)) &&
    areaFrames x.spSize ≤ ((List.range (s.frameCount p)).filter fun i => (s.parts.rd p).frames.rd i == 0).length

/-- Byte `o` of frame `f` of a team's area; the barrier state, the path counters and the lane map have no stated form. -/
def areaByte (x : Team) (fs : List Nat) (seed f o : Nat) : W8 :=
  if f = 0 ∧ o < 0x400 then BitVec.ofNat 8 ((x.chart.rd (o / 64)).toNat / 256 ^ (o % 64))
  else if f = 0 ∧ 0x800 ≤ o ∧ o < 0x820 then BitVec.ofNat 8 (fs.getD (1 + (o - 0x800) / 8) 0 / 256 ^ (o % 8))
  else if 2 ^ 18 * f + o < 0x4000 then Config.privByte seed o
  else x.scratch.rd (2 ^ 18 * f + o - 0x4000)
def areaHas (x : Team) (f o : Nat) : Bool :=
  2 ^ 18 * f + o < 0x4000 + x.spSize && !(f == 0 && 0x820 ≤ o && o < 0x1000)

def State.writeArea (t : Nat) (fs : List Nat) (s : State) : Option State :=
  let x := s.teams.rd t
  let seed := s.tick
  let ls := (List.range fs.length).flatMap fun f => frameLines (BitVec.ofNat 64 (fs.getD f 0)) (areaHas x f) (areaByte x fs seed f)
  let gs := (teamGroups s t).filter fun g => (s.groups.rd g).live && (s.groups.rd g).frame != 0
  let heads := gs.map fun g =>
    ((s.groups.rd g).frame, (BitVec.ofNat 1024 (fs.headD 0 * 2 ^ 64) : Line), (BitVec.ofNat 128 0xFF00 : BitVec 128))
  (s.drawn 1).hwStores x.core (groupPart s (128 * t)) (ls ++ heads)

def execTeamSaveWrite (team : Nat) (s : State) : Res :=
  let x := s.teams.rd team
  let p := groupPart s (128 * team)
  if !teamSaveDue s team then .next s
  else
    let is := ((List.range (s.frameCount p)).filter fun i => (s.parts.rd p).frames.rd i == 0).take (areaFrames x.spSize)
    let fs := is.map fun i => (s.frameAddr p i).toNat
    let busy := fs.flatMap fun f => s.frameBusy p (BitVec.ofNat 64 f)
    let heads := ((teamGroups s team).filter fun g => (s.groups.rd g).live).flatMap fun g => s.frameBusy p (s.groups.rd g).frame
    let s0 := s
    let s := s.modPart p fun y => { y with frames := is.foldl (fun (m : TMap Nat) i => m.wr i (teamFrames team)) y.frames }
    if busy ++ heads ≠ [] then .next (s0.recall (busy ++ heads)) else
    match s.writeArea team fs with
    | none => .next (s.handOff x.grid 0 { cause := .prot, addr := BitVec.ofNat 64 (fs.headD 0) } {})
    | some s =>
      let saved := x.bars.map fun n => (s.cores.rd x.core).bars.rd n
      let s := s.modCore x.core fun c => { c with bars := x.bars.foldl (fun (m : TMap NBar) n => m.wr n {}) c.bars }
      let s := (teamGroups s team).foldl (fun s g => s.modGroup g fun y => { y with placed := 0 }) s
      .next (s.modTeam team fun x => { x with saved := true, frames := fs, savedBars := saved, bars := [] })

/-! ### Borrowed pairs (R335) -/

/-- The partition whose margin a pair is. -/
def marginOwner (s : State) (p : Nat) : Option Nat := (s.parts.find? fun e => e.2.live && s.margin e.1 p).map (·.1)

/-- Resident teams of other partitions on a pair. -/
def foreignTeams (s : State) (owner p : Nat) : List Nat :=
  (coreTeams s (2 * p) ++ coreTeams s (2 * p + 1)).eraseDups.filter fun t => !(s.teams.rd t).saved && (s.grids.rd (s.teams.rd t).grid).part != owner

/-- A pair is scrubbed: the pools hold nothing of its former teams (R115), the L1s are written through and empty, and neither
translations of another partition nor barriers are left. -/
def State.scrub (owner p : Nat) (s : State) : State :=
  [2 * p, 2 * p + 1].foldl (fun s c => (s.flushL1 c).modCore c fun x => { x with
    l1 := [], victims := [], tlb := x.tlb.filter (·.part == owner), bars := x.bars.filter fun e => e.2.team != 0 && (s.grids.rd (s.teams.rd (e.2.team - 1)).grid).part == owner }) s

/-- The owner takes its pair back: the borrowers' teams are pre-empted; when none is left, the pair is scrubbed. -/
def execBorrowRevocation (pair : Nat) (s : State) : Res :=
  match marginOwner s pair with
  | none => .next s
  | some o => match foreignTeams s o pair with
    | [] => .next (s.scrub o pair)
    | ts => .next (ts.foldl (fun s t => if asked s t then s else s.preempt t) s)

/-! ### Snapshots (R341, R342) -/

/-- Address of a slot of the snapshot pool; the number of its slots. -/
def State.snapAddr (s : State) (part i : Nat) : W64 := BitVec.ofNat 64 (fld (s.preg part 0x0A).toNat 16 32 * 2 ^ 16 + i * 2 ^ 16)
def State.snapCount (s : State) (part : Nat) : Nat := fld (s.preg part 0x0A).toNat 48 16

/-- Lines of a 64 KiB page. -/
def pageLines (page : Nat) : List Nat := (List.range 512).map (512 * page + ·)

/-- A line of pages of which an engine or the anvil has hold, or whose requests wait: what copies the pages waits for it (R144, R342). -/
def pagesHeld (s : State) (pages : List Nat) : Option Nat := (pages.flatMap pageLines).find? fun l => s.held l || s.homeWait l

/-- A page is copied to the lowest free slot before the launch's first write of it; without a slot that can take it, the launch
is no longer protected. The copy waits while a line of either page is served to nobody (R144, R171); the fills of its source carry C = 1
(DESIGN CHOICE, log entry 123). -/
def execSnapshotCopy (grid page : Nat) (s : State) : Res :=
  let g := s.grids.rd grid
  let full (s : State) : State := (s.modGrid grid fun g => { g with unprotected := true }).mcEv (ctlOf (512 * page)) g.part 0x87 1
  if !g.live || !g.snap || g.unprotected || g.pages.any (·.1 == page) then .next s
  else match (List.range (s.snapCount g.part)).find? fun i => (s.parts.rd g.part).snapUsed.rd i == 0 with
    | none => .next (full s)
    | some i => match s.hwXlate g.part (s.snapAddr g.part i) true with
      | (s, .wait) => .next (s.ask (.snapshotCopy grid page))
      | (s, .ok pa c) =>
        match pagesHeld s [page, pa / 2 ^ 16] with
        | some l => .next ((s.recall [l]).ask (.snapshotCopy grid page))
        | none =>
        let s := (pageLines page).zip (pageLines (pa / 2 ^ 16)) |>.foldl (fun s (e : Nat × Nat) =>
          let s := (s.fillLine e.1 g.part true).recent e.1
          let s := (s.revokeWords e.2 (BitVec.allOnes 32) noOwner 0).1
          s.setHome e.2 g.part (s.homeLine e.1) (s.homePsn e.1) c) s
        let s := (s.modGrid grid fun g => { g with pages := g.pages ++ [(page, i)] }).modPart g.part fun p => { p with snapUsed := p.snapUsed.wr i (page + 1) }
        .next (s.mcEv (ctlOf (512 * page)) g.part 0x86 1)
      | (s, _) => .next (full s)

/-- No core owns or holds a word of a line, and no answer on its way brings one. -/
def State.forgetLine (l : Nat) (s : State) : State :=
  let s := s.modSlice (sliceOf l) fun x => { x with reg := x.reg.filter (·.line != l) }
  { s with
    cores := s.cores.map fun (x : Nat × Core) => (x.1, { x.2 with l1 := x.2.l1.del l })
    agenda := s.agenda.map fun p => { p with ev := match p.ev with
      | .mergingFillReturn r => .mergingFillReturn (if r.line = l then { r with mask := 0 } else r)
      | e => e } }

/-- The copied pages are what they were, poison and all: no owner, no L1 holds a word of them, and the slots are free. The lines are written
back with C = 1 (DESIGN CHOICE, log entry 123). -/
def State.unwind (grid : Nat) (s : State) : State :=
  let g := s.grids.rd grid
  let s := g.pages.foldl (fun s e =>
    (pageLines e.1).foldl (fun (r : State × Nat) l =>
      let s := r.1.forgetLine l
      match s.walkServed g.part (s.snapAddr g.part e.2 + BitVec.ofNat 64 (128 * r.2)) true false with
      | (s, .ok _ _, pa, c) =>
        let s := (s.fillLine (pa / 128) g.part c).recent (pa / 128)
        (s.setHome l g.part (s.homeLine (pa / 128)) (s.homePsn (pa / 128)) true, r.2 + 1)
      | (s, _, _, _) => (s, r.2 + 1)) (s, 0) |>.1) s
  s.modPart g.part fun p => { p with snapUsed := p.snapUsed.filter fun e => !g.pages.any fun x => x.2 == e.1 }

/-- What a rollback reads besides: the slots of its copies and the page tables that translate them. The first line of these that is served
to nobody. -/
def slotsHeld (s : State) (part : Nat) (slots : List Nat) : Option Nat :=
  let ws := slots.flatMap fun i => s.walkBusy part (s.snapAddr part i)
  ws.head?.or (pagesHeld s (slots.filterMap fun i => match s.walk part (va56 (s.snapAddr part i)) with
    | .ok _ e => (s.place (fld e 16 36 * 2 ^ 16)).map (· / 2 ^ 16)
    | _ => none))

/-- A write-through of a copied page is still under way. -/
def pagesBusy (s : State) (pages : List Nat) : Bool :=
  (s.agenda.any fun p => match p.ev with
    | .writeThrough r => pages.contains (r.line / 512)
    | _ => false) || s.acks.any fun e => e.2.live && pages.contains (e.2.wt.line / 512)

/-- R342: every team of the launch and of its children ends; then the pages are restored and the record is admitted again,
once. -/
def execSnapshotRollback (grid : Nat) (s : State) : Res :=
  let g := s.grids.rd grid
  if !g.live || !g.snap || g.unprotected || g.replayed || g.done then .next s
  else
    let fam := s.family grid
    let s := s.endGrids fam
    if fam.any (fun i => gridTeams s i != []) || pagesBusy s (g.pages.map (·.1)) then .next (s.again (.snapshotRollback grid))
    else match (pagesHeld s (g.pages.map (·.1))).or (slotsHeld s g.part (g.pages.map (·.2))) with
    | some l => .next ((s.recall [l]).again (.snapshotRollback grid))
    | none =>
      let s := s.unwind grid
      let kids := fam.filter (· != grid)
      let n := (kids.filter fun i => (s.grids.rd i).counts).length
      let s : State := { s with
        grids := s.grids.filter fun e => !kids.contains e.1
        graphs := s.graphs.filter fun e => !kids.contains e.2.grid }
      let s := s.modPart g.part fun p => { p with count := p.count - n }
      .next (s.modGrid grid fun g => { g with
        placed := 0, ended := 0, err := 0, trapped := false, pages := [], ran := [], flushed := 0, gphase := 0, garr := [], replayed := true })

/-! ### Redundant execution (R343) -/

/-- An upset parts a shadow from its group. The two take the same inputs and hold the same values, so only one from outside does; from then
on any output of the shadow may be unequal to the group's, which counts and keeps that output from being performed (DESIGN CHOICE, log
entry 113). -/
def execVerifyMismatch (group : Nat) (s : State) : Res :=
  let grid := (s.teams.rd (group / 128)).grid
  if (s.groups.rd group).live && (s.grids.rd grid).verify then
    .next (s.modGroup group fun y => { y with parted := true })
  else .next s

end Sys2Proof.Machine
end

