-- ==== Sys2Proof/Machine/Launch.lean ====
section
/-! DEFINITION. Launching (17_launch.md): hardware queues and their records, placement, device launches, work graphs, and the
end of teams and grids. -/

namespace Sys2Proof.Machine

/-! ### Placement (R304) -/

/-- A re-projection grid has been wholly placed: its output knows it for the frame (R324). -/
def State.markPlaced (grid : Nat) (s : State) : State :=
  let g := s.grids.rd grid
  if g.kind = .reproj ∧ g.placed = g.teams then
    { s with outs := s.outs.map fun (e : Nat × Output) => (e.1, if e.2.grid = grid then { e.2 with placed := true } else e.2) }
  else s

/-- The next team of a grid takes its place; none where no core has room. -/
def State.placeNext (grid : Nat) (s : State) : Option State :=
  let x := nextTeam s grid
  (bestPlace (places s (pendingRestores s) (s.grids.rd grid) x)).map fun c =>
    (((s.placeTeam grid x c).1).modGrid grid fun g => { g with placed := g.placed + 1 }).markPlaced grid

/-- `n` teams at most. -/
def State.placeTeams (grid : Nat) : Nat → State → State
  | 0, s => s
  | n + 1, s => match s.placeNext grid with
    | some s => placeTeams grid n s
    | none => s

/-- A team of the grid can be placed. -/
def canPlace (s : State) (grid : Nat) : Bool :=
  gridWaits s grid && roomFor s (pendingRestores s) (s.grids.rd grid) (nextTeam s grid)

def execTeamPlacement (grid : Nat) (s : State) : Res :=
  let g := s.grids.rd grid
  if !canPlace s grid then .next s
  else .next (s.placeTeams grid (if g.coop then g.teams else 1))

/-! ### Records at a queue's head (R297 to R302, R374) -/

/-- A translation as it would be made now. -/
def State.hwPeek (s : State) (part : Nat) (va : W64) (w : Bool) : HwAcc := (s.hwXlate part va w).2

/-- Address of the record at the head. -/
def headVa (x : Queue) : W64 := x.base + BitVec.ofNat 64 (64 * (x.head.toNat % x.size.toNat))
def qPart (x : Queue) : Nat := fld x.ctl.toNat 50 6
def qPrio (x : Queue) : Nat := fld x.ctl.toNat 56 3
def qDie (x : Queue) : Nat := fld x.ctl.toNat 48 2

/-- The queue takes a record: enabled, not stopped, not empty, not held by a record it may not pass. -/
def queueReady (s : State) (q : Nat) : Bool :=
  let x := s.queues.rd q
  x.ctl.getLsbD 63 && !x.ctl.getLsbD 0 && x.head != x.tail && !x.parked && !x.busy && (s.parts.rd (qPart x)).live

/-- The queue moves on past its record; with that record a stop that the display has asked for takes effect (R324). -/
def State.passRecord (q : Nat) (s : State) : State := s.modQueue q fun x =>
  { x with head := x.head + 1, busy := false, stopping := false, ctl := if x.stopping then x.ctl ||| 1#64 else x.ctl }

/-- A record opens a grid or a draw: it is complete when that is. -/
def State.openRecord (q id : Nat) (s : State) : State := (s.passRecord q).modQueue q fun x => { x with open_ := x.open_ ++ [id] }

/-- An access of the front end meets a PROT condition or poison: the report records it. -/
def State.frontProt (part : Nat) (va : W64) (s : State) : State :=
  s.report { part := part, code := 0, trap := { cause := .prot, addr := va, info := 17 }, fault := {} }

/-- An access of the front end meets a page fault: it parks until its ticket is resumed. -/
def State.parkQueue (q : Nat) (va : W64) (s : State) : State :=
  (s.engineFault (qPart (s.queues.rd q)) 17 va (ticketOf 3 q) 0 0 0).modQueue q fun x => { x with parked := true }

/-- A record that fails its checks is skipped; its status goes to the completion word, if it has one. -/
def State.skipRecord (q status : Nat) (compl : W64) (s : State) : State :=
  if compl = 0 ∨ compl.toNat % 8 ≠ 0 then s.passRecord q
  else
    let id := s.nextId
    let x := s.queues.rd q
    let g : Grid := { live := true, part := qPart x, queue := q + 1, die := qDie x, root := id, admitted := true, status := status, compl := compl }
    { s with nextId := id + 1, grids := s.grids.wr id g }.openRecord q id

/-- The record at the head, for a queue that takes it; `k` gets it. A read that its home slice does not serve now comes again. -/
def State.headRecord (q : Nat) (k : BitVec 512 → State → State) (s : State) : State :=
  let x := s.queues.rd q
  if !queueReady s q then s
  else match s.hwRead (qPart x) (headVa x) 64 with
    | (s, .ok v) => k (BitVec.ofNat 512 v) s
    | (s, .fault) => s.parkQueue q (headVa x)
    | (s, .prot) => (s.frontProt (qPart x) (headVa x)).passRecord q
    | (s, .wait) => s

/-- The grid of a queue record, without its record's fields. -/
def State.queueGrid (s : State) (q : Nat) : Grid :=
  let x := s.queues.rd q
  { queue := q + 1, part := qPart x, die := qDie x, prio := qPrio x, sup := (s.preg (qPart x) 0x19).getLsbD q, admitted := true }

/-- A LAUNCH record; a record of no kind is skipped. A cooperative grid waits in its queue until it fits. -/
def State.launchRecord (q : Nat) (r : BitVec 512) (s : State) : State :=
  let kind := rf r 0 8
  if kind = 2 ∨ kind = 3 ∨ kind = 4 then s
  else if kind ≠ 1 then s.skipRecord q stBadRecord 0
  else
    let compl := BitVec.ofNat 64 (rf r 256 64)
    match s.checkLaunch (qPart (s.queues.rd q)) true r with
    | (s, none) => s
    | (s, some (.error st)) => s.skipRecord q st compl
    | (s, some (.ok x)) =>
      let g := x.grid { s.queueGrid q with verify := x.verify, snap := x.snap }
      let t : TeamSpec := { word := g.word, lanes := g.lanes, bars := g.bars, pair := g.pair, verify := g.verify }
      if s.neverFits g t then s.skipRecord q stTooLarge compl
      else if g.coop && !coopFits s (pendingRestores s) g t then s
      else
        let r := s.addGrid x g
        let s := r.1.openRecord q r.2
        if g.coop then s.placeTeams r.2 g.teams else s

def execQueueLaunchRecord (q : Nat) (s : State) : Res := .next (s.headRecord q (State.launchRecord q))

/-- The checks of a DRAW record (R301). -/
def State.drawStatus (s : State) (part : Nat) (r : BitVec 512) : Nat :=
  let vw : W32 := BitVec.ofNat 32 (rf r 32 32)
  let fw : W32 := BitVec.ofNat 32 (rf r 320 32)
  let pair := r.getLsbD 352
  if !wordOk vw || !wordOk fw then stPool
  else if rf r 8 8 > 32 || rf r 16 8 > 16 || rf r 24 8 > 32 || !lanesOk vw pair (rf r 240 16) || rf r 353 31 != 0 || rf r 480 32 != 0 ||
    rf r 384 64 % 8 != 0 || (List.range 16).any fun n => r.getLsbD (224 + n) && !(s.slot part n).bound then stBadRecord
  else if !({ (default : TeamSpec) with word := vw, lanes := rf r 240 16, pair := pair }.shareOk && { (default : TeamSpec) with word := fw, lanes := wWidth fw }.shareOk) then stPool
  else 0

/-- A draw begins: its vertex grid, which also stands for the whole draw, and the grid of its fragment teams, whose number of
teams no rule states. -/
def State.startDraw (q : Nat) (r : BitVec 512) (s : State) : State :=
  let d := s.nextId
  let x := s.queues.rd q
  let lanes := rf r 240 16
  let base : Grid := { s.queueGrid q with live := true, order := d + 1, draw := d, root := d + 1, region := if rf r 448 32 = 0 then 16000 else rf r 448 32 }
  let v : Grid := { base with
    kind := .vertex, entry := BitVec.ofNat 64 (rf r 64 64), word := BitVec.ofNat 32 (rf r 32 32), teams := ceilDiv (rf r 160 32) lanes, lanes := lanes
    bars := rf r 8 8, pair := r.getLsbD 352, compl := BitVec.ofNat 64 (rf r 384 64) }
  let fw : W32 := BitVec.ofNat 32 (rf r 320 32)
  let f : Grid := { base with
    kind := .fragment, entry := BitVec.ofNat 64 (rf r 256 64), word := fw, teams := fld (s.fresh 0).toNat 0 32, lanes := wWidth fw, bars := rf r 24 8 }
  let s : State := { s.drawn 1 with
    nextId := d + 3, grids := (s.grids.wr (d + 1) v).wr (d + 2) f
    draws := s.draws.wr d { live := true, part := qPart x, queue := q + 1, die := qDie x, rec_ := r, vgrid := d + 1, fgrid := d + 2 } }
  s.openRecord q (d + 1)

def execQueueDrawRecord (q : Nat) (s : State) : Res :=
  .next (s.headRecord q fun r s =>
    if rf r 0 8 ≠ 2 then s
    else match s.drawStatus (qPart (s.queues.rd q)) r with
      | 0 => s.startDraw q r
      | st => s.skipRecord q st (BitVec.ofNat 64 (rf r 384 64)))

/-- R302's fields of a SIGNAL or WAIT record: its address, its value; none where it fails its checks. -/
def syncRecord (r : BitVec 512) : Option (W64 × Nat) :=
  if rf r 8 56 ≠ 0 ∨ rf r 64 64 % 8 ≠ 0 ∨ rf r 192 320 ≠ 0 then none else some (BitVec.ofNat 64 (rf r 64 64), rf r 128 64)

/-- A write of 8 bytes by the front end: it waits for an engine's hold on its line, for what else keeps a request there, and for the
owners of its words to acknowledge their revokes (R141). `k` goes on when it has been performed or dropped. -/
def State.frontWrite (part : Nat) (va : W64) (v : Nat) (park : State → State) (k : State → State) (s : State) : State :=
  match s.hwXlate part va true with
  | (s, .ok pa c) =>
    if s.busy (pa / 128) then s.recall [pa / 128]
    else if (s.homePsn (pa / 128)).getLsbD (pa % 128 / 32) then k (s.frontProt part va)
    else s.whenClear (pa / 128) (bytesWords (BitVec.ofNat 128 (255 * 2 ^ (pa % 128)))) fun s => k (s.hwWrite part pa 8 v c)
  | (s, .fault) => park s
  | (s, .prot) => k (s.frontProt part va)
  | (s, .wait) => s

/-- A SIGNAL: performed when every earlier record of the queue is complete. -/
def execQueueSignalRecord (q : Nat) (s : State) : Res :=
  .next (s.headRecord q fun r s =>
    if rf r 0 8 ≠ 3 then s
    else match syncRecord r with
      | none => s.passRecord q
      | some (va, v) =>
        if (s.queues.rd q).open_ ≠ [] then s
        else s.frontWrite (qPart (s.queues.rd q)) va v (State.parkQueue q va) (State.passRecord q))

/-- A WAIT: the word is read now, and again 256 clocks later while it is below the value. A read that its home slice does not serve now
comes in the next clock. -/
def State.waitRecord (q : Nat) (s : State) : State :=
  s.headRecord q fun r s =>
    if rf r 0 8 ≠ 4 then s
    else match syncRecord r with
      | none => s.passRecord q
      | some (va, v) => match s.hwRead (qPart (s.queues.rd q)) va 8 with
        | (s, .ok x) => if v ≤ x then s.passRecord q else (s.modQueue q fun x => { x with busy := true }).later (s.clock + 256) (.waitRecheck q)
        | (s, .fault) => s.parkQueue q va
        | (s, .prot) => (s.frontProt (qPart (s.queues.rd q)) va).passRecord q
        | (s, .wait) => (s.modQueue q fun x => { x with busy := true }).later (s.clock + 1) (.waitRecheck q)

def execQueueWaitRecord (q : Nat) (s : State) : Res := .next (s.waitRecord q)
def execWaitRecheck (q : Nat) (s : State) : Res :=
  let x := s.queues.rd q
  if !x.busy then .next s
  else match s.hwRead (qPart x) (headVa x) 64 with
    | (s, .wait) => .next (s.later (s.clock + 1) (.waitRecheck q))
    | _ => .next ((s.modQueue q fun x => { x with busy := false }).waitRecord q)

/-- The address at which the front end's next access for a queue meets a page fault. -/
def queueFault (s : State) (q : Nat) : Option W64 :=
  let x := s.queues.rd q
  if !queueReady s q then none
  else match s.hwRead (qPart x) (headVa x) 64 with
    | (_, .fault) => some (headVa x)
    | (_, .prot) | (_, .wait) => none
    | (s, .ok v) =>
      let r : BitVec 512 := BitVec.ofNat 512 v
      match syncRecord r with
      | none => none
      | some (va, _) =>
        if (rf r 0 8 = 3 ∧ x.open_ = [] ∧ s.hwPeek (qPart x) va true = .fault) ∨ (rf r 0 8 = 4 ∧ s.hwPeek (qPart x) va false = .fault) then some va
        else none

/-- The completion word of a grid meets a page fault. -/
def State.parkGrid (grid : Nat) (s : State) : State :=
  let g := s.grids.rd grid
  (s.engineFault g.part 17 g.compl (ticketOf 3 (64 + grid)) 0 0 0).modGrid grid fun g => { g with parked := true }

/-- A page fault of the front end: of queue `q`, or from 64 on of the completion word of grid `q - 64`. -/
def execFrontEndPageFault (q : Nat) (s : State) : Res :=
  if q < 64 then match queueFault s q with
    | some va => .next (s.parkQueue q va)
    | none => .next s
  else
    let g := s.grids.rd (q - 64)
    if g.live && !g.done && !g.parked && g.compl != 0 && s.hwPeek g.part g.compl true = .fault then .next (s.parkGrid (q - 64)) else .next s

/-- What the record at the head of a queue makes due; nothing where that would leave the queue as it is and ask for nothing. -/
def queueNext (s : State) (q : Nat) : Option Ev :=
  let x := s.queues.rd q
  if !queueReady s q then none
  else if (queueFault s q).isSome then some (.frontEndPageFault q)
  else
    let moves (t : State) : Bool := t.queues.rd q != x || t.agenda != s.agenda
    match s.hwRead (qPart x) (headVa x) 64 with
    | (_, .ok v) =>
      let r : BitVec 512 := BitVec.ofNat 512 v
      match rf r 0 8 with
      | 2 => some (.queueDrawRecord q)
      | 3 => if x.open_ = [] ∨ syncRecord r = none then some (.queueSignalRecord q) else none
      | 4 => some (.queueWaitRecord q)
      | _ => if moves (s.launchRecord q r) then some (.queueLaunchRecord q) else none
    | (t, .wait) => if moves t then some (.queueLaunchRecord q) else none
    | _ => some (.queueLaunchRecord q)

/-! ### The end of a team (R58) -/

/-- Slots of a partition's pool that a test names become FREE (R313). -/
def State.wgFree (part : Nat) (f : WgSlot → Bool) (s : State) : State :=
  s.modPart part fun p => { p with wg := p.wg.filter fun e => !f e.2 }

/-- Every operation of the team has retired; then the words that its stores left dirty are written through and acknowledged, so
that every store has been performed at its home slice (R58); then its share, barriers, path counters and slots return. -/
def execTeamEnd (team : Nat) (s : State) : Res :=
  let t := s.teams.rd team
  if !t.live || !t.ending then .next s
  else if teamOps s team ≠ [] then .next (s.again (.teamEnd team))
  else if t.flushed = 0 then
    let s := (teamGroups s team).foldl (fun s g => s.flushTagged g) s
    .next ((s.modTeam team fun x => { x with flushed := s.nextId + 1 }).again (.teamEnd team))
  else if (teamCores t).any fun c => s.wtPending c (t.flushed - 1) true then .next (s.again (.teamEnd team))
  else
    let part := groupPart s (128 * team)
    let s := (s.splits.filter fun e => e.1 / 512 == team).foldl (fun s e => s.freeSlot e.1) s
    let s := s.wgFree part fun w => (w.st == .allocated || w.st == .batched) && w.team == team
    let s := s.modPart part fun p => { p with rallocQ := p.rallocQ.filter (· / 512 != team), frames := p.frames.filter fun e => e.2 != teamFrames team }
    let s := (teamCores t).foldl (fun s c => s.modCore c fun x => { x with
      bars := x.bars.filter fun e => e.2.team != team + 1, armed := x.armed.filter fun a => a.1 != team }) s
    let s : State := { s with
      teams := s.teams.del team, groups := s.groups.filter fun e => e.1 / 128 != team, splits := s.splits.filter fun e => e.1 / 512 != team }
    .next (s.modGrid t.grid fun g => { g with ended := g.ended + 1 })

/-! ### Completion (R303, R310, R314) -/

/-- Grids of a launch: the grid, and the fragment grid of a draw. -/
def gridPair (s : State) (grid : Nat) : List Nat :=
  let g := s.grids.rd grid
  if g.kind = .vertex then [grid, (s.draws.rd g.draw).fgrid] else [grid]

/-- The work of a grid is over. -/
def gridOver (s : State) (grid : Nat) : Bool :=
  let g := s.grids.rd grid
  let ids := gridPair s grid
  g.live && g.admitted && !g.done && !g.parked && g.kind != .fragment && (g.trapped || g.placed == g.teams) &&
    ids.all (fun i => gridTeams s i == []) &&
    s.grids.all (fun e => !(e.2.live && !e.2.done && ids.any fun i => e.2.parent == i + 1)) &&
    (g.graph == 0 || ((s.graphs.rd g.graph).ready == [] && (s.parts.rd g.part).wg.all fun e => e.2.st == .free || e.2.graph != g.graph)) &&
    (g.kind != .vertex ||
      ((s.draws.rd g.draw).rasterDone && (s.draws.rd g.draw).quads == [] && s.slices.all (fun e => e.2.notices.all (·.key != g.draw)) &&
        s.agenda.all fun p => match p.ev with
          | .noticeEntry n => n.key != g.draw
          | .forwardPost p | .nullPost p => !ids.contains p.grid
          | .anvilInvocationStart r => !ids.contains r.grid
          | _ => true)) &&
    !(s.agenda.any fun p => p.ev == .snapshotRollback g.root)

/-- Completion's write-throughs are all acknowledged. -/
def gridFlushed (s : State) (grid : Nat) : Bool :=
  (gridPair s grid).all fun i => (s.grids.rd i).ran.all fun c => !s.wtPending c ((s.grids.rd grid).flushed - 1) true

/-- `gridComplete` has something to do. -/
def gridDue (s : State) (grid : Nat) : Bool :=
  gridOver s grid && ((s.grids.rd grid).flushed == 0 || gridFlushed s grid)

/-- The final status (R303). -/
def finalStatus (s : State) (grid : Nat) : Nat :=
  let g := s.grids.rd grid
  let ids := gridPair s grid
  if g.status ≠ 0 then g.status
  else if ids.any fun i => (s.grids.rd i).trapped then stTrapped
  else if ids.any fun i => (s.grids.rd i).err ≠ 0 then stAsync
  else 0

/-- The grid is complete and its completion word written: its record is complete, its entry counts no more, what it launched
is reaped. -/
def State.closeGrid (grid status : Nat) (s : State) : State :=
  let g := s.grids.rd grid
  let ids := gridPair s grid
  let s := if g.counts then s.modPart g.part fun p => { p with count := p.count - 1 } else s
  let s := s.modPart g.part fun p => { p with snapUsed := p.snapUsed.filter fun e => !g.pages.any fun x => x.2 == e.1 }
  let s := if g.queue = 0 then s else s.modQueue (g.queue - 1) fun x => { x with open_ := x.open_.erase grid }
  let s : State := { s with
    grids := s.grids.filter fun e => !ids.any fun i => e.2.parent == i + 1
    graphs := if g.graph = 0 then s.graphs else s.graphs.del g.graph
    draws := if g.kind = .vertex then s.draws.del g.draw else s.draws
    outs := s.outs.map fun (e : Nat × Output) => (e.1, if e.2.grid = grid then { e.2 with grid := 0 } else e.2) }
  if g.parent = 0 then { s with grids := s.grids.filter fun e => !ids.contains e.1 }
  else s.modGrid grid fun g => { g with done := true, status := status }

/-- A grid completes: every core that ran its teams writes its L1 through; when all of that is acknowledged, the status is
written. -/
def execGridComplete (grid : Nat) (s : State) : Res :=
  let g := s.grids.rd grid
  if !gridDue s grid then .next s
  else if g.flushed = 0 then
    let s := ((gridPair s grid).flatMap fun i => (s.grids.rd i).ran).eraseDups.foldl (fun s c => s.flushL1 c) s
    .next (s.modGrid grid fun g => { g with flushed := s.nextId + 1 })
  else
    let st := finalStatus s grid
    if g.compl = 0 then .next (s.closeGrid grid st)
    else .next (s.frontWrite g.part g.compl st (State.parkGrid grid) (State.closeGrid grid st))

/-! ### Device launches (R306 to R310) -/

/-- SPILL_BASE and SPILL_SIZE; LAUNCH_QUOTA. -/
def State.quota (s : State) (part : Nat) : Nat := fld (s.preg part 0x10).toNat 0 16

/-- The record is copied to the next entry of the spill ring by the front end of a die: false where the ring is full or cannot take it,
none while a line of its page tables is served to nobody. -/
def State.spillRecord (die part : Nat) (r : BitVec 512) (s : State) : State × Option Bool :=
  let p := s.parts.rd part
  let n := (s.preg part 8).toNat
  if n ≤ p.spilled.length then (s, some false)
  else match s.hwXlate part (s.preg part 7 + BitVec.ofNat 64 (64 * (p.spillTail % n))) true with
    | (s, .ok pa c) =>
      if (s.homePsn (pa / 128)).getLsbD (pa % 128 / 32) || (s.homePsn (pa / 128)).getLsbD (pa % 128 / 32 + 1) then (s, some false)
      else ((s.hwPost die part pa 64 r.toNat c).modPart part fun p => { p with spillTail := p.spillTail + 1 }, some true)
    | (s, .wait) => (s, none)
    | (s, _) => (s, some false)

/-- A handle that no unreaped grid of the partition has: a free value. -/
def State.newHandle (part : Nat) (s : State) : Nat :=
  let used := (s.grids.filter fun e => e.2.live && e.2.part == part).map (·.2.handle)
  let x := fld (s.fresh 0).toNat 0 32
  if x ≠ 0 ∧ !used.contains x then x else ((List.range (used.length + 2)).find? fun i => i != 0 && !used.contains i).getD 0

/-- `launch` has its record: the child, and the word for s[D]; none while a line that the front end needs is served to nobody. -/
def State.launchEnd (o : Op) (prio : Nat) (r : BitVec 512) (s : State) : State × Option W64 :=
  let par := s.grids.rd o.grid
  match s.checkLaunch o.part false r with
  | (s, none) => (s, none)
  | (s, some (.error st)) => (s, some (if st = stPool then 4 else 5))
  | (s, some (.ok x)) =>
    let h := s.newHandle o.part
    let s := s.drawn 1
    let g : Grid := x.grid { part := o.part, die := par.die, parent := o.grid + 1, root := par.root, handle := h, prio := prio, sup := par.sup
                             verify := par.verify, snap := par.snap }
    let t : TeamSpec := { word := g.word, lanes := g.lanes, bars := g.bars, pair := g.pair, verify := g.verify }
    let word (st : Nat) : W64 := BitVec.ofNat 64 (2 ^ 32 * h + st)
    if s.neverFits g t then (s, some 3)
    else if (s.parts.rd o.part).count < s.quota o.part ∧ (s.parts.rd o.part).spilled = [] then
      (((s.addGrid x { g with admitted := true, counts := true }).1).modPart o.part fun p => { p with count := p.count + 1 }, some (word 0))
    else match s.spillRecord par.die o.part r with
      | (s, none) => (s, none)
      | (s, some false) => (s, some 2)
      | (s, some true) =>
        let a := s.addGrid x g
        (a.1.modPart o.part fun p => { p with spilled := p.spilled ++ [a.2] }, some (word 1))

def execLaunch (d a : Fin 64) (b : SclB) (s : State) : Res :=
  let va := s.sr a
  let prio := min (fld (s.bScl b).toNat 0 3) s.gd.prio
  .next (if s.full s.fa then s.stall
    else if va.toNat % 64 ≠ 0 then s.trap .align (some 0) (some va) 8 4
    else s.sealNow.release .dv 0 (State.loadAccess (.launch d prio) 4 false ((List.range 16).map fun i => (64 + i, va + BitVec.ofNat 64 (4 * i))) (·.adv 2)))

/-- The oldest spilled record is admitted when the count is below the quota (R306). -/
def spillDue (s : State) (part : Nat) : Bool :=
  let p := s.parts.rd part
  p.live && p.spilled != [] && p.count < s.quota part

def execSpillAdmission (part : Nat) (s : State) : Res :=
  match (s.parts.rd part).spilled with
  | g :: rest =>
    if !spillDue s part then .next s
    else
      let s : State := { s with nextId := s.nextId + 1 }
      .next ((s.modPart part fun p => { p with spilled := rest, spillHead := p.spillHead + 1, count := p.count + 1 }).modGrid g fun x =>
        { x with admitted := true, order := s.nextId - 1, counts := true })
  | [] => .next s

/-- The group is saved until a child in the spill ring completes (R307). -/
def State.saveForChild (id : Nat) (s : State) : State :=
  let g := s.gk
  if (s.groups.rd g).saveKind ≠ 0 then s.freeSlot s.cur
  else (s.modSp fun x => { x with wait := .faulting }).modGroup g fun y => { y with saveKind := 5, child := id }

def execCwait (d a : Fin 64) (s : State) : Res :=
  let h := fld (s.sr a).toNat 32 32
  let s := s.sealNow
  .next (match s.grids.find? fun e => e.2.live && e.2.parent == s.tm.grid + 1 && h != 0 && e.2.handle == h with
    | none => s.sclOut d 4 2 0xFF
    | some (id, g) =>
      if g.done then s.acquire .dv 0 fun s => { s with grids := s.grids.del id }.sclOut d 4 2 (BitVec.ofNat 64 g.status)
      else if !g.admitted then s.saveForChild id
      else s.waitFor (.child id))

/-! ### Work graphs (R311 to R317) -/

/-- The pool of record slots (R312). -/
def State.wgCount (s : State) (part : Nat) : Nat := fld (s.preg part 9).toNat 48 16
def State.wgAddr (s : State) (part i : Nat) : W64 := BitVec.ofNat 64 (fld (s.preg part 9).toNat 0 40 * 256 + 256 * i)
def State.wgSlot (s : State) (part i : Nat) : WgSlot := (s.parts.rd part).wg.rd i
def State.modWg (part i : Nat) (f : WgSlot → WgSlot) (s : State) : State := s.modPart part fun p => { p with wg := p.wg.mod i f }

/-- The slot at an address. -/
def State.slotAt (s : State) (part : Nat) (va : W64) : Option Nat :=
  let off := (va - s.wgAddr part 0).toNat
  if off % 256 = 0 ∧ off / 256 < s.wgCount part then some (off / 256) else none

/-- Free slots, lowest first. -/
def State.freeSlots (s : State) (part : Nat) : List Nat := (List.range (s.wgCount part)).filter fun i => (s.wgSlot part i).st == .free

/-- The node of the executing team, and its graph. -/
def State.myNode (s : State) : Nat := s.tm.node - 1
def State.myGraph (s : State) : Graph := s.graphs.rd s.tm.graph

/-- RECORD with 3 in TRAP_INFO[15:8]. -/
def State.wgTrap (code : Nat) (s : State) : State := s.trap .record none none 16 (BitVec.ofNat 64 (768 + code))

/-- Addresses of slots go to the pairs of lanes, as an operation that names flag A. -/
def State.slotRegs (d : Nat) (ls : List (Nat × W64)) (s : State) : State :=
  let vs : List (Nat × W32) := ls.flatMap fun e => [(64 * d + e.1, e.2.setWidth 32), (64 * (d + 1) + e.1, (e.2.extractLsb' 32 32))]
  let id := s.nextId
  ((s.issue { s.op0 with
    kind := .regs, flag := s.fa, returning := true, cls := 1, lanes := maskOf (ls.map (·.1))
    res := vs.foldl (fun (m : TMap W32) e => m.wr e.1 e.2) [], todo := vs.map (·.1) }).readyIfDone id).adv 2

def execRalloc (d : Fin 64) (b : SclB) (s : State) : Res :=
  let m := s.wact
  let d := 2 * d.val
  let k := (positions m).length
  let out := s.bLow b
  let node := s.myGraph.nodes.rd s.myNode
  let dest := node.outs.getD out 0xFF
  if m = 0 then .next (s.adv 2)
  else if s.tm.node = 0 then .next (s.wgTrap 1)
  else if dest = 0xFF then .next (s.wgTrap 2)
  else if s.wgCount s.pt < k then .next (s.wgTrap 3)
  else if s.full s.fa then .next s.stall
  else
    let s := s.sealNow
    let q := (s.parts.rd s.pt).rallocQ
    let s := if q.contains s.cur then s else s.modPart s.pt fun p => { p with rallocQ := p.rallocQ ++ [s.cur] }
    let free := (s.freeSlots s.pt).take k
    if (s.parts.rd s.pt).rallocQ.headD 0 ≠ s.cur ∨ free.length < k then .next (s.waitFor (.slots k))
    else
      let s := s.modPart s.pt fun p => { p with rallocQ := p.rallocQ.erase s.cur }
      let s := free.foldl (fun s i => s.modWg s.pt i fun _ => { st := .allocated, team := s.tk, graph := s.tm.graph, node := dest, clock := s.clock }) s
      .next (s.slotRegs d ((positions m).zip (free.map (s.wgAddr s.pt))))

/-- The form that reads a batch's slots is a form of `ralloc` and names flag A as it does. -/
def execRallocIn (d : Fin 64) (s : State) : Res :=
  let m := s.wact
  if m = 0 then .next (s.adv 2)
  else if s.tm.kind ≠ .batch then .next (s.wgTrap 1)
  else if s.full s.fa then .next s.stall
  else .next (s.sealNow.acquire .dv 0 fun s =>
    s.slotRegs (2 * d.val) ((positions m).map fun p => (p, match s.tm.batch[s.gr.laneid.rd p]? with
      | some i => s.wgAddr s.pt i
      | none => 0)))

/-- The slots that the active lanes' pairs name, in ascending position, where each is held by the executing team in a state; a
slot that two lanes name is named once (DEDUCED, log entry 66). -/
def State.namedSlots (s : State) (a : Nat) (st : WgSt) : Option (List Nat) :=
  let is := (positions s.wact).map fun p => s.slotAt s.pt (s.gr.pair a p)
  let ok := is.all fun i => match i with
    | some i => (s.wgSlot s.pt i).st == st && (s.wgSlot s.pt i).team == s.tk
    | none => false
  let l := is.filterMap id
  if ok then some l.eraseDups else none

/-- A batch that a time-out has formed takes the commits of that clock, so it is not placed in it (R314). -/
def batchOpen (s : State) (b : Batch) : Bool := b.clock == s.clock && b.slots.length < 8

/-- Slots that form a batch of a node. -/
def State.formBatch (graph node : Nat) (is : List Nat) (s : State) : State :=
  s.modGraph graph fun g => { g with
    nodes := g.nodes.mod node fun n => { n with queued := n.queued.filter fun i => !is.contains i }
    ready := g.ready ++ [{ node := node, slots := is, clock := s.clock }] }

/-- A slot is QUEUED: it joins a batch that a time-out of this clock has formed, or its node's list, of which 8 form a
batch. -/
def State.queueSlot (part i : Nat) (s : State) : State :=
  let w := s.wgSlot part i
  let s := s.modWg part i fun w => { w with st := .queued, clock := s.clock }
  let g := s.graphs.rd w.graph
  let open_ (b : Batch) : Bool := b.node == w.node && batchOpen s b
  if g.ready.any open_ then
    s.modGraph w.graph fun g => { g with ready := g.ready.map fun b => if open_ b then { b with slots := b.slots ++ [i] } else b }
  else
    let s := s.modGraph w.graph fun g => { g with nodes := g.nodes.mod w.node fun n => { n with queued := n.queued ++ [i] } }
    let l := ((s.graphs.rd w.graph).nodes.rd w.node).queued
    if 8 ≤ l.length then s.formBatch w.graph w.node (l.take 8)
    else s.later (s.clock + (g.nodes.rd w.node).timeout) (.batchTimeout w.graph w.node)

def execRcommit (a : Fin 64) (s : State) : Res :=
  let a := 2 * a.val
  if s.wact = 0 then .next (s.adv 2)
  else if s.full s.fb then .next s.stall
  else .next (s.sram s.wact [a, a + 1] fun s => s.sealNow.release .dv 0 fun s => match s.namedSlots a .allocated with
    | none => s.wgTrap 4
    | some is =>
      let s := is.foldl (fun s i => s.queueSlot s.pt i) s
      let id := s.nextId
      ((s.issue { s.op0 with kind := .rcommit, flag := s.fb, lanes := s.wact }).readyIfDone id).adv 2)

def execRdone (a : Fin 64) (s : State) : Res :=
  let a := 2 * a.val
  if s.wact = 0 then .next (s.adv 2)
  else if s.full s.fb then .next s.stall
  else .next (s.sram s.wact [a, a + 1] fun s => s.sealNow.release .dv 0 fun s => match s.namedSlots a .batched with
    | none => s.wgTrap 4
    | some is =>
      let s := is.foldl (fun s i => s.modWg s.pt i fun _ => {}) s
      let id := s.nextId
      ((s.issue { s.op0 with kind := .rdone, flag := s.fb, lanes := s.wact }).readyIfDone id).adv 2)

/-- The oldest slot of a node has waited its time: every queued slot forms a batch. -/
def execBatchTimeout (graph node : Nat) (s : State) : Res :=
  let g := s.graphs.rd graph
  let n := g.nodes.rd node
  match n.queued with
  | [] => .next s
  | i :: _ =>
    if g.live && (s.wgSlot g.part i).clock + n.timeout ≤ s.clock then .next (s.formBatch graph node n.queued) else .next s

/-- The batch to be placed next: of the deepest node, then the lowest, then the first formed. -/
def nextBatch (g : Graph) : Option Batch :=
  let better (a b : Batch) : Bool :=
    let da := (g.nodes.rd a.node).depth
    let db := (g.nodes.rd b.node).depth
    db < da || (da == db && a.node < b.node)
  g.ready.foldl (fun (r : Option Batch) b => match r with
    | none => some b
    | some x => if better b x then some b else some x) none

def batchSpec (s : State) (graph : Nat) (b : Batch) : TeamSpec :=
  let g := s.graphs.rd graph
  { nodeSpec (g.nodes.rd b.node) with
    kind := .batch, verify := (s.grids.rd g.grid).verify, teamId := fld (s.fresh 0).toNat 0 32, node := b.node + 1, graph := graph, batch := b.slots }

/-- The next batch of a graph waits to be placed; it has room. -/
def batchWaits (s : State) (graph : Nat) : Option TeamSpec :=
  let g := s.graphs.rd graph
  if g.live && !(s.grids.rd g.grid).trapped then ((nextBatch g).filter fun b => !batchOpen s b).map (batchSpec s graph) else none
def batchDue (s : State) (graph : Nat) : Bool :=
  (batchWaits s graph).any fun x => places s (pendingRestores s) (s.grids.rd (s.graphs.rd graph).grid) x != []

def execBatchLaunch (graph : Nat) (s : State) : Res :=
  let g := s.graphs.rd graph
  match nextBatch g with
  | none => .next s
  | some b =>
    let x := batchSpec s graph b
    match if batchDue s graph then bestPlace (places s (pendingRestores s) (s.grids.rd g.grid) x) else none with
    | none => .next s
    | some c =>
      let r := (s.drawn 1).placeTeam g.grid x c
      let s := r.1.modGraph graph fun g => { g with ready := g.ready.erase b }
      .next (b.slots.foldl (fun s i => s.modWg g.part i fun w => { w with st := .batched, team := r.2 }) s)

end Sys2Proof.Machine
end

