-- ==== Sys2Proof/Machine/System.lean ====
section
/-! DEFINITION. The system instructions, majors 61 to 63 (18_system.md), but for `swreg`. -/

namespace Sys2Proof.Machine

/-! ### Control transfers (R345) -/

/-- A trap of the executing split that goes to the service without a handler. -/
def State.toService (t : Trap) (code : W64) (s : State) : State :=
  (s.freeSlot s.cur).modSp fun x => { x with wait := .handing t code }

/-- In handler mode it hands off the trap under way, elsewhere one of cause SYSC. -/
def execTrap (b : SclB) (s : State) : Res :=
  .next (s.sup fun s =>
    let code := s.bScl b
    let g := s.gr
    if s.inHandler then s.toService { cause := g.tCause, pc := g.tPc, lanes := g.tLanes, addr := g.tAddr, info := g.tInfo } code
    else
      let t : Trap := { cause := .sysc, pc := s.ia, lanes := s.fresh 0, addr := s.fresh 1, info := s.fresh 2 }
      ((s.drawn 3).sealNow.coreEv s.cr s.pt 0x09 1).toService t code)

/-- R332. What the handler's own clause asked for with `yield` and `sleep` holds at its end. -/
def execRti (b : SclB) (s : State) : Res :=
  .next (s.sup fun s =>
    let mode := fld (s.bScl b).toNat 0 2
    let x := s.sp
    if !s.inHandler || mode = 3 then s.noRight
    else
      let s := (s.coreEv s.cr s.pt 0x03 1).returnTrap mode
      let s := if x.yielding then s.modGr fun g => { g with age := s.clock } else s
      if x.nap = 0 then s else s.modSp fun y => { y with wait := .asleep, until_ := s.clock + x.nap })

/-- The event that answers a service request (R327, R357). -/
def serviceEvent (k : Nat) : Nat → Option Ev
  | 1 => some (.pregWrite k)
  | 2 => some (.pregRead k)
  | 3 => some (.reportRead k)
  | 4 => some (.syscAttest k)
  | 5 => some (.removeDone k)
  | _ => none

/-- A trap at user level; at supervisor level a request, of which the unknown ones are answered with status 1 at once. -/
def execSysc (b : SclB) (s : State) : Res :=
  let n := s.bScl b
  .next (if !s.isSup then
      (s.drawn 2).raiseFor s.cur { cause := .sysc, pc := s.ia, lanes := s.fresh 0, addr := s.fresh 1, info := n }
    else
      let k := s.cur
      let s := s.jumpTo (s.fall 2)
      match serviceEvent k n.toNat with
      | none => s.setS 56 1
      | some e => (s.modSplit k fun x => { x with wait := .service n.toNat }).ask e)

def execBrk (b : SclB) (s : State) : Res := .next (s.trap .brk none none 8 (s.bScl b))

/-- The group is saved as kind 6; its record of kind 15 names the instruction. While another save of the group is under way,
the split is held at the instruction. -/
def execHalt (s : State) : Res :=
  .next (s.sup fun s =>
    let g := s.gk
    if s.gr.saveKind ≠ 0 then (s.freeSlot s.cur).modSp fun x => { x with wait := .ready }
    else
      let a := s.ia
      let s := s.jumpTo (s.fall 2)
      s.modGroup g fun y => { y with
        saveKind := 6, fault := { kind := 15, addr := a, team := s.tm.teamId, core := y.core, group := g % 128 } })

/-! ### The program's bank (R346) -/

/-- In handler mode the other bank holds the program's registers: n 0 to 7 scalar, 8 to 15 predicates of W bits. -/
def State.bankReg (n : Nat) (k : State → State) (s : State) : State :=
  s.sup fun s => if !s.inHandler || n > 15 then s.noRight else k s

def execRbank (d : Fin 64) (b : SclB) (s : State) : Res :=
  let n := (s.bScl b).toNat
  .next (s.bankReg n fun s => s.sclOut d 4 2 (if n < 8 then s.gr.bank.rd n else s.gr.bank.rd n &&& ones s.gr.width))

def execRbankW (r : Fin 64) (b : SclB) (s : State) : Res :=
  let n := (s.bScl b).toNat
  .next (s.bankReg n fun s =>
    let x := if n < 8 then s.sr r else s.sr r &&& ones s.gr.width
    (s.modGr fun g => { g with bank := g.bank.wr n x }).adv 2)

/-! ### Translations (R348) -/

/-- An entry maps a page of the range that starts at `a` and is `n` pages long; 0 pages name every entry. -/
def Tlb.maps (t : Tlb) (a n : W64) : Bool :=
  let lo := pageOf a
  let last := (fld a.toNat 0 16 + n.toNat * 2 ^ 16 - 1) / 2 ^ 16
  n == 0 || (positions t.valid).any fun j => (64 * t.blk + j + 2 ^ 40 - lo) % 2 ^ 40 ≤ last

/-- Page-table stores are released, the entries go, and the operation retires when what they translated is over. -/
def execTlbinv (a : Fin 64) (b : SclB) (s : State) : Res :=
  .next (s.sup fun s =>
    if s.full s.fb then s.stall
    else s.release .dv 0 fun s =>
      let p := s.pt
      let va := s.sr a
      let n := s.bScl b
      let id := s.nextId
      let s := s.dropTlb fun t => t.part == p && t.maps va n
      ((s.issue { s.op0 with kind := .tlbinv, flag := s.fb }).readyIfDone id).adv 2)

/-! ### Resumption (R349) -/

/-- The group whose saved context in the frame at `a` waits for `fresume`. -/
def awaiting (s : State) (part : Nat) (a : W64) : Option Nat :=
  (s.groups.find? fun e => e.2.live && e.2.saved && e.2.frame == a && a != 0 && groupPart s e.1 == part && (e.2.saveKind == 1 || e.2.saveKind == 6) &&
    e.2.child == 0 && s.frameOk e.2.core part a).map (·.1)

/-- What an engine ticket of a partition names goes on; none if nothing is parked under it. -/
def State.resumeTicket (part n : Nat) (s : State) : Option State :=
  let id := n / 8
  let s' := s.modPart part fun p => { p with tickets := p.tickets.erase n }
  if !(s.parts.rd part).tickets.contains n then none
  else match n / 2 % 4 with
    | 0 =>
      let o := s.ops.rd id
      if o.live && o.parked then some ((s'.modOp id fun o => { o with parked := false }).soon (.chartBytesLanding id)) else none
    | 1 =>
      let d := s.draws.rd id
      if d.live && d.parked then some (s'.modDraw id fun d => { d with parked := false }) else none
    | 2 =>
      let y := (s.groups.rd (id / 64)).ray.rd (id % 64)
      if y.busy && y.parked then some ((s'.modRay (id / 64) (id % 64) fun y => { y with parked := false }).soon (.rayRecord (id / 64) (id % 64))) else none
    | _ =>
      if id < 64 then (if (s.queues.rd id).parked then some (s'.modQueue id fun x => { x with parked := false }) else none)
      else
        let g := s.grids.rd (id - 64)
        if g.live && g.parked then some (s'.modGrid (id - 64) fun g => { g with parked := false }) else none

def execFresume (d a : Fin 64) (s : State) : Res :=
  .next (s.sup fun s =>
    let x := s.sr a
    if x.getLsbD 0 then match s.resumeTicket s.pt x.toNat with
      | some s => s.sclOut d 4 2 0
      | none => s.sclOut d 4 2 2
    else match awaiting s s.pt x with
      | some g => (s.modGroup g fun y => { y with child := 1 }).sclOut d 4 2 0
      | none => s.sclOut d 4 2 1)

/-! ### Registers to and from memory (R350) -/

/-- The checks of `ctxsv` and `ctxld`, then `k` with the words: word W j + P is register j at position P. -/
def State.ctxWords (akind d n : Nat) (va : W64) (k : List (Nat × W64) → State → State) (s : State) : State :=
  if n = 0 then s.adv 2
  else if va.toNat % 128 ≠ 0 then s.trap .align (some 0) (some va) 8 (BitVec.ofNat 64 akind)
  else if s.gr.vc < d + n then s.prot akind
  else k ((List.range (n * s.gr.width)).map fun i => (ctxPos + i, va + BitVec.ofNat 64 (4 * i))) s

/-- The positions of helper lanes are left out (R258 names `ctxsv`; DEDUCED, log entry 112). -/
def execCtxsv (d : Fin 128) (a : Fin 64) (b : SclB) (s : State) : Res :=
  .next (s.sup fun s =>
    let n := (s.bScl b).toNat
    let w := s.gr.width
    s.ctxWords 1 d n (s.sr a) fun ls s => s.sram (ones w &&& ~~~s.helpers) ((List.range n).map (d.val + ·)) fun s =>
      s.storeAccess 1 4 false (ls.filter fun e => !s.helpers.getLsbD ((e.1 - ctxPos) % w)) (fun i => (s.gr.vr (d + (i - ctxPos) / w) ((i - ctxPos) % w)).toNat) (·.adv 2))

def execCtxld (d : Fin 128) (a : Fin 64) (b : SclB) (s : State) : Res :=
  .next (s.sup fun s =>
    let n := (s.bScl b).toNat
    s.ctxWords 0 d n (s.sr a) fun ls s => s.loadAccess (.ctxld d n) 0 false ls (·.adv 2))

/-! ### Counters (R337, R351) -/

/-- Where a counter stands. -/
inductive CtrAt where
  | core (core i : Nat)
  | slice (slice i : Nat)
  | ctl (ctl i : Nat)
  deriving DecidableEq, Repr

/-- The counter at an address; none where the address names none. -/
def ctrAt (core : Nat) (a : W64) : Option CtrAt :=
  let i := fld a.toNat 0 3
  let n := fld a.toNat 5 11
  if a.toNat / 2 ^ 16 ≠ 0 then none
  else match fld a.toNat 3 2 with
    | 0 => if n = 0 then some (.core core i) else none
    | 1 => if n < 1024 ∧ i < 4 then some (.slice n i) else none
    | 2 => if n < 8 then some (.ctl n i) else none
    | _ => none

def State.ctrVal (s : State) (part : Nat) : CtrAt → Ctr
  | .core c i => (s.cores.rd c).ctr.rd (8 * part + i)
  | .slice n i => (s.slices.rd n).ctr.rd (4 * part + i)
  | .ctl n i => s.mcCtr.rd (512 * n + 8 * part + i)
def State.setCtr (part : Nat) (at_ : CtrAt) (x : Ctr) (s : State) : State :=
  match at_ with
  | .core c i => s.modCore c fun y => { y with ctr := y.ctr.wr (8 * part + i) x }
  | .slice n i => s.modSlice n fun y => { y with ctr := y.ctr.wr (4 * part + i) x }
  | .ctl n i => { s with mcCtr := s.mcCtr.wr (512 * n + 8 * part + i) x }

def execCtr (d a : Fin 64) (s : State) : Res :=
  .next (match ctrAt s.cr (s.sr a) with
    | none => s.prot 16
    | some c => s.sclOut d 4 2 (s.ctrVal s.pt c).val)

def execCtrsel (a : Fin 64) (b : SclB) (s : State) : Res :=
  .next (s.sup fun s => match ctrAt s.cr (s.sr a) with
    | none => s.prot 16
    | some c => (s.setCtr s.pt c { ev := fld (s.bScl b).toNat 0 8, val := 0 }).adv 2)

/-! ### Extensions (R43) -/

/-- No feature bit of an extension is set (R42), so every one is left to the partition's handler. -/
def execExt (_opnds : Fin 131072) (_num : Fin 256) (s : State) : Res := .next (s.trap .extEmu (some s.act) none 0 0)

end Sys2Proof.Machine
end

