-- ==== Sys2Proof/Machine/Device.lean ====
section
/-! DEFINITION. The package and its connections (19_device.md): device registers (R352) and the register rules of the earlier
chapters, the display (R324), Slotlink (R354, R355), the service's requests (R327, R356, R357), boot, resets, errors, layer
map-out, power and cooling. -/

namespace Sys2Proof.Machine

/-! ### Partition registers (R123, R167, R180, R306, R312, R327) -/

/-- Bits of a number from `lo`, `n` of them. -/
def bitsAt (lo n : Nat) : W64 := BitVec.ofNat 64 ((2 ^ n - 1) * 2 ^ lo)

/-- The bits of a partition register that may be other than zero; none for a number not in the table. -/
def pregMask (n : Nat) : Option W64 :=
  if n = 0 then some (bitsAt 13 39)
  else if n = 1 ∨ n = 2 ∨ n = 5 ∨ n = 6 ∨ n = 8 ∨ n = 0x19 then some (BitVec.allOnes 64)
  else if n = 3 then some (bitsAt 18 30 ||| bitsAt 48 16)
  else if n = 4 then some (bitsAt 5 47)
  else if n = 7 then some (bitsAt 6 58)
  else if n = 9 then some (bitsAt 0 40 ||| bitsAt 48 16)
  else if n = 0x0A then some (bitsAt 16 48)
  else if n = 0x10 ∨ n = 0x11 then some (bitsAt 0 16)
  else if n = 0x12 then some (bitsAt 0 32)
  else if n = 0x13 then some (bitsAt 0 4)
  else if 0x14 ≤ n ∧ n ≤ 0x17 then some (bitsAt 15 37 ||| bitsAt 63 1)
  else if n = 0x18 then some (bitsAt 17 35 ||| bitsAt 63 1)
  else if 0x1A ≤ n ∧ n ≤ 0x21 then some (bitsAt 0 48)
  else if n = 0x22 then some 1
  else none

/-- Registers that the supervisor may write. -/
def pregSup (n : Nat) : Bool := n ≤ 0x0A && n != 5

/-- A register's own rules accept a write; one that sets a bit which must be zero is discarded (DEDUCED, log entry 31). -/
def pregOk (s : State) (part n : Nat) (v : W64) : Bool :=
  let carved (d : Nat) : Nat := (s.chunksOf part d).length
  let limit (p : Nat) : Nat := fld (s.preg p 0x13).toNat 0 4
  match pregMask n with
  | none => false
  | some m => v &&& ~~~m == 0 &&
    if n = 4 then v == 0 || fld v.toNat 48 4 != 0
    else if n = 8 then v.toNat ≤ 65536
    else if n = 9 then (s.parts.rd part).wg.all (·.2.st == .free)
    else if n = 0x13 then v.toNat ≤ 12 && (List.range 4).all (fun d => carved d ≤ v.toNat) &&
      (((List.range 64).filter (· != part)).map limit).sum + v.toNat ≤ 12
    else if 0x14 ≤ n ∧ n ≤ 0x17 then
      let d := n - 0x14
      fld v.toNat 39 13 == 0 && fld v.toNat 37 2 == d && fld v.toNat 15 22 % 1536 == 0 && carved d == 0
    else true

/-- A write of a partition register. A write of PT_ROOT removes the partition's translations first; one of the fault ring's
registers lets a waiting record be posted. A write of RT_BASE that moves or enables the table leaves the call tables and the anvils'
caches as they were (DESIGN CHOICE, log entry 120). -/
def State.writePreg (part n : Nat) (v : W64) (s : State) : State :=
  if !pregOk s part n v then s
  else
    let s := if n = 0 then s.dropTlb (·.part == part) else s
    let s := s.modPart part fun p => { p with regs := p.regs.wr n v }
    if n = 4 ∨ n = 6 then s.ask (.faultRecordPost part) else s

/-- A write of a window register (R123): the partition's translations go first. -/
def State.writePwin (part n : Nat) (limit : Bool) (v : W64) (s : State) : State :=
  let m := if limit then bitsAt 16 36 else bitsAt 16 36 ||| bitsAt 63 1
  if n > 63 || v &&& ~~~m != 0 then s
  else
    let s := s.dropTlb (·.part == part)
    s.modPart part fun p =>
      if limit then { p with winLimit := p.winLimit.wr n v } else { p with winBase := p.winBase.wr n v }

def execPwinWrite (part n : Nat) (limit : Bool) (v : W64) (s : State) : Res := .next (s.writePwin part n limit v)
def execPtRootWrite (part : Nat) (v : W64) (s : State) : Res := .next (s.writePreg part 0 v)
def execLlcCarveLimitWrite (part : Nat) (v : W64) (s : State) : Res := .next (s.writePreg part 0x13 v)
def execLlcCarveBaseWrite (part : Nat) (die : Fin 4) (v : W64) (s : State) : Res := .next (s.writePreg part (0x14 + die) v)
def execWgPoolWrite (part : Nat) (v : W64) (s : State) : Res := .next (s.writePreg part 9 v)
def execRtBaseWrite (part : Nat) (v : W64) (s : State) : Res := .next (s.writePreg part 0x18 v)
def execFaultHeadWrite (part : Nat) (v : W64) (s : State) : Res := .next (s.writePreg part 6 v)
def execFaultQWrite (part : Nat) (v : W64) (s : State) : Res := .next (s.writePreg part 4 v)

/-! ### Queue registers (R297, R298) -/

/-- A write that the service's report counts as discarded. -/
def State.countDiscard (s : State) : State := { s with discards := s.discards + 1 }

def queueEmpty (x : Queue) : Bool := x.head == x.tail

def State.writeQueue (q : Nat) (f : QField) (v : W64) (s : State) : State :=
  let x := s.queues.rd q
  if q > 63 then s
  else match f with
    | .base =>
      if !queueEmpty x then s.countDiscard else if v.toNat % 64 ≠ 0 then s else s.modQueue q fun x => { x with base := v }
    | .size =>
      if !queueEmpty x then s.countDiscard
      else if (List.range 17).any (fun i => i != 0 && v.toNat == 2 ^ i) then s.modQueue q fun x => { x with size := v } else s
    | .tail =>
      let t : BitVec 32 := v.setWidth 32
      if x.size.toNat < (t - x.head).toNat then s.countDiscard else s.modQueue q fun x => { x with tail := t }
    | .head => s.modQueue q fun x => { x with head := v.setWidth 32 }
    | .ctl =>
      if v &&& ~~~(bitsAt 63 1 ||| bitsAt 48 11 ||| 1#64) != 0 then s else s.modQueue q fun x => { x with ctl := v }

def execQTailWrite (q : Nat) (v : W64) (s : State) : Res := .next (s.writeQueue q .tail v)
def execQueueGeometryWrite (q : Nat) (size : Bool) (v : W64) (s : State) : Res := .next (s.writeQueue q (if size then .size else .base) v)
def execQctlWrite (q : Nat) (v : W64) (s : State) : Res := .next (s.writeQueue q .ctl v)

/-! ### Display (R324, R325, R361) -/

def Output.enabled (o : Output) : Bool := o.ctl.getLsbD 63
/-- The compositor queue of an output; the lead in clocks. -/
def Output.queue (o : Output) : Nat := fld o.ctl.toNat 50 6
def Output.lead (o : Output) : Nat := fld o.ctl.toNat 32 16 * 1600

def State.modOut (n : Nat) (f : Output → Output) (s : State) : State := { s with outs := s.outs.mod n f }

/-- The partition of the compositor queue. -/
def State.outPart (s : State) (n : Nat) : Nat := qPart (s.queues.rd (Output.queue (s.outs.rd n)))

/-- The frame's events of an output are under way. -/
def frameDue (s : State) (n : Fin 2) : Bool :=
  s.agenda.any fun p => p.ev == .reprojectionLaunch n || p.ev == .compositorUnstop n || p.ev == .vblank n

/-- The next frame's vblank less the lead comes at a clock that the timing in DISP_MODE fixes: a free value. -/
def State.nextFrame (n : Fin 2) (s : State) : State :=
  if frameDue s n then s else (s.drawn 1).later (s.clock + fld (s.fresh 0).toNat 0 32) (.reprojectionLaunch n)

/-- Registers 0 to 4 of an output: DISP_CTL, DISP_REPROJ, DISP_PRESENT, DISP_STAT, DISP_MODE. -/
def State.writeDisp (n : Fin 2) (i : Nat) (v : W64) (s : State) : State :=
  match i with
  | 0 =>
    if v &&& (bitsAt 56 7 ||| bitsAt 48 2) != 0 then s
    else
      let s := s.modOut n fun o => { o with ctl := v }
      if v.getLsbD 63 then s.nextFrame n else s
  | 1 => s.modOut n fun o => { o with reproj := v }
  | 2 => s.modOut n fun o => { o with present := v }
  | 3 => s.modOut n fun o => { o with stat := v &&& bitsAt 0 32 }
  | 4 => s.modOut n fun o => { o with mode := v }
  | _ => s

/-- The re-projection grid of a frame; a record that fails its checks launches none. A line that it reads and that is served to nobody
now is waited for. -/
def State.reproject (n : Fin 2) (s : State) : State :=
  let o := s.outs.rd n
  let part := s.outPart n
  let s := s.modOut n fun o => { o with used := 0, grid := 0, placed := false }
  if o.reproj.toNat % 64 ≠ 0 then s
  else match s.hwRead part o.reproj 64 with
    | (s, .ok v) => match s.checkLaunch part true (BitVec.ofNat 512 v) with
      | (s, none) => s.soon (.reprojectionLaunch n)
      | (s, some (.error _)) => s
      | (s, some (.ok x)) =>
        let a := s.addGrid x { part := part, die := 0, prio := 7, admitted := true, verify := x.verify, snap := x.snap }
        (a.1.modGrid a.2 fun g => { g with kind := .reproj }).modOut n fun o => { o with grid := a.2 }
    | (s, .wait) => s.soon (.reprojectionLaunch n)
    | (s, _) => s

/-- The half and the end of a frame's lead are to come. -/
def State.frameTimes (n : Fin 2) (s : State) : State :=
  let lead := Output.lead (s.outs.rd n)
  (s.later (s.clock + lead / 2) (.compositorUnstop n)).later (s.clock + lead) (.vblank n)

def execReprojectionLaunch (out : Fin 2) (s : State) : Res :=
  let o := s.outs.rd out
  if !o.enabled then .next s
  else if s.agenda.any (·.ev == .vblank out) then .next (s.reproject out)
  else .next ((s.reproject out).frameTimes out)

/-- The stopped bit of a queue; a record in progress, a WAIT that waits or one that is parked, ends first. -/
def State.stopQueue (q : Nat) (on : Bool) (s : State) : State :=
  s.modQueue q fun x =>
    if on && (x.busy || x.parked) then { x with stopping := true }
    else { x with stopping := false, ctl := if on then x.ctl ||| 1#64 else x.ctl &&& ~~~1#64 }

/-- The frame's re-projection grid has had every team placed. -/
def reprojPlaced (s : State) (n : Fin 2) : Bool := (s.outs.rd n).placed

def execCompositorUnstop (out : Fin 2) (s : State) : Res :=
  let o := s.outs.rd out
  .next (if o.enabled && !reprojPlaced s out then s.stopQueue o.queue false else s)

/-- Lines of pixels from an address, each read at its home slice: false with the first page that does not translate, or peer's line that
its grants refuse (R355), none with the first line that is served to nobody now (R130, R144). -/
def State.scanLines (part : Nat) : Nat → W64 → State → State × Option Bool
  | 0, _, s => (s, some true)
  | n + 1, va, s => match s.hwXlate part va false with
    | (s, .ok pa c) =>
      let line := pa / 128
      if isPeer line && !s.peerAllows part line then (s, some false)
      else if s.busy line || (!s.present line && s.memHeld line part) then (s.recall [line], none)
      else scanLines part n (va + 128) ((s.fillLine line part c).recent line)
    | (s, .wait) => (s, none)
    | (s, _) => (s, some false)

/-- A buffer to be shown (R361): its record is read, then its pixels. It can be shown when the record's format, samples and levels
allow it and every page translates; none while a line is served to nobody. -/
def State.showBuffer (part : Nat) (va : W64) (s : State) : State × Option Bool :=
  if va.toNat % 64 ≠ 0 then (s, some false)
  else match s.hwRead part va 64 with
    | (s, .ok v) =>
      let r : BitVec 512 := BitVec.ofNat 512 v
      let len := if recLinear r then recHeight r * recField r 160 32 else 128 * levelLines r 0
      let base := recField r 0 64
      if recField r 96 3 ≤ 1 && recSamples r == 1 && recField r 108 4 == 0 then
        s.scanLines part ((base % 128 + len + 127) / 128) (BitVec.ofNat 64 (base / 128 * 128))
      else (s, some false)
    | (s, .wait) => (s, none)
    | (s, _) => (s, some false)

/-- A new present word names the buffer to show; anything else repeats the frame and counts it as missed. The compositor queue
is stopped. A read that its home slice does not serve now comes again, and the event with it. -/
def execVblank (out : Fin 2) (s : State) : Res :=
  let o := s.outs.rd out
  if !o.enabled then .next s
  else
    let part := s.outPart out
    let missed (s : State) : State := s.modOut out fun o => { o with stat := (o.stat + 1) &&& bitsAt 0 32 }
    let end_ (s : State) : State := (s.stopQueue o.queue true).nextFrame out
    let r := if o.present.toNat % 8 ≠ 0 then (s, HwVal.prot) else s.hwRead part o.present 8
    .next (match r with
      | (s, .ok v) =>
        let w := BitVec.ofNat 64 v
        let seen (s : State) : State := s.modOut out fun o => { o with last := w }
        if w = o.last then end_ (missed (seen s))
        else match s.showBuffer part w with
          | (s, some true) => end_ ((seen s).modOut out fun o => { o with shown := w })
          | (s, some false) => end_ (missed (seen s))
          | (s, none) => s.again (.vblank out)
      | (s, .wait) => s.again (.vblank out)
      | (s, _) => end_ (missed s))

/-- Re-projection teams past the frame's budget are pre-empted (R322). -/
def execReprojectionBudgetExpiry (out : Fin 2) (s : State) : Res :=
  let g := (s.outs.rd out).grid
  .next (if g ≠ 0 && overBudget s g then (gridTeams s g).foldl (fun s t => if asked s t then s else s.preempt t) s else s)

/-! ### Resets (R359) -/

/-- What every reset leaves: the time since the last cold reset, the outside world, the power controller's readings, and what
the peers hold. -/
def State.cleared_ (s : State) (kind : ResetKind) (mem : Memory) (poison : TMap Bool) : State :=
  { State.reset with
    clock := s.clock, tick := s.tick, nextId := s.nextId, inputs := s.inputs, mem := mem, poison := poison, peerGrants := s.peerGrants
    resetCause := kind, hot := s.hot, replies := s.replies
    dies := (s.dies.map fun (e : Nat × Die) => (e.1, { (default : Die) with lost := e.2.lost, power := e.2.power })).filter fun e => e.2 != default }

/-- Local memory left undefined; the peers' stays. -/
def Memory.forget (m : Memory) : Memory := { epoch := m.epoch + 1, cells := m.cells.filter fun c => 2 ^ 39 ≤ c.1 }
def keepPeers (p : TMap Bool) : TMap Bool := p.filter fun e => 2 ^ 39 ≤ 32 * e.1

/-- Lines of the LLC that hold what HBM may not: carved and dirty. -/
def State.llcOnly (s : State) : List Nat :=
  s.slices.flatMap fun e => (e.2.tags.filter fun t => t.2.valid && (t.2.carved || t.2.dirty)).map (·.1)

/-- Every carved and dirty line goes to HBM. -/
def State.flushLlc (s : State) : State :=
  s.llcOnly.foldl (fun s line =>
    let t := s.tagOf line
    { s with mem := s.mem.setLine line t.data }.setHbmPsn line t.psn) s

/-- Every page that held one of some lines has its sectors poisoned in HBM. -/
def State.poisonPages (lines : List Nat) (s : State) : State :=
  ((lines.map (· / 512)).eraseDups).foldl (fun s page =>
    (List.range 512).foldl (fun s i => s.setHbmPsn (512 * page + i) 0xF#4) s) s

/-- HBM keeps its contents or not, as the preserve bit says; lines that a fatal reset loses poison their pages either way. -/
def State.warmReset (kind : ResetKind) (s : State) : State :=
  let lost := if kind = .fatal then s.llcOnly else []
  let s := if kind = .fatal then s else s.flushLlc
  (if s.preserve then s.cleared_ kind s.mem s.poison else s.cleared_ kind s.mem.forget (keepPeers s.poison)).poisonPages lost

def execOrderlyWarmReset (s : State) : Res := .next (s.warmReset .orderly)
def execFatalWarmReset (s : State) : Res := .next (s.warmReset .fatal)

/-- Only the fuses and the flash are kept: CLOCK counts from here. -/
def execColdReset (s : State) : Res :=
  .next { State.reset with
    tick := s.tick, nextId := s.nextId, inputs := s.inputs, mem := s.mem.forget, poison := keepPeers s.poison, peerGrants := s.peerGrants
    hot := s.hot, replies := s.replies }

/-! ### Device registers (R352) -/

/-- The write of a die's register `i`: MC_IDLE_TIMER of both stacks, MEM_CAP, BORROW_REGION_MAX, POWER_STAT. -/
def State.writeDie (die i : Nat) (v : W64) (s : State) : State :=
  if i < 2 then s.modDie die fun d => { d with idleTimer := d.idleTimer.wr i (fld v.toNat 0 16 ^^^ 256) }
  else if i = 2 then (if v.toNat ≤ 2 ^ 37 then s.modDie die fun d => { d with lost := 2 ^ 37 - v.toNat } else s)
  else if i = 3 then (if v.toNat ≤ 240000 then s.modDie die fun d => { d with borrowMax := v.toNat } else s)
  else s

/-- The write of a register of the package: SLOT_ID, RESET_CTL, RESET_CAUSE. A 1 in RESET_CTL's go starts an orderly reset. -/
def State.writePackage (i : Nat) (v : W64) (s : State) : State :=
  match i with
  | 0 => if v.toNat < 1024 then { s with slotId := v.setWidth 10 } else s
  | 1 =>
    if v.toNat ≥ 4 then s
    else
      let s := { s with preserve := v.getLsbD 0 }
      if v.getLsbD 1 then s.ask .orderlyWarmReset else s
  | _ => s

def regBase : Nat := 0xC000000000000

/-- A write at an address of the device-register range; the blocks' registers follow one another in R352's order. -/
def State.writeReg (addr : Nat) (v : W64) (s : State) : State :=
  let a := addr - regBase
  let off := a % 2 ^ 16
  let n := a / 2 ^ 16 % 2 ^ 16
  if addr < regBase || a % 8 ≠ 0 then s
  else match a / 2 ^ 32 with
    | 0 => if n > 63 then s else match off / 8 with
      | 0 => s.writeQueue n .base v
      | 1 => s.writeQueue n .size v
      | 2 => s.writeQueue n .tail v
      | 3 => s.writeQueue n .head v
      | 4 => s.writeQueue n .ctl v
      | _ => s
    | 1 =>
      if n > 63 then s
      else if off < 0x800 then s.writePreg n (off / 8) v
      else if off < 0xA00 then s.writePwin n ((off - 0x800) / 8) false v
      else if off < 0xC00 then s.writePwin n ((off - 0xA00) / 8) true v
      else s
    | 2 =>
      let i := a % 2 ^ 32 / 8
      if i < 5 then s.writeDisp 0 i v
      else if i < 10 then s.writeDisp 1 (i - 5) v
      else if i = 10 then (if v.toNat < 2 ^ 48 then { s with reserve := v } else s)
      else if i = 11 then (if v.toNat < 2 ^ 32 then { s with regionMax := v.toNat } else s)
      else s
    | 3 => if a % 2 ^ 32 < 0x4000 then s.writeDie (a % 2 ^ 32 / 0x1000) (a % 0x1000 / 8) v else s
    | 4 => s.writePackage (a % 2 ^ 32 / 8) v
    | _ => s

def execRegisterWrite (addr : Nat) (v : W64) (s : State) : Res := .next (s.writeReg addr v)
def execBorrowRegionMaxWrite (die : Fin 4) (v : W64) (s : State) : Res := .next (s.writeDie die 3 v)

/-! ### Slotlink (R354, R355) -/

/-- A fill or a read that fails: the lanes whose words it was to bring; a store that waited for it loses those words. A prefetch counts
an error. -/
def State.readRefused (r : LineReq) (s : State) : State :=
  let s := s.modOp r.op fun o => { o with awaits := o.awaits.filter fun w => w / 32 != r.line }
  let o := s.ops.rd r.op
  if r.op = 0 then s.asyncErr r.grid
  else if !o.live then s
  else if o.kind = .store then
    ((s.modOp r.op fun o => { o with pas := o.pas.filter fun w => w.1 / 32 != r.line }).asyncErr o.grid).partDone r.op 1
  else ((o.pas.filter fun e => e.2 / 128 == r.line).foldl (fun s e => s.refusedAt r.op e.1 o.grid) s).partDone r.op 1

/-- The launch of a write-through: its operation's, or a grid of its partition that has run on its core, which the hardware
names and the spec does not say how: a free choice. -/
def State.writerGrid (s : State) (r : WtReq) : Nat :=
  if (s.ops.rd r.op).live then (s.ops.rd r.op).grid
  else
    let gs := (s.grids.filter fun e => e.2.live && e.2.part == r.part && e.2.ran.contains r.core).map (·.1)
    gs.getD (Config.pick s.tick % max 1 gs.length) 0

/-- A request to a peer fails. -/
def State.slotFails (q : SlotReq) (s : State) : State :=
  match q.kind with
  | .read r => s.readRefused r
  | .write r => ((s.drawn 1).asyncErr (s.writerGrid r)).acknowledge { r with own := false, upd := false } |> fun s =>
      if r.op ≠ 0 && (r.upd || (s.ops.rd r.op).kind != .cacheOp) then s.partDone r.op 1 else s
  | .atomic r => (s.refusedAt r.op r.lane (s.ops.rd r.op).grid).partDone r.op 1
  | .cas r => (s.refusedAt r.op r.lane (s.ops.rd r.op).grid).partDone r.op 1
  | .call r => match r.kind with
    | .call => (s.refusedAt r.op r.lane r.grid).partDone r.op 1
    | _ => (s.asyncErr r.grid).chainDone r

/-- A peer runs a routine of its own table: the line afterwards and the words returned are free. -/
def State.peerCall (r : InvReq) (op : Nat) (s : State) : State :=
  let rets := ((s.parts.rd r.part).calls.rd (r.ids.headD 0)).rets
  let line : Line := BitVec.ofNat 1024 ((List.range 16).foldr (fun i n => (s.fresh i).toNat + 2 ^ 64 * n) 0)
  let ws := (List.range rets).map fun i => (s.fresh (16 + i)).setWidth 32
  let s := (s.drawn 24).setHome r.line r.part line 0 r.c
  if op = 0 then s
  else match r.kind with
    | .call => (if rets = 0 then s else if r.scalar then s.answerS op r.dreg ws else s.answer op r.lane r.dreg ws).partDone op 1
    | _ => s.chainDone r

/-- The fixed routines of a request (R195, R196), answered to operation `op`. -/
def State.runAtm (r : AtmReq) (op part : Nat) (s : State) : State :=
  let n := if r.wide then 8 else 4
  s.fixedRoutine op r.lane part r.pa n r.dreg r.c (r.ret && op != 0) fun old =>
    some (atmF r.aop (8 * n) (BitVec.ofNat (8 * n) old) (BitVec.ofNat (8 * n) r.x.toNat)).toNat
def State.runCas (r : CasReq) (op part : Nat) (s : State) : State :=
  let n := if r.wide then 8 else 4
  s.fixedRoutine op r.lane part r.pa n r.dreg r.c (r.ret && op != 0) fun old =>
    if old = fld r.cmp.toNat 0 (8 * n) then some r.new.toNat else none

/-- A peer serves a request of this device: a change of the line waits until every other owner of its words has acknowledged, and so
does a read meanwhile (R141, R148). -/
def State.slotServed (q : SlotReq) (s : State) : State :=
  let clear (mask : W32) (but : Nat) (k : State → State) : State :=
    let r := s.cleared q.line mask but
    if r.2 then k r.1 else r.1.again (.slotlinkRequest q)
  let all : (State → State) → State := clear (BitVec.allOnes 32) noOwner
  match q.kind with
  | .read r => if s.revoking q.line then s.again (.slotlinkRequest q) else s.answerRead r (s.homeLine r.line) (s.homePsn r.line)
  | .write r => clear (bytesWords r.bytes) (if r.own then r.core else noOwner) (if r.own then State.applyWt r else State.applyZero r)
  | .atomic r => all (State.runAtm r r.op r.part)
  | .cas r => all (State.runCas r r.op r.part)
  | .call r => all (State.peerCall r r.op)

/-- This device's own grant table opens a local line to a calling device and partition. -/
def State.grantFor (s : State) (q : SlotReq) : Option Grant :=
  s.grants.find? fun g => g.dev == q.dev && g.part == q.part && g.lo ≤ 128 * q.line && 128 * q.line < g.hi && q.line < 2 ^ 32

/-- The number under which a peer's core stands in the registry. -/
def slotCore (dev core : Nat) : Nat := Config.cores * (dev + 1) + core % Config.cores

/-- A peer's request is served at this device's home slice, for the partition whose routine table the grant names; what the
peer is answered leaves the device. One to memory that does not exist is not performed (R9). -/
def State.slotIncoming (q : SlotReq) (g : Grant) (s : State) : State :=
  let ev : Ev := .slotlinkRequest q
  let bad (line : Nat) : Bool := line != q.line || (s.place (128 * line)).isNone
  match q.kind with
  | .read r => if bad r.line then s else s.atHome q.line g.rtPart r.c ev (State.recent q.line)
  | .write r =>
    if bad r.line then s
    else s.atHome q.line g.rtPart r.c ev (State.applyWt { r with core := slotCore q.dev r.core, part := g.rtPart, op := 0, upd := false })
  | .atomic r => if bad (r.pa / 128) then s else s.anvilGate q.line g.rtPart r.c ev (State.runAtm r 0 g.rtPart)
  | .cas r => if bad (r.pa / 128) then s else s.anvilGate q.line g.rtPart r.c ev (State.runCas r 0 g.rtPart)
  | .call r =>
    if bad r.line then s else s.soon (.anvilInvocationStart { r with kind := .call, part := g.rtPart, op := 0, grid := 0, core := slotCore q.dev r.core })

def execSlotlinkRequest (q : SlotReq) (s : State) : Res :=
  .next (if q.incoming then match s.grantFor q with
      | none => s
      | some g => s.slotIncoming q g
    else if !s.peerAllows q.part q.line then s.slotFails q
    else s.slotServed q)

/-- What a peer that does not answer may still have done. -/
def State.slotUnheard (q : SlotReq) (s : State) : State :=
  if Config.pick s.tick % 2 = 0 then s.drawn 1
  else
    let s := s.drawn 1
    match q.kind with
    | .read _ => s
    | .write r => s.writeSectors r.line r.part r.data r.bytes r.psn r.c
    | .atomic r => s.runAtm r 0 r.part
    | .cas r => s.runCas r 0 r.part
    | .call r => s.peerCall r 0

/-- Work `w` of a chart transfer on a line of a peer fails: its bytes are not moved and count as landed; of a store they may be written. -/
def State.chartUnheard (op w : Nat) (s : State) : State :=
  let o := s.ops.rd op
  match o.kind with
  | .chart sub _ _ _ =>
    let ps := linePieces (opXfer o).pieces (w - 1)
    let s := if storing sub && Config.pick s.tick % 2 == 1 then s.storePieces o ps (o.pas.rd w - 1) ((o.vas.rd w).getLsbD 1) else s
    (((s.drawn 1).asyncErr o.grid).countLanded o (if landing sub then (ps.map Piece.count).sum else 0)).workDone op w
  | _ => s

/-- The operation of a request that is still on its way to a peer, and the clock + 1 at which it went out; 0 where it has not. -/
def peerOp (s : State) : Ev → Option (Nat × Nat)
  | .slotlinkRequest q => if q.incoming then none else some (q.op, q.sent)
  | .tsampleRead r => if isPeer r.line then some (r.op, (s.ops.rd r.op).sent.rd 0) else none
  | .gatherLanding op lane =>
    let o := s.ops.rd op
    if isPeer (o.pas.rd lane / 128) && !o.todo.contains (o.pas.rd lane / 128) then some (op, o.sent.rd 0) else none
  | .tmethInvocation r => if isPeer r.line && r.mode != 0 then some (r.op, (s.ops.rd r.op).sent.rd 0) else none
  | .tredInvocation op line => if isPeer ((s.ops.rd op).pas.rd line - 1) then some (op, (s.ops.rd op).sent.rd (line + 1)) else none
  | _ => none

/-- 1 ms has passed since a request went out (R355). -/
def overdue (s : State) (sent : Nat) : Bool := sent != 0 && sent - 1 + slotlinkLimit ≤ s.clock
/-- A request of an operation to a peer has had no response for 1 ms. -/
def unheard (s : State) (op : Nat) (e : Ev) : Bool := match peerOp s e with
  | some v => v.1 == op && overdue s v.2
  | none => false

/-- A request to a peer gets no response (R355): it fails as a refused one does, and may have been performed. -/
def State.peerUnheard (e : Ev) (s : State) : State :=
  let maybe (k : State → State) (s : State) : State := if Config.pick s.tick % 2 = 0 then s.drawn 1 else k (s.drawn 1)
  match e with
  | .slotlinkRequest q => (s.slotUnheard q).slotFails q
  | .tsampleRead r => (s.refusedAt r.op r.lane (s.ops.rd r.op).grid).partDone r.op 1
  | .gatherLanding op _ => (s.asyncErr (s.ops.rd op).grid).partDone op 1
  | .tmethInvocation r =>
    if r.mode = 1 then (maybe (fun s => s.setHome r.line r.part (clearLine (s.slot r.part r.slot).rec_ r.bits (r.args.headD 0) (s.homeLine r.line)) 0 r.c)
      (s.asyncErr r.grid)).partDone r.op 1
    else (s.asyncErr r.grid).partDone r.op 1
  | .tredInvocation op line => (maybe (State.tredBody op line) (s.asyncErr (s.ops.rd op).grid)).tredEnd op line
  | _ => s

/-- 1 ms has passed since a request of an operation went out to a peer (R355): the oldest that has had no response for so long fails, of a
chart transfer the work that has. -/
def execSlotlinkTimeout (op : Nat) (s : State) : Res :=
  match s.agenda.find? fun p => unheard s op p.ev with
  | some p => .next ({ s with agenda := s.agenda.erase p }.peerUnheard p.ev)
  | none =>
    let o := s.ops.rd op
    .next (match o.todo.find? fun w => o.awaitsPeer w && overdue s (o.sent.rd w) with
      | some w => s.chartUnheard op w
      | none => s)

/-! ### Answers to `sysc` (R327, R345, R357) -/

/-- A split's request `b` is answered by `k`, unless its group is being saved; it continues at its next clause. -/
def State.serve (split b : Nat) (ev : Ev) (k : State → State) (s : State) : State :=
  let x := s.splits.rd split
  let g := s.groups.rd (split / 4)
  if !x.live || x.wait ≠ .service b then s
  else if g.saved || g.saveKind != 0 then s.again ev
  else (k s).modSplit split fun x => { x with wait := if x.until_ = 0 then .ready else .asleep }

/-- Argument and result registers of the request. -/
def State.argOf (s : State) (split n : Nat) : W64 := (s.splits.rd split).s.rd n
def State.answerTo (split n : Nat) (v : W64) (s : State) : State := s.modSplit split fun x => { x with s := x.s.wr n v }

def splitPart (s : State) (split : Nat) : Nat := groupPart s (split / 4)

def execPregWrite (split : Nat) (s : State) : Res :=
  .next (s.serve split 1 (.pregWrite split) fun s =>
    let n := fld (s.argOf split 56).toNat 0 8
    if (pregMask n).isNone then s.answerTo split 56 1
    else if !pregSup n then s.answerTo split 56 2
    else (s.writePreg (splitPart s split) n (s.argOf split 57)).answerTo split 56 0)

def execPregRead (split : Nat) (s : State) : Res :=
  .next (s.serve split 2 (.pregRead split) fun s =>
    let n := fld (s.argOf split 56).toNat 0 8
    if (pregMask n).isNone then s.answerTo split 56 1
    else (s.answerTo split 57 (s.preg (splitPart s split) n)).answerTo split 56 0)

/-- Bytes from an address, as pieces that each lie in one line. -/
def pieces (va : W64) (bs : List W8) : List (W64 × List W8) :=
  let o := va.toNat % 128
  (List.range ((o + bs.length + 127) / 128)).map fun i =>
    (va + BitVec.ofNat 64 (128 * i - o), (bs.drop (128 * i - o)).take (if i = 0 then 128 - o else 128))

/-- Bytes that the service writes for a partition; none where a page does not translate. -/
def State.svcWrite (part : Nat) : List (W64 × List W8) → State → Option State
  | [], s => some s
  | (va, bs) :: r, s => match s.hwXlate part va true with
    | (s, .ok pa c) => svcWrite part r (s.hwWrite part pa bs.length (bs.foldr (fun b n => b.toNat + 256 * n) 0) c)
    | _ => none

/-- Lines that the service is to write or to read, or that translate them, and that are served to nobody now. -/
def svcBusy (s : State) (part : Nat) (w : Bool) (ps : List (W64 × List W8)) : List Nat :=
  ps.flatMap fun p => s.walkBusy part p.1 ++ match s.hwPeek part p.1 w with
    | .ok pa _ => if s.busy (pa / 128) || (!w && !s.present (pa / 128) && s.memHeld (pa / 128) part) then [pa / 128] else []
    | _ => []

/-- Bytes of reports, whose layout the spec does not give. -/
def freeBytes (seed n : Nat) : List W8 := (List.range n).map (Config.reportByte seed)

/-- A buffer of the partition takes `bs`; the status is 0, or a free value where the buffer cannot be written. -/
def State.deliver (split b : Nat) (ev : Ev) (va : W64) (bs : List W8) (k : State → State) (s : State) : State :=
  let p := splitPart s split
  match svcBusy s p true (pieces va bs) with
  | ls@(_ :: _) => if (s.splits.rd split).wait = .service b then (s.recall ls).again ev else s
  | [] => s.serve split b ev fun s => match s.svcWrite p (pieces va bs) with
    | some s => (k (s.drawn 1)).answerTo split 56 0
    | none => (s.drawn 2).answerTo split 56 (s.fresh 1)

def execReportRead (split : Nat) (s : State) : Res :=
  let p := splitPart s split
  .next (match s.reports.find? (·.part == p) with
    | none => s.serve split 3 (.reportRead split) fun s => s.answerTo split 56 2
    | some r => s.deliver split 3 (.reportRead split) (s.argOf split 57) (freeBytes s.tick 256) fun s => { s with reports := s.reports.erase r })

/-- Bytes that the service reads for a partition; none where a page does not translate or holds poison. -/
def State.svcRead (part : Nat) : List (W64 × List W8) → State → State × Option (List W8)
  | [], s => (s, some [])
  | (va, bs) :: r, s => match s.hwRead part va bs.length with
    | (s, .ok v) => match svcRead part r s with
      | (s, l) => (s, l.map ((List.range bs.length).map (fun i => BitVec.ofNat 8 (v / 256 ^ i)) ++ ·))
    | (s, _) => (s, none)

/-- A partition's configuration: its registers, and its windows from 256 and from 512 on. -/
def Part.config (p : Part) : List (Nat × W64) :=
  p.regs ++ p.winBase.map (fun e => (256 + e.1, e.2)) ++ p.winLimit.map (fun e => (512 + e.1, e.2))

/-- The report on a nonce of 48 bytes stands after it: its bytes rest on the measurements, the nonce and the partition's configuration
(R358); its length is free, and so is the status where the nonce cannot be read. -/
def execSyscAttest (split : Nat) (s : State) : Res :=
  let p := splitPart s split
  let va := s.argOf split 57
  let rd := svcBusy s p false (pieces va (List.replicate 48 0))
  .next (if (s.splits.rd split).wait ≠ .service 4 then s
    else if rd ≠ [] then (s.recall rd).again (.syscAttest split)
    else match s.svcRead p (pieces va (List.replicate 48 0)) with
      | (s, some nonce) => s.deliver split 4 (.syscAttest split) (va + 48)
          ((List.range Config.reportLen).map (Config.attestByte s.measured nonce (s.parts.rd p).config s.tick)) id
      | (s, none) => s.serve split 4 (.syscAttest split) fun s => (s.drawn 1).answerTo split 56 (s.fresh 0))

/-- A hot-remove record is acknowledged (R360); with the last of them the range is mapped out. Without one the status is free. -/
def execRemoveDone (split : Nat) (s : State) : Res :=
  .next (s.serve split 5 (.removeDone split) fun s =>
    let p := splitPart s split
    match (s.parts.rd p).removes with
    | [] => (s.drawn 1).answerTo split 56 (s.fresh 0)
    | d :: rest =>
      let s := (s.modPart p fun x => { x with removes := rest }).answerTo split 56 0
      if s.parts.all fun e => !e.2.removes.contains d then s.soon (.layerMapOut (Fin.ofNat 4 d)) else s)

/-! ### Requests to the service (R356) -/

/-- The service answers. -/
def State.reply (r : Reply) (s : State) : State := { s with replies := s.replies ++ [r] }

/-- A request is accepted once boot has ended, under a session's key; one whose HMAC was not made under such a key is discarded and
counted (R356). After a boot that failed every request is answered with BOOT_FAIL (R358). -/
def State.request (k : State → State) (s : State) : State :=
  match s.boot, s.hmac with
  | .rom, _ => s
  | .failed, _ => s.reply .bootFail
  | .running, none => k s
  | .running, some key => if s.sessions.contains key then k s else s.countDiscard

/-- Every counter of a partition is bound to event 0 with the value 0 (R351). -/
def State.clearCtrs (part : Nat) (s : State) : State :=
  { s with
    cores := s.cores.map fun (e : Nat × Core) => (e.1, { e.2 with ctr := e.2.ctr.filter fun c => c.1 / 8 != part })
    slices := s.slices.map fun (e : Nat × Slice) => (e.1, { e.2 with ctr := e.2.ctr.filter fun c => c.1 / 4 != part })
    mcCtr := s.mcCtr.filter fun c => c.1 % 512 / 8 != part }

/-- The number of a partition that exists makes none (DESIGN CHOICE, log entry 117). -/
def execPartCreate (cfg : PartCfg) (s : State) : Res :=
  .next (s.request fun s =>
    if cfg.id > 63 || (s.parts.rd cfg.id).live then s
    else
      let s := { s.clearCtrs cfg.id with parts := s.parts.wr cfg.id { live := true, key := true } }
      let s := cfg.regs.foldl (fun s e => s.writePreg cfg.id e.1 e.2) s
      cfg.windows.foldl (fun s w => (s.writePwin cfg.id w.1 false w.2.1).writePwin cfg.id w.1 true w.2.2) s)

/-- Pairs that are a partition's own. -/
def partPairs (s : State) (part : Nat) : List Nat := pairs.filter fun p => s.guaranteed part p || s.margin part p

/-- A partition ends in steps: its teams, its carve, the pairs, the rest. -/
def State.destroy (part : Nat) (s : State) : State :=
  let gs := (s.grids.filter fun e => e.2.live && e.2.part == part).map (·.1)
  let more (s : State) : State := s.again (.partDestroy part)
  let s := s.endGrids gs
  let dies := (List.range 4).filter fun d => s.chunksOf part d != []
  let carving : Bool := s.ops.any fun e => e.2.live && match e.2.kind with
    | .carve p _ _ => p == part
    | _ => false
  let lent := (partPairs s part).flatMap (foreignTeams s part)
  if gs.any fun g => gridTeams s g != [] then more s
  else if carving then more s
  else if dies ≠ [] then
    more (dies.foldl (fun s d =>
      let id := s.nextId
      let s := s.issue { live := true, part := part, kind := .carve part d 0, flag := orphan, need := 256 }
      (List.range 256).foldl (fun s i => s.soon (.carveSliceApply id (256 * d + i))) s) s)
  else if lent ≠ [] then more (lent.foldl (fun s t => if asked s t then s else s.preempt t) s)
  else
    let s := (partPairs s part).foldl (fun s p => s.scrub 64 p) s
    let s := s.dropTlb (·.part == part)
    { s with
      parts := s.parts.del part
      queues := s.queues.map fun (e : Nat × Queue) => (e.1, if qPart e.2 = part then { e.2 with open_ := [], busy := false, parked := false } else e.2)
      grids := s.grids.filter fun e => e.2.part != part
      graphs := s.graphs.filter fun e => e.2.part != part
      draws := s.draws.filter fun e => e.2.part != part }

def execPartDestroy (part : Nat) (s : State) : Res :=
  .next (s.request fun s => if (s.parts.rd part).live then s.destroy part else s)

/-- Bytes go to a physical address inside the partition's windows. -/
def execLoad (part pa : Nat) (bytes : List W8) (s : State) : Res :=
  .next (s.request fun s =>
    let ps := pieces (BitVec.ofNat 64 pa) bytes
    let at_ (p : W64 × List W8) : Option Nat := if s.inWindows part p.1.toNat then s.place p.1.toNat else none
    if 2 ^ 52 ≤ pa + bytes.length || ps.any fun p => (at_ p).isNone then s
    else
      let ws := ps.filterMap fun p => (at_ p).map fun a => (a, p.2)
      match ws.find? fun w => s.busy (w.1 / 128) with
      | some w => (s.ask (.engineRecall (w.1 / 128))).again (.load part pa bytes)
      | none => ws.foldl (fun s w => s.hwWrite part w.1 w.2.length (w.2.foldr (fun b n => b.toNat + 256 * n) 0) true) s)

def execQueueSet (q : Nat) (f : QField) (v : W64) (s : State) : Res := .next (s.request (State.writeQueue q f v))

def execTableSet (t : TableReq) (s : State) : Res :=
  .next (s.request fun s => match t with
    | .rtBase part v => s.writePreg part 0x18 v
    | .grant g => { s with grants := (s.grants.filter fun x => !(x.dev == g.dev && x.part == g.part && x.lo == g.lo)) ++ [g] })

/-- Counters of a partition, unit by unit. -/
def State.partCtrs (s : State) (part : Nat) : List (Nat × Nat × Nat × Ctr) :=
  let mine (kind unit n : Nat) (m : TMap Ctr) : List (Nat × Nat × Nat × Ctr) :=
    (m.filter fun e => e.1 / n == part).map fun e => (kind, unit, e.1 % n, e.2)
  (s.cores.flatMap fun e => mine 0 e.1 8 e.2.ctr) ++ (s.slices.flatMap fun e => mine 1 e.1 4 e.2.ctr) ++
    (s.mcCtr.filter fun e => e.1 % 512 / 8 == part).map fun e => (2, e.1 / 512, e.1 % 8, e.2)

/-- The report on a partition is answered; its records stay unread for `sysc` (DESIGN CHOICE, log entry 115). -/
def execReport (part : Nat) (s : State) : Res :=
  .next (s.request fun s => s.reply (.report part (s.reports.filter (·.part == part)) (s.partCtrs part) s.discards))
/-- The attestation report on a nonce is answered; a request names no partition, so it holds the configuration of each (DESIGN CHOICE,
log entry 116). -/
def execAttest (nonce : List W8) (s : State) : Res :=
  .next (s.request fun s => s.reply (.attestation s.measured nonce ((s.parts.filter (·.2.live)).map fun e => (e.1, e.2.config))))

/-- A warm reset with the preserve bit given. -/
def execReset (preserve : Bool) (s : State) : Res :=
  .next (s.request fun s => { s with preserve := preserve }.warmReset .orderly)

/-- A requester has checked the attestation report and established its session key. -/
def execSessionKeyExchange (requester : Nat) (s : State) : Res :=
  .next (if s.boot = .running && s.attestKey && !s.sessions.contains requester then { s with sessions := s.sessions ++ [requester] } else s)

/-! ### Boot (R358) -/

/-- The firmware's and the service's signatures hold or not; `rom`, `fw` and `svc` are the measurements. -/
def execBoot (fwOk svcOk : Bool) (rom fw svc : List W8) (s : State) : Res :=
  .next (if s.boot ≠ .rom then s
    else if !fwOk then { s with boot := .failed }
    else if !svcOk then { s with boot := .failed, measured := [rom, fw], attestKey := true }
    else { s with boot := .running, measured := [rom, fw, svc], attestKey := true })

/-! ### Errors (R339), layers (R360), power and cooling (R362) -/

def execCorrectableError (part ctl : Nat) (s : State) : Res := .next (s.mcEv (ctl % 8) part 0x85 1)

/-- Sectors of a core's oldest packet with words of a line become poisoned (R339): words that return to it, or words that it writes. -/
def State.spoilPacket (core line : Nat) (m : BitVec 4) (s : State) : State :=
  let hit (w : WtReq) : Bool := w.core == core && w.line == line
  let spoil (p : Pending) : Option Ev := match p.ev with
    | .mergingFillReturn r => if r.core == core && r.line == line then some (.mergingFillReturn { r with psn := r.psn ||| m }) else none
    | .writeThrough w => if hit w then some (.writeThrough { w with psn := w.psn ||| m }) else none
    | .slotlinkRequest q => match q.incoming, q.kind with
      | false, .write w => if hit w then some (.slotlinkRequest { q with kind := .write { w with psn := w.psn ||| m } }) else none
      | _, _ => none
    | _ => none
  match s.agenda.findIdx? fun p => (spoil p).isSome with
  | some i => match s.agenda[i]? with
    | some p => { s with agenda := s.agenda.set i { p with ev := (spoil p).getD p.ev } }
    | none => s
  | none => s

/-- A sector, or a word of the SRAM pool, becomes poisoned. -/
def execUncorrectableDataError (at_ : ErrWhere) (s : State) : Res :=
  .next (match at_ with
    | .memory pa => match s.place pa with
      | none => s
      | some a =>
        let line := a / 128
        let bit : BitVec 4 := 1#4 <<< (a % 128 / 32)
        let t := s.tagOf line
        if !isPeer line && t.valid then s.setHome line t.part t.data (t.psn ||| bit) true
        else s.setHbmPsn line (s.hbmPsn line ||| bit)
    | .fabric c l i => if i < 4 then s.spoilPacket c l (1#4 <<< i) else s
    | .l1 c l i => if (s.l1 c l).live && i < 4 then s.modL1 c l fun x => { x with psn := x.psn ||| (1#4 <<< i) } else s
    | .vreg g r p => if (s.groups.rd g).live then s.modGroup g fun y => { y with badV := y.badV.wr (64 * r + p) true } else s
    | .scratch t off => if (s.teams.rd t).live then s.modTeam t fun y => { y with bad := y.bad.wr (off / 4) true } else s
    | .tile g w => if (s.groups.rd g).live then s.modGroup g fun y => { y with badT := y.badT.wr w true } else s)

/-- The highest 8 GiB of a die's present capacity: first address and length. -/
def State.topRange (s : State) (die : Nat) : Nat × Nat :=
  let cap := 2 ^ 37 - (s.dies.rd die).lost
  (die * 2 ^ 37 + (cap - 2 ^ 33), min cap (2 ^ 33))

/-- An enabled window reaches a range of physical memory. -/
def Part.reaches (p : Part) (lo len : Nat) : Bool :=
  (List.range 64).any fun n =>
    (p.winBase.rd n).getLsbD 63 && fld (p.winBase.rd n).toNat 16 36 * 2 ^ 16 < lo + len && lo < (fld (p.winLimit.rd n).toNat 16 36 + 1) * 2 ^ 16

/-- A layer fails: each partition whose windows reach the range gets a record of kind 16. While a failed layer of the die waits to be
mapped out, another failure does nothing (DESIGN CHOICE, log entry 118). -/
def execLayerFailure (die : Fin 4) (s : State) : Res :=
  let d := die.val
  let r := s.topRange d
  if r.2 = 0 || (s.dies.rd d).failing then .next s
  else
    let ps := (s.parts.filter fun e => e.2.live && e.2.reaches r.1 r.2).map (·.1)
    let s := s.modDie d fun x => { x with failing := true }
    let s := ps.foldl (fun s p => (s.modPart p fun x => { x with
      removes := x.removes ++ [d], waiting := x.waiting ++ [{ kind := 16, addr := BitVec.ofNat 64 r.1, frame := BitVec.ofNat 64 r.2 }] }).ask (.faultRecordPost p)) s
    .next (if ps = [] then s.soon (.layerMapOut die) else s.later (s.clock + 160000000) (.layerMapOut die))

/-- A window gives up a range: it ends before it, or begins after it, or is no longer in force. -/
def narrow (base limit : W64) (lo len : Nat) : W64 × W64 :=
  let b := fld base.toNat 16 36
  let l := fld limit.toNat 16 36
  let p := lo / 2 ^ 16
  let e := (lo + len) / 2 ^ 16
  if !base.getLsbD 63 || l < p || e ≤ b then (base, limit)
  else if b < p then (base, BitVec.ofNat 64 ((p - 1) * 2 ^ 16))
  else if e ≤ l then (BitVec.ofNat 64 (2 ^ 63 + e * 2 ^ 16), limit)
  else (base &&& ~~~(bitsAt 63 1), limit)

/-- The failing layer's rows take the place of the range, which is gone: capacity and windows shrink. -/
def execLayerMapOut (die : Fin 4) (s : State) : Res :=
  let d := die.val
  let r := s.topRange d
  if !(s.dies.rd d).failing then .next s
  else
    let s := s.modDie d fun x => { x with lost := x.lost + r.2, failing := false }
    let hit (l : Nat) : Bool := r.1 ≤ 128 * l && 128 * l < r.1 + r.2
    let gone := s.slices.flatMap fun e => (e.2.tags.filter fun t => hit t.1 && t.2.valid).map fun t => (e.1, t.2)
    let s := gone.foldl (fun s e => s.levels e.1 e.2 (-1)) s
    let s : State := { s with
      mem := { s.mem with cells := s.mem.cells.filter fun c => !(r.1 ≤ c.1 && c.1 < r.1 + r.2) }
      poison := s.poison.filter fun e => !hit (e.1 / 4)
      slices := s.slices.map fun (e : Nat × Slice) => (e.1, { e.2 with tags := e.2.tags.filter fun t => !hit t.1, reg := e.2.reg.filter fun x => !hit x.line })
      cores := s.cores.map fun (e : Nat × Core) => (e.1, { e.2 with l1 := e.2.l1.filter fun l => !hit l.1 })
      agenda := s.agenda.filter fun p => p.ev != .layerMapOut die }
    let ps := (s.parts.filter fun e => e.2.live).map (·.1)
    .next (ps.foldl (fun s p =>
      let s := s.modPart p fun x => { x with removes := x.removes.filter (· != d) }
      if (s.parts.rd p).reaches r.1 r.2 then
        (List.range 64).foldl (fun s n =>
          let x := s.parts.rd p
          let w := narrow (x.winBase.rd n) (x.winLimit.rd n) r.1 r.2
          s.modPart p fun x => { x with winBase := x.winBase.wr n w.1, winLimit := x.winLimit.wr n w.2 }) (s.dropTlb (·.part == p))
      else s) s)

/-- The controller sets the share of clocks withheld, in place of a withholding of every issue (DEDUCED, log entry 32). -/
def execPowerThrottle (share : BitVec 6) (s : State) : Res :=
  .next ((List.range 4).foldl (fun s d => s.modDie d fun x => { x with power := share }) { s with hot := false })

/-- Every issue is withheld. -/
def execCoolantOvertemp (s : State) : Res := .next { s with hot := true }
def execDieOvertemp (_die : Fin 4) (s : State) : Res := .next (s.warmReset .fatal)

end Sys2Proof.Machine
end

