-- ==== Sys2Proof/Machine/Ordering.lean ====
section
/-! DEFINITION. `fence` and `efence`, major 48 (R139 to R143, R156). -/

namespace Sys2Proof.Machine

/-- The release and acquire work of a fence from phase `p`, then the next instruction. -/
def State.fenceFrom (sc : Scope) (kind : FenceKind) (p : Nat) (s : State) : State :=
  match kind with
  | .rel => s.release sc p (·.adv 2)
  | .acq => s.acquire sc p (·.adv 2)
  | .both => s.release sc p (State.acquire sc (p + 2) (·.adv 2))

def execFence (sc : Scope) (kind : FenceKind) (s : State) : Res := .next (s.fenceFrom sc kind 0)

/-- An `efence` first waits until every earlier engine operation of the split has retired. -/
def execEfence (sc : Scope) (kind : FenceKind) (s : State) : Res :=
  .next (if s.sp.phase = 0 then
      match ownEngines s with
      | [] => (s.phased 1).fenceFrom sc kind 1
      | ids => s.waitFor (.ops ids)
    else s.fenceFrom sc kind 1)

end Sys2Proof.Machine
end

