-- ==== Sys2Proof/Machine/Raster.lean ====
section
/-! DEFINITION. Rasterisation (R255 to R260, R373): triangles from emitted vertices, the coverage of 64 x 64 tiles, notice entries
at the home slices, and the launch of fragment groups. -/

namespace Sys2Proof.Machine

/-! ### Triangles (R255) -/

/-- Triangles of a draw. -/
def drawTris (d : Draw) : Nat := drawCount d / 3

/-- A live lane of a team has this LANEID. -/
def laneLives (s : State) (t l : Nat) : Bool :=
  (teamGroups s t).any fun g => (positions (groupLanes s g)).any fun p => (s.groups.rd g).laneid.rd p == l

/-- Vertex `i` of a draw, from its first, has been emitted or will never be. -/
def vertexKnown (s : State) (d : Draw) (i : Nat) : Bool :=
  let g := s.grids.rd d.vgrid
  let t := i / g.lanes
  (d.verts.rd i).has ||
    (t < g.placed && match s.teams.find? fun e => e.2.live && e.2.grid == d.vgrid && e.2.teamId == t with
      | some e => !laneLives s e.1 (i % g.lanes)
      | none => true)

/-- The next triangle of a draw whose vertices are known. -/
def triangleDue (s : State) (draw : Nat) : Bool :=
  let d := s.draws.rd draw
  d.live && !d.rasterDone && d.nprim < drawTris d && [0, 1, 2].all fun j => vertexKnown s d (3 * d.nprim + j)

/-- A position as exact numbers: x, y. -/
def posXY (v : Vert) : Int × Int := (fixed149 (v.pos.getD 0 0), fixed149 (v.pos.getD 1 0))

/-- Twice the signed area of a triangle. -/
def cross2 (a b c : Int × Int) : Int := (b.1 - a.1) * (c.2 - a.2) - (b.2 - a.2) * (c.1 - a.1)

/-- The triangle produces fragments: every vertex present and finite, q above zero, an area. -/
def triKept (vs : List Vert) : Bool :=
  vs.all (fun v => v.has && (v.pos.take 4).all fFinite && fGt (v.pos.getD 3 0) 0) &&
    cross2 (posXY (vs.getD 0 default)) (posXY (vs.getD 1 default)) (posXY (vs.getD 2 default)) != 0

def execPrimitiveAssembly (draw i : Nat) (s : State) : Res :=
  let d := s.draws.rd draw
  if !triangleDue s draw || i != d.nprim then .next s
  else .next (s.modDraw draw fun d => { d with nprim := i + 1, prims := if triKept (drawTri d i) then d.prims ++ [i] else d.prims })

/-! ### Coverage (R256) -/

/-- Sample positions in sixteenths of a pixel. -/
def samplePattern (n : Nat) : List (Nat × Nat) :=
  match n with
  | 1 => [(8, 8)]
  | 2 => [(5, 3), (11, 13)]
  | 4 => [(3, 6), (6, 13), (10, 2), (13, 10)]
  | _ => [(10, 6), (6, 10), (13, 12), (3, 4), (8, 14), (1, 9), (15, 2), (5, 1)]

/-- A point passes the edge from `a` to `b` of a triangle whose third vertex is `c`. -/
def passesEdge (a b c p : Int × Int) : Bool :=
  let e := cross2 a b p
  let side := cross2 a b c
  let top := a.2 = b.2 ∧ a.2 < c.2
  let left := a.2 ≠ b.2 ∧ side * (b.2 - a.2) < 0
  0 < e * side || (e == 0 && (top ∨ left))

/-- A point is covered by a triangle. -/
def coversPoint (v : List (Int × Int)) (p : Int × Int) : Bool :=
  let at_ (i : Nat) : Int × Int := v.getD i (0, 0)
  passesEdge (at_ 0) (at_ 1) (at_ 2) p && passesEdge (at_ 1) (at_ 2) (at_ 0) p && passesEdge (at_ 2) (at_ 0) (at_ 1) p

/-- The covered samples of a pixel of a target, by its record. -/
def pixelCover (r : BitVec 512) (v : List (Int × Int)) (x y : Nat) : W32 :=
  if x ≥ recWidth r ∨ y ≥ recHeight r then 0
  else
    let at_ (i : Nat × Nat) : Int × Int := ((16 * x + i.1 : Int) * 2 ^ 145, (16 * y + i.2 : Int) * 2 ^ 145)
    BitVec.ofNat 32 (((samplePattern (recSamples r)).mapIdx fun k i => if coversPoint v (at_ i) then 2 ^ k else 0).sum)

/-- Pixels of a tile. -/
def tilePixels (tx ty : Nat) : List (Nat × Nat) :=
  (List.range 64).flatMap fun j => (List.range 64).map fun i => (64 * tx + i, 64 * ty + j)

/-- Tiles of a draw across, and in all: they divide the largest of its targets. -/
def tilesAcross (s : State) (d : Draw) : Nat :=
  ceilDiv (((drawSlots d).map fun n => recWidth (s.slot d.part n).rec_).foldl max 0) 64
def tileCount (s : State) (d : Draw) : Nat :=
  tilesAcross s d * ceilDiv (((drawSlots d).map fun n => recHeight (s.slot d.part n).rec_).foldl max 0) 64

/-! ### One primitive in one tile (R259, R260, R373) -/

/-- Coverage of one target: pixels with their samples. -/
structure SlotCover where
  slot : Nat
  pix  : List (Nat × Nat × W32)
  deriving DecidableEq, Repr, Inhabited

/-- The lines that hold the pixels, by address. -/
def coverLines (r : BitVec 512) (ps : List (Nat × Nat × W32)) : List W64 := (ps.map fun p => lineVa r 0 p.1 p.2.1).eraseDups
/-- A pixel of a target's own extent whose samples lie in a line. -/
def inLine (r : BitVec 512) (va : W64) (p : Nat × Nat × W32) : Bool :=
  p.1 < recWidth r && p.2.1 < recHeight r && lineVa r 0 p.1 p.2.1 == va

/-- How far the translations of a primitive have come: one has missed, one has met a page fault, errors counted, and what is
left of the coverage. -/
structure Plan where
  miss  : Bool := false
  fault : Option W64 := none
  err   : Nat := 0
  cover : List SlotCover := []
  /-- slot and line address, and the physical line -/
  lines : List (Nat × W64 × Nat) := []
  deriving DecidableEq, Repr, Inhabited

def Plan.fail (p : Plan) (va : W64) : Plan := { p with fault := some (p.fault.getD va) }

/-- Pixels of a line leave the coverage of one slot, or of every slot: of a culled line also those that only another target covers (DESIGN
CHOICE, log entry 130). -/
def Plan.drop (r : BitVec 512) (va : W64) (slot : Option Nat) (p : Plan) : Plan :=
  { p with cover := p.cover.map fun c => { c with pix := c.pix.filter fun x => !(inLine r va x && (slot == none || slot == some c.slot)) } }

/-- The least (`hi` false) or greatest z of a triangle. -/
def triZ (hi : Bool) (vs : List Vert) : W32 :=
  let zs := vs.map fun v => v.pos.getD 2 0
  (zs.drop 1).foldl (fun a b => BitVec.ofNat 32 (f32p.minmax hi a.toNat b.toNat)) (zs.headD 0)

/-- One line of the culling target: its map entry is read and its pixels dropped where the entry says so. While its line is served to
nobody (R130, R144, R171) the primitive waits, as for a translation that misses. -/
def State.cullLine (d : Draw) (n : Nat) (vs : List Vert) (va : W64) (x : State × Plan) : State × Plan :=
  let r := (x.1.slot d.part n).rec_
  match (x.2.cover.filter (·.slot == n)).flatMap (fun c => c.pix.filter (inLine r va)) with
  | [] => x
  | p :: _ =>
    let ma : W64 := BitVec.ofNat 64 (recField r 192 64 + 8 * lineNumber r 0 p.1 p.2.1)
    match x.1.engineXlate d.die d.part ma false with
    | (s, .miss) => (s, { x.2 with miss := true })
    | (s, .fault) => (s, x.2.fail ma)
    | (s, .prot) => (s, x.2)
    | (s, .ok pa c _) =>
      if isPeer (pa / 128) && !s.peerAllows d.part (pa / 128) then (s, { x.2 with err := x.2.err + 1 }) else
      if s.busy (pa / 128) || (!s.present (pa / 128) && s.memHeld (pa / 128) d.part) then (s.recall [pa / 128], { x.2 with miss := true }) else
      let s := (s.fillLine (pa / 128) d.part c).recent (pa / 128)
      if (s.homePsn (pa / 128)).getLsbD (pa % 128 / 32) then (s, { x.2.drop r va (some n) with err := x.2.err + 1 })
      else
        let e := lineBytes (s.homeLine (pa / 128)) (pa % 128) 8
        let lo := fld e 0 32
        let hi := fld e 32 32
        let le (a b : Nat) : Bool := fcmpHolds .le (f32p.val a) (f32p.val b)
        let cull := if recField r 103 2 = 1 then le hi (triZ false vs).toNat else le (triZ true vs).toNat lo
        (s, if cull then x.2.drop r va none else x.2)

/-- One line of a target is translated for its notice entry. -/
def State.noticeLine (d : Draw) (n : Nat) (va : W64) (x : State × Plan) : State × Plan :=
  let r := (x.1.slot d.part n).rec_
  match x.1.engineXlate d.die d.part va true with
  | (s, .miss) => (s, { x.2 with miss := true })
  | (s, .fault) => (s, x.2.fail va)
  | (s, .prot) => (s, { x.2.drop r va (some n) with err := x.2.err + 1 })
  | (s, .ok pa _ _) => (s, { x.2 with lines := x.2.lines ++ [(n, va, pa / 128)] })

/-- Coverage, culling and translations of a primitive in a tile. -/
def State.rasterPlan (draw tile prim : Nat) (s : State) : State × Plan :=
  let d := s.draws.rd draw
  let vs := drawTri d prim
  let v := vs.map posXY
  let ps := tilePixels (tile % tilesAcross s d) (tile / tilesAcross s d)
  let cover := (drawSlots d).map fun n => SlotCover.mk n (ps.filterMap fun p =>
    let c := pixelCover (s.slot d.part n).rec_ v p.1 p.2
    if c = 0 then none else some (p.1, p.2, c))
  let rec_ (n : Nat) : BitVec 512 := (s.slot d.part n).rec_
  let x : State × Plan := match (drawSlots d).find? fun n => recField (rec_ n) 103 2 != 0 && recField (rec_ n) 192 64 != 0 with
    | none => (s, { cover := cover })
    | some n => (coverLines (rec_ n) ((cover.filter (·.slot == n)).flatMap (·.pix))).foldl (fun x va => State.cullLine d n vs va x) (s, { cover := cover })
  if x.2.miss || x.2.fault.isSome then x
  else x.2.cover.foldl (fun x c => (coverLines (rec_ c.slot) c.pix).foldl (fun x va => State.noticeLine d c.slot va x) x) x

/-- The pixels of a plan in quads: origin of each, row by row. -/
def planQuads (p : Plan) : List (Nat × Nat) :=
  ((p.cover.flatMap fun c => c.pix.map fun x => (x.1 / 2 * 2, x.2.1 / 2 * 2)).eraseDups).mergeSort fun a b => a.2 < b.2 || (a.2 == b.2 && a.1 ≤ b.1)

/-- The lane of a pixel. -/
def planFrag (s : State) (d : Draw) (prim : Nat) (p : Plan) (x y : Nat) : Frag :=
  let cs := p.cover.filterMap fun c => (c.pix.find? fun q => q.1 == x && q.2.1 == y).map fun q => (c.slot, q.2.2)
  let line (n : Nat) : Nat := ((p.lines.find? fun l => l.1 == n && l.2.1 == lineVa (s.slot d.part n).rec_ 0 x y).map (·.2.2)).getD 0
  { live := true, helper := cs == [], x := x, y := y, ord := prim, cov := cs.foldl (fun (m : TMap W32) c => m.wr c.1 c.2) []
    lines := cs.foldl (fun (m : TMap Nat) c => m.wr c.1 (line c.1)) [] }

/-- The next primitive of the current tile: its notice entries are sent, and its quads wait for their acceptance. -/
def State.rasterPrim (draw : Nat) (p : Plan) (s : State) : State :=
  let d := s.draws.rd draw
  let prim := d.prims.getD d.tprim 0
  let quads := (planQuads p).map fun o => Quad.mk o.1 o.2 prim
    ([(0, 0), (1, 0), (0, 1), (1, 1)].map fun (q : Nat × Nat) => planFrag s d prim p (o.1 + q.1) (o.2 + q.2))
  let notes := p.lines.map fun l =>
    let r := (s.slot d.part l.1).rec_
    let ps := (p.cover.filter (·.slot == l.1)).flatMap fun c => c.pix.filter (inLine r l.2.1)
    let mask := ps.foldl (fun m q => m ||| (1#32 <<< pixInLine r q.1 q.2.1)) 0
    (show Notice from { part := d.part, key := draw, line := l.2.2, draw := drawNumber d, ord := prim, mask := mask, slot := l.1 })
  let s := (List.range p.err).foldl (fun s _ => s.asyncErr d.vgrid) s
  let s := notes.foldl (fun s n => s.soon (.noticeEntry n)) s
  s.modDraw draw fun d => { d with
    tprim := d.tprim + 1, notices := notes.length
    quads := if notes = [] then d.quads ++ quads else d.quads, newQuads := if notes = [] then [] else quads }

/-- The rasteriser of a draw can go on: to a primitive of its tile, or past a tile of which no primitive is left. -/
def rasterDue (s : State) (draw : Nat) : Bool :=
  let d := s.draws.rd draw
  let wait : Bool := d.stopped && d.tprim == 0 && (pairs.any fun p => s.pairFor false (s.grids.rd d.vgrid) p && outranked s d.vgrid p)
  d.live && !d.rasterDone && !d.parked && d.notices == 0 && !wait && (d.tprim < d.prims.length || d.nprim == drawTris d)

/-- The draws of one queue are rasterised in order. -/
def rasterFirst (s : State) (draw : Nat) : Bool :=
  let d := s.draws.rd draw
  s.draws.all fun e => !(e.2.live && !e.2.rasterDone && e.2.queue == d.queue && e.1 < draw)

def execRasterTileBegin (draw : Nat) (s : State) : Res :=
  let d := s.draws.rd draw
  if !(rasterDue s draw && rasterFirst s draw) then .next s
  else
    let s := s.modDraw draw fun d => { d with stopped := false }
    if tileCount s d ≤ d.tile then .next (if d.nprim = drawTris d then s.modDraw draw fun d => { d with rasterDone := true } else s)
    else if d.tprim < d.prims.length then
      let x := s.rasterPlan draw d.tile (d.prims.getD d.tprim 0)
      .next (if x.2.miss || x.2.fault.isSome then x.1 else x.1.rasterPrim draw x.2)
    else .next (s.modDraw draw fun d => { d with tile := d.tile + 1, tprim := 0 })

/-- The page fault that the next primitive meets. -/
def rasterFault (s : State) (draw : Nat) : Option W64 :=
  let d := s.draws.rd draw
  if rasterDue s draw && rasterFirst s draw && d.tile < tileCount s d && d.tprim < d.prims.length then
    (s.rasterPlan draw d.tile (d.prims.getD d.tprim 0)).2.fault
  else none

def execRasterPageFault (draw : Nat) (s : State) : Res :=
  match rasterFault s draw with
  | some va => .next ((s.engineFault (s.draws.rd draw).part 13 va (ticketOf 1 draw) 0 0 0).modDraw draw fun d => { d with parked := true })
  | none => .next s

/-- A slice accepts a notice entry while it has a free one; with a primitive's last, its quads can be launched. -/
def execNoticeEntry (n : Notice) (s : State) : Res :=
  let i := sliceOf n.line
  if 8192 ≤ (s.slices.rd i).notices.length then .next (s.again (.noticeEntry n))
  else
    let s := (s.modSlice i fun x => { x with notices := x.notices ++ [n] }).sliceEv i n.part 0x58 1
    .next (if (s.draws.rd n.key).live then
        s.modDraw n.key fun d => { d with
          notices := d.notices - 1
          quads := if d.notices ≤ 1 then d.quads ++ d.newQuads else d.quads, newQuads := if d.notices ≤ 1 then [] else d.newQuads }
      else s)

/-! ### Fragment groups (R257) -/

def fragSpec (s : State) (draw : Nat) : TeamSpec :=
  let d := s.draws.rd draw
  let g := s.grids.rd d.fgrid
  { kind := .fragment, word := g.word, entry := g.entry, lanes := g.lanes, bars := g.bars, teamId := g.placed }

/-- Quads of a draw wait to be launched; a group of them has room. -/
def fragmentsWait (s : State) (draw : Nat) : Bool :=
  let d := s.draws.rd draw
  d.live && d.quads != [] && !(s.grids.rd d.fgrid).trapped
def fragmentsDue (s : State) (draw : Nat) : Bool :=
  fragmentsWait s draw && places s (pendingRestores s) (s.grids.rd (s.draws.rd draw).fgrid) (fragSpec s draw) != []

/-- Some of the oldest quads, in ascending ordinal, become a team of one group; how many is the rasteriser's choice. -/
def execFragmentGroupLaunch (draw : Nat) (s : State) : Res :=
  let d := s.draws.rd draw
  let x := fragSpec s draw
  match if fragmentsDue s draw then bestPlace (places s (pendingRestores s) (s.grids.rd d.fgrid) x) else none with
  | none => .next s
  | some c =>
    let n := 1 + Config.pick s.tick % min (x.lanes / 4) d.quads.length
    let qs := (d.quads.take n).mergeSort fun a b => a.ord ≤ b.ord
    let r := (s.drawn 1).placeTeam d.fgrid x c
    let g := 128 * r.2
    let frags := (qs.flatMap (·.frags)).mapIdx fun p f => (p, f)
    let s := r.1.modSplit (4 * g) fun y => { y with lanes := ones (4 * n) }
    let s := s.modGroup g fun y => { y with
      frag := frags.foldl (fun (m : TMap Frag) e => m.wr e.1 e.2) [], rSplits := [(0, s.splits.rd (4 * g))] }
    let s := s.modTeam r.2 fun t => { t with laneMap := identMap (4 * n) }
    .next ((s.modGrid d.fgrid fun g => { g with placed := g.placed + 1 }).modDraw draw fun d => { d with quads := d.quads.drop n })

end Sys2Proof.Machine
end

