-- ==== Sys2Proof/Machine/Matrix.lean ====
section
/-! DEFINITION. Matrix instructions, major 57 (14_matrix.md): octet passes, tiles, unfolding. A group's matrix operations stand in
`Group.mtx` and are applied in the order of issue (R237); each reads its scratchpad operands element by element, between issue
and retirement. -/

namespace Sys2Proof.Machine

/-! ### Shapes (R231 to R233) -/

/-- Octets with an active lane. -/
def octets (m : W64) : List Nat := (List.range 8).filter fun o => fld m.toNat (8 * o) 8 != 0

/-- K of a format: 32 bytes of elements. -/
def mmaK (f : Fmt) : Nat := 256 / Fmt.pitch f
/-- Tiles of one octet pass. -/
def passTiles (f : Fmt) : Nat := if f = .f64 then 2 else 1

/-- First tile of an octet's pass. -/
def passTile (f : Fmt) (t o : Nat) : Nat := t + passTiles f * o

/-- Accumulator element (r, c): its first word's key. -/
def accKey (f : Fmt) (t r c : Nat) : Nat :=
  if f = .f64 then 128 * (t + r / 4) + 32 * (r % 4) + 2 * c else 128 * t + 16 * r + c

/-- Sub-ops as `OpKind.mtx` holds them. -/
def mMma : Nat := 0
def mMmas : Nat := 1
def mAclr : Nat := 2
def mAmov : Nat := 3
def mAput : Nat := 4
def mAst : Nat := 5

/-! ### Operands (R234, R239) -/

def lo32 (x : W64) : Nat := fld x.toNat 0 32
def hi32 (x : W64) : Nat := fld x.toNat 32 32
/-- A row or column pitch; 0 means 32. -/
def pitchOf (x : W64) : Nat := if hi32 x = 0 then 32 else hi32 x

/-- Blocks of a chunk that have scales of their own. -/
def mxBlocks (f : Fmt) : Nat := mmaK f / 32

/-- A field of an unfold descriptor. -/
def ufField (d : BitVec 128) (lo n : Nat) : Nat := fld d.toNat lo n
/-- The pixel pitch of an unfolded tensor, and its bytes. -/
def ufPitch (d : BitVec 128) (f : Fmt) : Nat := ceilDiv (ceilDiv (ufField d 44 12 * Fmt.pitch f) 8) 32 * 32
def ufBytes (d : BitVec 128) (f : Fmt) : Nat := ufField d 20 12 * ufField d 32 12 * ufPitch d f

/-- Bit offset of element (i, k) of the virtual A; none where it reads as zero. -/
def ufElem (d : BitVec 128) (f : Fmt) (i k : Nat) : Option Nat :=
  let F := ufField d
  let C := F 44 12
  let kh := F 64 4 + 1
  let kw := F 68 4 + 1
  let oy := i / F 96 12
  let ox := i % F 96 12
  let ch := k % C
  let t := k / C
  let kx := t % kw
  let ky := t / kw
  let y : Int := (oy * (F 72 4 + 1) + ky * (F 80 4 + 1) : Nat) - (F 88 4 : Nat)
  let x : Int := (ox * (F 76 4 + 1) + kx * (F 84 4 + 1) : Nat) - (F 92 4 : Nat)
  if oy ≥ F 108 12 ∨ ky ≥ kh ∨ y < 0 ∨ y ≥ F 20 12 ∨ x < 0 ∨ x ≥ F 32 12 then none
  else some (8 * (F 0 20 + (y.toNat * F 32 12 + x.toNat) * ufPitch d f) + ch * Fmt.pitch f)

/-- An operand element of an operation: where its value is kept in `Op.sres`. Each octet's pass reads its own columns of B (R237). -/
def keyA (i k : Nat) : Nat := 64 * i + k
def keyB (q n k : Nat) : Nat := 16384 * (q + 1) + 64 * n + k
def keySa (i j : Nat) : Nat := 8192 + 64 * i + j
def keySb (q n j : Nat) : Nat := 16384 * (q + 1) + 8192 + 64 * n + j

/-- The descriptor an operation unfolds, when it does (`b2` says so). -/
def opUnfold (o : Op) : Bool := o.b2 != 0
def opDesc (o : Op) : BitVec 128 := o.rec_.setWidth 128

/-- The operand elements that a `mma` or `mmas` reads: key, bit offset in scratchpad, bits. -/
def mmaReads (o : Op) (sub : Nat) (f : Fmt) : List (Nat × Nat × Nat) :=
  let e := Fmt.pitch f
  let ks := List.range (mmaK f)
  let rows := (octets o.lanes).flatMap fun q => (List.range 8).map (8 * q + ·)
  let as_ := rows.flatMap fun i => ks.filterMap fun k =>
    if opUnfold o then (ufElem (opDesc o) f (lo32 o.b1 + i) (hi32 o.b1 + k)).map fun p => (keyA i k, p, e)
    else some (keyA i k, 8 * (lo32 o.a + i * pitchOf o.a) + k * e, e)
  let bs := (octets o.lanes).flatMap fun q => (List.range 16).flatMap fun n => ks.map fun k =>
    (keyB q n k, 8 * (lo32 o.b + n * pitchOf o.b) + k * e, e)
  let js := List.range (mxBlocks f)
  let ss := if sub = mMmas then
      (rows.flatMap fun i => js.map fun j => (keySa i j, 8 * (lo32 o.a1 + i * hi32 o.a1 + 4 * j), 32)) ++
      (octets o.lanes).flatMap fun q => (List.range 16).flatMap fun n => js.map fun j => (keySb q n j, 8 * (lo32 o.b1 + n * hi32 o.b1 + 4 * j), 32)
    else []
  as_ ++ bs ++ ss

/-- The byte ranges that the range check of R234 covers. -/
def mmaRanges (o : Op) (sub : Nat) (f : Fmt) : List (Nat × Nat) :=
  let rows := (octets o.lanes).flatMap fun q => (List.range 8).map (8 * q + ·)
  let as_ := if opUnfold o then [(ufField (opDesc o) 0 20, ufBytes (opDesc o) f)] else rows.map fun i => (lo32 o.a + i * pitchOf o.a, 32)
  let bs := (List.range 16).map fun n => (lo32 o.b + n * pitchOf o.b, 32)
  let n4 := 4 * mxBlocks f
  let ss := if sub = mMmas then
      (rows.map fun i => (lo32 o.a1 + i * hi32 o.a1, n4)) ++ (List.range 16).map fun n => (lo32 o.b1 + n * hi32 o.b1, n4)
    else []
  as_ ++ bs ++ ss

/-- The lowest byte that lies past the team's scratchpad. -/
def lowestPast (size : Nat) (rs : List (Nat × Nat)) : Option Nat :=
  let ps := (rs.filter fun r => size < r.1 + r.2).map fun r => max r.1 size
  match ps with
  | [] => none
  | p :: q => some (q.foldl min p)

/-- The first misaligned operand: its offset; of an unfolded A, the tensor's. Of several, A or the tensor comes first, then B, then the scales
of A, then those of B (DESIGN CHOICE, log entry 127). -/
def mmaMisaligned (o : Op) (sub : Nat) : Option Nat :=
  let bad (al : Nat) (x : W64) : Option Nat := if lo32 x % al = 0 ∧ hi32 x % al = 0 then none else some (lo32 x)
  let a := if !opUnfold o then bad 32 o.a else if ufField (opDesc o) 0 20 % 32 = 0 then none else some (ufField (opDesc o) 0 20)
  let s := if sub = mMmas then (bad 4 o.a1).or (bad 4 o.b1) else none
  (a.or (bad 32 o.b)).or s

/-! ### Issue -/

/-- A matrix operation takes its place in the group's order. -/
def State.mtxIssue (o : Op) (s : State) : State :=
  let id := s.nextId
  (((s.issue o).modGr fun g => { g with mtx := g.mtx ++ [id] }).ask (.matrixPassWrite s.gk)).adv 2

/-- R240: an operation that writes a tile named by the region's opening `ppoint` seals the region. -/
def State.tileSeal (ts : List Nat) (s : State) : State := if ts.any fun t => s.gr.rMask.getLsbD t then s.sealNow else s

/-- A poisoned word of a tile that the instruction reads (R339). -/
def tilesBad (g : Group) (ts : List Nat) : Bool := g.badT.any fun e => ts.contains (e.1 / 128)

/-- `mma` and `mmas` (R232 to R236). -/
def State.mmaIssue (sub : Nat) (f : Fmt) (t : Nat) (o : Op) (empty : Bool) (s : State) : State :=
  let o := { o with kind := .mtx sub f t, flag := s.fb, lanes := s.act, need := 1 }
  let ts := (octets s.act).flatMap fun q => (List.range (passTiles f)).map (passTile f t q + ·)
  let rs := mmaRanges o sub f
  if s.act = 0 then s.adv 2
  else if s.full s.fb then s.stall
  else if empty then s.trap .record none none 16 (BitVec.ofNat 64 (2 * 256 + 6))
  else match mmaMisaligned o sub with
    | some off => s.trap .align none (some (BitVec.ofNat 64 off)) 8 6
    | none => match lowestPast s.tm.spSize rs with
      | some off => s.trap .prot none (some (BitVec.ofNat 64 off)) 8 6
      | none =>
        if tilesBad s.gr ts || scratchBad s.tm rs then s.poisonRead
        else (s.tileSeal ts).mtxIssue { o with todo := (mmaReads o sub f).map (·.1) }

def execMma (fmt : Fmt) (tile : Fin 16) (a b : Fin 64) (s : State) : Res :=
  .next (s.mmaIssue mMma fmt tile { s.op0 with a := s.sr a, b := s.sr b } false)
def execMmaUnfold (fmt : Fmt) (n : Fin 4) (tile : Fin 16) (b : Fin 64) (s : State) : Res :=
  .next (s.mmaIssue mMma fmt tile { s.op0 with b := s.sr b, b1 := s.sr (b + 1), b2 := 1, rec_ := (s.gr.unf.rd n).setWidth 512 }
    (!s.gr.unfSet.getLsbD n))
def execMmas (fmt : Fmt) (tile : Fin 16) (a b : Fin 64) (s : State) : Res :=
  .next (s.mmaIssue mMmas fmt tile { s.op0 with a := s.sr a, a1 := s.sr (a + 1), b := s.sr b, b1 := s.sr (b + 1) } false)

def execAclr (tile : Fin 16) (s : State) : Res :=
  .next (if s.act = 0 then s.adv 2
    else if s.full s.fb then s.stall
    else (s.tileSeal [tile.val]).mtxIssue { s.op0 with kind := .mtx mAclr .f32 tile, flag := s.fb, lanes := s.act, need := 1 })

/-- Registers of a lane in `amov` and `aput` (R247). -/
def State.tileRegs (s : State) : Nat := 128 / s.gr.width

def execAmov (d : Fin 128) (tile : Fin 16) (s : State) : Res :=
  .next (if s.act = 0 then s.adv 2
    else if s.full s.fa then s.stall
    else if tilesBad s.gr [tile.val] then s.poisonRead
    else s.mtxIssue { s.op0 with kind := .mtx mAmov .f32 tile, flag := s.fa, returning := true, lanes := s.act, need := 1, a := BitVec.ofNat 64 d })

def execAput (tile : Fin 16) (a : Fin 128) (s : State) : Res :=
  let m := s.act
  let js := List.range s.tileRegs
  .next (if m = 0 then s.adv 2
    else if s.full s.fb then s.stall
    else s.sram m (js.map (a.val + ·)) fun s =>
      let ws := js.flatMap fun j => (positions m).map fun p => (j * s.gr.width + p, s.gr.vr (a + j) p)
      (s.tileSeal [tile.val]).mtxIssue { s.op0 with
        kind := .mtx mAput .f32 tile, flag := s.fb, lanes := m, need := 1
        res := ws.foldl (fun (r : TMap W32) w => r.wr w.1 w.2) [], todo := ws.map (·.1) })

/-- Row pitch of `ast`, and the bytes of a row that it writes (R248). -/
def astRow (f : Fmt) : Nat := ceilDiv (2 * Fmt.pitch f) 32 * 32
def astPitch (f : Fmt) (a : W64) : Nat := if hi32 a = 0 then astRow f else hi32 a

def execAst (fmt : Fmt) (tile : Fin 16) (a : Fin 64) (s : State) : Res :=
  let x := s.sr a
  let ts := (List.range (passTiles fmt)).map (tile.val + ·)
  let rs := (List.range 8).map fun r => (lo32 x + r * astPitch fmt x, astRow fmt)
  .next (if s.act = 0 then s.adv 2
    else if s.full s.fb || s.pathFull 2 then s.stall
    else if lo32 x % 32 ≠ 0 ∨ hi32 x % 32 ≠ 0 then s.trap .align none (some (BitVec.ofNat 64 (lo32 x))) 8 7
    else match lowestPast s.tm.spSize rs with
      | some off => s.trap .prot none (some (BitVec.ofNat 64 off)) 8 7
      | none =>
        if tilesBad s.gr ts then s.poisonRead
        else s.mtxIssue { s.op0 with kind := .mtx mAst fmt tile, flag := s.fb, cls := 3, path := 3, lanes := s.act, need := 1, a := x })

/-- A slot is written at issue: a `mma` takes its descriptor along when it issues, so the group's matrix order is kept. -/
def execUnf (n : Fin 4) (a : Fin 64) (s : State) : Res :=
  let d : BitVec 128 := s.sr (a + 1) ++ s.sr a
  let bad (code : Nat) (s : State) : State := s.trap .record none none 16 (BitVec.ofNat 64 (2 * 256 + code))
  .next (if ufField d 56 8 ≠ 0 ∨ ufField d 120 8 ≠ 0 then bad 1 s
    else if ufField d 20 12 = 0 ∨ ufField d 32 12 = 0 ∨ ufField d 44 12 = 0 ∨ ufField d 108 12 = 0 ∨ ufField d 96 12 = 0 then bad 2 s
    else if ufField d 0 20 % 32 ≠ 0 then bad 3 s
    else (s.modGr fun g => { g with unf := g.unf.wr n d, unfSet := g.unfSet ||| (1#4 <<< n.val) }).adv 2)

/-! ### Arithmetic (R235, R236) -/

/-- An operand element. -/
def Op.el (o : Op) (f : Fmt) (key : Nat) : FVal := Fmt.value f (fld (o.sres.rd key).toNat 0 (Fmt.bits f))

/-- Σ A[r][k] × B[k][n] over elements, exact. -/
def mmaSum (o : Op) (f : Fmt) (i n : Nat) (ks : List Nat) : Sum :=
  let ps := ks.map fun k => mulVal (o.el f (keyA i k)) (o.el f (keyB (i / 8) n k))
  if ps.contains none then .invalid else sumTerms (ps.filterMap id)

/-- RNE of a sum in a format: anything invalid is the canonical NaN. -/
def sumCode (p : FmtP) (t : Sum) : Nat :=
  match t with
  | .invalid => p.nan
  | .val v => (p.rne v).1

/-- S of a pass; with scales for `mmas`. -/
def passSum (o : Op) (sub : Nat) (f : Fmt) (i n : Nat) : Sum :=
  if sub = mMma then mmaSum o f i n (List.range (mmaK f))
  else
    let ts := (List.range (mxBlocks f)).map fun j =>
      let sc := (f32p.mul (f32p.val (o.sres.rd (keySa i j)).toNat) (f32p.val (o.sres.rd (keySb (i / 8) n j)).toNat)).1
      match mmaSum o f i n ((List.range 32).map (32 * j + ·)) with
      | .invalid => none
      | .val v => mulVal (f32p.val sc) v
    if ts.contains none then .invalid else sumTerms (ts.filterMap id)

/-- The new value of an accumulator element. -/
def accStep (f : Fmt) (c : Nat) (o : Op) (sub i n : Nat) : Nat :=
  let p := if f = .f64 then Fmt.p .f64 else f32p
  if f = .i8 ∨ f = .u8 ∨ f = .i4 ∨ f = .u4 then
    match passSum o sub f i n with
    | .val (.num neg m e) => (BitVec.ofNat 32 c + BitVec.ofInt 32 (FVal.at_ neg m e 0)).toNat
    | _ => c
  else (p.add (p.val c) (p.val (sumCode p (passSum o sub f i n)))).1

/-- Every octet pass of an operation, on the group's tiles. -/
def mmaApply (o : Op) (sub : Nat) (f : Fmt) (t : Nat) (g : Group) : Group :=
  (octets o.lanes).foldl (fun g q => (List.range 128).foldl (fun g e =>
    let r := e / 16
    let c := e % 16
    let k := accKey f (passTile f t q) r c
    let old := (g.tile.rd k).toNat + if f = .f64 then 2 ^ 32 * (g.tile.rd (k + 1)).toNat else 0
    let v := accStep f old o sub (8 * q + r) c
    let tile := g.tile.wr k (BitVec.ofNat 32 v)
    { g with tile := if f = .f64 then tile.wr (k + 1) (BitVec.ofNat 32 (v / 2 ^ 32)) else tile }) g) g

/-! ### Matrix operations are applied in order (R237) -/

/-- The element of a tile that `ast` writes. -/
def astElem (f : Fmt) (g : Group) (t r c : Nat) : Nat :=
  let k := accKey f t r c
  let w := g.tile.rd k
  match f with
  | .f32 => w.toNat
  | .f64 => w.toNat + 2 ^ 32 * (g.tile.rd (k + 1)).toNat
  | .i8 => (BitVec.ofInt 8 (max (-128) (min 127 w.toInt))).toNat
  | .u8 => (max 0 (min 255 w.toInt)).toNat
  | .i4 => (BitVec.ofInt 4 (max (-8) (min 7 w.toInt))).toNat
  | .u4 => (max 0 (min 15 w.toInt)).toNat
  | _ => (Fmt.store f .rne true (f32p.val w.toNat)).1

/-- What `ast` lands: bit offset, bits, value; the padding of each row last. -/
def astLands (f : Fmt) (g : Group) (t : Nat) (a : W64) : List (Nat × Nat × Nat) :=
  let e := Fmt.pitch f
  (List.range 8).flatMap fun r =>
    let o := 8 * (lo32 a + r * astPitch f a)
    ((List.range 16).map fun c => (o + c * e, e, astElem f g t r c)) ++
      ((List.range (astRow f - 2 * e)).map fun i => (o + 16 * e + 8 * i, 8, 0))

/-- The operation at the head is done. -/
def State.mtxDone (g id : Nat) (s : State) : State := (s.modGroup g fun y => { y with mtx := y.mtx.erase id }).partDone id 1

/-- The oldest matrix operation of a group proceeds: a free choice of the elements it has still to read or to land, and with
the last of them its result. A pass reads the elements that stand in one byte together (R237). -/
def execMatrixPassWrite (group : Nat) (s : State) : Res :=
  let g := s.groups.rd group
  match g.mtx with
  | [] => .next s
  | id :: _ =>
    let o := s.ops.rd id
    let more (s : State) : State := if (s.groups.rd group).mtx = [] then s else s.ask (.matrixPassWrite group)
    let now := (o.todo.mapIdx fun i k => (i, k)).filter fun e => Config.pick (s.tick + e.1) % 2 = 0
    let ks := now.map (·.2)
    let seed := s.drawn o.todo.length
    match o.kind with
    | .mtx sub f t =>
      let clean (ts : List Nat) (y : Group) : Group := { y with badT := y.badT.filter fun e => !ts.contains (e.1 / 128) }
      if sub = mMma ∨ sub = mMmas then
        let rd := (mmaReads o sub f).filter fun r => o.todo.contains r.1 && Config.pick (s.tick + r.1 / 64 * 2 ^ 32 + r.2.1 / 8) % 2 == 0
        let ks := rd.map (·.1)
        let s := (s.drawn (2 ^ 48)).modOp id fun o => { o with
          sres := rd.foldl (fun (m : TMap W64) r => m.wr r.1 (BitVec.ofNat 64 (scratchBits s (o.split / 512) r.2.1 r.2.2))) o.sres
          todo := o.todo.filter fun k => !ks.contains k }
        let o := s.ops.rd id
        let count (s : State) : State := s.coreEv o.core o.part 0x0D (octets o.lanes).length
        .next (more (if o.todo = [] then count ((s.modGroup group (mmaApply o sub f t)).mtxDone group id) else s))
      else if sub = mAclr then
        .next (more ((s.modGroup group fun y => clean [t] { y with tile := y.tile.filter fun e => e.1 / 128 != t }).mtxDone group id))
      else if sub = mAmov then
        let d := o.a.toNat
        let w := g.width
        let ps := (List.range (128 / w)).flatMap fun j => (positions o.lanes).map fun p => (64 * (d + j) + p, g.tile.rd (128 * t + j * w + p))
        .next (more ((s.modOp id fun o => { o with res := ps.foldl (fun (m : TMap W32) e => m.wr e.1 e.2) [], todo := ps.map (·.1) }).mtxDone group id))
      else if sub = mAput then
        .next (more ((s.modGroup group fun y => { y with
          tile := o.todo.foldl (fun (m : TMap W32) k => m.wr (128 * t + k) (o.res.rd k)) y.tile
          badT := o.todo.foldl (fun (m : TMap Bool) k => m.wr (128 * t + k) false) y.badT }).mtxDone group id))
      else
        let ls := astLands f g t o.a
        if o.started then
          let s := seed.landBits (o.split / 512) o.grid (ks.map fun k => ls.getD k (0, 0, 0))
          let s := s.modOp id fun o => { o with todo := o.todo.filter fun k => !ks.contains k }
          let rows (s : State) : State := (List.range 8).foldl (fun s r => s.cleanWords (o.split / 512) (lo32 o.a + r * astPitch f o.a) (astRow f)) s
          .next (more (if (s.ops.rd id).todo = [] then (rows s).mtxDone group id else s))
        else .next (more (s.modOp id fun o => { o with started := true, todo := List.range ls.length }))
    | _ => .next (more (s.modGroup group fun y => { y with mtx := y.mtx.erase id }))

end Sys2Proof.Machine
end

