-- ==== Sys2Proof/Machine/Retire.lean ====
section
/-! DEFINITION. The retirement of long-latency operations (R49): what each kind writes then, and the failures that become
deferred traps (R329, R330). -/

namespace Sys2Proof.Machine

/-! ### Results -/

/-- A value of `n` bytes, extended to 64 bits. -/
def extendTo (signed : Bool) (n v : Nat) : W64 :=
  if signed && 2 ^ (8 * n - 1) ≤ v then BitVec.ofNat 64 (v + 2 ^ 64 - 2 ^ (8 * n)) else BitVec.ofNat 64 v

/-- Registers that a load writes (R132): a pair for 8 bytes. -/
def loadOut (o : Op) (sz : MemSz) (signed : Bool) (d : Nat) : List (Nat × W32) :=
  (positions o.lanes).flatMap fun p =>
    let x := extendTo signed sz.bytes (o.bytesAt (o.pas.rd p) sz.bytes)
    let lo := (64 * d + p, x.setWidth 32)
    match sz with
    | .b8 => [lo, (64 * (d + 1) + p, (x >>> 32).setWidth 32)]
    | _ => [lo]

/-- Results that were at hand when each part was done: vector registers, or scalar registers of a call without lanes. -/
def State.partResults (o : Op) (s : State) : State :=
  if o.lanes = 0 then s.results o [] (o.todo.map fun k => (k, o.sres.rd k))
  else s.results o (o.todo.map fun k => (k, o.res.rd k)) []

/-- The 16 words of a record, the 128 of an image, read from position 64 on. -/
def Op.words (o : Op) (n : Nat) : List W32 := (List.range n).map fun i => o.cap.rd (o.pas.rd (64 + i) / 4)
def Op.record (o : Op) : BitVec 512 := BitVec.ofNat 512 ((o.words 16).foldr (fun w n => w.toNat + 2 ^ 32 * n) 0)

/-! ### Failures -/

/-- A deferred trap of an operation. -/
def Op.failWith (o : Op) (id : Nat) (t : Trap) : Op := { o with failed := true, fail := { id := id, flag := o.flag, trap := t } }

/-- POISON of a register-returning operation (R132, R190, R329): TRAP_ADDR is the address of the lowest lane that read poison;
nothing else is stated (DESIGN CHOICE, log entry 7). -/
def Op.poison (o : Op) (id : Nat) (lanes info : W64) : Op :=
  let p := lowest o.bad
  let va := if o.bad = 0 then (o.vas.headD (0, 0)).2
    else if p < 64 && o.vas.any (·.1 == p) then o.vas.rd p
    else ((o.vas.find? fun e => laneOf e.1 == some p).map (·.2)).getD 0
  o.failWith id { cause := .poison, lanes := lanes, addr := va, info := info }

/-- Operations that go on to addresses that were translated before: of a chart transfer those under way, not those of one that is parked
for want of a translation; a ray translates anew for each node. -/
def Op.translated (o : Op) : Bool :=
  match o.kind with
  | .load _ _ _ | .sload _ _ | .store | .gather _ _ | .cacheOp | .query _ | .atomic | .call | .rinst _ _ | .tbind _ _ | .trec _ | .launch _ _ | .post
  | .tmeth | .sample | .tex _ _ _ | .texf _ _ _ | .ctxld _ _ => true
  | .chart sub _ _ _ => o.started && (!o.parked || (sub == 6 && o.vas.any (·.2 != 0)) || o.todo.any o.awaitsPeer)
  | .none | .regs | .rdrop _ _ | .mtx _ _ _ | .vemit | .ray | .rcommit | .rdone | .ralloc | .tlbinv | .carve _ _ _ => false

/-- Accesses and transfers older than a `tlbinv` that were translated when they issued, and walks of its partition, are still under way
(R348). -/
def tlbBusy (s : State) (id part : Nat) : Bool :=
  (s.ops.any fun e => e.1 < id && e.2.live && e.2.part == part && e.2.translated) ||
    s.agenda.any fun p => match p.ev with
      | .tlbWalk _ _ q _ => q == part
      | _ => false

/-- The launch's record is at hand, but a line that the front end needs is served to nobody: the state in which it has asked for recalls. -/
def launchHeld (s : State) (o : Op) : Option State :=
  match o.kind, o.discard || o.failed || o.bad != 0 || o.badS with
  | .launch _ prio, false => match s.launchEnd o prio o.record with
    | (t, none) => some t
    | _ => none
  | _, _ => none

/-- A step at a home slice that an engine hold delays (R144, R172). -/
def cacheHeld (s : State) (o : Op) : Option Nat :=
  match o.kind with
  | .cacheOp => if o.a = coFlushSy ∨ o.a = coInvSy then o.todo.find? s.held else none
  | .query _ => o.todo.find? s.held
  | _ => none

/-- A step at a home slice that must still wait: for the anvil and what else keeps a request there (R179), and, for a flush or an
invalidation, for the core's own write-throughs of the lines (R173, R174, R192). -/
def cacheWaits (s : State) (id : Nat) (o : Op) : Bool :=
  match o.kind with
  | .cacheOp => (o.a = coFlushSy || o.a = coInvSy) && o.todo.any fun l => (!isPeer l && s.homeWait l) || s.wtLine o.core l id
  | .query _ => o.todo.any fun l => !isPeer l && s.homeWait l
  | _ => false

/-! ### Retirement -/

/-- What a register-returning operation of no failure does, by its kind. -/
def State.retireReturning (id : Nat) (o : Op) (s : State) : State :=
  match o.kind with
  | .load sz signed d => s.results o (loadOut o sz signed d) []
  | .sload sz d => s.results o [] [(d, BitVec.ofNat 64 (o.bytesAt (o.pas.rd 64) sz.bytes))]
  | .query d => (s.results o ((positions o.lanes).map fun p => (64 * d + p, s.queryWord (o.pas.rd p / 128))) []).drawn 1024
  | .rinst n d =>
    if o.discard then s
    else
      let r := s.rinstEnd o.part n (o.words 128)
      r.1.results o [] [(d, BitVec.ofNat 64 r.2)]
  | .rdrop n d => ((s.rdropEnd o.part n o.a.toNat).getD s).results o [] [(d, o.a)]
  | .tbind n d =>
    if o.discard then s
    else
      let r := s.tbindEnd o.part n (if o.pas = [] then none else some o.record)
      r.1.results o [] [(d, BitVec.ofNat 64 r.2)]
  | .trec n =>
    match trecCode o.record with
    | 0 => s.modTeam (o.split / 512) fun t => { t with chart := t.chart.wr n o.record, chartSet := t.chartSet ||| (1#16 <<< n) }
    | c =>
      if o.discard then s
      else
        let s0 := s
        (s.drawn 3).modOp id fun o => o.failWith id
          { cause := .record, lanes := s0.fresh 0, addr := s0.fresh 1, info := lowInfo (s0.fresh 2) 16 (BitVec.ofNat 64 (256 + c)) }
  | .launch d prio =>
    if o.discard then s
    else
      let r := s.launchEnd o prio o.record
      r.1.results o [] [(d, r.2.getD 0)]
  | .sample =>
    let s := s.partResults o
    if o.discard then s else s.modGroup (o.split / 4) fun g => g.setP 60 (o.pset ||| o.pclr) o.pset
  | .tex _ _ _ | .texf _ _ _ => s.results o (texOut o) []
  | .ctxld d n =>
    let w := (s.groups.rd (o.split / 4)).width
    s.results o ((List.range (n * w)).map fun i => (64 * (d + i / w) + i % w, o.cap.rd (o.pas.rd (ctxPos + i) / 4))) []
  | .none | .regs | .store | .gather _ _ | .cacheOp | .atomic | .call | .chart _ _ _ _ | .mtx _ _ _ | .vemit | .post | .tmeth | .ray
  | .rcommit | .rdone | .ralloc | .tlbinv | .carve _ _ _ => s.partResults o

/-- What an operation that returns no register does. -/
def State.retirePlain (id : Nat) (o : Op) (s : State) : State :=
  match o.kind with
  | .cacheOp => s.cacheStep o
  | .chart sub _ _ _ =>
    let x := opXfer o
    let s := if landing sub then s.cleanWords (o.split / 512) x.dst x.bytes else s
    let ks := (s.slices.filter fun e => e.2.holds.any (·.op == id)).map (·.1)
    let s := ks.foldl (fun s k => s.lateOrs k) (s.dropHolds id)
    s.modDie (dieOfCore o.core) fun d => { d with chartQ := d.chartQ.filter (· != id) }
  | _ => s

/-- An operation whose parts are done retires, unless something still holds it back. -/
def execOperationRetire (op : Nat) (s : State) : Res :=
  let o := s.ops.rd op
  let later (s : State) : State := s.again (.operationRetire op)
  if !o.live || o.need ≠ 0 then .next s
  else match cacheHeld s o with
    | some l => .next (later (s.ask (.engineRecall l)))
    | none =>
      let wait : Bool := match o.kind with
        | .tlbinv => tlbBusy s op o.part
        | .rdrop n _ => s.rtBusy o.part n || (s.rdropEnd o.part n o.a.toNat).isNone
        | .rinst n _ => s.rtBusy o.part n
        | _ => cacheWaits s op o
      if wait then .next (later s)
      else if let some t := launchHeld s o then .next (later t)
      else if !o.returning then .next ((s.retirePlain op o).opDone op)
      else if o.failed then .next (s.opDone op)
      else if o.bad ≠ 0 || o.badS then .next (((s.drawn 2).modOp op fun o => o.poison op (s.fresh 0) (s.fresh 1)).opDone op)
      else .next ((s.retireReturning op o).opDone op)

end Sys2Proof.Machine
end

