-- ==== Sys2Proof/Machine/Agents.lean ====
section
/-! DEFINITION. Who moves next: the agents that can move, the order of requests on their channels (R11, R140, R141, R192,
R354), the passage of time, and what a chosen move runs. -/

namespace Sys2Proof.Machine

/-! ### Time -/

/-- Partitions with a team resident on a core: a saved team is not. -/
def partsOn (s : State) (core : Nat) : List Nat :=
  (((coreTeams s core).filter fun t => !(s.teams.rd t).saved).map fun t => groupPart s (128 * t)).eraseDups

/-- A memory clause of the group is held by the throttle (R119). -/
def throttled (s : State) (g : Nat) : Bool :=
  !throttleAdmits s g && (liveSplits s g).any fun k =>
    let x := s.splits.rd k
    !x.begun && x.wait == .ready && match headerOf x.code with
      | some h => memClause h.count (x.code.drop 2)
      | none => false

/-- The slice and the partition of a request that the anvil's budget holds back (R193). -/
def budgetHeld (s : State) (e : Ev) : Option (Nat × Nat) :=
  let at_ (line part : Nat) : Option (Nat × Nat) := if s.anvilSpent (sliceOf line) part then some (sliceOf line, part) else none
  match e with
  | .anvilInvocationStart r => if isPeer r.line || r.ids == [] || (s.slices.rd (sliceOf r.line)).waits.contains r then none else at_ r.line r.part
  | .atomicInvocation r => if isPeer (r.pa / 128) then none else at_ (r.pa / 128) r.part
  | .casInvocation r => if isPeer (r.pa / 128) then none else at_ (r.pa / 128) r.part
  | .tmethInvocation r => if r.mode = 0 || isPeer r.line then none else at_ r.line r.part
  | .tredInvocation op line =>
    let o := s.ops.rd op
    if !o.live || isPeer (o.pas.rd line - 1) then none else at_ (o.pas.rd line - 1) o.part
  | .slotlinkRequest q => match if q.incoming then s.grantFor q else none, q.kind with
    | some g, .atomic _ | some g, .cas _ => at_ q.line g.rtPart
    | _, _ => none
  | _ => none
def anvilWaits (s : State) : List (Nat × Nat) := (s.agenda.filterMap fun p => budgetHeld s p.ev).eraseDups

/-- Fills of the agenda that wait for the memory budget: controller and partition (R130). -/
def memWaits (s : State) : List (Nat × Nat) :=
  (s.agenda.filterMap fun p => match p.ev with
    | .llcFill line part _ => if s.memHeld line part then some (ctlOf line, part) else none
    | _ => none).eraseDups

/-- `n` clocks pass: the counters of clocks count them (R338), and the re-projection of a frame uses them (R324). -/
def State.passTime (n : Nat) (s : State) : State :=
  if n = 0 then s
  else
    let cs := s.cores.map (·.1) ++ s.teams.flatMap fun e => teamCores e.2
    let s0 := s
    let s := cs.eraseDups.foldl (fun s c => (partsOn s0 c).foldl (fun s p => s.coreEv c p 0x01 n) s) s
    let held := (s0.groups.filter fun e => e.2.live && !e.2.saved && throttled s0 e.1).map fun e => (e.2.core, groupPart s0 e.1)
    let s := held.eraseDups.foldl (fun s e => s.coreEv e.1 e.2 0x07 n) s
    let s := (anvilWaits s0).foldl (fun s e => s.sliceEv e.1 e.2 0x55 n) s
    let s := (memWaits s0).foldl (fun s e => s.mcEv e.1 e.2 0x84 n) s
    { s with
      clock := s.clock + n
      outs := s.outs.map fun (e : Nat × Output) => (e.1, if e.2.grid != 0 && gridTeams s0 e.2.grid != [] then { e.2 with used := e.2.used + n } else e.2) }
def State.passTo (clock : Nat) (s : State) : State := s.passTime (clock - s.clock)

/-! ### Channels -/

/-- Where a line's requests of one core keep their order: the line, or the slice of a peer (R192, R354). -/
def lineKey (line : Nat) : Nat := if isPeer line then 2 ^ 60 + peerSlice line else line

/-- The channel of an event: requests of one core for one line or for one slice of a peer, answers to it, invocations of a line's chains;
events of one channel are served in order. A gathered element that has been read only lands. -/
def Ev.channel (s : State) : Ev → Option (Nat × Nat × Nat)
  | .homeSliceRead r => some (0, (match r.dest with
      | .fill c => c
      | .op => r.core), lineKey r.line)
  | .writeThrough r => some (0, r.core, lineKey r.line)
  | .atomicInvocation r => some (0, r.core, lineKey (r.pa / 128))
  | .casInvocation r => some (0, r.core, lineKey (r.pa / 128))
  | .anvilInvocationStart r => match r.kind with
    | .call => some (0, r.core, lineKey r.line)
    | _ => some (2, 0, r.line)
  | .gatherLanding op lane =>
    let o := s.ops.rd op
    if o.todo.contains (o.pas.rd lane / 128) then none else some (0, o.core, lineKey (o.pas.rd lane / 128))
  | .tsampleRead r => some (0, r.core, lineKey r.line)
  | .fragmentPost p => some (0, p.core, lineKey p.line)
  | .tmethInvocation r => some (0, r.core, lineKey r.line)
  | .tredInvocation op line =>
    let o := s.ops.rd op
    if isPeer (o.pas.rd line - 1) then some (0, o.core, lineKey (o.pas.rd line - 1)) else none
  | .mergingFillReturn r => some (1, r.core, r.line)
  | .revoke core line _ _ => some (1, core, line)
  | .slotlinkRequest q =>
    let core := match q.kind with
      | .read r => r.core
      | .write r => r.core
      | .atomic r => r.core
      | .cas r => r.core
      | .call r => r.core
    some (if q.incoming then (3, core, 1024 * q.dev + sliceOf (q.line % 2 ^ 32)) else (0, core, lineKey q.line))
  | .noticeEntry _ => some (5, 0, 0)
  | _ => none

/-- The partition and the operation of a request. -/
def Ev.party (s : State) : Ev → Option (Nat × Nat)
  | .homeSliceRead r => some (r.part, r.op)
  | .writeThrough r => some (r.part, r.op)
  | .atomicInvocation r => some (r.part, r.op)
  | .casInvocation r => some (r.part, r.op)
  | .anvilInvocationStart r => some (r.part, r.op)
  | .tsampleRead r => some (r.part, r.op)
  | .fragmentPost p => some (p.part, p.op)
  | .tmethInvocation r => some (r.part, r.op)
  | .gatherLanding op _ | .tredInvocation op _ => some ((s.ops.rd op).part, op)
  | .slotlinkRequest q => if q.incoming then (s.grantFor q).map fun g => (g.rtPart, 0) else some (q.part, q.op)
  | _ => none

/-- Two requests are of one split. -/
def oneSplit (s : State) (a b : Ev) : Bool := match Ev.party s a, Ev.party s b with
  | some x, some y => (s.ops.rd x.2).live && (s.ops.rd y.2).live && (s.ops.rd x.2).split == (s.ops.rd y.2).split
  | _, _ => false

/-- An invocation at a home slice of this device. -/
def invokes : Ev → Bool
  | .atomicInvocation r => !isPeer (r.pa / 128)
  | .casInvocation r => !isPeer (r.pa / 128)
  | .anvilInvocationStart r => !isPeer r.line && r.kind == .call
  | .tmethInvocation r => !isPeer r.line
  | _ => false

/-- The budget holds back `a`, and `b` is of another partition (R193). -/
def heldApart (s : State) (a b : Ev) : Bool := match budgetHeld s a, Ev.party s b with
  | some x, some y => x.2 != y.1
  | _, _ => false

/-- An earlier event `a` holds back `b`: both are of one channel, or `a` is an invocation that the core's request has become at the slice
(R192). Invocations of different splits have no order, and one that its partition's budget holds back delays no other partition (R193). Posts
of a core have an order of their own (R264); the reads of one instruction on a line are one access (R140); a settling sample that must wait
holds back only requests of its split (R277). -/
def blocks (s : State) (a b : Ev) : Bool :=
  let same := match Ev.channel s a, Ev.channel s b with
    | some x, some y => x == y && !(invokes a && invokes b && !oneSplit s a b) && !heldApart s a b
    | _, _ => false
  match a, b with
  | .fragmentPost _, .fragmentPost _ => false
  | .gatherLanding o _, .gatherLanding q _ => same && o != q
  | .tsampleRead r, .tsampleRead q => same && r.op != q.op && (s.readsSettled r || oneSplit s a b)
  | .tsampleRead r, _ => same && (s.readsSettled r || oneSplit s a b)
  | .anvilInvocationStart r, _ => same || (r.kind == .post || r.kind == .tmeth) && Ev.channel s b == some (0, r.core, lineKey r.line)
  | _, _ => same

/-- Lines that a chart transfer's next work may reach. -/
def chartReaches (s : State) (op : Nat) : List Nat :=
  let o := s.ops.rd op
  (((opXfer o).near o.todo).filter (· != 0)).filterMap fun w => match s.walk o.part (va56 (BitVec.ofNat 64 (128 * (w - 1)))) with
    | .ok _ x => (s.place (fld x 16 36 * 2 ^ 16 + fld (128 * (w - 1)) 0 16)).map (· / 128)
    | _ => none

/-- The lines that a request reaches, and its place in the slice's arbitration (R11): the slice's own die first, then the others; of one
die its cores first, in ascending number, then what else it has. -/
def Ev.arrivals (s : State) (e : Ev) : List (Nat × Nat) :=
  let from_ (die at_ line : Nat) : Nat × Nat := (line, (if die = dieOf line then 0 else 1 + die) * 1024 + at_)
  let other (die line : Nat) : List (Nat × Nat) := [from_ die 1023 line]
  let core (c line : Nat) : List (Nat × Nat) :=
    if c < Config.cores then [from_ (dieOfCore c) (c % Config.coresPerDie) line] else other (dieOf line) line
  match e with
  | .homeSliceRead r => core r.core r.line
  | .writeThrough r => if r.core = noOwner then other r.die r.line else core r.core r.line
  | .atomicInvocation r => core r.core (r.pa / 128)
  | .casInvocation r => core r.core (r.pa / 128)
  | .anvilInvocationStart r => match r.kind with
    | .call => core r.core r.line
    | .fwd => other r.die r.line
    | .post | .tmeth => []
  | .tsampleRead r => core r.core r.line
  | .fragmentPost p => core p.core p.line
  | .nullPost p => core p.core p.line
  | .tmethInvocation r => core r.core r.line
  | .gatherLanding op lane => other (dieOfCore (s.ops.rd op).core) ((s.ops.rd op).pas.rd lane / 128)
  | .tredInvocation op line => other (dieOfCore (s.ops.rd op).core) ((s.ops.rd op).pas.rd line - 1)
  | .chartBytesLanding op => (chartReaches s op).flatMap (other (dieOfCore (s.ops.rd op).core))
  | .noticeEntry n => other (s.draws.rd n.key).die n.line
  | .slotlinkRequest q => if q.incoming then other (dieOf q.line) q.line else []
  | _ => []

/-- A post that its core sends before another (R264). -/
def sentBefore : Ev → Ev → Bool
  | .fragmentPost p, .fragmentPost q => p.core == q.core && (p.draw < q.draw || (p.draw == q.draw && p.ord < q.ord))
  | _, _ => false

/-- Of two requests of one clock for one line, the arbitration takes `a` first (R11). -/
def arbitrated (s : State) (a b : Pending) : Bool :=
  a.due == b.due && (Ev.arrivals s a.ev).any fun x => (Ev.arrivals s b.ev).any fun y => x.1 == y.1 && x.2 < y.2

/-- Places of the agenda that nothing earlier holds back. -/
def headPlaces (s : State) : List Nat :=
  (List.range s.agenda.length).filter fun i => match s.agenda[i]? with
    | none => false
    | some p => !behindChart s p.ev && !(s.agenda.take i).any fun q => blocks s q.ev p.ev

/-- Places of the agenda whose event may come: nothing earlier holds it back, and no other of them comes before it. -/
def openPlaces (s : State) : List Nat :=
  let hs := headPlaces s
  hs.filter fun i => match s.agenda[i]? with
    | none => false
    | some p => !(s.agenda.any fun q => sentBefore q.ev p.ev) && !hs.any fun j => match s.agenda[j]? with
      | none => false
      | some q => arbitrated s q p

/-! ### What the state itself makes due -/

/-- Events of a split. -/
def splitEvents (s : State) (k : Nat) : List Ev :=
  let x := s.splits.rd k
  let g := s.groups.rd (k / 4)
  if !x.live || !g.live then []
  else
    let fetch : List Ev := if !x.begun && x.code == [] && !g.saved && g.saveKind == 0 then [.clauseFetch k] else []
    match x.wait with
    | .ready => fetch
    | .cond c => if condHolds s k c then fetch else []
    | .asleep => [.sleepExpiry k]
    | .switching => [.splitSwitch k]
    | .entryReturn => if g.saved || g.saveKind != 0 then [] else [.stackEntryReturn k]
    | .trapping _ => if returning s (k / 4) then [] else [.trapEntry k]
    | .handing _ _ => [.trapHandoff k]
    | _ => []

/-- Events of a group. -/
def groupEvents (s : State) (g : Nat) : List Ev :=
  let y := s.groups.rd g
  if !y.live then []
  else
    (if y.late != [] then [.fixedLatencyWrite g] else []) ++
    (if saveDue s g && (s.takeFrame g).isSome then [.pageFaultSave g] else []) ++
    (if y.saved && restoreReady s g && restoreRoom s g then [.groupRestore g] else []) ++
    (match (s.teams.rd (g / 128)).rg.find? (·.group == g) with
      | some e => if allWait s (g / 128) e.addr then [.regroupArrival g] else []
      | none => [])

/-- Work that waits to be placed: its grid, its next team, whether that has room, and the event that places it. -/
structure Work where
  grid : Nat
  team : TeamSpec
  room : Bool
  ev   : Ev

/-- Every waiting work, the first in rank first: teams of grids, batches of graphs, fragment teams of draws (R304). -/
def works (s : State) : List Work :=
  (((s.grids.filter fun e => gridWaits s e.1).map fun e => Work.mk e.1 (nextTeam s e.1) (canPlace s e.1) (.teamPlacement e.1)) ++
    (s.graphs.filterMap fun e => (batchWaits s e.1).map fun x => Work.mk e.2.grid x (batchDue s e.1) (.batchLaunch e.1)) ++
    ((s.draws.filter fun e => fragmentsWait s e.1).map fun e =>
      Work.mk e.2.fgrid (fragSpec s e.1) (fragmentsDue s e.1) (.fragmentGroupLaunch e.1))).mergeSort fun a b => !ranksBefore s b.grid a.grid

/-- Placement: the first in rank of the works that have room. Of one rank are only works of one graph or one draw, for which no rule
gives an order: any of them. -/
def placementEvents (s : State) : List Ev :=
  let ws := (works s).filter (·.room)
  match ws with
  | w :: _ => (ws.filter fun v => !ranksBefore s w.grid v.grid).map (·.ev)
  | [] => []

/-- Pre-emption for the first waiting work that finds no room and for which teams can be taken (R319). -/
def preemptEvents (s : State) : List Ev :=
  (((works s).filter fun w => !w.room).map fun w => victims s w.grid w.team).find? (· != []) |>.getD [] |>.map Ev.preemptRequest

/-- Revocation of borrowed margin pairs (R335): a team of the owner that waits to be placed finds no room, or one of its saved groups is
to come back to the pair, and the pair holds teams of others that have not been asked, or has held them and is not scrubbed. -/
def borrowEvents (s : State) : List Ev :=
  let stuck := ((works s).filter fun w => !w.room).map fun w => (s.grids.rd w.grid).part
  (pairs.filter fun p => match marginOwner s p with
    | some o => (stuck.contains o || s.groups.any fun e => e.2.saved && e.2.core / 2 == p && groupPart s e.1 == o && restoreWanted s e.1) &&
      match foreignTeams s o p with
      | [] => pairDirty s o p
      | ts => ts.any fun t => !asked s t
    | none => false).map Ev.borrowRevocation

/-- The front ends: on each die the queues of the highest priority that have something due, the lowest number first (R297). -/
def queueEvents (s : State) : List Ev :=
  (List.range 4).filterMap fun d =>
    let qs := (s.queues.filter fun e => qDie e.2 == d).filterMap fun e => (queueNext s e.1).map fun v => (qPrio e.2, v)
    (qs.foldl (fun (r : Option (Nat × Ev)) e => match r with
      | none => some e
      | some b => if b.1 < e.1 then some e else some b) none).map (·.2)

/-- Events of grids, partitions, graphs, draws. -/
def workEvents (s : State) : List Ev :=
  (s.grids.flatMap fun e =>
    (if gridArrived s e.1 then [Ev.gridBarrierRelease e.1] else []) ++ if gridDue s e.1 then [Ev.gridComplete e.1] else []) ++
  (s.parts.flatMap fun e =>
    (if s.faultReady e.1 then [Ev.faultRecordPost e.1] else []) ++ if spillDue s e.1 then [Ev.spillAdmission e.1] else []) ++
  (s.teams.flatMap fun e => if teamSaveDue s e.1 then [Ev.teamSaveWrite e.1] else []) ++
  s.draws.flatMap fun e =>
    (if triangleDue s e.1 then [Ev.primitiveAssembly e.1 e.2.nprim] else []) ++
    (if (rasterFault s e.1).isSome then [Ev.rasterPageFault e.1]
      else if rasterDue s e.1 && rasterFirst s e.1 then [Ev.rasterTileBegin e.1] else [])

/-- Periods and timers of the memory controllers and the anvils, and the display's budget. -/
def periodEvents (s : State) : List Ev :=
  (if s.slices.any (·.2.charge != []) then [Ev.anvilBudgetPeriod] else []) ++
  (if s.dies.any (·.2.used != []) then [Ev.memBudgetPeriod] else []) ++
  (s.dies.flatMap fun e =>
    (e.2.rows.map fun r => Ev.rowIdleTimer (2 * e.1 + r.1 / 2 ^ 32) r.1) ++
    if e.2.rows != [] || e.2.postponed != [] then [Ev.refresh (2 * e.1), Ev.refresh (2 * e.1 + 1)] else []) ++
  ([0, 1] : List (Fin 2)).flatMap fun (n : Fin 2) =>
    let g := (s.outs.rd n.val).grid
    if g != 0 && overBudget s g && (gridTeams s g).any (fun t => !asked s t) then [Ev.reprojectionBudgetExpiry n] else []

/-- Cores on which a free slot finds a ready split; none issues while every issue is withheld (R362). -/
def arbitrations (s : State) : List Ev :=
  if s.hot then []
  else
    let cs := ((s.groups.filter fun e => e.2.live && !e.2.saved).map fun e => e.2.core).eraseDups
    (cs.filter fun c => (List.range 4).any (fun i => (s.cores.rd c).slots.rd i == 0) && readySplits s c != []).map Ev.issueArbitration

def dueEvents (s : State) : List Ev :=
  s.splits.flatMap (fun e => splitEvents s e.1) ++ s.groups.flatMap (fun e => groupEvents s e.1) ++ arbitrations s ++ placementEvents s ++
    preemptEvents s ++ borrowEvents s ++ queueEvents s ++ workEvents s ++ periodEvents s

/-- The end of the current period of a budget: 16,000 clocks (R130, R193), begun at multiples of them (DESIGN CHOICE, log entry 104). -/
def periodEnd (clock : Nat) : Nat := (clock / 16000 + 1) * 16000

/-- The clock before which an event does not come. -/
def dueAt (s : State) : Ev → Nat
  | .sleepExpiry k | .splitSwitch k | .stackEntryReturn k => (s.splits.rd k).until_
  | .fixedLatencyWrite g => (s.groups.rd g).nextDue s.clock
  | .rowIdleTimer stack bank => ((s.dies.rd (stack / 2)).rows.rd bank).2
  | .anvilBudgetPeriod | .memBudgetPeriod => periodEnd s.clock
  | _ => s.clock

/-- Events that come at their clock and not later: the spec gives the time at which each is. -/
def Ev.timed : Ev → Bool
  | .fixedLatencyWrite _ | .sleepExpiry _ | .splitSwitch _ | .stackEntryReturn _ | .throttleScoreHalving _ | .barrierRelease _ _ |
    .regroupTimeout _ _ | .regroupResume _ | .batchTimeout _ _ | .waitRecheck _ | .regionTimerExpiry _ | .rowIdleTimer _ _ |
    .slotlinkTimeout _ | .anvilBudgetPeriod | .memBudgetPeriod => true
  | _ => false

/-- The clock of the next timed event. -/
def nextTimed (s : State) : Option Nat :=
  let ds := (s.agenda.filter fun p => Ev.timed p.ev).map (·.due) ++ ((dueEvents s).filter Ev.timed).map (dueAt s)
  ds.foldl (fun (r : Option Nat) d => some (match r with
    | none => d
    | some x => min x d)) none

/-- What is not timed comes before the clock of the next timed event; at that clock the timed events come first. -/
def beforeTimed (s : State) (clock : Nat) : Bool := match nextTimed s with
  | none => true
  | some t => clock < t
/-- An event may come next, as far as time goes. -/
def inTime (s : State) (e : Ev) (due : Nat) : Bool := if Ev.timed e then nextTimed s == some due else beforeTimed s (max s.clock due)

/-! ### Issue -/

/-- The instruction at which a split stands. -/
noncomputable def instrAt (s : State) (k : Nat) : Option Instr :=
  let x := s.splits.rd k
  match decode (x.code.drop x.off) with
  | .ok (i, _) => if x.idx < x.count then some i else none
  | .error _ => none

/-- What the next move of a split in a slot reads: its guard where the clause is to begin, else the operands of its instruction. -/
noncomputable def readsNow (s : State) (k : Nat) : List Nat :=
  let x := s.splits.rd k
  if !x.begun then [rp (guardOf x.code)]
  else match instrAt s k with
    | some i => readsOf i
    | none => []

/-- A split in a slot can go on: nothing is withheld (R362), its group is not being saved, no other split of it traps (R331), and
nothing that it reads is still on its way (R52, R72, R277). -/
noncomputable def canIssue (s : State) (k : Nat) : Bool :=
  let x := s.splits.rd k
  let g := s.groups.rd (k / 4)
  !s.hot && x.live && g.live && !g.saved && (g.saveKind == 0 || (g.saveKind == 4 && x.begun)) && x.wait == .ready && !otherTraps s k &&
    !(g.late.any (Late.holds k x.lanes (readsNow s k))) &&
    !(samplePending s (k / 4) && (readsNow s k).contains (rp 60))

/-! ### The choice -/

/-- Everything that can come next; time can pass up to the clock before that of the next timed event. -/
noncomputable def choices (s : State) : List Turn :=
  let now : List Turn :=
    (s.cores.flatMap fun e => (e.2.slots.filter fun x => x.2 != 0 && canIssue s (x.2 - 1)).map fun x => Turn.split (x.2 - 1)) ++
    ((s.slices.filter fun e => e.2.inv.live).map fun e => Turn.anvil e.1) ++ (if s.inputs = [] then [] else [.input])
  (if beforeTimed s s.clock then now else []) ++
    ((openPlaces s).filter fun n => match s.agenda[n]? with
      | some p => inTime s p.ev p.due
      | none => false).map Turn.event ++
    ((dueEvents s).filter fun e => inTime s e (dueAt s e)).map Turn.run ++ (if beforeTimed s (s.clock + 1) then [.idle] else [])

/-- Clocks that an idle move lets pass. -/
def idleFor (s : State) : Nat :=
  let n := 1 + Config.elapsed s.tick
  match nextTimed s with
  | none => n
  | some t => min n (t - s.clock - 1)

/-- The move of a step: the state's own turn, or a free choice. -/
noncomputable def State.nextTurn (s : State) : Turn × State :=
  match s.turn with
  | .choose => ((choices s).getD (Config.schedule s.tick % (choices s).length) .idle, s.drawn 1)
  | t => (t, { s with turn := .choose })

/-- The shadow's output is unequal to the executing group's: that is counted, and the instruction is over without the output (R343; DESIGN
CHOICE, log entry 113). -/
def State.withhold (s : State) : State := (s.mismatch s.gk).adv (parcelsAt (s.sp.code.drop s.sp.off))

/-- What a move is: an instruction or event to run, a next state, or a stop. -/
inductive Move where
  | run (i : Instr) (s : State)
  | next (s : State)
  | stop (f : Fault)

noncomputable def State.moveOf (t : Turn) (s : State) : Move :=
  match t with
  | .choose => .next s
  | .split k =>
    let s := { s with cur := k }
    if (s.splits.rd k).begun then
      match instrAt s k with
      | some i =>
        if !(s.gr.parted && outputs i) then .run i s
        else if s.unequal then .next (s.drawn 1).withhold
        else .run i (s.drawn 1)
      | none => .stop .noInstruction
    else .next (s.beginClause (clauseBad s k))
  | .anvil i =>
    let s := { s with curSlice := i }
    match decodeH (s.inv.code.rd s.inv.pc).toNat with
    | .ok w => .run w s
    | .error _ => .stop .anvilWord
  | .event n => match s.agenda[n]? with
    | none => .next s
    | some p => .run p.ev.toInstr ({ s with agenda := s.agenda.eraseIdx n, hmac := none }.passTo p.due)
  | .run e => .run e.toInstr (s.passTo (dueAt s e))
  | .input => match s.inputs with
    | [] => .next s
    | e :: r => .run e.ev.toInstr { s with inputs := r, hmac := some e.key }
  | .idle =>
    if s.boot = .failed ∧ s.inputs = [] ∧ s.agenda = [] then .stop .bootStopped
    else .next ((s.drawn 1).passTime (idleFor s))

/-! ### Placing one instruction (the host's questions) -/

/-- The parcels of a core instruction of 32 bits with the bits above zero. -/
def parcels6 (w : Nat) : List W16 := (List.range 6).map fun i => BitVec.ofNat 16 (w / 2 ^ (16 * i))

/-- Split 0 of a group of 64 lanes, all live, is about to issue the one instruction `w` of its clause, with flags 0 and 1. -/
def State.withCore (s : State) (w : Nat) : State :=
  let hdr : List W16 := [0x0000#16, 0x0011#16]
  let x : Split := { live := true, lanes := BitVec.allOnes 64, code := hdr ++ parcels6 w, begun := true, count := 1, idx := 0, off := 2
                     guard := BitVec.allOnes 64, flagA := 0, flagB := 1 }
  let s := s.modSplit 0 fun _ => x
  let s := s.modGroup 0 fun g => { g with live := true, width := 64, vc := 128, tc := 16 }
  let s := s.modTeam 0 fun t => { t with live := true, lanes := 64, ngroups := 1, width := 64, vregs := 128, tiles := 16 }
  { s with turn := .split 0 }

/-- The anvil of slice 0 is about to run the word `w`. -/
def State.withAnvil (s : State) (w : Nat) : State :=
  let s := s.modSlice 0 fun x => { x with inv := { x.inv with live := true, pc := 0, len := 1, code := x.inv.code.wr 0 (BitVec.ofNat 32 w) } }
  { s with turn := .anvil 0 }

/-- The same choice between the two as `decodeTableWord` makes. -/
noncomputable def State.placeWord (s : State) (nbits w : Nat) : State :=
  let w := w % 2 ^ nbits
  if nbits = 32 ∧ w % 2 = 0 then s.withAnvil w
  else match decode (parcels6 w) with
    | .ok _ => s.withCore w
    | .error _ => s.withAnvil w

end Sys2Proof.Machine
end

