-- ==== Sys2Proof/Machine/CrossLane.lean ====
section
/-! DEFINITION. Cross-lane instructions, majors 31 to 36 (07_cross_lane.md): ACT is the effective mask (R104). -/

namespace Sys2Proof.Machine

/-! ### Shuffles (R106) -/

/-- The source position of a pattern: `y` is the pattern operand of position `p` in a group of width `w`. -/
def shflSource (pat : ShflPat) (w p : Nat) (y : W32) : Int :=
  match pat with
  | .idx => y.toNat
  | .up => p - y.toInt
  | .down => p + y.toInt
  | .xor => (p ^^^ y.toNat : Nat)
  | .rot => (p + y.toInt) % w

/-- A position is in ACT. -/
def inMask (m : W64) (q : Int) : Bool := 0 ≤ q && q < 64 && m.getLsbD q.toNat

/-- A shuffle of v[a], the pattern operand given by position; an invalid source gives the lane its own value. -/
def State.shuffle (pat : ShflPat) (d a : Nat) (srcs : List Nat) (y : Nat → W32) (s : State) : State :=
  s.laneOut d 4 2 (a :: srcs) fun p =>
    let q := shflSource pat s.gr.width p (y p)
    if inMask s.act q then s.gr.vr a q.toNat else s.gr.vr a p

def execShfl (pat : ShflPat) (d a : Fin 128) (b : LaneB) (s : State) : Res :=
  .next (s.shuffle pat d a (bRegs b) (s.bLane b))
def execShfli (pat : ShflPat) (d a : Fin 128) (imm : BitVec 8) (s : State) : Res :=
  .next (s.shuffle pat d a [] fun _ => imm.signExtend 32)

/-! ### Votes, ballots and matching (R108 to R110) -/

/-- A scalar result over ACT: nothing with ACT empty (R104). -/
def State.actOut (d lat : Nat) (x : W64) (s : State) : State := if s.act = 0 then s.adv 2 else s.sclOut d lat 2 x

def execVany (d a : Fin 64) (s : State) : Res := .next (s.predOut d 4 2 [] fun _ => s.act &&& s.gr.pr a != 0)
def execVall (d a : Fin 64) (s : State) : Res := .next (s.predOut d 4 2 [] fun _ => s.act &&& s.gr.pr a == s.act)
def execVbal (d a : Fin 64) (s : State) : Res := .next (s.actOut d 4 (s.act &&& s.gr.pr a))
def execPcount (d a : Fin 64) (s : State) : Res :=
  .next (s.actOut d 4 (BitVec.ofNat 64 (positions (s.act &&& s.gr.pr a)).length))

/-- Positions of ACT that hold the same pattern. -/
def State.matching (s : State) (a p : Nat) : W64 := maskOf ((positions s.act).filter fun q => s.gr.vr a q == s.gr.vr a p)

def execVmatch (d a : Fin 128) (s : State) : Res :=
  .next (if s.gr.width = 64 then s.laneOut2 d 8 2 [a.val] (s.matching a) else s.laneOut d 8 2 [a.val] fun p => (s.matching a p).setWidth 32)

/-- `b` is read as a lane instruction reads it, bits [31:0] (R15; DEDUCED, log entry 100: R110 says only that it is unsigned). -/
def execBcast (d : Fin 64) (a : Fin 128) (b : SclB) (s : State) : Res :=
  let q := s.bLow b
  let q := if q < 64 && s.act.getLsbD q then q else lowest s.act
  .next (if s.act = 0 then s.adv 2 else s.sram (1#64 <<< q) [a.val] fun s => s.sclOut d 4 2 ((s.gr.vr a q).setWidth 64))

/-! ### Scans and reductions (R111, R112) -/

def ScanOp.identity : ScanOp → W32
  | .add | .maxZ | .or => 0
  | .minS => 0x7FFFFFFF#32
  | .maxS | .fadd => 0x80000000#32
  | .minZ | .and => 0xFFFFFFFF#32

/-- The operation, with the float flags it raises. -/
def ScanOp.apply (o : ScanOp) (x y : W32) : W32 × Nat :=
  match o with
  | .add => (x + y, 0)
  | .minS => (if x.toInt ≤ y.toInt then x else y, 0)
  | .maxS => (if y.toInt ≤ x.toInt then x else y, 0)
  | .minZ => (if x.toNat ≤ y.toNat then x else y, 0)
  | .maxZ => (if y.toNat ≤ x.toNat then x else y, 0)
  | .and => (x &&& y, 0)
  | .or => (x ||| y, 0)
  | .fadd =>
    let r := f32p.add (f32p.val x.toNat) (f32p.val y.toNat)
    (BitVec.ofNat 32 r.1, r.2)

/-- The scan over positions: accumulator, flags, and each position's exclusive and inclusive value. -/
def scanRun (o : ScanOp) (x : Nat → W32) (ps : List Nat) : W32 × Nat × List (Nat × W32 × W32) :=
  ps.foldl (fun r p =>
    let y := ScanOp.apply o r.1 (x p)
    (y.1, r.2.1 ||| y.2, r.2.2 ++ [(p, r.1, y.1)])) (ScanOp.identity o, 0, [])

def State.scanOut (excl : Bool) (o : ScanOp) (d a : Nat) (s : State) : State :=
  let r := scanRun o (s.gr.vr a) (positions s.act)
  let v (p : Nat) : W32 := match r.2.2.find? fun e => e.1 == p with
    | some e => if excl then e.2.1 else e.2.2
    | none => 0
  s.floatOut d 8 2 [a] fun p => (v p, r.2.1)

def execScan (op : ScanOp) (d a : Fin 128) (s : State) : Res := .next (s.scanOut false op d a)
def execScanX (op : ScanOp) (d a : Fin 128) (s : State) : Res := .next (s.scanOut true op d a)
def execRdx (op : ScanOp) (d : Fin 64) (a : Fin 128) (s : State) : Res :=
  let r := scanRun op (s.gr.vr a) (positions s.act)
  .next (if s.act = 0 then s.adv 2
    else s.sram s.act [a.val] fun s => (s.setLate d 8 r.2.1 (ext64 (op == .minS || op == .maxS) r.1)).adv 2)

/-! ### The lane map (R113) -/

/-- The virtual number + 1 of the live lane at a team position, 0 for none. -/
def State.laneAt (s : State) (t : Nat) : Nat :=
  let w := s.gr.width
  if t < s.tm.lanes && (groupLanes s (128 * s.tk + t / w)).getLsbD (t % w) then s.tm.laneMap.rd t else 0

def execLmapPos (d a : Fin 128) (s : State) : Res :=
  .next (s.laneOut d 12 2 [a.val] fun p =>
    match (List.range s.tm.lanes).find? fun t => s.laneAt t == (s.gr.vr a p).toNat + 1 with
    | some t => BitVec.ofNat 32 t
    | none => 0xFFFFFFFF#32)
def execLmapLane (d a : Fin 128) (s : State) : Res :=
  .next (s.laneOut d 12 2 [a.val] fun p =>
    let v := s.laneAt (s.gr.vr a p).toNat
    if v = 0 then 0xFFFFFFFF#32 else BitVec.ofNat 32 (v - 1))

end Sys2Proof.Machine
end

