-- ==== Sys2Proof/Machine/Dispatch.lean ====
section
/-! DEFINITION. One arm for every instruction and event: the call of its meaning. -/

namespace Sys2Proof.Machine

def exec (i : Instr) (s : State) : Host.Outcome State Fault Refusal :=
  match i with
  | .br off => Sys2Proof.Machine.execBr off s
  | .brAll off p => Sys2Proof.Machine.execBrAll off p s
  | .brAny off p => Sys2Proof.Machine.execBrAny off p s
  | .brNone off p => Sys2Proof.Machine.execBrNone off p s
  | .brp off p => Sys2Proof.Machine.execBrp off p s
  | .call l off => Sys2Proof.Machine.execCall l off s
  | .jmp a => Sys2Proof.Machine.execJmp a s
  | .ret a => Sys2Proof.Machine.execRet a s
  | .join => Sys2Proof.Machine.execJoin s
  | .exit => Sys2Proof.Machine.execExit s
  | .nop => Sys2Proof.Machine.execNop s
  | .yield => Sys2Proof.Machine.execYield s
  | .sleep b => Sys2Proof.Machine.execSleep b s
  | .wflag mask => Sys2Proof.Machine.execWflag mask s
  | .wpath n k => Sys2Proof.Machine.execWpath n k s
  | .ppoint mask => Sys2Proof.Machine.execPpoint mask s
  | .sregVector r d => Sys2Proof.Machine.execSregVector r d s
  | .sregScalar r d => Sys2Proof.Machine.execSregScalar r d s
  | .swreg r a => Sys2Proof.Machine.execSwreg r a s
  | .plogAnd d a b => Sys2Proof.Machine.execPlogAnd d a b s
  | .plogOr d a b => Sys2Proof.Machine.execPlogOr d a b s
  | .plogXor d a b => Sys2Proof.Machine.execPlogXor d a b s
  | .plogAndn d a b => Sys2Proof.Machine.execPlogAndn d a b s
  | .pget d a => Sys2Proof.Machine.execPget d a s
  | .pset d b => Sys2Proof.Machine.execPset d b s
  | .pmov d a => Sys2Proof.Machine.execPmov d a s
  | .addLane d a b => Sys2Proof.Machine.execAddLane d a b s
  | .addScalar wide d a b => Sys2Proof.Machine.execAddScalar wide d a b s
  | .subLane d a b => Sys2Proof.Machine.execSubLane d a b s
  | .subScalar wide d a b => Sys2Proof.Machine.execSubScalar wide d a b s
  | .addc d a b => Sys2Proof.Machine.execAddc d a b s
  | .subc d a b => Sys2Proof.Machine.execSubc d a b s
  | .addSatSLane d a b => Sys2Proof.Machine.execAddSatSLane d a b s
  | .addSatSScalar wide d a b => Sys2Proof.Machine.execAddSatSScalar wide d a b s
  | .subSatSLane d a b => Sys2Proof.Machine.execSubSatSLane d a b s
  | .subSatSScalar wide d a b => Sys2Proof.Machine.execSubSatSScalar wide d a b s
  | .addSatZLane d a b => Sys2Proof.Machine.execAddSatZLane d a b s
  | .addSatZScalar wide d a b => Sys2Proof.Machine.execAddSatZScalar wide d a b s
  | .subSatZLane d a b => Sys2Proof.Machine.execSubSatZLane d a b s
  | .subSatZScalar wide d a b => Sys2Proof.Machine.execSubSatZScalar wide d a b s
  | .mulLane d a b => Sys2Proof.Machine.execMulLane d a b s
  | .mulScalar wide d a b => Sys2Proof.Machine.execMulScalar wide d a b s
  | .mulhSLane d a b => Sys2Proof.Machine.execMulhSLane d a b s
  | .mulhSScalar wide d a b => Sys2Proof.Machine.execMulhSScalar wide d a b s
  | .mulhZLane d a b => Sys2Proof.Machine.execMulhZLane d a b s
  | .mulhZScalar wide d a b => Sys2Proof.Machine.execMulhZScalar wide d a b s
  | .madLane d a b => Sys2Proof.Machine.execMadLane d a b s
  | .madScalar wide d a b => Sys2Proof.Machine.execMadScalar wide d a b s
  | .minSLane d a b => Sys2Proof.Machine.execMinSLane d a b s
  | .minSScalar wide d a b => Sys2Proof.Machine.execMinSScalar wide d a b s
  | .maxSLane d a b => Sys2Proof.Machine.execMaxSLane d a b s
  | .maxSScalar wide d a b => Sys2Proof.Machine.execMaxSScalar wide d a b s
  | .minZLane d a b => Sys2Proof.Machine.execMinZLane d a b s
  | .minZScalar wide d a b => Sys2Proof.Machine.execMinZScalar wide d a b s
  | .maxZLane d a b => Sys2Proof.Machine.execMaxZLane d a b s
  | .maxZScalar wide d a b => Sys2Proof.Machine.execMaxZScalar wide d a b s
  | .andLane d a b => Sys2Proof.Machine.execAndLane d a b s
  | .andScalar wide d a b => Sys2Proof.Machine.execAndScalar wide d a b s
  | .orLane d a b => Sys2Proof.Machine.execOrLane d a b s
  | .orScalar wide d a b => Sys2Proof.Machine.execOrScalar wide d a b s
  | .xorLane d a b => Sys2Proof.Machine.execXorLane d a b s
  | .xorScalar wide d a b => Sys2Proof.Machine.execXorScalar wide d a b s
  | .andnLane d a b => Sys2Proof.Machine.execAndnLane d a b s
  | .andnScalar wide d a b => Sys2Proof.Machine.execAndnScalar wide d a b s
  | .shlLane d a b => Sys2Proof.Machine.execShlLane d a b s
  | .shlScalar wide d a b => Sys2Proof.Machine.execShlScalar wide d a b s
  | .shrLane d a b => Sys2Proof.Machine.execShrLane d a b s
  | .shrScalar wide d a b => Sys2Proof.Machine.execShrScalar wide d a b s
  | .sarLane d a b => Sys2Proof.Machine.execSarLane d a b s
  | .sarScalar wide d a b => Sys2Proof.Machine.execSarScalar wide d a b s
  | .rotLane d a b => Sys2Proof.Machine.execRotLane d a b s
  | .rotScalar wide d a b => Sys2Proof.Machine.execRotScalar wide d a b s
  | .bfeSLane d a b => Sys2Proof.Machine.execBfeSLane d a b s
  | .bfeSScalar wide d a b => Sys2Proof.Machine.execBfeSScalar wide d a b s
  | .bfeZLane d a b => Sys2Proof.Machine.execBfeZLane d a b s
  | .bfeZScalar wide d a b => Sys2Proof.Machine.execBfeZScalar wide d a b s
  | .bfiLane d a b => Sys2Proof.Machine.execBfiLane d a b s
  | .bfiScalar wide d a b => Sys2Proof.Machine.execBfiScalar wide d a b s
  | .absLane d a => Sys2Proof.Machine.execAbsLane d a s
  | .absScalar wide d a => Sys2Proof.Machine.execAbsScalar wide d a s
  | .popcLane d a => Sys2Proof.Machine.execPopcLane d a s
  | .popcScalar wide d a => Sys2Proof.Machine.execPopcScalar wide d a s
  | .clzLane d a => Sys2Proof.Machine.execClzLane d a s
  | .clzScalar wide d a => Sys2Proof.Machine.execClzScalar wide d a s
  | .ctzLane d a => Sys2Proof.Machine.execCtzLane d a s
  | .ctzScalar wide d a => Sys2Proof.Machine.execCtzScalar wide d a s
  | .brevLane d a => Sys2Proof.Machine.execBrevLane d a s
  | .brevScalar wide d a => Sys2Proof.Machine.execBrevScalar wide d a s
  | .cmpSignedLane cc d a b => Sys2Proof.Machine.execCmpSignedLane cc d a b s
  | .cmpSignedScalar cc wide d a b => Sys2Proof.Machine.execCmpSignedScalar cc wide d a b s
  | .cmpUnsignedLane cc d a b => Sys2Proof.Machine.execCmpUnsignedLane cc d a b s
  | .cmpUnsignedScalar cc wide d a b => Sys2Proof.Machine.execCmpUnsignedScalar cc wide d a b s
  | .cmpEqualityLane ne d a b => Sys2Proof.Machine.execCmpEqualityLane ne d a b s
  | .cmpEqualityScalar ne wide d a b => Sys2Proof.Machine.execCmpEqualityScalar ne wide d a b s
  | .movLane d b => Sys2Proof.Machine.execMovLane d b s
  | .movScalar wide d b => Sys2Proof.Machine.execMovScalar wide d b s
  | .sel d a b => Sys2Proof.Machine.execSel d a b s
  | .liLane d lit => Sys2Proof.Machine.execLiLane d lit s
  | .liScalar d lit => Sys2Proof.Machine.execLiScalar d lit s
  | .lea d lit => Sys2Proof.Machine.execLea d lit s
  | .addImmLane d a imm => Sys2Proof.Machine.execAddImmLane d a imm s
  | .addImmScalar d a imm => Sys2Proof.Machine.execAddImmScalar d a imm s
  | .andImmLane d a imm => Sys2Proof.Machine.execAndImmLane d a imm s
  | .andImmScalar d a imm => Sys2Proof.Machine.execAndImmScalar d a imm s
  | .orImmLane d a imm => Sys2Proof.Machine.execOrImmLane d a imm s
  | .orImmScalar d a imm => Sys2Proof.Machine.execOrImmScalar d a imm s
  | .xorImmLane d a imm => Sys2Proof.Machine.execXorImmLane d a imm s
  | .xorImmScalar d a imm => Sys2Proof.Machine.execXorImmScalar d a imm s
  | .shlImmLane d a imm => Sys2Proof.Machine.execShlImmLane d a imm s
  | .shlImmScalar d a imm => Sys2Proof.Machine.execShlImmScalar d a imm s
  | .shrImmLane d a imm => Sys2Proof.Machine.execShrImmLane d a imm s
  | .shrImmScalar d a imm => Sys2Proof.Machine.execShrImmScalar d a imm s
  | .sarImmLane d a imm => Sys2Proof.Machine.execSarImmLane d a imm s
  | .sarImmScalar d a imm => Sys2Proof.Machine.execSarImmScalar d a imm s
  | .rotImmLane d a imm => Sys2Proof.Machine.execRotImmLane d a imm s
  | .rotImmScalar d a imm => Sys2Proof.Machine.execRotImmScalar d a imm s
  | .add16 d b => Sys2Proof.Machine.execAdd16 d b s
  | .sub16 d b => Sys2Proof.Machine.execSub16 d b s
  | .mul16 d b => Sys2Proof.Machine.execMul16 d b s
  | .and16 d b => Sys2Proof.Machine.execAnd16 d b s
  | .or16 d b => Sys2Proof.Machine.execOr16 d b s
  | .xor16 d b => Sys2Proof.Machine.execXor16 d b s
  | .shl16 d b => Sys2Proof.Machine.execShl16 d b s
  | .shr16 d b => Sys2Proof.Machine.execShr16 d b s
  | .sar16 d b => Sys2Proof.Machine.execSar16 d b s
  | .mov16 d b => Sys2Proof.Machine.execMov16 d b s
  | .min16 d b => Sys2Proof.Machine.execMin16 d b s
  | .max16 d b => Sys2Proof.Machine.execMax16 d b s
  | .fadd16 d b => Sys2Proof.Machine.execFadd16 d b s
  | .fsub16 d b => Sys2Proof.Machine.execFsub16 d b s
  | .fmul16 d b => Sys2Proof.Machine.execFmul16 d b s
  | .fmax16 d b => Sys2Proof.Machine.execFmax16 d b s
  | .fadd t d a b => Sys2Proof.Machine.execFadd t d a b s
  | .fsub t d a b => Sys2Proof.Machine.execFsub t d a b s
  | .fmul t d a b => Sys2Proof.Machine.execFmul t d a b s
  | .ffma t d a b => Sys2Proof.Machine.execFfma t d a b s
  | .fmin t d a b => Sys2Proof.Machine.execFmin t d a b s
  | .fmax t d a b => Sys2Proof.Machine.execFmax t d a b s
  | .fcmpF32 cc d a b => Sys2Proof.Machine.execFcmpF32 cc d a b s
  | .fcmpF64 cc d a b => Sys2Proof.Machine.execFcmpF64 cc d a b s
  | .frndF32 rnd d a => Sys2Proof.Machine.execFrndF32 rnd d a s
  | .frndF64 rnd d a => Sys2Proof.Machine.execFrndF64 rnd d a s
  | .frcp d a => Sys2Proof.Machine.execFrcp d a s
  | .frsq d a => Sys2Proof.Machine.execFrsq d a s
  | .fsqrt d a => Sys2Proof.Machine.execFsqrt d a s
  | .fexp2 d a => Sys2Proof.Machine.execFexp2 d a s
  | .flog2 d a => Sys2Proof.Machine.execFlog2 d a s
  | .fsin d a => Sys2Proof.Machine.execFsin d a s
  | .fcos d a => Sys2Proof.Machine.execFcos d a s
  | .ftanh d a => Sys2Proof.Machine.execFtanh d a s
  | .cvt src dst mode d a => Sys2Proof.Machine.execCvt src dst mode d a s
  | .pk src dst d a => Sys2Proof.Machine.execPk src dst d a s
  | .pkSat src dst d a => Sys2Proof.Machine.execPkSat src dst d a s
  | .upk src dst d a => Sys2Proof.Machine.execUpk src dst d a s
  | .fclass src d a => Sys2Proof.Machine.execFclass src d a s
  | .dp4I8x4 d a b => Sys2Proof.Machine.execDp4I8x4 d a b s
  | .dp4N8x4 d a b => Sys2Proof.Machine.execDp4N8x4 d a b s
  | .dp8I4x8 d a b => Sys2Proof.Machine.execDp8I4x8 d a b s
  | .dp8N4x8 d a b => Sys2Proof.Machine.execDp8N4x8 d a b s
  | .fdp2F16 d a b => Sys2Proof.Machine.execFdp2F16 d a b s
  | .fdp2Bf16 d a b => Sys2Proof.Machine.execFdp2Bf16 d a b s
  | .fdp4E5m2 d a b => Sys2Proof.Machine.execFdp4E5m2 d a b s
  | .fdp4E4m3 d a b => Sys2Proof.Machine.execFdp4E4m3 d a b s
  | .fdp4E3m2 d a b => Sys2Proof.Machine.execFdp4E3m2 d a b s
  | .fdp4E2m3 d a b => Sys2Proof.Machine.execFdp4E2m3 d a b s
  | .fdp8E2m1 d a b => Sys2Proof.Machine.execFdp8E2m1 d a b s
  | .qexpE5m2 d a => Sys2Proof.Machine.execQexpE5m2 d a s
  | .qexpE4m3 d a => Sys2Proof.Machine.execQexpE4m3 d a s
  | .qexpE3m2 d a => Sys2Proof.Machine.execQexpE3m2 d a s
  | .qexpE2m3 d a => Sys2Proof.Machine.execQexpE2m3 d a s
  | .qexpE2m1 d a => Sys2Proof.Machine.execQexpE2m1 d a s
  | .rng d => Sys2Proof.Machine.execRng d s
  | .rngSeed a b => Sys2Proof.Machine.execRngSeed a b s
  | .shfl pat d a b => Sys2Proof.Machine.execShfl pat d a b s
  | .shfli pat d a imm => Sys2Proof.Machine.execShfli pat d a imm s
  | .vany d a => Sys2Proof.Machine.execVany d a s
  | .vall d a => Sys2Proof.Machine.execVall d a s
  | .vbal d a => Sys2Proof.Machine.execVbal d a s
  | .vmatch d a => Sys2Proof.Machine.execVmatch d a s
  | .pcount d a => Sys2Proof.Machine.execPcount d a s
  | .bcast d a b => Sys2Proof.Machine.execBcast d a b s
  | .lmapPos d a => Sys2Proof.Machine.execLmapPos d a s
  | .lmapLane d a => Sys2Proof.Machine.execLmapLane d a s
  | .scan op d a => Sys2Proof.Machine.execScan op d a s
  | .scanX op d a => Sys2Proof.Machine.execScanX op d a s
  | .rdx op d a => Sys2Proof.Machine.execRdx op d a s
  | .ld sz d b o imm => Sys2Proof.Machine.execLd sz d b o imm s
  | .ldSigned half d b o imm => Sys2Proof.Machine.execLdSigned half d b o imm s
  | .st sz d b o imm => Sys2Proof.Machine.execSt sz d b o imm s
  | .ldAcq sc sz d b o => Sys2Proof.Machine.execLdAcq sc sz d b o s
  | .stRel sc sz d b o => Sys2Proof.Machine.execStRel sc sz d b o s
  | .lds sz d b o imm => Sys2Proof.Machine.execLds sz d b o imm s
  | .sts sz d b o imm => Sys2Proof.Machine.execSts sz d b o imm s
  | .sld sz d b imm => Sys2Proof.Machine.execSld sz d b imm s
  | .sst sz d b imm => Sys2Proof.Machine.execSst sz d b imm s
  | .gth sz d b o imm => Sys2Proof.Machine.execGth sz d b o imm s
  | .prf llc b o imm => Sys2Proof.Machine.execPrf llc b o imm s
  | .fence sc kind => Sys2Proof.Machine.execFence sc kind s
  | .efence sc kind => Sys2Proof.Machine.execEfence sc kind s
  | .cflush sc b o => Sys2Proof.Machine.execCflush sc b o s
  | .cinv sc b o => Sys2Proof.Machine.execCinv sc b o s
  | .czero b o => Sys2Proof.Machine.execCzero b o s
  | .carve d a b => Sys2Proof.Machine.execCarve d a b s
  | .cquery d b o => Sys2Proof.Machine.execCquery d b o s
  | .atmReturning aop wide d b o => Sys2Proof.Machine.execAtmReturning aop wide d b o s
  | .atmPosted aop wide d b o => Sys2Proof.Machine.execAtmPosted aop wide d b o s
  | .casReturning wide d b o => Sys2Proof.Machine.execCasReturning wide d b o s
  | .casPosted wide d b o => Sys2Proof.Machine.execCasPosted wide d b o s
  | .rcallLane d b o imm => Sys2Proof.Machine.execRcallLane d b o imm s
  | .rcallScalar d b imm => Sys2Proof.Machine.execRcallScalar d b imm s
  | .rinst d a b => Sys2Proof.Machine.execRinst d a b s
  | .rdrop d b => Sys2Proof.Machine.execRdrop d b s
  | .bar n b => Sys2Proof.Machine.execBar n b s
  | .barr n b => Sys2Proof.Machine.execBarr n b s
  | .barw n => Sys2Proof.Machine.execBarw n s
  | .gbar => Sys2Proof.Machine.execGbar s
  | .abinit a b => Sys2Proof.Machine.execAbinit a b s
  | .abarr d a => Sys2Proof.Machine.execAbarr d a s
  | .abexp a b => Sys2Proof.Machine.execAbexp a b s
  | .abwait a b => Sys2Proof.Machine.execAbwait a b s
  | .trec n a => Sys2Proof.Machine.execTrec n a s
  | .tcopy tr ab n c a => Sys2Proof.Machine.execTcopy tr ab n c a s
  | .tstore tr n c a => Sys2Proof.Machine.execTstore tr n c a s
  | .tquant n c a => Sys2Proof.Machine.execTquant n c a s
  | .tgath ab n c a => Sys2Proof.Machine.execTgath ab n c a s
  | .tfill n c => Sys2Proof.Machine.execTfill n c s
  | .tred n c a => Sys2Proof.Machine.execTred n c a s
  | .mma fmt tile a b => Sys2Proof.Machine.execMma fmt tile a b s
  | .mmaUnfold fmt n tile b => Sys2Proof.Machine.execMmaUnfold fmt n tile b s
  | .mmas fmt tile a b => Sys2Proof.Machine.execMmas fmt tile a b s
  | .aclr tile => Sys2Proof.Machine.execAclr tile s
  | .amov d tile => Sys2Proof.Machine.execAmov d tile s
  | .aput tile a => Sys2Proof.Machine.execAput tile a s
  | .ast fmt tile a => Sys2Proof.Machine.execAst fmt tile a s
  | .unf n a => Sys2Proof.Machine.execUnf n a s
  | .vemit d a b => Sys2Proof.Machine.execVemit d a b s
  | .intrp d b => Sys2Proof.Machine.execIntrp d b s
  | .fpost d a b => Sys2Proof.Machine.execFpost d a b s
  | .tbind d a b => Sys2Proof.Machine.execTbind d a b s
  | .tmeth mode3 a k => Sys2Proof.Machine.execTmeth mode3 a k s
  | .tmethClear a k => Sys2Proof.Machine.execTmethClear a k s
  | .tmethResolve k => Sys2Proof.Machine.execTmethResolve k s
  | .tsample d a k => Sys2Proof.Machine.execTsample d a k s
  | .tsampleSettle d a k => Sys2Proof.Machine.execTsampleSettle d a k s
  | .tex d a b => Sys2Proof.Machine.execTex d a b s
  | .texf d a b => Sys2Proof.Machine.execTexf d a b s
  | .rtrace d a b => Sys2Proof.Machine.execRtrace d a b s
  | .rtraceAny d a b => Sys2Proof.Machine.execRtraceAny d a b s
  | .rnext d => Sys2Proof.Machine.execRnext d s
  | .racc => Sys2Proof.Machine.execRacc s
  | .rhit d b => Sys2Proof.Machine.execRhit d b s
  | .regroup => Sys2Proof.Machine.execRegroup s
  | .launch d a b => Sys2Proof.Machine.execLaunch d a b s
  | .cwait d a => Sys2Proof.Machine.execCwait d a s
  | .ralloc d b => Sys2Proof.Machine.execRalloc d b s
  | .rallocIn d => Sys2Proof.Machine.execRallocIn d s
  | .rcommit a => Sys2Proof.Machine.execRcommit a s
  | .rdone a => Sys2Proof.Machine.execRdone a s
  | .trap b => Sys2Proof.Machine.execTrap b s
  | .rti b => Sys2Proof.Machine.execRti b s
  | .sysc b => Sys2Proof.Machine.execSysc b s
  | .brk b => Sys2Proof.Machine.execBrk b s
  | .halt => Sys2Proof.Machine.execHalt s
  | .rbank d b => Sys2Proof.Machine.execRbank d b s
  | .rbankW src b => Sys2Proof.Machine.execRbankW src b s
  | .tlbinv a b => Sys2Proof.Machine.execTlbinv a b s
  | .fresume d a => Sys2Proof.Machine.execFresume d a s
  | .ctxsv d a b => Sys2Proof.Machine.execCtxsv d a b s
  | .ctxld d a b => Sys2Proof.Machine.execCtxld d a b s
  | .ctr d a => Sys2Proof.Machine.execCtr d a s
  | .ctrsel a b => Sys2Proof.Machine.execCtrsel a b s
  | .ext opnds num => Sys2Proof.Machine.execExt opnds num s
  | .hLdl d k => Sys2Proof.Machine.execHLdl d k s
  | .hStl k b => Sys2Proof.Machine.execHStl k b s
  | .hLdo d k => Sys2Proof.Machine.execHLdo d k s
  | .hLdc d k => Sys2Proof.Machine.execHLdc d k s
  | .hLi d imm => Sys2Proof.Machine.execHLi d imm s
  | .hLiHi d imm => Sys2Proof.Machine.execHLiHi d imm s
  | .hAdd m d a b => Sys2Proof.Machine.execHAdd m d a b s
  | .hSub m d a b => Sys2Proof.Machine.execHSub m d a b s
  | .hMul m d a b => Sys2Proof.Machine.execHMul m d a b s
  | .hAnd d a b => Sys2Proof.Machine.execHAnd d a b s
  | .hOr d a b => Sys2Proof.Machine.execHOr d a b s
  | .hXor d a b => Sys2Proof.Machine.execHXor d a b s
  | .hShl d a b => Sys2Proof.Machine.execHShl d a b s
  | .hShr d a b => Sys2Proof.Machine.execHShr d a b s
  | .hSar d a b => Sys2Proof.Machine.execHSar d a b s
  | .hMin unsigned d a b => Sys2Proof.Machine.execHMin unsigned d a b s
  | .hMax unsigned d a b => Sys2Proof.Machine.execHMax unsigned d a b s
  | .hFadd m d a b => Sys2Proof.Machine.execHFadd m d a b s
  | .hFmul m d a b => Sys2Proof.Machine.execHFmul m d a b s
  | .hFfma m d a b => Sys2Proof.Machine.execHFfma m d a b s
  | .hFmin m d a b => Sys2Proof.Machine.execHFmin m d a b s
  | .hFmax m d a b => Sys2Proof.Machine.execHFmax m d a b s
  | .hCvt m d a b => Sys2Proof.Machine.execHCvt m d a b s
  | .hCmp m c a b => Sys2Proof.Machine.execHCmp m c a b s
  | .hSel d c a b => Sys2Proof.Machine.execHSel d c a b s
  | .hSkip m n c => Sys2Proof.Machine.execHSkip m n c s
  | .hRet => Sys2Proof.Machine.execHRet s
  | .hFwd n a => Sys2Proof.Machine.execHFwd n a s
  | .hAbt b => Sys2Proof.Machine.execHAbt b s
  | .hEnd => Sys2Proof.Machine.execHEnd s
  | .clauseFetch split => Sys2Proof.Machine.execClauseFetch split s
  | .issueArbitration core => Sys2Proof.Machine.execIssueArbitration core s
  | .fixedLatencyWrite group => Sys2Proof.Machine.execFixedLatencyWrite group s
  | .operationRetire op => Sys2Proof.Machine.execOperationRetire op s
  | .sleepExpiry split => Sys2Proof.Machine.execSleepExpiry split s
  | .splitSwitch split => Sys2Proof.Machine.execSplitSwitch split s
  | .stackEntryReturn split => Sys2Proof.Machine.execStackEntryReturn split s
  | .teamEnd team => Sys2Proof.Machine.execTeamEnd team s
  | .throttleScoreHalving core => Sys2Proof.Machine.execThrottleScoreHalving core s
  | .tlbWalk chart unit part vpn => Sys2Proof.Machine.execTlbWalk chart unit part vpn s
  | .pageFaultSave group => Sys2Proof.Machine.execPageFaultSave group s
  | .faultRecordPost part => Sys2Proof.Machine.execFaultRecordPost part s
  | .groupRestore group => Sys2Proof.Machine.execGroupRestore group s
  | .mergingFillReturn r => Sys2Proof.Machine.execMergingFillReturn r s
  | .homeSliceRead r => Sys2Proof.Machine.execHomeSliceRead r s
  | .writeThrough r => Sys2Proof.Machine.execWriteThrough r s
  | .revoke core line mask ack => Sys2Proof.Machine.execRevoke core line mask ack s
  | .revokeAcknowledge ack => Sys2Proof.Machine.execRevokeAcknowledge ack s
  | .llcFill line part c => Sys2Proof.Machine.execLlcFill line part c s
  | .engineRecall line => Sys2Proof.Machine.execEngineRecall line s
  | .routineEntryFetch slice part id => Sys2Proof.Machine.execRoutineEntryFetch slice part id s
  | .anvilInvocationStart r => Sys2Proof.Machine.execAnvilInvocationStart r s
  | .atomicInvocation r => Sys2Proof.Machine.execAtomicInvocation r s
  | .casInvocation r => Sys2Proof.Machine.execCasInvocation r s
  | .tredInvocation op line => Sys2Proof.Machine.execTredInvocation op line s
  | .anvilBudgetPeriod => Sys2Proof.Machine.execAnvilBudgetPeriod s
  | .gatherLanding op lane => Sys2Proof.Machine.execGatherLanding op lane s
  | .chartTransferStart die => Sys2Proof.Machine.execChartTransferStart die s
  | .chartBytesLanding op => Sys2Proof.Machine.execChartBytesLanding op s
  | .chartPageFault op => Sys2Proof.Machine.execChartPageFault op s
  | .carveSliceApply op slice => Sys2Proof.Machine.execCarveSliceApply op slice s
  | .barrierRelease team bar => Sys2Proof.Machine.execBarrierRelease team bar s
  | .gridBarrierRelease grid => Sys2Proof.Machine.execGridBarrierRelease grid s
  | .matrixPassWrite group => Sys2Proof.Machine.execMatrixPassWrite group s
  | .rayRecord group pos => Sys2Proof.Machine.execRayRecord group pos s
  | .rayPageFault group pos => Sys2Proof.Machine.execRayPageFault group pos s
  | .regroupArrival group => Sys2Proof.Machine.execRegroupArrival group s
  | .regroupTimeout team addr => Sys2Proof.Machine.execRegroupTimeout team addr s
  | .regroupResume group => Sys2Proof.Machine.execRegroupResume group s
  | .primitiveAssembly draw imm => Sys2Proof.Machine.execPrimitiveAssembly draw imm s
  | .rasterTileBegin draw => Sys2Proof.Machine.execRasterTileBegin draw s
  | .noticeEntry n => Sys2Proof.Machine.execNoticeEntry n s
  | .rasterPageFault draw => Sys2Proof.Machine.execRasterPageFault draw s
  | .fragmentGroupLaunch draw => Sys2Proof.Machine.execFragmentGroupLaunch draw s
  | .fragmentPost p => Sys2Proof.Machine.execFragmentPost p s
  | .postReturn p => Sys2Proof.Machine.execPostReturn p s
  | .nullPost p => Sys2Proof.Machine.execNullPost p s
  | .forwardPost p => Sys2Proof.Machine.execForwardPost p s
  | .tmethInvocation r => Sys2Proof.Machine.execTmethInvocation r s
  | .tsampleRead r => Sys2Proof.Machine.execTsampleRead r s
  | .batchTimeout graph node => Sys2Proof.Machine.execBatchTimeout graph node s
  | .batchLaunch graph => Sys2Proof.Machine.execBatchLaunch graph s
  | .queueLaunchRecord q => Sys2Proof.Machine.execQueueLaunchRecord q s
  | .queueDrawRecord q => Sys2Proof.Machine.execQueueDrawRecord q s
  | .queueSignalRecord q => Sys2Proof.Machine.execQueueSignalRecord q s
  | .queueWaitRecord q => Sys2Proof.Machine.execQueueWaitRecord q s
  | .waitRecheck q => Sys2Proof.Machine.execWaitRecheck q s
  | .frontEndPageFault q => Sys2Proof.Machine.execFrontEndPageFault q s
  | .gridComplete grid => Sys2Proof.Machine.execGridComplete grid s
  | .teamPlacement grid => Sys2Proof.Machine.execTeamPlacement grid s
  | .spillAdmission part => Sys2Proof.Machine.execSpillAdmission part s
  | .preemptRequest team => Sys2Proof.Machine.execPreemptRequest team s
  | .regionTimerExpiry group => Sys2Proof.Machine.execRegionTimerExpiry group s
  | .teamSaveWrite team => Sys2Proof.Machine.execTeamSaveWrite team s
  | .borrowRevocation pair => Sys2Proof.Machine.execBorrowRevocation pair s
  | .snapshotCopy grid page => Sys2Proof.Machine.execSnapshotCopy grid page s
  | .snapshotRollback grid => Sys2Proof.Machine.execSnapshotRollback grid s
  | .verifyMismatch group => Sys2Proof.Machine.execVerifyMismatch group s
  | .trapEntry split => Sys2Proof.Machine.execTrapEntry split s
  | .trapHandoff split => Sys2Proof.Machine.execTrapHandoff split s
  | .reprojectionLaunch out => Sys2Proof.Machine.execReprojectionLaunch out s
  | .compositorUnstop out => Sys2Proof.Machine.execCompositorUnstop out s
  | .vblank out => Sys2Proof.Machine.execVblank out s
  | .reprojectionBudgetExpiry out => Sys2Proof.Machine.execReprojectionBudgetExpiry out s
  | .rowIdleTimer stack bank => Sys2Proof.Machine.execRowIdleTimer stack bank s
  | .memBudgetPeriod => Sys2Proof.Machine.execMemBudgetPeriod s
  | .refresh stack => Sys2Proof.Machine.execRefresh stack s
  | .slotlinkRequest r => Sys2Proof.Machine.execSlotlinkRequest r s
  | .slotlinkTimeout op => Sys2Proof.Machine.execSlotlinkTimeout op s
  | .partCreate cfg => Sys2Proof.Machine.execPartCreate cfg s
  | .partDestroy part => Sys2Proof.Machine.execPartDestroy part s
  | .load part pa bytes => Sys2Proof.Machine.execLoad part pa bytes s
  | .queueSet q f v => Sys2Proof.Machine.execQueueSet q f v s
  | .tableSet t => Sys2Proof.Machine.execTableSet t s
  | .report part => Sys2Proof.Machine.execReport part s
  | .attest nonce => Sys2Proof.Machine.execAttest nonce s
  | .reset preserve => Sys2Proof.Machine.execReset preserve s
  | .pregWrite split => Sys2Proof.Machine.execPregWrite split s
  | .pregRead split => Sys2Proof.Machine.execPregRead split s
  | .reportRead split => Sys2Proof.Machine.execReportRead split s
  | .syscAttest split => Sys2Proof.Machine.execSyscAttest split s
  | .removeDone split => Sys2Proof.Machine.execRemoveDone split s
  | .pwinWrite part n limit v => Sys2Proof.Machine.execPwinWrite part n limit v s
  | .ptRootWrite part v => Sys2Proof.Machine.execPtRootWrite part v s
  | .llcCarveLimitWrite part v => Sys2Proof.Machine.execLlcCarveLimitWrite part v s
  | .llcCarveBaseWrite part die v => Sys2Proof.Machine.execLlcCarveBaseWrite part die v s
  | .wgPoolWrite part v => Sys2Proof.Machine.execWgPoolWrite part v s
  | .rtBaseWrite part v => Sys2Proof.Machine.execRtBaseWrite part v s
  | .qTailWrite q v => Sys2Proof.Machine.execQTailWrite q v s
  | .queueGeometryWrite q size v => Sys2Proof.Machine.execQueueGeometryWrite q size v s
  | .qctlWrite q v => Sys2Proof.Machine.execQctlWrite q v s
  | .faultHeadWrite part v => Sys2Proof.Machine.execFaultHeadWrite part v s
  | .faultQWrite part v => Sys2Proof.Machine.execFaultQWrite part v s
  | .borrowRegionMaxWrite die v => Sys2Proof.Machine.execBorrowRegionMaxWrite die v s
  | .orderlyWarmReset => Sys2Proof.Machine.execOrderlyWarmReset s
  | .registerWrite addr v => Sys2Proof.Machine.execRegisterWrite addr v s
  | .fatalWarmReset => Sys2Proof.Machine.execFatalWarmReset s
  | .coldReset => Sys2Proof.Machine.execColdReset s
  | .boot fwOk svcOk rom fw svc => Sys2Proof.Machine.execBoot fwOk svcOk rom fw svc s
  | .dieOvertemp die => Sys2Proof.Machine.execDieOvertemp die s
  | .coolantOvertemp => Sys2Proof.Machine.execCoolantOvertemp s
  | .powerThrottle share => Sys2Proof.Machine.execPowerThrottle share s
  | .correctableError part ctl => Sys2Proof.Machine.execCorrectableError part ctl s
  | .uncorrectableDataError at_ => Sys2Proof.Machine.execUncorrectableDataError at_ s
  | .layerFailure die => Sys2Proof.Machine.execLayerFailure die s
  | .layerMapOut die => Sys2Proof.Machine.execLayerMapOut die s
  | .sessionKeyExchange requester => Sys2Proof.Machine.execSessionKeyExchange requester s

end Sys2Proof.Machine
end

