-- ==== Sys2Proof/Machine/Step.lean ====
section
/-! DEFINITION. One step of the machine: the next move is found, and what it runs is run. -/

namespace Sys2Proof.Machine

/-- One step. -/
noncomputable def step (s : State) : Host.Outcome State Fault Refusal :=
  let n := s.nextTurn
  match n.2.moveOf n.1 with
  | .run i s => exec i s
  | .next s => .next s
  | .stop f => .fault f

/-- The state with an instruction of the opcode table placed where the next step issues it: a core instruction as the only one
of a running clause, an anvil word as the next of a running routine. -/
noncomputable def State.withFetchWord (s : State) (nbits w : Nat) : State := s.placeWord nbits w

end Sys2Proof.Machine
end

