-- ==== Sys2Proof/Safety.lean ====
section
/-! DEFINITION. Runs, and the words that the statements about the machine are made of: what an instruction of one split may
change, where its split goes on, and the results of each shape. -/

namespace Sys2Proof.Machine

/-! ### Runs -/

/-- `t` is reached from `s` in `n` steps, none of which stops. -/
inductive Reaches : Nat → State → State → Prop where
  | refl (s : State) : Reaches 0 s s
  | step {n : Nat} {s t u : State} : step s = .next t → Reaches n t u → Reaches (n + 1) s u

/-- A run is safe while no step of it stops. -/
def Safe (n : Nat) (s : State) : Prop := ∃ t, Reaches n s t

/-! ### What one instruction changes -/

/-- Two splits that differ in their place in the program alone: clause, instruction, pacing, and what a wait keeps. -/
def Split.alike (x y : Split) : Prop :=
  y = { x with pc := y.pc, code := y.code, begun := y.begun, count := y.count, idx := y.idx, off := y.off, wait := y.wait
               until_ := y.until_, yielding := y.yielding, nap := y.nap, xl := y.xl, phase := y.phase, aux := y.aux, pass := y.pass }

/-- The same, with other scalar registers. -/
def Split.alikeButScalars (x y : Split) : Prop := Split.alike { x with s := y.s } y

/-- Two groups that differ in their age (R64) alone. -/
def Group.alike (g h : Group) : Prop := h = { g with age := h.age }

/-- Two cores that differ in their issue slots and their event counters alone: contents of L1 and TLB, barriers and
owned words are the same. -/
def Core.alike (c d : Core) : Prop := d = { c with slots := d.slots, ctr := d.ctr }

/-- Only the executing split and its group, and issue slots and counters of cores, differ: every byte of memory and of every
cache, every team, operation, queue, grid and register of the device, every other group and every other split stay. -/
structure OnlyHere (s t : State) : Prop where
  rest : t = { s with splits := t.splits, groups := t.groups, cores := t.cores }
  splits : ∀ k, k ≠ s.cur → t.splits.rd k = s.splits.rd k
  groups : ∀ g, g ≠ s.gk → t.groups.rd g = s.groups.rd g
  cores : ∀ c, Core.alike (s.cores.rd c) (t.cores.rd c)

/-- The split goes on behind an instruction of `n` parcels: at the next instruction of its clause, or, behind the last, at the
clause that follows in memory. -/
structure GoesOn (n : Nat) (x y : Split) : Prop where
  inside : x.idx + 1 < x.count → y.pc = x.pc ∧ y.code = x.code ∧ y.begun = x.begun ∧ y.count = x.count ∧ y.idx = x.idx + 1 ∧ y.off = x.off + n
  last : x.count ≤ x.idx + 1 → y.pc = x.pc + BitVec.ofNat 64 (2 * (x.off + n)) ∧ y.begun = false ∧ y.code = []

/-- The executing split goes on at the clause whose header is at `pc`. -/
structure GoesTo (pc : W64) (y : Split) : Prop where
  pc_ : y.pc = pc
  begun : y.begun = false
  code : y.code = []

/-- No vector-register word of the executing group is poisoned (R339). -/
def NoPoison (s : State) : Prop := ∀ n, s.gr.badV.rd n = false

/-- The state after `i` is `t`; the split goes on behind `i`, and nothing outside its own split and group changes. -/
structure Plain (i : Instr) (s t : State) : Prop where
  runs : exec i s = .next t
  only : OnlyHere s t
  on : GoesOn i.parcels s.sp (t.splits.rd s.cur)

/-! ### Results of fixed latency (R52, R72, R88, R89, R105) -/

/-- Clocks from the issue of an instruction to the write of its result (R52, R72, R89, R105, R273); the 16-bit `mul` is one of the
`mul` of major 7 (DEDUCED, log entry 6). -/
def latency : Instr → Nat
  | .mulLane _ _ _ | .mulScalar _ _ _ _ | .mulhSLane _ _ _ | .mulhSScalar _ _ _ _ | .mulhZLane _ _ _ | .mulhZScalar _ _ _ _ |
    .madLane _ _ _ | .madScalar _ _ _ _ | .mul16 _ _ => 8
  | .fadd t _ _ _ | .fsub t _ _ _ | .fmul t _ _ _ | .ffma t _ _ _ | .fmin t _ _ _ | .fmax t _ _ _ => if t = .f64 then 8 else 4
  | .cvt src dst _ _ _ => if src = .f64 ∨ dst = .f64 then 8 else 4
  | .fclass src _ _ => if src = .f64 then 8 else 4
  | .frndF64 _ _ _ | .dp4I8x4 _ _ _ | .dp4N8x4 _ _ _ | .dp8I4x8 _ _ _ | .dp8N4x8 _ _ _ | .fdp2F16 _ _ _ | .fdp2Bf16 _ _ _ |
    .fdp4E5m2 _ _ _ | .fdp4E4m3 _ _ _ | .fdp4E3m2 _ _ _ | .fdp4E2m3 _ _ _ | .fdp8E2m1 _ _ _ | .vmatch _ _ | .scan _ _ _ |
    .scanX _ _ _ | .rdx _ _ _ => 8
  | .lmapPos _ _ | .lmapLane _ _ => 12
  | .frcp _ _ | .frsq _ _ | .fsqrt _ _ | .fexp2 _ _ | .flog2 _ _ | .fsin _ _ | .fcos _ _ | .ftanh _ _ | .intrp _ _ => 16
  | _ => 4

/-- The entry of a result of the executing instruction `i`: the register, in the code of `Late`, and the float flags. -/
def entryOf (s : State) (i : Instr) (code flags : Nat) : Late :=
  { code := code, split := s.cur, mask := s.act, due := s.clock + latency i, flags := flags }

/-- The results on their way after a lane instruction: with no lane active it has none (R51). -/
def lateAfter (s : State) (i : Instr) (es : List (Nat × Nat)) : List Late :=
  s.gr.late ++ if s.act = 0 then [] else es.map fun e => entryOf s i e.1 e.2

/-- `i`'s result is the last to be written to v[r] at position `p`: the position is active, and no write that an earlier instruction has
on its way there comes later. -/
def landsAt (s : State) (i : Instr) (r p : Nat) : Bool := s.act.getLsbD p && !s.gr.overtaken r (s.clock + latency i) p

/-- After `i` v[d] holds `f p` where `i`'s result is the last, and every other word is as before. -/
def Single (s : State) (i : Instr) (d : Nat) (f : Nat → W32) (g : Group) : Prop :=
  ∀ r p, p < 64 → g.vr r p = if r = d ∧ landsAt s i d p = true then f p else s.gr.vr r p

/-- The same for the pair v[d], v[d + 1]. -/
def Pair (s : State) (i : Instr) (d : Nat) (f : Nat → W64) (g : Group) : Prop :=
  ∀ r p, p < 64 → g.vr r p =
    if r = d ∧ landsAt s i d p = true then (f p).setWidth 32
    else if r = d + 1 ∧ landsAt s i (d + 1) p = true then (f p >>> 32).setWidth 32
    else s.gr.vr r p

/-- The float flags that any active lane raises (R88). -/
def Raised (s : State) (flags : Nat → Nat) (fl : Nat) : Prop :=
  ∀ k, fl.testBit k = true ↔ ∃ p, s.act.getLsbD p = true ∧ (flags p).testBit k = true

/-- `i` writes `f p` to v[d] at each active position `p`, at the clock that its latency gives, and does nothing else. -/
def LaneResult (i : Instr) (s : State) (d : Nat) (f : Nat → W32) : Prop :=
  ∃ t, Plain i s t ∧ Split.alike s.sp (t.splits.rd s.cur) ∧
    (let g := t.groups.rd s.gk
     Group.alike { s.gr with v := g.v, badV := g.badV, late := lateAfter s i [(d, 0)] } g ∧
     (∀ n, g.badV.rd n = false) ∧ Single s i d f g)

/-- `i` writes the 64 bits `f p` to the pair v[d], v[d + 1] at each active position `p`, and does nothing else. -/
def PairResult (i : Instr) (s : State) (d : Nat) (f : Nat → W64) : Prop :=
  ∃ t, Plain i s t ∧ Split.alike s.sp (t.splits.rd s.cur) ∧
    (let g := t.groups.rd s.gk
     Group.alike { s.gr with v := g.v, badV := g.badV, late := lateAfter s i [(d, 0), (d + 1, 0)] } g ∧
     (∀ n, g.badV.rd n = false) ∧ Pair s i d f g)

/-- `i` writes `(f p).1` to v[d] at each active position `p`, with the float flags of every active lane, and does nothing else. -/
def FloatResult (i : Instr) (s : State) (d : Nat) (f : Nat → W32 × Nat) : Prop :=
  ∃ t fl, Plain i s t ∧ Split.alike s.sp (t.splits.rd s.cur) ∧ Raised s (fun p => (f p).2) fl ∧
    (let g := t.groups.rd s.gk
     Group.alike { s.gr with v := g.v, badV := g.badV, late := lateAfter s i [(d, fl)] } g ∧
     (∀ n, g.badV.rd n = false) ∧ Single s i d (fun p => (f p).1) g)

/-- The same for a pair. -/
def FloatPairResult (i : Instr) (s : State) (d : Nat) (f : Nat → W64 × Nat) : Prop :=
  ∃ t fl, Plain i s t ∧ Split.alike s.sp (t.splits.rd s.cur) ∧ Raised s (fun p => (f p).2) fl ∧
    (let g := t.groups.rd s.gk
     Group.alike { s.gr with v := g.v, badV := g.badV, late := lateAfter s i [(d, fl), (d + 1, 0)] } g ∧
     (∀ n, g.badV.rd n = false) ∧ Pair s i d (fun p => (f p).1) g)

/-- `i` writes `f p` to predicate d at each active position `p` (nothing for p0, which R69 hard-wires) and nothing else. -/
def PredResult (i : Instr) (s : State) (d : Nat) (f : Nat → Bool) : Prop :=
  ∃ t, Plain i s t ∧ Split.alike s.sp (t.splits.rd s.cur) ∧
    (let g := t.groups.rd s.gk
     Group.alike { s.gr with p := g.p, late := lateAfter s i [(192 + d, 0)] } g ∧
     ∀ n p, p < 64 → (g.pr n).getLsbD p = if n = d ∧ d ≠ 0 ∧ s.act.getLsbD p = true then f p else (s.gr.pr n).getLsbD p)

/-- `i` writes `x` to s[d] of its split, with the float flags `fl`, and does nothing else. -/
def ScalarFlagResult (i : Instr) (s : State) (d : Nat) (x : W64) (fl : Nat) : Prop :=
  ∃ t, Plain i s t ∧ Split.alikeButScalars s.sp (t.splits.rd s.cur) ∧
    Group.alike { s.gr with late := s.gr.late ++ [entryOf s i (128 + d) fl] } (t.groups.rd s.gk) ∧
    ∀ n, (t.splits.rd s.cur).s.rd n =
      if n = d ∧ s.gr.overtakenS s.cur .own d (s.clock + latency i) = false then x else s.sr n

/-- In `t` the result `x` of `i` for s[d] of its split is on its way or written, and no other scalar register has changed. -/
def ScalarPut (i : Instr) (s t : State) (d : Nat) (x : W64) : Prop :=
  (t.groups.rd s.gk).late = s.gr.late ++ [entryOf s i (128 + d) 0] ∧
  ∀ n, (t.splits.rd s.cur).s.rd n = if n = d ∧ s.gr.overtakenS s.cur .own d (s.clock + latency i) = false then x else s.sr n

/-- `i` writes `x` to s[d] of its split and nothing else. -/
def ScalarResult (i : Instr) (s : State) (d : Nat) (x : W64) : Prop := ScalarFlagResult i s d x 0

/-- `i` in its scalar form: with a width bit, `F` on 64 bits; without, `F` on the low 32 bits, extended by the sign of the
instruction (R74). -/
def ScalarForms (i : Bool → Instr) (s : State) (d : Nat) (signed : Bool) (F : (n : Nat) → BitVec n → BitVec n → BitVec n)
    (x y : W64) : Prop :=
  ScalarResult (i true) s d (F 64 x y) ∧
  ScalarResult (i false) s d
    (if signed then (F 32 (x.setWidth 32) (y.setWidth 32)).signExtend 64 else (F 32 (x.setWidth 32) (y.setWidth 32)).setWidth 64)

/-- `i` writes one bit to every position of predicate d below the group's width (nothing for p0) and nothing else (R81). -/
def PredAllResult (i : Instr) (s : State) (d : Nat) (c : Bool) : Prop :=
  ∃ t, Plain i s t ∧ Split.alike s.sp (t.splits.rd s.cur) ∧
    (let g := t.groups.rd s.gk
     Group.alike { s.gr with p := g.p, late := s.gr.late ++ [entryOf s i (192 + d) 0] } g ∧
     ∀ n p, p < 64 → (g.pr n).getLsbD p = if n = d ∧ d ≠ 0 ∧ p < s.gr.width then c else (s.gr.pr n).getLsbD p)

/-- `i` ends its clause; the split's next clause is at `pc`, and no register changes. -/
def Jumps (i : Instr) (s : State) (pc : W64) : Prop :=
  ∃ t, exec i s = .next t ∧ OnlyHere s t ∧ GoesTo pc (t.splits.rd s.cur) ∧ Split.alike s.sp (t.splits.rd s.cur) ∧
    Group.alike s.gr (t.groups.rd s.gk)

/-- `i` changes no register. -/
def NoResult (i : Instr) (s : State) : Prop :=
  ∃ t, Plain i s t ∧ Split.alike s.sp (t.splits.rd s.cur) ∧ Group.alike s.gr (t.groups.rd s.gk)

/-! ### Operations in flight -/

/-- Every access of a list is translated and allowed: no translation is missing, and each lies in a page that permits it. -/
def Mapped (s : State) (r w : Bool) (al : Nat) (ls : List (Nat × W64)) : Prop :=
  s.missing ls = [] ∧ ∀ a ∈ ls, ∃ h t, s.fate r w false al a = .ok h t

/-- The same for an access that writes, outside snapshot launches, to pages that have been written before (their D bit is
set, so that no page-table entry changes). -/
def MappedDirty (s : State) (r : Bool) (al : Nat) (ls : List (Nat × W64)) : Prop :=
  s.missing ls = [] ∧ s.gd.snap = false ∧
    ∀ a ∈ ls, ∃ h t, s.fate r true false al a = .ok h t ∧ t.dirty.getLsbD (fld (va56 h.ea) 16 6) = true

/-- `o` is in flight in `t` under the number `id`; it counts on its flag, or as untracked (R49). -/
structure InFlight (s t : State) (id flag : Nat) (o : Op) : Prop where
  number : s.nextId ≤ id
  op : t.ops.rd id = o
  live : o.live = true
  split : o.split = s.cur
  flag_ : o.flag = flag
  counted : flag < 12 → (t.groups.rd s.gk).flags.rd flag = s.gr.flags.rd flag + 1
  untracked : flag = 15 → (t.splits.rd s.cur).untracked = s.sp.untracked + 1

/-- The registers of the executing split and group stay, and the results on their way to them. -/
structure SameRegisters (s t : State) : Prop where
  vector : (t.groups.rd s.gk).v = s.gr.v
  predicates : (t.groups.rd s.gk).p = s.gr.p
  tiles : (t.groups.rd s.gk).tile = s.gr.tile
  fpstat : (t.groups.rd s.gk).fpstat = s.gr.fpstat
  scalars : (t.splits.rd s.cur).s = s.sp.s
  results : (t.groups.rd s.gk).late = s.gr.late

/-- `i` issues one operation on `flag`, goes on, and changes no register; `P` holds of the state, the operation's number and
the operation. -/
def Issues (i : Instr) (s : State) (flag : Nat) (P : State → Nat → Op → Prop) : Prop :=
  ∃ t id o, exec i s = .next t ∧ GoesOn i.parcels s.sp (t.splits.rd s.cur) ∧ InFlight s t id flag o ∧ SameRegisters s t ∧ P t id o

/-- The same, with memory and every home slice as before. -/
def IssuesQuietly (i : Instr) (s : State) (flag : Nat) (P : State → Nat → Op → Prop) : Prop :=
  Issues i s flag fun t id o => t.mem = s.mem ∧ t.slices = s.slices ∧ P t id o

/-- `i` goes on, and no register, no operation and no byte of memory changes. -/
def Passes (i : Instr) (s : State) : Prop :=
  ∃ t, exec i s = .next t ∧ GoesOn i.parcels s.sp (t.splits.rd s.cur) ∧ SameRegisters s t ∧ t.mem = s.mem ∧ t.ops = s.ops

/-- The executing instruction waits: its split has given up its slot and stays where it is. -/
structure Waits (i : Instr) (s : State) (c : Cond) : Prop where
  runs : ∃ t, exec i s = .next t ∧ (t.splits.rd s.cur).wait = .cond c ∧ (t.splits.rd s.cur).pc = s.sp.pc ∧
    (t.splits.rd s.cur).off = s.sp.off ∧ (t.splits.rd s.cur).idx = s.sp.idx ∧
    ((t.cores.rd s.cr).slots.all fun e => e.2 != s.cur + 1) = true ∧ SameRegisters s t ∧ t.mem = s.mem

/-- Nothing of the core is under way that an access must wait for: no `st.rel` on its way to a home slice (R157), no earlier
narrow store that waits for the fill of its words (R117, R133), and no earlier load of the group that awaits words (R146). -/
def NoPending (s : State) : Prop :=
  ∀ line m, relPending s s.cr line m = false ∧ storePending s s.cr line m s.nextId = false ∧ awaited s s.gk line s.nextId &&& m = 0

/-! ### Instructions by where they run -/

/-- The words of anvil routines (R40, R41). -/
def isAnvil : Instr → Bool
  | .hLdl _ _ | .hStl _ _ | .hLdo _ _ | .hLdc _ _ | .hLi _ _ | .hLiHi _ _ | .hAdd _ _ _ _ | .hSub _ _ _ _ |
    .hMul _ _ _ _ | .hAnd _ _ _ | .hOr _ _ _ | .hXor _ _ _ | .hShl _ _ _ | .hShr _ _ _ | .hSar _ _ _ | .hMin _ _ _ _ |
    .hMax _ _ _ _ | .hFadd _ _ _ _ | .hFmul _ _ _ _ | .hFfma _ _ _ _ | .hFmin _ _ _ _ | .hFmax _ _ _ _ | .hCvt _ _ _ _ |
    .hCmp _ _ _ _ | .hSel _ _ _ _ | .hSkip _ _ _ | .hRet | .hFwd _ _ | .hAbt _ | .hEnd => true
  | _ => false

/-- The instructions of cores: neither a word of an anvil routine nor an event. -/
def isCore (i : Instr) : Prop := isAnvil i = false ∧ ∀ e : Ev, i ≠ e.toInstr

/-! ### What every step keeps -/

/-- The parcels hold `n` instructions, one behind the other. -/
def clauseRuns : Nat → List W16 → Prop
  | 0, _ => True
  | n + 1, ps => ∃ i rest, decode ps = .ok (i, rest) ∧ clauseRuns n rest

/-- A split within a clause stands at an instruction of it: the clause decodes whole, the index is below the header's count, and the offset
is that of the index's instruction (R26, R44). -/
def Split.standing (x : Split) : Prop :=
  x.begun = true → x.idx < x.count ∧ x.off = 2 + parcelsOf x.idx (x.code.drop 2) ∧ clauseRuns x.count (x.code.drop 2)

/-- Splits stand at instructions: those that run, those kept for a return from a trap (R331) and those of a region's start (R320). A taken
issue slot has a live split, or the one whose exit ended its team and that holds the slot until the team's operations have retired
(R47, R48, R58). -/
structure Standing (s : State) : Prop where
  splits : ∀ k, (s.splits.rd k).standing
  trapped : ∀ g, (s.groups.rd g).tSplit.standing
  regions : ∀ g, ∀ e ∈ (s.groups.rd g).rSplits, e.2.standing
  slots : ∀ c k, ∀ e ∈ (s.cores.rd c).slots, e.2 = k + 1 → (s.splits.rd k).live = true ∨ (s.splits.rd k).wait = .ending

/-- Memory keeps its canonical form (no address listed twice, none listed that reads as an unlisted one does); a session exists
only after boot has ended with its attestation key (R357, R358); the bits of DISP_RESERVE and DISP_REGION_MAX beyond their fields are
zero (R324, R325). -/
structure Steady (s : State) : Prop where
  mem : s.mem.wf = true
  key : s.boot = .running → s.attestKey = true
  session : s.sessions ≠ [] → s.boot = .running
  reserve : s.reserve.toNat < 2 ^ 48
  regionMax : s.regionMax < 2 ^ 32

/-- What every step keeps: a split that is to move next is live, splits stand at instructions, and what `Steady` says. -/
structure Invariant (s : State) : Prop where
  turn : ∀ k, s.turn = .split k → (s.splits.rd k).live = true
  standing : Standing s
  steady : Steady s

/-! ### Lane instructions -/

/-- The lane instructions of fixed latency (R50, R52, R72, R104): their results are written so many clocks after issue. -/
def isFixedLane : Instr → Bool
  | .sregVector _ _ | .plogAnd _ _ _ | .plogOr _ _ _ | .plogXor _ _ _ | .plogAndn _ _ _ | .pset _ _ | .pmov _ _ |
    .addLane _ _ _ | .subLane _ _ _ | .addc _ _ _ | .subc _ _ _ | .addSatSLane _ _ _ | .subSatSLane _ _ _ |
    .addSatZLane _ _ _ | .subSatZLane _ _ _ | .mulLane _ _ _ | .mulhSLane _ _ _ | .mulhZLane _ _ _ | .madLane _ _ _ |
    .minSLane _ _ _ | .maxSLane _ _ _ | .minZLane _ _ _ | .maxZLane _ _ _ | .andLane _ _ _ | .orLane _ _ _ | .xorLane _ _ _ |
    .andnLane _ _ _ | .shlLane _ _ _ | .shrLane _ _ _ | .sarLane _ _ _ | .rotLane _ _ _ | .bfeSLane _ _ _ | .bfeZLane _ _ _ |
    .bfiLane _ _ _ | .absLane _ _ | .popcLane _ _ | .clzLane _ _ | .ctzLane _ _ | .brevLane _ _ | .cmpSignedLane _ _ _ _ |
    .cmpUnsignedLane _ _ _ _ | .cmpEqualityLane _ _ _ _ | .movLane _ _ | .sel _ _ _ | .liLane _ _ | .addImmLane _ _ _ |
    .andImmLane _ _ _ | .orImmLane _ _ _ | .xorImmLane _ _ _ | .shlImmLane _ _ _ | .shrImmLane _ _ _ | .sarImmLane _ _ _ |
    .rotImmLane _ _ _ | .add16 _ _ | .sub16 _ _ | .mul16 _ _ | .and16 _ _ | .or16 _ _ | .xor16 _ _ | .shl16 _ _ | .shr16 _ _ |
    .sar16 _ _ | .mov16 _ _ | .min16 _ _ | .max16 _ _ | .fadd16 _ _ | .fsub16 _ _ | .fmul16 _ _ | .fmax16 _ _ | .fadd _ _ _ _ |
    .fsub _ _ _ _ | .fmul _ _ _ _ | .ffma _ _ _ _ | .fmin _ _ _ _ | .fmax _ _ _ _ | .fcmpF32 _ _ _ _ | .fcmpF64 _ _ _ _ |
    .frndF32 _ _ _ | .frndF64 _ _ _ | .frcp _ _ | .frsq _ _ | .fsqrt _ _ | .fexp2 _ _ | .flog2 _ _ | .fsin _ _ | .fcos _ _ |
    .ftanh _ _ | .cvt _ _ _ _ _ | .pk _ _ _ _ | .pkSat _ _ _ _ | .upk _ _ _ _ | .fclass _ _ _ | .dp4I8x4 _ _ _ |
    .dp4N8x4 _ _ _ | .dp8I4x8 _ _ _ | .dp8N4x8 _ _ _ | .fdp2F16 _ _ _ | .fdp2Bf16 _ _ _ | .fdp4E5m2 _ _ _ | .fdp4E4m3 _ _ _ |
    .fdp4E3m2 _ _ _ | .fdp4E2m3 _ _ _ | .fdp8E2m1 _ _ _ | .qexpE5m2 _ _ | .qexpE4m3 _ _ | .qexpE3m2 _ _ | .qexpE2m3 _ _ |
    .qexpE2m1 _ _ | .rng _ | .rngSeed _ _ | .shfl _ _ _ _ | .shfli _ _ _ _ | .vany _ _ | .vall _ _ | .vbal _ _ | .vmatch _ _ |
    .pcount _ _ | .bcast _ _ _ | .lmapPos _ _ | .lmapLane _ _ | .scan _ _ _ | .scanX _ _ _ | .rdx _ _ _ | .intrp _ _ |
    .rhit _ _ => true
  | _ => false

/-- The lane instructions that access memory, the scratchpad or a home slice (R126, R127, R129, R172, R195). -/
def isLaneAccess : Instr → Bool
  | .ld _ _ _ _ _ | .ldSigned _ _ _ _ _ | .st _ _ _ _ _ | .ldAcq _ _ _ _ _ | .stRel _ _ _ _ _ | .lds _ _ _ _ _ | .sts _ _ _ _ _ |
    .gth _ _ _ _ _ | .cflush _ _ _ | .cinv _ _ _ | .czero _ _ | .cquery _ _ _ | .atmReturning _ _ _ _ _ |
    .atmPosted _ _ _ _ _ | .casReturning _ _ _ _ | .casPosted _ _ _ _ => true
  | _ => false

/-- The lane instructions (R50, R51, R73, R104): they act at the positions of the effective mask. -/
def isLaneInstr (i : Instr) : Bool := isFixedLane i || isLaneAccess i || match i with
  | .prf _ _ _ _ | .rcallLane _ _ _ _ | .mma _ _ _ _ |
    .mmaUnfold _ _ _ _ | .mmas _ _ _ _ | .aclr _ | .amov _ _ | .aput _ _ | .ast _ _ _ | .vemit _ _ _ |
    .fpost _ _ _ | .tsample _ _ _ | .tsampleSettle _ _ _ | .tex _ _ _ | .texf _ _ _ | .rtrace _ _ _ | .rtraceAny _ _ _ |
    .rnext _ | .racc | .ralloc _ _ | .rallocIn _ | .rcommit _ | .rdone _ => true
  | _ => false

/-- The vector registers whose words a lane instruction of fixed latency or a lane access reads in each of its active lanes; `bcast`
reads that of one lane only. -/
def vectorReads (i : Instr) : List Nat :=
  match i with
  | .bcast _ _ _ => []
  | .pk _ dst _ a | .pkSat _ dst _ a => rvs a dst.perReg
  | _ => if isFixedLane i || isLaneAccess i then (readsOf i).filter (· < 128) else []

end Sys2Proof.Machine
end

