-- ==== Sys2Proof/Certificates/Slice0/Obligations.lean ====
section
/-! DEFINITION. What is claimed of the machine. Each statement holds for every state and operand that meets its hypotheses,
which are about the state and the operands alone. -/

open Sys2Proof Sys2Proof.Machine

/-! ### The machine as a whole -/

/-- No instruction and no event stops the machine: `exec` answers a next state for every one of them in every state. -/
def Obligations.EveryInstructionAnswers : Prop := ∀ (i : Instr) (s : State), ∃ t, exec i s = .next t

/-! ### Integer instructions (05_integer.md) -/

/-- R75, R77: the two-operand lane instructions and `mad`, on 32-bit values, for every active lane.
R78: `addc` and `subc` read and write p62 as the carry or borrow of each active lane.
Here and below a result is written at the clock that R72 gives; when two are on their way to one register the later clock's stays (log
entry 6, the model's reading). -/
def Obligations.LaneArithmetic : Prop :=
  (∀ (s : State) (d a : Fin 128) (b : LaneB), NoPoison s →
    let x := s.gr.vr a
    let y := s.bLane b
    LaneResult (.addLane d a b) s d (fun p => x p + y p) ∧
    LaneResult (.subLane d a b) s d (fun p => x p - y p) ∧
    LaneResult (.addSatSLane d a b) s d (fun p => BitVec.ofInt 32 (max (-2 ^ 31) (min (2 ^ 31 - 1) ((x p).toInt + (y p).toInt)))) ∧
    LaneResult (.subSatSLane d a b) s d (fun p => BitVec.ofInt 32 (max (-2 ^ 31) (min (2 ^ 31 - 1) ((x p).toInt - (y p).toInt)))) ∧
    LaneResult (.addSatZLane d a b) s d (fun p => BitVec.ofNat 32 (min (2 ^ 32 - 1) ((x p).toNat + (y p).toNat))) ∧
    LaneResult (.subSatZLane d a b) s d (fun p => BitVec.ofNat 32 ((x p).toNat - (y p).toNat)) ∧
    LaneResult (.mulLane d a b) s d (fun p => x p * y p) ∧
    LaneResult (.mulhSLane d a b) s d (fun p => BitVec.ofInt 32 ((x p).toInt * (y p).toInt / 2 ^ 32)) ∧
    LaneResult (.mulhZLane d a b) s d (fun p => BitVec.ofNat 32 ((x p).toNat * (y p).toNat / 2 ^ 32)) ∧
    LaneResult (.madLane d a b) s d (fun p => x p * y p + s.gr.vr d p) ∧
    LaneResult (.minSLane d a b) s d (fun p => if (x p).toInt ≤ (y p).toInt then x p else y p) ∧
    LaneResult (.maxSLane d a b) s d (fun p => if (x p).toInt ≤ (y p).toInt then y p else x p) ∧
    LaneResult (.minZLane d a b) s d (fun p => if (x p).toNat ≤ (y p).toNat then x p else y p) ∧
    LaneResult (.maxZLane d a b) s d (fun p => if (x p).toNat ≤ (y p).toNat then y p else x p) ∧
    LaneResult (.andLane d a b) s d (fun p => x p &&& y p) ∧
    LaneResult (.orLane d a b) s d (fun p => x p ||| y p) ∧
    LaneResult (.xorLane d a b) s d (fun p => x p ^^^ y p) ∧
    LaneResult (.andnLane d a b) s d (fun p => x p &&& ~~~ y p) ∧
    LaneResult (.shlLane d a b) s d (fun p => x p <<< ((y p).toNat % 32)) ∧
    LaneResult (.shrLane d a b) s d (fun p => x p >>> ((y p).toNat % 32)) ∧
    LaneResult (.sarLane d a b) s d (fun p => (x p).sshiftRight ((y p).toNat % 32)) ∧
    LaneResult (.rotLane d a b) s d (fun p => (x p).rotateLeft ((y p).toNat % 32))) ∧
  (∀ (s : State) (d a : Fin 128) (b : LaneB), NoPoison s →
    let ci := fun p => if (s.gr.pr 62).getLsbD p then 1 else 0
    let sum := fun p => (s.gr.vr a p).toNat + (s.bLane b p).toNat + ci p
    let dif := fun p => ((s.gr.vr a p).toNat : Int) - (s.bLane b p).toNat - (ci p : Nat)
    let R := fun (i : Instr) (v : Nat → W32) (c : Nat → Bool) =>
      ∃ t, Plain i s t ∧ Split.alike s.sp (t.splits.rd s.cur) ∧
        (let g := t.groups.rd s.gk
         Group.alike { s.gr with v := g.v, p := g.p, badV := g.badV, late := lateAfter s i [(d, 0), (254, 0)] } g ∧ Single s i d v g ∧
         ∀ n p, p < 64 → (g.pr n).getLsbD p = if n = 62 ∧ s.act.getLsbD p = true then c p else (s.gr.pr n).getLsbD p)
    R (.addc d a b) (fun p => BitVec.ofNat 32 (sum p)) (fun p => decide (sum p ≥ 2 ^ 32)) ∧
    R (.subc d a b) (fun p => BitVec.ofInt 32 (dif p)) (fun p => decide (dif p < 0)))

/-- R79, R80, R82, R83: bit fields, one-operand instructions, moves and `sel` in their lane forms; `off` and `len` are the
field that a descriptor names, cut at bit 31. -/
def Obligations.LaneFieldsAndMoves : Prop := ∀ (s : State) (d a : Fin 128) (b : LaneB) (lit : W32), NoPoison s →
  let x := s.gr.vr a
  let y := s.bLane b
  let off := fun p => min ((y p).toNat % 256) 32
  let len := fun p => min ((y p).toNat / 256 % 256) (32 - off p)
  let field := fun p => (x p).toNat / 2 ^ off p % 2 ^ len p
  let mask : Nat → W32 := fun p => BitVec.ofNat 32 ((2 ^ len p - 1) * 2 ^ off p)
  LaneResult (.bfeZLane d a b) s d (fun p => BitVec.ofNat 32 (field p)) ∧
  LaneResult (.bfeSLane d a b) s d (fun p =>
    if len p = 0 then 0 else BitVec.ofInt 32 (if field p < 2 ^ (len p - 1) then (field p : Int) else field p - 2 ^ len p)) ∧
  LaneResult (.bfiLane d a b) s d (fun p => (s.gr.vr d p &&& ~~~ mask p) ||| (BitVec.ofNat 32 ((x p).toNat * 2 ^ off p) &&& mask p)) ∧
  LaneResult (.absLane d a) s d (fun p => if (x p).toInt < 0 then - x p else x p) ∧
  LaneResult (.popcLane d a) s d (fun p => BitVec.ofNat 32 ((List.range 32).countP fun i => (x p).getLsbD i)) ∧
  LaneResult (.clzLane d a) s d (fun p => BitVec.ofNat 32 (if x p = 0 then 32 else 31 - (x p).toNat.log2)) ∧
  LaneResult (.ctzLane d a) s d (fun p => BitVec.ofNat 32 (((List.range 32).find? fun i => (x p).getLsbD i).getD 32)) ∧
  LaneResult (.brevLane d a) s d (fun p => (x p).reverse) ∧
  LaneResult (.movLane d b) s d y ∧
  LaneResult (.sel d a b) s d (fun p => if (s.gr.pr 61).getLsbD p then x p else y p) ∧
  LaneResult (.liLane d lit) s d (fun _ => lit)

/-- R27, R31, R76: a literal b is sign-extended for `add` and zero-extended for the logic instructions, and shift literals count
below the width; the 16-bit forms are the lane instructions with d also in the a position. -/
def Obligations.LiteralAndShortForms : Prop :=
  (∀ (s : State) (d a : Fin 128) (e c k : Fin 64) (imm : BitVec 8) (i : Fin 32), NoPoison s →
    let x := s.gr.vr a
    let y := s.sr c
    LaneResult (.addImmLane d a imm) s d (fun p => x p + imm.signExtend 32) ∧
    LaneResult (.andImmLane d a imm) s d (fun p => x p &&& imm.setWidth 32) ∧
    LaneResult (.orImmLane d a imm) s d (fun p => x p ||| imm.setWidth 32) ∧
    LaneResult (.xorImmLane d a imm) s d (fun p => x p ^^^ imm.setWidth 32) ∧
    LaneResult (.shlImmLane d a i) s d (fun p => x p <<< i.val) ∧
    LaneResult (.shrImmLane d a i) s d (fun p => x p >>> i.val) ∧
    LaneResult (.sarImmLane d a i) s d (fun p => (x p).sshiftRight i.val) ∧
    LaneResult (.rotImmLane d a i) s d (fun p => (x p).rotateLeft i.val) ∧
    ScalarResult (.addImmScalar e c imm) s e (y + imm.signExtend 64) ∧
    ScalarResult (.andImmScalar e c imm) s e (y &&& imm.setWidth 64) ∧
    ScalarResult (.orImmScalar e c imm) s e (y ||| imm.setWidth 64) ∧
    ScalarResult (.xorImmScalar e c imm) s e (y ^^^ imm.setWidth 64) ∧
    ScalarResult (.shlImmScalar e c k) s e (y <<< k.val) ∧
    ScalarResult (.shrImmScalar e c k) s e (y >>> k.val) ∧
    ScalarResult (.sarImmScalar e c k) s e (y.sshiftRight k.val) ∧
    ScalarResult (.rotImmScalar e c k) s e (y.rotateLeft k.val)) ∧
  (∀ (s : State) (d : Fin 64) (b : Fin 32), NoPoison s →
    let x := s.gr.vr d
    let y := s.gr.vr b
    let fl := fun (op : Nat → Nat → Nat × Nat) p => let r := op (x p).toNat (y p).toNat; (BitVec.ofNat 32 r.1, r.2)
    LaneResult (.add16 d b) s d (fun p => x p + y p) ∧
    LaneResult (.sub16 d b) s d (fun p => x p - y p) ∧
    LaneResult (.mul16 d b) s d (fun p => x p * y p) ∧
    LaneResult (.and16 d b) s d (fun p => x p &&& y p) ∧
    LaneResult (.or16 d b) s d (fun p => x p ||| y p) ∧
    LaneResult (.xor16 d b) s d (fun p => x p ^^^ y p) ∧
    LaneResult (.shl16 d b) s d (fun p => x p <<< ((y p).toNat % 32)) ∧
    LaneResult (.shr16 d b) s d (fun p => x p >>> ((y p).toNat % 32)) ∧
    LaneResult (.sar16 d b) s d (fun p => (x p).sshiftRight ((y p).toNat % 32)) ∧
    LaneResult (.mov16 d b) s d y ∧
    LaneResult (.min16 d b) s d (fun p => if (x p).toInt ≤ (y p).toInt then x p else y p) ∧
    LaneResult (.max16 d b) s d (fun p => if (x p).toInt ≤ (y p).toInt then y p else x p) ∧
    FloatResult (.fadd16 d b) s d (fl fun u v => f32p.add (f32p.val u) (f32p.val v)) ∧
    FloatResult (.fsub16 d b) s d (fl fun u v => f32p.add (f32p.val u) (f32p.val v).neg) ∧
    FloatResult (.fmul16 d b) s d (fl fun u v => f32p.mul (f32p.val u) (f32p.val v)) ∧
    FloatResult (.fmax16 d b) s d (fl fun u v => (f32p.minmax true u v, 0)))

/-- R74, R75: the two-operand scalar instructions at both widths.
R74, R79, R80, R82, R83: the scalar bit fields, one-operand instructions, moves and literals at both widths. -/
def Obligations.ScalarInstructions : Prop :=
  (∀ (s : State) (d a : Fin 64) (b : SclB),
    let F := fun (i : Bool → Instr) (signed : Bool) (f : (n : Nat) → BitVec n → BitVec n → BitVec n) =>
      ScalarForms i s d signed f (s.sr a) (s.bScl b)
    F (.addScalar · d a b) false (fun _ x y => x + y) ∧
    F (.subScalar · d a b) false (fun _ x y => x - y) ∧
    F (.addSatSScalar · d a b) true (fun n x y => BitVec.ofInt n (max (-2 ^ (n - 1)) (min (2 ^ (n - 1) - 1) (x.toInt + y.toInt)))) ∧
    F (.subSatSScalar · d a b) true (fun n x y => BitVec.ofInt n (max (-2 ^ (n - 1)) (min (2 ^ (n - 1) - 1) (x.toInt - y.toInt)))) ∧
    F (.addSatZScalar · d a b) false (fun n x y => BitVec.ofNat n (min (2 ^ n - 1) (x.toNat + y.toNat))) ∧
    F (.subSatZScalar · d a b) false (fun n x y => BitVec.ofNat n (x.toNat - y.toNat)) ∧
    F (.mulScalar · d a b) false (fun _ x y => x * y) ∧
    F (.mulhSScalar · d a b) true (fun n x y => BitVec.ofInt n (x.toInt * y.toInt / 2 ^ n)) ∧
    F (.mulhZScalar · d a b) false (fun n x y => BitVec.ofNat n (x.toNat * y.toNat / 2 ^ n)) ∧
    F (.madScalar · d a b) false (fun n x y => x * y + (s.sr d).setWidth n) ∧
    F (.minSScalar · d a b) true (fun _ x y => if x.toInt ≤ y.toInt then x else y) ∧
    F (.maxSScalar · d a b) true (fun _ x y => if x.toInt ≤ y.toInt then y else x) ∧
    F (.minZScalar · d a b) false (fun _ x y => if x.toNat ≤ y.toNat then x else y) ∧
    F (.maxZScalar · d a b) false (fun _ x y => if x.toNat ≤ y.toNat then y else x) ∧
    F (.andScalar · d a b) false (fun _ x y => x &&& y) ∧
    F (.orScalar · d a b) false (fun _ x y => x ||| y) ∧
    F (.xorScalar · d a b) false (fun _ x y => x ^^^ y) ∧
    F (.andnScalar · d a b) false (fun _ x y => x &&& ~~~ y) ∧
    F (.shlScalar · d a b) false (fun n x y => x <<< (y.toNat % n)) ∧
    F (.shrScalar · d a b) false (fun n x y => x >>> (y.toNat % n)) ∧
    F (.sarScalar · d a b) true (fun n x y => x.sshiftRight (y.toNat % n)) ∧
    F (.rotScalar · d a b) false (fun n x y => x.rotateLeft (y.toNat % n))) ∧
  (∀ (s : State) (d a : Fin 64) (b : SclB) (w32 : W32) (w64 : W64),
    let F := fun (i : Bool → Instr) (signed : Bool) (f : (n : Nat) → BitVec n → BitVec n → BitVec n) =>
      ScalarForms i s d signed f (s.sr a) (s.bScl b)
    let off := fun (n y : Nat) => min (y % 256) n
    let len := fun (n y : Nat) => min (y / 256 % 256) (n - off n y)
    let field := fun (n x y : Nat) => x / 2 ^ off n y % 2 ^ len n y
    let mask := fun (n y : Nat) => BitVec.ofNat n ((2 ^ len n y - 1) * 2 ^ off n y)
    F (.bfeZScalar · d a b) false (fun n x y => BitVec.ofNat n (field n x.toNat y.toNat)) ∧
    F (.bfeSScalar · d a b) true (fun n x y => if len n y.toNat = 0 then 0 else
      BitVec.ofInt n (if field n x.toNat y.toNat < 2 ^ (len n y.toNat - 1) then (field n x.toNat y.toNat : Int)
        else field n x.toNat y.toNat - 2 ^ len n y.toNat)) ∧
    F (.bfiScalar · d a b) false (fun n x y => ((s.sr d).setWidth n &&& ~~~ mask n y.toNat) |||
      (BitVec.ofNat n (x.toNat * 2 ^ off n y.toNat) &&& mask n y.toNat)) ∧
    F (.absScalar · d a) true (fun _ x _ => if x.toInt < 0 then - x else x) ∧
    F (.popcScalar · d a) false (fun n x _ => BitVec.ofNat n ((List.range n).countP fun i => x.getLsbD i)) ∧
    F (.clzScalar · d a) false (fun n x _ => BitVec.ofNat n (if x.toNat = 0 then n else n - 1 - x.toNat.log2)) ∧
    F (.ctzScalar · d a) false (fun n x _ => BitVec.ofNat n (((List.range n).find? fun i => x.getLsbD i).getD n)) ∧
    F (.brevScalar · d a) false (fun _ x _ => x.reverse) ∧
    F (.movScalar · d b) false (fun _ _ y => y) ∧
    ScalarResult (.liScalar d (.one w32)) s d (w32.setWidth 64) ∧
    ScalarResult (.liScalar d (.two w64)) s d w64 ∧
    ScalarResult (.lea d (.one w32)) s d (s.ia + w32.signExtend 64) ∧
    ScalarResult (.lea d (.two w64)) s d (s.ia + w64))

/-- R52, R81, R94: a lane compare writes its predicate in the active lanes; a scalar compare writes its one result to every
position of its predicate, those of dead lanes and of other splits included; p0 discards the write.
R69 to R71: predicate logic in the active lanes, and moves between predicates and scalar registers. -/
def Obligations.ComparesAndPredicates : Prop :=
  ((∀ (s : State) (d : Fin 64) (a : Fin 128) (b : LaneB), NoPoison s →
      let x := s.gr.vr a
      let y := s.bLane b
      PredResult (.cmpSignedLane .lt d a b) s d (fun p => decide ((x p).toInt < (y p).toInt)) ∧
      PredResult (.cmpSignedLane .le d a b) s d (fun p => decide ((x p).toInt ≤ (y p).toInt)) ∧
      PredResult (.cmpSignedLane .gt d a b) s d (fun p => decide ((x p).toInt > (y p).toInt)) ∧
      PredResult (.cmpSignedLane .ge d a b) s d (fun p => decide ((x p).toInt ≥ (y p).toInt)) ∧
      PredResult (.cmpUnsignedLane .lt d a b) s d (fun p => decide ((x p).toNat < (y p).toNat)) ∧
      PredResult (.cmpUnsignedLane .le d a b) s d (fun p => decide ((x p).toNat ≤ (y p).toNat)) ∧
      PredResult (.cmpUnsignedLane .gt d a b) s d (fun p => decide ((x p).toNat > (y p).toNat)) ∧
      PredResult (.cmpUnsignedLane .ge d a b) s d (fun p => decide ((x p).toNat ≥ (y p).toNat)) ∧
      PredResult (.cmpEqualityLane false d a b) s d (fun p => decide (x p = y p)) ∧
      PredResult (.cmpEqualityLane true d a b) s d (fun p => decide (x p ≠ y p)) ∧
      (∀ cc, PredResult (.fcmpF32 cc d a b) s d (fun p => fcmpHolds cc (f32p.val (x p).toNat) (f32p.val (y p).toNat))) ∧
      ∀ cc, PredResult (.fcmpF64 cc d a b) s d (fun p =>
        fcmpHolds cc ((Fmt.p .f64).val (s.gr.pair a p).toNat) ((Fmt.p .f64).val (s.b64 b p)))) ∧
    (∀ (s : State) (d a : Fin 64) (b : SclB),
      let x := s.sr a
      let y := s.bScl b
      let lo := fun (w : W64) => w.setWidth 32
      let C := fun (i : Bool → Instr) (f : (n : Nat) → BitVec n → BitVec n → Bool) =>
        PredAllResult (i true) s d (f 64 x y) ∧ PredAllResult (i false) s d (f 32 (lo x) (lo y))
      C (.cmpSignedScalar .lt · d a b) (fun _ x y => decide (x.toInt < y.toInt)) ∧
      C (.cmpSignedScalar .le · d a b) (fun _ x y => decide (x.toInt ≤ y.toInt)) ∧
      C (.cmpSignedScalar .gt · d a b) (fun _ x y => decide (x.toInt > y.toInt)) ∧
      C (.cmpSignedScalar .ge · d a b) (fun _ x y => decide (x.toInt ≥ y.toInt)) ∧
      C (.cmpUnsignedScalar .lt · d a b) (fun _ x y => decide (x.toNat < y.toNat)) ∧
      C (.cmpUnsignedScalar .le · d a b) (fun _ x y => decide (x.toNat ≤ y.toNat)) ∧
      C (.cmpUnsignedScalar .gt · d a b) (fun _ x y => decide (x.toNat > y.toNat)) ∧
      C (.cmpUnsignedScalar .ge · d a b) (fun _ x y => decide (x.toNat ≥ y.toNat)) ∧
      C (.cmpEqualityScalar false · d a b) (fun _ x y => decide (x = y)) ∧
      C (.cmpEqualityScalar true · d a b) (fun _ x y => decide (x ≠ y)))) ∧
  (∀ (s : State) (d a b : Fin 64) (y : SclB), NoPoison s →
    let x := fun p => (s.gr.pr a).getLsbD p
    let z := fun p => (s.gr.pr b).getLsbD p
    PredResult (.plogAnd d a b) s d (fun p => x p && z p) ∧
    PredResult (.plogOr d a b) s d (fun p => x p || z p) ∧
    PredResult (.plogXor d a b) s d (fun p => x p ^^ z p) ∧
    PredResult (.plogAndn d a b) s d (fun p => x p && !z p) ∧
    PredResult (.pmov d a) s d x ∧
    PredResult (.pset d y) s d (fun p => (s.bScl y).getLsbD p) ∧
    ScalarResult (.pget d a) s d (s.gr.pr a &&& ones s.gr.width))

/-! ### Floating point (06_float.md) -/

/-- R85, R88, R92, R93: the float arithmetic of every type. A `.f16` or `.bf16` register holds two elements that are computed
independently; `.f64` works on register pairs; `ffma` reads d; every flag that any active lane raises is ORed into FPSTAT.
R90, R95 to R99: rounding to integral values (no flag), special functions, conversions, packing, unpacking and classes.
The values of the special functions (log entry 10) and their flags (log entry 94) are the model's reading. -/
def Obligations.FloatArithmetic : Prop :=
  (∀ (s : State) (t : FTy) (d a : Fin 128) (b : LaneB), NoPoison s →
    let one := fun (f : FmtP → Nat → Nat → Nat → Nat × Nat) p => elementwise t fun q i =>
      f q (elemOf t (s.gr.vr a p) i) (elemOf t (s.bLane b p) i) (elemOf t (s.gr.vr d p) i)
    let two := fun (f : FmtP → Nat → Nat → Nat → Nat × Nat) p =>
      let r := f (Fmt.p .f64) (s.gr.pair a p).toNat (s.b64 b p) (s.gr.pair d p).toNat
      (BitVec.ofNat 64 r.1, r.2)
    let R := fun (i : Instr) f => if t = .f64 then FloatPairResult i s d (two f) else FloatResult i s d (one f)
    R (.fadd t d a b) (fun q x y _ => q.add (q.val x) (q.val y)) ∧
    R (.fsub t d a b) (fun q x y _ => q.add (q.val x) (q.val y).neg) ∧
    R (.fmul t d a b) (fun q x y _ => q.mul (q.val x) (q.val y)) ∧
    R (.ffma t d a b) (fun q x y z => q.fma (q.val x) (q.val y) (q.val z)) ∧
    R (.fmin t d a b) (fun q x y _ => (q.minmax false x y, 0)) ∧
    R (.fmax t d a b) (fun q x y _ => (q.minmax true x y, 0))) ∧
  (∀ (s : State) (d a : Fin 128), NoPoison s →
    let x := fun p => (s.gr.vr a p).toNat
    let xx := fun p => (s.gr.pair a p).toNat
    let w32 := fun (r : Nat × Nat) => (BitVec.ofNat 32 r.1, r.2)
    (∀ rnd, LaneResult (.frndF32 rnd d a) s d fun p => BitVec.ofNat 32 (f32p.integral rnd (x p))) ∧
    (∀ rnd, PairResult (.frndF64 rnd d a) s d fun p => BitVec.ofNat 64 ((Fmt.p .f64).integral rnd (xx p))) ∧
    FloatResult (.frcp d a) s d (fun p => w32 (rcpF (x p))) ∧
    FloatResult (.frsq d a) s d (fun p => w32 (rsqF (x p))) ∧
    FloatResult (.fsqrt d a) s d (fun p => w32 (sqrtF (x p))) ∧
    FloatResult (.fexp2 d a) s d (fun p => w32 (exp2F (x p))) ∧
    FloatResult (.flog2 d a) s d (fun p => w32 (log2F (x p))) ∧
    FloatResult (.fsin d a) s d (fun p => w32 (sinF (x p))) ∧
    FloatResult (.fcos d a) s d (fun p => w32 (cosF (x p))) ∧
    FloatResult (.ftanh d a) s d (fun p => w32 (tanhF (x p))) ∧
    (∀ (src dst : Fmt) mode,
      let v := fun p => cvtVal src dst mode (if src = .f64 then xx p else x p)
      if dst = .f64 then FloatPairResult (.cvt src dst mode d a) s d fun p => (BitVec.ofNat 64 (v p).1, (v p).2)
      else FloatResult (.cvt src dst mode d a) s d fun p => w32 (v p)) ∧
    (∀ src : Fmt, LaneResult (.fclass src d a) s d fun p => match src with
      | .f64 => BitVec.ofNat 32 ((Fmt.p .f64).cls (xx p))
      | .e8m10 => BitVec.ofNat 32 ((Fmt.p .e8m10).cls (x p / 2 ^ 13 % 2 ^ 19))
      | .f16 | .bf16 => BitVec.ofNat 32 ((Fmt.p src).cls (x p % 2 ^ 16) + 65536 * (Fmt.p src).cls (x p / 2 ^ 16 % 2 ^ 16))
      | _ => BitVec.ofNat 32 ((Fmt.p src).cls (x p % 2 ^ Fmt.bits src))))

/-- R97, R100 to R102: `pk` and `pk.sat` pack one element of each of the registers v[a], v[a + 1], …; `upk` spreads the elements of
v[a] over v[d], v[d + 1], …, all reads of a lane before its writes; integer dot products add to d modulo 2^32 and raise no flag;
float dot products and `qexp` raise theirs. -/
def Obligations.PackedElements : Prop :=
  (∀ (s : State) (src dst : Fmt) (d a : Fin 128), NoPoison s →
    let put := fun (sat : Bool) (p : Nat) => (List.range dst.perReg).foldl (fun (r : W32 × Nat) i =>
      let e := packElem src dst sat (s.gr.vr (a + i) p).toNat
      (r.1 ||| BitVec.ofNat 32 (e.1 * 2 ^ (Fmt.pitch dst * i)), r.2 ||| e.2)) (0, 0)
    FloatResult (.pk src dst d a) s d (put false) ∧
    FloatResult (.pkSat src dst d a) s d (put true) ∧
    ∃ t, Plain (.upk src dst d a) s t ∧ Split.alike s.sp (t.splits.rd s.cur) ∧
      (let i : Instr := .upk src dst d a
       let g := t.groups.rd s.gk
       Group.alike { s.gr with v := g.v, badV := g.badV, late := lateAfter s i ((List.range src.perReg).map fun k => (d + k, 0)) } g ∧
       ∀ r p, p < 64 → g.vr r p =
         if d.val ≤ r ∧ r < d + src.perReg ∧ landsAt s i r p = true then unpackElem src (s.gr.vr a p) (r - d) else s.gr.vr r p)) ∧
  (∀ (s : State) (d a : Fin 128) (b : LaneB), NoPoison s →
    let int := fun (f : Fmt) p => s.gr.vr d p + BitVec.ofInt 32 (((List.range f.perReg).map fun i =>
      intElem f (s.gr.vr a p) i * intElem f (s.bLane b p) i).sum)
    let flt := fun (f : Fmt) p =>
      let r := f32p.dot (f32p.val (s.gr.vr d p).toNat)
        ((List.range f.perReg).map fun i => (elemVal f (s.gr.vr a p) i, elemVal f (s.bLane b p) i))
      (BitVec.ofNat 32 r.1, r.2)
    let q := fun (f : Fmt) p => let r := qexpF f (s.gr.vr a p).toNat; (BitVec.ofNat 32 r.1, r.2)
    LaneResult (.dp4I8x4 d a b) s d (int .i8) ∧ LaneResult (.dp4N8x4 d a b) s d (int .u8) ∧
    LaneResult (.dp8I4x8 d a b) s d (int .i4) ∧ LaneResult (.dp8N4x8 d a b) s d (int .u4) ∧
    FloatResult (.fdp2F16 d a b) s d (flt .f16) ∧ FloatResult (.fdp2Bf16 d a b) s d (flt .bf16) ∧
    FloatResult (.fdp4E5m2 d a b) s d (flt .e5m2) ∧ FloatResult (.fdp4E4m3 d a b) s d (flt .e4m3) ∧
    FloatResult (.fdp4E3m2 d a b) s d (flt .e3m2) ∧ FloatResult (.fdp4E2m3 d a b) s d (flt .e2m3) ∧
    FloatResult (.fdp8E2m1 d a b) s d (flt .e2m1) ∧
    FloatResult (.qexpE5m2 d a) s d (q .e5m2) ∧ FloatResult (.qexpE4m3 d a) s d (q .e4m3) ∧
    FloatResult (.qexpE3m2 d a) s d (q .e3m2) ∧ FloatResult (.qexpE2m3 d a) s d (q .e2m3) ∧
    FloatResult (.qexpE2m1 d a) s d (q .e2m1))

/-- R103: `rng` gives each active lane the output of its old state and steps the state; `rng.seed` sets state and increment.
Lanes that are not active keep theirs. -/
def Obligations.RandomNumbers : Prop := ∀ (s : State) (d a : Fin 128) (b : LaneB), NoPoison s →
  let act := fun p => s.act.getLsbD p = true
  (∃ t, Plain (.rng d) s t ∧ Split.alike s.sp (t.splits.rd s.cur) ∧
    (let g := t.groups.rd s.gk
     Group.alike { s.gr with v := g.v, badV := g.badV, rng := g.rng, late := lateAfter s (.rng d) [(d, 0)] } g ∧
     Single s (.rng d) d (fun p => rngOut (s.gr.rng.rd p)) g ∧
     ∀ p, g.rng.rd p = if act p then s.gr.rng.rd p * 0x5851F42D4C957F2D#64 + s.gr.inc.rd p else s.gr.rng.rd p)) ∧
  (∃ t, Plain (.rngSeed a b) s t ∧ Split.alike s.sp (t.splits.rd s.cur) ∧
    (let g := t.groups.rd s.gk
     Group.alike { s.gr with rng := g.rng, inc := g.inc } g ∧
     (∀ p, g.inc.rd p = if act p then (s.gr.vr a p).setWidth 64 * 2 + 1 else s.gr.inc.rd p) ∧
     ∀ p, g.rng.rd p = if act p then (rngSeed (s.gr.vr a p) (s.bLane b p)).1 else s.gr.rng.rd p))

/-- R339: a lane instruction of fixed latency, or a lane access to memory, the scratchpad or a home slice, that reads a poisoned word of a
vector register in any of its operands and in an active lane traps with POISON, TRAP_ADDR 0 and 15 in TRAP_INFO[7:0], and has no
effect of its own; an access takes it once its flag and its path have room, `ld.acq` before its acquire and `st.rel` behind its
release. That integer lane forms trap so (log entry 119) is the model's reading. -/
def Obligations.PoisonedReadTraps : Prop := ∀ (i : Instr) (s : State) (r p : Nat),
  r ∈ vectorReads i → s.gr.badV.rd (64 * r + p) = true →
  let active := s.act.getLsbD p = true
  let stores := s.wact.getLsbD p = true
  let T := exec i s = .next (s.trap .poison none (some 0) 8 15)
  match i with
  | .ldAcq _ _ _ _ _ => active → s.sp.phase = 0 → T
  | .lds _ _ _ _ _ | .cquery _ _ _ => active → s.full s.fa = false → T
  | .st _ _ _ _ _ => stores → T
  | .stRel _ _ _ _ _ => stores → s.sp.phase = 2 → T
  | .sts _ _ _ _ _ => stores → s.full s.fb = false → s.pathFull 3 = false → T
  | .gth _ _ _ _ _ => stores → s.full s.fb = false → s.pathFull 1 = false → T
  | .cflush _ _ _ | .cinv _ _ _ | .czero _ _ | .atmPosted _ _ _ _ _ | .casPosted _ _ _ _ => stores → s.full s.fb = false → T
  | .atmReturning _ _ _ _ _ | .casReturning _ _ _ _ => stores → s.full s.fa = false → T
  | _ => active → T

/-! ### Cross-lane instructions (07_cross_lane.md) -/

/-- R106, R107, R113: a shuffle reads v[a] at its source position where that is in ACT, and at its own position otherwise; the
lane map is read both ways, with all ones where there is no such lane. -/
def Obligations.ShufflesAndLaneMap : Prop :=
  (∀ (s : State) (d a : Fin 128) (b : LaneB) (imm : BitVec 8), NoPoison s →
    let at_ := fun (q : Int) p => if 0 ≤ q ∧ q < 64 ∧ s.act.getLsbD q.toNat = true then s.gr.vr a q.toNat else s.gr.vr a p
    let R := fun (i : ShflPat → Instr) (y : Nat → W32) =>
      LaneResult (i .idx) s d (fun p => at_ (y p).toNat p) ∧
      LaneResult (i .up) s d (fun p => at_ (p - (y p).toInt) p) ∧
      LaneResult (i .down) s d (fun p => at_ (p + (y p).toInt) p) ∧
      LaneResult (i .xor) s d (fun p => at_ ((p ^^^ (y p).toNat : Nat) : Int) p) ∧
      LaneResult (i .rot) s d (fun p => at_ ((p + (y p).toInt) % s.gr.width) p)
    R (fun pat => .shfl pat d a b) (s.bLane b) ∧ R (fun pat => .shfli pat d a imm) (fun _ => imm.signExtend 32)) ∧
  (∀ (s : State) (d a : Fin 128), NoPoison s →
    LaneResult (.lmapPos d a) s d (fun p =>
      match (List.range s.tm.lanes).find? fun t => s.laneAt t == (s.gr.vr a p).toNat + 1 with
      | some t => BitVec.ofNat 32 t
      | none => 0xFFFFFFFF#32) ∧
    LaneResult (.lmapLane d a) s d (fun p =>
      if s.laneAt (s.gr.vr a p).toNat = 0 then 0xFFFFFFFF#32 else BitVec.ofNat 32 (s.laneAt (s.gr.vr a p).toNat - 1)))

/-- R104, R108 to R110: votes, ballots, counts, matches and broadcasts over ACT. A scalar result is not written with ACT
empty.
R111, R112: at the i-th position of ACT an inclusive scan holds the operation over the first i + 1 values, an exclusive one
over the first i, from the operation's identity and in ascending order of positions; `rdx` gives the value over all of ACT, to a
scalar register extended by its sign, and nothing with ACT empty.
That `bcast` reads bits [31:0] of its operand (log entry 100) and which of two results on their way to one register stays (log entry 6)
are the model's reading. -/
def Obligations.VotesAndScans : Prop :=
  (∀ (s : State) (d a : Fin 64) (e c : Fin 128) (b : SclB), NoPoison s →
    let on := s.act &&& s.gr.pr a
    let same := fun p => (List.range 64).filter fun q => s.act.getLsbD q && s.gr.vr c q == s.gr.vr c p
    let low := (s.bScl b).toNat % 2 ^ 32
    let bit := fun (m : List Nat) (w : W64) => ∀ q, q < 64 → (w.getLsbD q = true ↔ q ∈ m)
    PredResult (.vany d a) s d (fun _ => on != 0) ∧
    PredResult (.vall d a) s d (fun _ => on == s.act) ∧
    (if s.act = 0 then NoResult (.vbal d a) s ∧ NoResult (.pcount d a) s ∧ NoResult (.bcast d c b) s
     else
      ScalarResult (.vbal d a) s d on ∧
      ScalarResult (.pcount d a) s d (BitVec.ofNat 64 ((List.range 64).countP fun p => on.getLsbD p)) ∧
      ScalarResult (.bcast d c b) s d ((s.gr.vr c
        (if low < 64 ∧ s.act.getLsbD low = true then low else lowest s.act)).setWidth 64)) ∧
    ∃ w : Nat → W64, (∀ p, bit (same p) (w p)) ∧
      (if s.gr.width = 64 then PairResult (.vmatch e c) s e w else LaneResult (.vmatch e c) s e fun p => (w p).setWidth 32)) ∧
  (∀ (s : State) (op : ScanOp) (d a : Fin 128) (e : Fin 64), NoPoison s →
    let fold := fun (ps : List Nat) => ps.foldl (fun r p => (ScanOp.apply op r (s.gr.vr a p)).1) (ScanOp.identity op)
    let upTo := fun n => (positions s.act).filter fun p => decide (p < n)
    let fl := (scanRun op (s.gr.vr a) (positions s.act)).2.1
    FloatResult (.scan op d a) s d (fun p => (fold (upTo (p + 1)), fl)) ∧
    FloatResult (.scanX op d a) s d (fun p => (fold (upTo p), fl)) ∧
    (if s.act = 0 then NoResult (.rdx op e a) s
     else ScalarFlagResult (.rdx op e a) s e
      (if op = .minS ∨ op = .maxS then (fold (positions s.act)).signExtend 64 else (fold (positions s.act)).setWidth 64) fl))

/-! ### Control (04_control.md) -/

/-- R59: branches of a whole split. Major 0, sub-ops 0 to 3, the predicate in bits [15:10]; the offset counts parcels from the header;
predicates count over the live lanes of the split. R61: register jumps; a target that is odd traps ALIGN, one that is not canonical traps
PROT. -/
def Obligations.Branches : Prop := ∀ (s : State) (off : BitVec 16) (p a : Fin 64) (rest : List W16),
  let there := s.sp.pc + 2 * off.signExtend 64
  let after := s.sp.pc + BitVec.ofNat 64 (2 * (s.sp.off + 2))
  let on := s.sp.lanes &&& s.gr.pr p
  let word := fun (sub pred : Nat) => decode (halves (1 + 2 ^ 7 * sub + 2 ^ 10 * pred + 2 ^ 16 * off.toNat) ++ rest)
  word 0 0 = .ok (.br off, rest) ∧ word 1 p = .ok (.brAll off p, rest) ∧ word 2 p = .ok (.brAny off p, rest) ∧ word 3 p = .ok (.brNone off p, rest) ∧
  Jumps (.br off) s there ∧
  Jumps (.brAll off p) s (if on = s.sp.lanes then there else after) ∧
  Jumps (.brAny off p) s (if on ≠ 0 then there else after) ∧
  Jumps (.brNone off p) s (if on = 0 then there else after) ∧
  (∀ i, i = .jmp a ∨ i = .ret a →
    if (s.sr a).getLsbD 0 = true then exec i s = .next (s.trap .align none none 0 0)
    else if canonical (s.sr a) = true then Jumps i s (s.sr a)
    else exec i s = .next (s.trap .prot none (some (s.sr a)) 8 2))

/-- R53 to R55, R60: `brp` makes a reconvergence entry. With all live lanes on one side the split goes that way; with lanes on
both sides the taken lanes become a split of their own where the group has one free, with a copy of the scalar registers, and
run first with the others deferred where it has none. A scalar result still in flight stays with the registers of the old split, or goes
to those of the deferred lanes.
How many splits a group has (log entry 19), that the new split waits for no untracked operation, and where a result in flight goes (log
entry 101) are the model's reading. -/
def Obligations.Divergence : Prop := ∀ (s : State) (off : BitVec 16) (p : Fin 64),
  s.gr.entries.length < 256 → s.gr.inCore.length < 32 →
  let x := s.sp
  let there := x.pc + 2 * off.signExtend 64
  let after := x.pc + BitVec.ofNat 64 (2 * (x.off + 2))
  let taken := x.lanes &&& s.gr.pr p
  let other := x.lanes &&& ~~~ taken
  let i := s.gr.nextEntry
  ∃ t, exec (.brp off p) s = .next t ∧ t.mem = s.mem ∧ t.teams = s.teams ∧
    (∀ g, g ≠ s.gk → t.groups.rd g = s.groups.rd g) ∧
    (let g := t.groups.rd s.gk
     let y := t.splits.rd s.cur
     let same := t.ops = s.ops ∧ g.late = s.gr.late
     Group.alike { s.gr with entries := g.entries, nextEntry := i + 1, late := g.late } g ∧ (∀ j, j ≠ i → g.entries.rd j = s.gr.entries.rd j) ∧
     y.entry = i + 1 ∧ y.s = x.s ∧
     (let e := g.entries.rd i
      e.live = true ∧ e.parent = x.entry ∧ e.lanes = x.lanes ∧ e.arrived = 0 ∧
      if taken = 0 ∨ other = 0 then
        same ∧ e.pending = 1 ∧ y.lanes = x.lanes ∧ GoesTo (if taken = 0 then after else there) y ∧ ∀ k, k ≠ s.cur → t.splits.rd k = s.splits.rd k
      else e.pending = 2 ∧ match (groupSplits s.gk).find? fun k => !(s.splits.rd k).live with
        | some k => k ≠ s.cur →
          same ∧ y.lanes = other ∧ GoesTo after y ∧ (∀ j, j ≠ s.cur → j ≠ k → t.splits.rd j = s.splits.rd j) ∧
          t.splits.rd k = { live := true, lanes := taken, pc := there, s := x.s, entry := i + 1 }
        | none =>
          y.lanes = taken ∧ GoesTo there y ∧ e.dlanes = other ∧ e.dpc = after ∧ e.ds = x.s ∧
          (∀ n, (s.ops.rd n).live = true → t.ops.rd n =
            let o := s.ops.rd n
            if o.split = s.cur ∧ o.home = .own then { o with home := .deferred i } else o) ∧
          (g.late = s.gr.late.map fun e => if e.split = s.cur ∧ e.home = .own then { e with home := .deferred i } else e) ∧
          ∀ k, k ≠ s.cur → t.splits.rd k = s.splits.rd k))

/-- R54, R55, R62: at its innermost entry a joining split parks while other paths are out; the last path becomes one split with
all lanes that arrived, behind the `join`, with the scalar registers of the path that holds the lowest of them; where lanes were
deferred, the split goes on with those after 32 clocks. The scalar results still in flight for the path whose registers are kept go to
the merged split, and those for the other paths nowhere. A `sleep` of the clause delays what goes on (log entry 102, the model's
reading).
R57, R63: `exit` retires the active lanes. With none it passes; where lanes remain, the split goes on with them; the exit of
the last lanes of the last split of a group ends the group, with the group's entry in no list left and its split gone.
R61: `call` writes the address after its clause to its link register (log entry 6, the model's reading of a result that is overtaken)
and branches. -/
def Obligations.JoinsAndExits : Prop :=
  (∀ (s : State) (e : Entry),
    s.sp.live = true → s.sp.entry ≠ 0 → s.gr.entries.rd (s.sp.entry - 1) = e → e.spilled = false → s.sp.lanes ≠ 0 →
    let x := s.sp
    let after := x.pc + BitVec.ofNat 64 (2 * (x.off + 2))
    let low := if e.arrived = 0 ∨ lowest x.lanes < e.low then lowest x.lanes else e.low
    let regs := if e.arrived = 0 ∨ lowest x.lanes < e.low then x.s else e.s
    let i := x.entry - 1
    let first := e.arrived = 0 ∨ lowest x.lanes < e.low
    let late := if x.nap = 0 then 0 else s.clock + x.nap
    let homes := fun (t : State) (f : Home → Home) => ∀ n, (s.ops.rd n).live = true → (s.ops.rd n).split = s.cur →
      (t.ops.rd n).split = s.cur ∧ (t.ops.rd n).home = f (s.ops.rd n).home
    let parks := fun h => if h = .own then (if first then .kept i else .lost) else if h = .kept i ∧ first then .lost else h
    ∃ t, exec .join s = .next t ∧ t.mem = s.mem ∧
      (let y := t.splits.rd s.cur
       let f := (t.groups.rd s.gk).entries.rd (x.entry - 1)
       if e.dlanes ≠ 0 then
         y.lanes = e.dlanes ∧ y.pc = e.dpc ∧ y.s = e.ds ∧ y.wait = .switching ∧ y.until_ = max (s.clock + 32) late ∧
         y.entry = x.entry ∧ homes t (fun h => if h = .deferred i then .own else parks h) ∧ f.dlanes = 0 ∧ f.arrived = e.arrived ||| x.lanes ∧ f.pending = e.pending - 1 ∧ f.low = low ∧ f.s = regs ∧ f.joinPc = after
       else if e.pending - 1 ≠ 0 then
         y.wait = .parked ∧ y.lanes = x.lanes ∧ y.s = x.s ∧ homes t parks ∧ f.arrived = e.arrived ||| x.lanes ∧ f.pending = e.pending - 1 ∧
         f.low = low ∧ f.s = regs ∧ f.joinPc = after
       else
         y.live = true ∧ y.lanes = e.arrived ||| x.lanes ∧ y.s = regs ∧ y.pc = after ∧ y.entry = e.parent ∧ f = {} ∧
         y.wait = (if x.nap = 0 then .ready else .asleep) ∧ y.until_ = late ∧
         homes t (fun h => if h = .own then (if first then .own else .lost) else if h = .kept i then (if first then .lost else .own) else h) ∧
         ∀ n, (s.ops.rd n).live = true → (s.ops.rd n).split ≠ s.cur → (s.ops.rd n).split / 4 = s.gk →
           (let z := s.splits.rd (s.ops.rd n).split
            z.live = true ∧ z.wait = .parked ∧ z.entry = x.entry) →
           (t.ops.rd n).split = s.cur ∧
             (t.ops.rd n).home = (if (s.ops.rd n).home = .kept i then (if first then .lost else .own) else (s.ops.rd n).home))) ∧
  (∀ (s : State),
    let x := s.sp
    let after := x.pc + BitVec.ofNat 64 (2 * (x.off + 2))
    let rest := x.lanes &&& ~~~ s.act
    (s.act = 0 → Jumps .exit s after) ∧
    (s.act ≠ 0 → rest ≠ 0 → ∃ t, exec .exit s = .next t ∧ t.mem = s.mem ∧ GoesTo after (t.splits.rd s.cur) ∧
      (t.splits.rd s.cur).lanes = rest ∧ (t.splits.rd s.cur).s = x.s ∧ ∀ k, k ≠ s.cur → t.splits.rd k = s.splits.rd k) ∧
    (s.act ≠ 0 → rest = 0 → splitOps s s.cur (·.returning) = [] → x.defer = [] → x.entry = 0 → s.gr.entries = [] →
      (∀ k ∈ groupSplits s.gk, k ≠ s.cur → (s.splits.rd k).live = false) →
      ∃ t, exec .exit s = .next t ∧ (t.groups.rd s.gk).live = false ∧ (t.splits.rd s.cur).live = false ∧
        ((teamGroups s s.tk).all (fun g => g == s.gk || groupLanes s g == 0) = true →
          (t.teams.rd s.tk).ending = true ∧ t.agenda.any (·.ev = .teamEnd s.tk) = true))) ∧
  ∀ (s : State) (off : BitVec 16) (l : Fin 64),
    let there := s.sp.pc + 2 * off.signExtend 64
    let after := s.sp.pc + BitVec.ofNat 64 (2 * (s.sp.off + 2))
    ∃ t, exec (.call l off) s = .next t ∧ OnlyHere s t ∧ GoesTo there (t.splits.rd s.cur) ∧
      Split.alikeButScalars s.sp (t.splits.rd s.cur) ∧
      Group.alike { s.gr with late := s.gr.late ++ [entryOf s (.call l off) (128 + l) 0] } (t.groups.rd s.gk) ∧
      ∀ n, (t.splits.rd s.cur).s.rd n = if n = l.val ∧ s.gr.overtakenS s.cur .own l (s.clock + 4) = false then after else s.sr n

/-- R64 to R66: pacing, and waits for completion flags and path counters. `yield` makes the group the youngest at the end of its
clause, and the longest `sleep` of a clause delays its split from there. -/
def Obligations.PacingAndWaits : Prop := ∀ (s : State) (b : SclB) (mask : BitVec 12) (n : Fin 4) (k : Fin 64),
  NoResult .nop s ∧
  (s.sp.idx + 1 < s.sp.count → ∃ t, Plain .yield s t ∧ (t.splits.rd s.cur).yielding = true ∧ SameRegisters s t) ∧
  (s.sp.count ≤ s.sp.idx + 1 → ∃ t, Plain .yield s t ∧ (t.groups.rd s.gk).age = s.clock ∧ SameRegisters s t) ∧
  (let z := max s.sp.nap ((s.bScl b).toNat % 2 ^ 20)
   ∃ t, Plain (.sleep b) s t ∧ SameRegisters s t ∧
    (if s.sp.idx + 1 < s.sp.count then (t.splits.rd s.cur).nap = z
     else if z = 0 then (t.splits.rd s.cur).wait = .ready
     else (t.splits.rd s.cur).wait = .asleep ∧ (t.splits.rd s.cur).until_ = s.clock + z)) ∧
  ((∃ i, i < 12 ∧ mask.getLsbD i = true ∧ s.gr.flags.rd i ≠ 0) → Waits (.wflag mask) s (.flags mask.toNat)) ∧
  ((∀ i, i < 12 → mask.getLsbD i = true → s.gr.flags.rd i = 0) →
    match s.sp.defer.find? fun d => d.flag < 12 && mask.getLsbD d.flag with
    | none => NoResult (.wflag mask) s
    | some d => exec (.wflag mask) s = .next (s.raiseDefer d)) ∧
  (if (s.tm.path.rd n).length ≤ (s.sr k).toNat then NoResult (.wpath n k) s
   else Waits (.wpath n k) s (.path n (s.sr k).toNat))

/-- R42, R68, R88, R326, R328: special registers. `value` is what each reads at a position; a scalar read takes the lowest live lane's. A
read of the trap registers at user level and every write at user level but that of FPSTAT trap with PROT; FPSTAT takes its six low bits
and then the flags that take effect in the same clock; TRAP_PC and TRAP_INFO are written in handler mode. Which of two results on their
way to one register stays (log entry 6) and TRAP_PC's upper bits (log entry 13) are the model's reading. -/
def Obligations.SpecialRegisters : Prop := ∀ (s : State) (r : SReg) (d : Fin 128) (e a : Fin 64), NoPoison s →
  let secret := r = .trapCause ∨ r = .trapPc ∨ r = .trapLanes ∨ r = .trapAddr ∨ r = .trapInfo
  let value := fun (p : Nat) => match r with
    | .laneid => BitVec.ofNat 64 (s.gr.laneid.rd p)
    | .lanepos => BitVec.ofNat 64 p
    | .groupid => BitVec.ofNat 64 (s.gk % 128)
    | .teamid => BitVec.ofNat 64 s.tm.teamId
    | .gridSize => BitVec.ofNat 64 s.gd.teams
    | .coreId => BitVec.ofNat 64 s.gr.core
    | .partitionId => BitVec.ofNat 64 s.gd.part
    | .gwidth => BitVec.ofNat 64 s.gr.width
    | .ordinal => BitVec.ofNat 64 (if s.tm.kind = .fragment then (s.gr.frag.rd p).ord else 0)
    | .fpstat => s.gr.fpstat
    | .clock => BitVec.ofNat 64 s.clock
    | .trapCause => BitVec.ofNat 64 s.gr.tCause.code
    | .trapPc => s.gr.tPc
    | .trapLanes => s.gr.tLanes
    | .trapAddr => s.gr.tAddr
    | .trapInfo => s.gr.tInfo
    | .featBase => 0x7101001
    | .featExt0 | .featExt1 | .featExt2 | .featExt3 => 0
  (secret → s.isSup = false →
    (s.act ≠ 0 → exec (.sregVector r d) s = .next (s.trap .prot none none 0 0)) ∧ exec (.sregScalar r e) s = .next (s.trap .prot none none 0 0)) ∧
  (¬ secret ∨ s.isSup = true →
    LaneResult (.sregVector r d) s d (fun p => (value p).setWidth 32) ∧
    ScalarResult (.sregScalar r e) s e (value (lowest s.sp.lanes))) ∧
  (r ≠ .fpstat → s.isSup = false → exec (.swreg r a) s = .next (s.prot 0)) ∧
  (r ≠ .fpstat → s.isSup = true → s.inHandler = false ∨ (r ≠ .trapPc ∧ r ≠ .trapInfo) →
    exec (.swreg r a) s = .next (s.trap .prot none none 0 0)) ∧
  (∃ t, Plain (.swreg .fpstat a) s t ∧ Split.alike s.sp (t.splits.rd s.cur) ∧
    Group.alike { s.gr with fpstat := (s.sr a &&& 0x3F) ||| (if s.gr.fpAt = s.clock then s.gr.fpNew else 0) } (t.groups.rd s.gk)) ∧
  (s.inHandler = true →
    (∃ t, Plain (.swreg .trapInfo a) s t ∧ Split.alike s.sp (t.splits.rd s.cur) ∧
      Group.alike { s.gr with tInfo := s.sr a } (t.groups.rd s.gk)) ∧
    ∃ t, Plain (.swreg .trapPc a) s t ∧ Split.alike s.sp (t.splits.rd s.cur) ∧
      Group.alike { s.gr with tPc := (t.groups.rd s.gk).tPc } (t.groups.rd s.gk) ∧
      ∀ k, k < 56 → (t.groups.rd s.gk).tPc.getLsbD k = ((s.sr a).getLsbD k && k != 0))

/-! ### Memory (08_memory_access.md, 09_ordering.md) -/

/-- R126, R132: a load whose lanes are all translated issues one operation on flag A, which holds the effective and the physical
address of every active lane; memory is as before. With no lane active nothing happens. When a lane load retires it writes v[d], and
v[d + 1] for 8 bytes, at each of its lanes with the bytes read at the lane's address, extended by its sign; an operation whose words
were at hand (a scratchpad load, a returning atomic or call) writes those. A result of fixed latency that is still to come to the same
word stays the last (log entry 6, the model's reading).
R126, R133: a store whose lanes are all translated issues one operation on flag B; helper lanes store nothing. -/
def Obligations.LoadsAndStores : Prop :=
  (∀ (s : State) (sz : MemSz) (half : Bool) (d o : Fin 128) (e : Fin 64) (b : Fin 32) (i : Fin 16),
    NoPoison s → s.full s.fa = false → NoPending s →
    let L := fun (ins : Instr) (k : OpKind) (n : Nat) =>
      if s.act = 0 then NoResult ins s
      else Mapped s true false n (s.eas s.act b o n i) →
        IssuesQuietly ins s s.fa fun _ _ op => op.kind = k ∧ op.returning = true ∧ op.lanes = s.act ∧
          ∀ p, s.act.getLsbD p = true → op.vas.rd p = s.ea b o n i p ∧
            ∃ h t, s.fate true false false n (p, s.ea b o n i p) = .ok h t ∧ op.pas.rd p = h.pa
    L (.ld sz d b o i) (.load sz false d) sz.bytes ∧
    L (.ldSigned half d b o i) (.load (if half then .b2 else .b1) true d) (if half then 2 else 1) ∧
    (Mapped s true false sz.bytes [(64, s.sea b sz.bytes i)] →
      IssuesQuietly (.sld sz e b i) s s.fa fun _ _ op => op.kind = .sload sz e ∧ op.returning = true ∧ op.vas.rd 64 = s.sea b sz.bytes i ∧
        ∃ h t, s.fate true false false sz.bytes (64, s.sea b sz.bytes i) = .ok h t ∧ op.pas.rd 64 = h.pa)) ∧
  (∀ (s : State) (sz : MemSz) (d o : Fin 128) (e : Fin 64) (b : Fin 32) (i : Fin 16),
    NoPoison s → s.full s.fb = false → NoPending s →
    (if s.wact = 0 then NoResult (.st sz d b o i) s
     else MappedDirty s false sz.bytes (s.eas s.wact b o sz.bytes i) →
      Issues (.st sz d b o i) s s.fb fun _ _ op => op.kind = .store ∧ op.returning = false ∧ op.lanes = s.wact) ∧
    (MappedDirty s false sz.bytes [(64, s.sea b sz.bytes i)] →
      Issues (.sst sz e b i) s s.fb fun _ _ op => op.kind = .store ∧ op.returning = false ∧ op.lanes = 0)) ∧
  (∀ (s : State) (id : Nat) (o : Op) (sz : MemSz) (signed : Bool) (d : Nat),
    s.ops.rd id = o → o.live = true → o.need = 0 → o.returning = true → o.failed = false → o.bad = 0 → o.badS = false → o.discard = false →
    let g := s.groups.rd (o.split / 4)
    let free := fun (r p : Nat) => g.overtaken r s.clock p = false
    let raw := fun p => o.bytesAt (o.pas.rd p) sz.bytes
    let x := fun p => if signed then (BitVec.ofNat (8 * sz.bytes) (raw p)).signExtend 64 else BitVec.ofNat 64 (raw p)
    let E := fun (f : Nat → Nat → W32) => ∃ t, exec (.operationRetire id) s = .next t ∧ (t.ops.rd id).live = false ∧ t.mem = s.mem ∧
      ∀ r p, p < 64 → (t.groups.rd (o.split / 4)).vr r p = f r p
    (o.kind = .load sz signed d → E fun r p =>
      if o.lanes.getLsbD p = true ∧ free r p ∧ r = d then (x p).setWidth 32
      else if o.lanes.getLsbD p = true ∧ free r p ∧ sz = .b8 ∧ r = d + 1 then (x p >>> 32).setWidth 32
      else g.vr r p) ∧
    ((o.kind = .regs ∨ o.kind = .atomic ∨ o.kind = .call) → o.lanes ≠ 0 → E fun r p =>
      if 64 * r + p ∈ o.todo ∧ free r p then o.res.rd (64 * r + p) else g.vr r p))

/-- R117: a 32-bit scalar store to a word of a line in the L1 puts the word there, valid and dirty; every other word of the line,
every other line of the L1, and memory and the home slices behind it stay. A 32-bit lane store does the same for the word of each lane
that stores, of several lanes at one word the highest.
R117, R132: a 32-bit scalar load of a word that is valid in the L1 takes the word from there and can retire at once; its
retirement writes the word, zero-extended, to its scalar register; a 32-bit lane load writes its lanes' words. -/
def Obligations.L1Bytes : Prop :=
  (∀ (s : State) (e : Fin 64) (b : Fin 32) (i : Fin 16) (h : Hit) (t : Tlb),
    s.full s.fb = false → s.gd.snap = false →
    let a := s.sea b 4 i
    s.missing [(64, a)] = [] → s.fate false true false 4 (64, a) = .ok h t → t.dirty.getLsbD (fld (va56 h.ea) 16 6) = true →
    h.ty = 0 → h.pa % 4 = 0 → (s.l1 s.cr (h.pa / 128)).live = true → s.ops = [] →
    ∃ u, exec (.sst .b4 e b i) s = .next u ∧ u.mem = s.mem ∧ u.slices = s.slices ∧
      (let l := s.l1 s.cr (h.pa / 128)
       let m := u.l1 s.cr (h.pa / 128)
       let w := h.pa % 128 / 4
       lineWord m.data w = (s.sr e).setWidth 32 ∧ (∀ j, j < 32 → j ≠ w → lineWord m.data j = lineWord l.data j) ∧
       m.valid = l.valid ||| (1#32 <<< w) ∧ m.dirty = l.dirty ||| (1#32 <<< w) ∧
       ∀ n, n ≠ h.pa / 128 → u.l1 s.cr n = s.l1 s.cr n)) ∧
  (∀ (s : State) (e : Fin 64) (b : Fin 32) (i : Fin 16) (h : Hit) (t : Tlb),
    s.full s.fa = false → NoPending s → s.gr.late = [] →
    let a := s.sea b 4 i
    s.missing [(64, a)] = [] → s.fate true false false 4 (64, a) = .ok h t → h.ty = 0 → h.pa % 4 = 0 →
    let l := s.l1 s.cr (h.pa / 128)
    let w := h.pa % 128 / 4
    l.live = true → l.valid.getLsbD w = true → l.psn.getLsbD (w / 8) = false → s.ops = [] →
    ∃ u v, exec (.sld .b4 e b i) s = .next u ∧ u.agenda.any (·.ev = .operationRetire s.nextId) = true ∧
      exec (.operationRetire s.nextId) u = .next v ∧ (v.ops.rd s.nextId).live = false ∧
      (∀ n, (v.splits.rd s.cur).s.rd n = if n = e.val then (lineWord l.data w).setWidth 64 else s.sr n) ∧ v.mem = s.mem) ∧
  ∀ (s : State) (d o : Fin 128) (b : Fin 32) (i : Fin 16) (pa : Nat → Nat), NoPoison s → NoPending s → s.ops = [] →
    let at_ := fun (w : Bool) (m : W64) (P : Nat → Prop) => ∀ p, m.getLsbD p = true →
      (∃ h t, s.fate (!w) w false 4 (p, s.ea b o 4 i p) = .ok h t ∧ h.pa = pa p ∧ h.ty = 0) ∧ pa p % 4 = 0 ∧
      (s.l1 s.cr (pa p / 128)).live = true ∧ P p
    (s.full s.fb = false → MappedDirty s false 4 (s.eas s.wact b o 4 i) → at_ true s.wact (fun _ => True) →
      ∃ u, exec (.st .b4 d b o i) s = .next u ∧ u.mem = s.mem ∧ u.slices = s.slices ∧ ∀ line w, w < 32 →
        let ps := (positions s.wact).filter fun p => pa p == 128 * line + 4 * w
        let l := s.l1 s.cr line
        let m := u.l1 s.cr line
        lineWord m.data w = (match ps.getLast? with
          | some p => s.gr.vr d p
          | none => lineWord l.data w) ∧
        (m.valid.getLsbD w = true ↔ l.valid.getLsbD w = true ∨ ps ≠ []) ∧ (m.dirty.getLsbD w = true ↔ l.dirty.getLsbD w = true ∨ ps ≠ [])) ∧
    (s.full s.fa = false → s.act ≠ 0 → s.gr.late = [] → Mapped s true false 4 (s.eas s.act b o 4 i) →
      at_ false s.act (fun p => (s.l1 s.cr (pa p / 128)).valid.getLsbD (pa p % 128 / 4) = true ∧
        (s.l1 s.cr (pa p / 128)).psn.getLsbD (pa p % 128 / 32) = false) →
      ∃ u v, exec (.ld .b4 d b o i) s = .next u ∧ u.agenda.any (·.ev = .operationRetire s.nextId) = true ∧
        exec (.operationRetire s.nextId) u = .next v ∧ (v.ops.rd s.nextId).live = false ∧ v.mem = s.mem ∧
        ∀ r p, p < 64 → (v.groups.rd s.gk).vr r p =
          if r = d.val ∧ s.act.getLsbD p = true then lineWord (s.l1 s.cr (pa p / 128)).data (pa p % 128 / 4) else s.gr.vr r p)

/-- R157, R143: `ld.acq` issues its load and waits for it; once no load of its split is left, at `.dv` and `.sy` every word of
the L1 that is neither owned nor dirty is invalid, and the split goes on.
R157, R142: `st.rel` first releases at its scope: it waits for its split's earlier accesses and, at `.dv` and `.sy`, for the
write-throughs of its core; then it stores. -/
def Obligations.AcquireAndRelease : Prop :=
  (∀ (s : State) (sc : Scope) (sz : MemSz) (d o : Fin 128) (b : Fin 32),
    NoPoison s → s.act ≠ 0 →
    (s.sp.phase = 0 → s.full s.fa = false → NoPending s → Mapped s true false sz.bytes (s.eas s.act b o sz.bytes 0) →
      ∃ t op ids, exec (.ldAcq sc sz d b o) s = .next t ∧ InFlight s t s.nextId s.fa op ∧ op.kind = .load sz false d ∧ op.lanes = s.act ∧
        SameRegisters s t ∧ t.mem = s.mem ∧ (t.splits.rd s.cur).wait = .cond (.ops ids) ∧ s.nextId ∈ ids) ∧
    (s.sp.phase = 1 → ownLoads s = [] →
      ∃ t, exec (.ldAcq sc sz d b o) s = .next t ∧ GoesOn 2 s.sp (t.splits.rd s.cur) ∧ SameRegisters s t ∧ t.mem = s.mem ∧
        (sc = .dv ∨ sc = .sy → ∀ line,
          (t.l1 s.cr line).valid = (s.l1 s.cr line).valid &&& ((s.l1 s.cr line).owned ||| (s.l1 s.cr line).dirty)))) ∧
  (∀ (s : State) (sc : Scope) (sz : MemSz) (d o : Fin 128) (b : Fin 32),
    NoPoison s →
    let ins : Instr := .stRel sc sz d b o
    let stored := Issues ins s s.fb fun _ _ op => op.kind = .store ∧ op.returning = false ∧ op.lanes = s.wact
    (s.wact = 0 → NoResult ins s) ∧
    (s.wact ≠ 0 → s.sp.phase = 0 → ownAccesses s ≠ [] → Waits ins s (.ops (ownAccesses s))) ∧
    (s.wact ≠ 0 → s.full s.fb = false → NoPending s → MappedDirty s false sz.bytes (s.eas s.wact b o sz.bytes 0) →
      (s.wide sc = false → s.sp.phase = 0 → ownAccesses s = [] → stored) ∧
      (s.sp.phase = 1 → s.wtPending s.cr s.sp.aux (sc = .sy) = false → stored)) ∧
    (s.wact ≠ 0 → s.sp.phase = 1 → s.wtPending s.cr s.sp.aux (sc = .sy) = true → Waits ins s (.rel s.sp.aux (sc = .sy))))

/-- R142, R143, R156: a fence waits for the accesses of its split that it orders, and a wide release for the write-throughs of
its core; an `efence` waits for the engine operations of its split first. With nothing to wait for, both go on; a wide acquire
leaves valid in the L1 only words that are owned or dirty. -/
def Obligations.Fences : Prop := ∀ (s : State) (sc : Scope),
  let narrow := s.wide sc = false
  (s.sp.phase = 0 → ownAccesses s ≠ [] → Waits (.fence sc .rel) s (.ops (ownAccesses s)) ∧ Waits (.fence sc .both) s (.ops (ownAccesses s))) ∧
  (s.sp.phase = 0 → ownLoads s ≠ [] → Waits (.fence sc .acq) s (.ops (ownLoads s))) ∧
  (narrow → s.sp.phase = 0 → ownAccesses s = [] → ownLoads s = [] → ∀ k, Passes (.fence sc k) s) ∧
  (s.sp.phase = 1 → s.wtPending s.cr s.sp.aux (sc = .sy) = true → Waits (.fence sc .rel) s (.rel s.sp.aux (sc = .sy))) ∧
  (s.sp.phase = 1 → s.wtPending s.cr s.sp.aux (sc = .sy) = false → Passes (.fence sc .rel) s) ∧
  (s.wide sc = true → s.sp.phase = 0 → ownLoads s = [] →
    ∃ t, exec (.fence sc .acq) s = .next t ∧ GoesOn 2 s.sp (t.splits.rd s.cur) ∧ SameRegisters s t ∧ t.mem = s.mem ∧
      ∀ line, (t.l1 s.cr line).valid = (s.l1 s.cr line).valid &&& ((s.l1 s.cr line).owned ||| (s.l1 s.cr line).dirty)) ∧
  (s.sp.phase = 0 → ownEngines s ≠ [] → ∀ k, Waits (.efence sc k) s (.ops (ownEngines s))) ∧
  (narrow → s.sp.phase = 0 → ownEngines s = [] → ownAccesses s = [] → ownLoads s = [] → ∀ k, Passes (.efence sc k) s)

/-- R116, R127, R135: scratchpad accesses. Each lane's offset must be aligned, then lie in the team's scratchpad, or the
instruction traps, a load as kind 6 and a store as kind 7; a store over an armed arrival barrier traps with BAR_CLOBBER, a load of an
uncorrectable word with POISON, and a store to the partner's half stalls while path 3 is full. A store writes its bytes in ascending
position, and no other byte.
That a load takes its bytes and a store writes its bytes at issue (log entry 34) is the model's reading. -/
def Obligations.Scratchpad : Prop := ∀ (s : State) (sz : MemSz) (d o : Fin 128) (b : Fin 32) (i : Fin 16), NoPoison s →
  let n := sz.bytes
  let ea := s.ea b o n i
  let fits := fun (m : W64) => ∀ p, m.getLsbD p = true → (ea p).toNat % n = 0 ∧ (ea p).toNat + n ≤ s.tm.spSize
  let odd := fun m => (s.eas m b o n i).filter fun a => a.2.toNat % n ≠ 0
  let far := fun m => (s.eas m b o n i).filter fun a => s.tm.spSize < a.2.toNat + n
  let trap := fun (c : Cause) (l : List (Nat × W64)) (k : W64) => Host.Outcome.next (s.trap c (some (laneMask l)) (some ((l.map (·.2)).headD 0)) 8 k)
  let armed := (s.eas s.wact b o n i).filter fun a => armedOver s s.tk a.2.toNat n
  let low := (armed.map (·.2.toNat)).min?
  (s.act = 0 → NoResult (.lds sz d b o i) s) ∧ (s.wact = 0 → NoResult (.sts sz d b o i) s) ∧
  (s.act ≠ 0 → s.full s.fa = false →
    (odd s.act ≠ [] → exec (.lds sz d b o i) s = trap .align (odd s.act) 6) ∧
    (odd s.act = [] → far s.act ≠ [] → exec (.lds sz d b o i) s = trap .prot (far s.act) 6) ∧
    (fits s.act → (∃ p k, s.act.getLsbD p = true ∧ k < n ∧ s.tm.bad.rd (((ea p).toNat + k) / 4) = true) →
      exec (.lds sz d b o i) s = .next (s.trap .poison none (some 0) 8 15))) ∧
  (s.wact ≠ 0 → s.full s.fb = false →
    (s.pathFull 3 = true → (∃ p, s.wact.getLsbD p = true ∧ remoteHalf s.tm s.cr (ea p).toNat = true) → exec (.sts sz d b o i) s = .next s) ∧
    (s.pathFull 3 = false →
      (odd s.wact ≠ [] → exec (.sts sz d b o i) s = trap .align (odd s.wact) 7) ∧
      (odd s.wact = [] → far s.wact ≠ [] → exec (.sts sz d b o i) s = trap .prot (far s.wact) 7) ∧
      (fits s.wact → armed ≠ [] → exec (.sts sz d b o i) s =
        .next (s.trap .barClobber (some (laneMask armed)) (low.map (BitVec.ofNat 64 ·)) 8 0)))) ∧
  (s.act ≠ 0 → s.full s.fa = false → fits s.act → (∀ k, s.tm.bad.rd k = false) →
    IssuesQuietly (.lds sz d b o i) s s.fa fun t _ op => op.kind = .regs ∧ op.returning = true ∧ op.lanes = s.act ∧ t.teams = s.teams ∧
      ∀ p, s.act.getLsbD p = true → op.res.rd (64 * d + p) = BitVec.ofNat 32 (scratchVal s s.tk (ea p).toNat n) ∧
        (sz = .b8 → op.res.rd (64 * (d + 1) + p) = BitVec.ofNat 32 (scratchVal s s.tk (ea p).toNat n / 2 ^ 32))) ∧
  (s.wact ≠ 0 → s.full s.fb = false → s.pathFull 3 = false → fits s.wact → (∀ p, s.wact.getLsbD p = true → armedOver s s.tk (ea p).toNat n = false) →
    Issues (.sts sz d b o i) s s.fb fun t _ op => op.kind = .none ∧ op.lanes = s.wact ∧ t.mem = s.mem ∧ t.slices = s.slices ∧
      ∀ k, (t.teams.rd s.tk).scratch.rd k =
        match ((positions s.wact).filter fun p => decide ((ea p).toNat ≤ k ∧ k < (ea p).toNat + n)).getLast? with
        | some p => BitVec.ofNat 8 (s.gr.storeVal sz d p / 256 ^ (k - (ea p).toNat))
        | none => s.tm.scratch.rd k)

/-- R129, R137, R138: a gather issues one operation on flag B and path 1 with one landing to come for each lane, also for an element at
an address that does not exist (R9); a prefetch changes no register and no memory. -/
def Obligations.GathersAndPrefetches : Prop := ∀ (s : State) (sz : MemSz) (d : Fin 64) (o : Fin 128) (b : Fin 32) (i : Fin 16) (llc : Bool),
  NoPoison s →
  let ls := s.eas s.wact b o sz.bytes i
  let dst := (s.sr d).toNat
  (s.wact = 0 → NoResult (.gth sz d b o i) s) ∧
  (s.wact ≠ 0 → s.full s.fb = false → s.pathFull 1 = false → dst % sz.bytes = 0 → dst + s.gr.width * sz.bytes ≤ s.tm.spSize →
    NoPending s → s.missing ls = [] → (∀ a ∈ ls, ∃ h u, s.fateAt true true false false sz.bytes a = .ok h u) →
    Issues (.gth sz d b o i) s s.fb fun t id op => op.kind = .gather sz dst ∧ op.lanes = s.wact ∧
      op.need = (positions s.wact).length ∧ t.mem = s.mem ∧
      (∀ p, s.wact.getLsbD p = true → ∃ h u, s.fateAt true true false false sz.bytes (p, s.ea b o sz.bytes i p) = .ok h u ∧ op.pas.rd p = h.pa) ∧
      (t.teams.rd s.tk).path.rd 1 = s.tm.path.rd 1 ++ [(id, false)] ∧
      ∀ p, s.wact.getLsbD p = true → t.agenda.any (·.ev = .gatherLanding id p) = true) ∧
  Passes (.prf llc b o i) s

/-- R172 to R174: a cache operation acts on every line of its active lanes as one operation on flag B. A `cflush` leaves no
dirty word of those lines in the L1; it and a `czero` seal an open region (R321); a `cinv` leaves valid only their dirty words; a `cquery` issues on flag A.
While an earlier narrow store of the core to a line waits for its fill, or an earlier load of the group awaits words of it, the first
three stall. A line's contents after a write back (log entry 35) is the model's reading. -/
def Obligations.CacheOperations : Prop := ∀ (s : State) (sc : Scope) (d o : Fin 128) (b : Fin 64), NoPoison s →
  let ls := s.lineAddrs s.wact b o
  (s.wact = 0 → NoResult (.cflush sc b o) s ∧ NoResult (.cinv sc b o) s ∧ NoResult (.czero b o) s) ∧
  (s.act = 0 → NoResult (.cquery d b o) s) ∧
  (s.wact ≠ 0 → s.full s.fb = false → Mapped s true false 1 ls →
    (∃ a ∈ ls, ∃ h u, s.fate true false false 1 a = .ok h u ∧ s.olderFirst (h.pa / 128) (BitVec.allOnes 32) = true) →
    exec (.cflush sc b o) s = .next s ∧ exec (.cinv sc b o) s = .next s) ∧
  (s.wact ≠ 0 → s.full s.fb = false → NoPending s → Mapped s true false 1 ls →
    (IssuesQuietly (.cflush sc b o) s s.fb fun t _ op => op.kind = .cacheOp ∧ op.lanes = s.wact ∧
      (s.gr.live = true → (t.groups.rd s.gk).region ≠ .opened) ∧
      ∀ a ∈ ls, ∀ h u, s.fate true false false 1 a = .ok h u → (t.l1 s.cr (h.pa / 128)).live = true → (t.l1 s.cr (h.pa / 128)).dirty = 0) ∧
    IssuesQuietly (.cinv sc b o) s s.fb fun t _ op => op.kind = .cacheOp ∧ op.lanes = s.wact ∧ op.need = 0 ∧
      ∀ a ∈ ls, ∀ h u, s.fate true false false 1 a = .ok h u → (s.l1 s.cr (h.pa / 128)).live = true →
        (t.l1 s.cr (h.pa / 128)).valid = (s.l1 s.cr (h.pa / 128)).valid &&& (s.l1 s.cr (h.pa / 128)).dirty) ∧
  (s.wact ≠ 0 → s.full s.fb = false → NoPending s → MappedDirty s false 1 ls →
    IssuesQuietly (.czero b o) s s.fb fun t id op => op.kind = .cacheOp ∧ op.lanes = s.wact ∧
      (s.gr.live = true → (t.groups.rd s.gk).region ≠ .opened) ∧
      ∀ a ∈ ls, ∀ h u, s.fate false true false 1 a = .ok h u →
        (t.agenda.any fun e => match e.ev with
          | .writeThrough r => r.line == h.pa / 128 && !r.own && r.op == id && r.data == 0 && r.bytes == BitVec.allOnes 128
          | _ => false) = true) ∧
  (s.act ≠ 0 → s.full s.fa = false → Mapped s true false 1 (s.lineAddrs s.act b o) →
    IssuesQuietly (.cquery d b o) s s.fa fun _ _ op => op.kind = .query d ∧ op.returning = true ∧ op.lanes = s.act ∧ op.need = 0)

/-- R170, R176: `carve` is a supervisor instruction. A size above LLC_CARVE_LIMIT gives 1, a region whose base register is not
valid 2, one outside the partition's windows 3, each without effect; otherwise the result is 0 and the operation goes to the 256
slices of the die, counted on path 3.
That a refused carve does not seal (log entry 96) is the model's reading. -/
def Obligations.Carving : Prop := ∀ (s : State) (d a : Fin 64) (b : SclB),
  let die := (s.sr a).toNat % 4
  let c := (s.bScl b).toNat
  let base := s.preg s.pt (0x14 + die)
  let room := (List.range (c * 768)).all fun i => s.inWindows s.pt (fld base.toNat 15 37 * 2 ^ 15 + i * 2 ^ 16)
  (s.isSup = false → exec (.carve d a b) s = .next (s.prot 0)) ∧
  (s.isSup = true →
    if fld (s.preg s.pt 0x13).toNat 0 4 < c then ScalarResult (.carve d a b) s d 1
    else if c ≠ 0 ∧ base.getLsbD 63 = false then ScalarResult (.carve d a b) s d 2
    else if room = false then ScalarResult (.carve d a b) s d 3
    else s.pathFull 3 = false →
      ∃ t, exec (.carve d a b) s = .next t ∧ GoesOn 2 s.sp (t.splits.rd s.cur) ∧ ScalarPut (.carve d a b) s t d 0 ∧
        (t.ops.rd s.nextId).kind = .carve s.pt die c ∧ (t.ops.rd s.nextId).need = 256 ∧ t.mem = s.mem ∧ t.slices = s.slices ∧
        (t.teams.rd s.tk).path.rd 3 = s.tm.path.rd 3 ++ [(s.nextId, false)] ∧
        ∀ i, i < 256 → t.agenda.any (·.ev = .carveSliceApply s.nextId (256 * die + i)) = true)

/-! ### Atomics and calls at the home slices (11_slice_routines.md) -/

/-- R195, R196: an atomic sends one request for each active lane, with the lane's operands, to the home slice of its word, on
flag A when it returns and on flag B when it is posted. -/
def Obligations.Atomics : Prop := ∀ (s : State) (aop : AtmOp) (wide : Bool) (d o : Fin 128) (b : Fin 32), NoPoison s → NoPending s → s.wact ≠ 0 →
  let n := if wide then 8 else 4
  let ea := s.ea b o n 0
  MappedDirty s true n (s.eas s.wact b o n 0) →
  let val := fun (r p : Nat) => if wide then s.gr.pair r p else (s.gr.vr r p).setWidth 64
  let A := fun (ret : Bool) (ins : Instr) => s.full (if ret then s.fa else s.fb) = false →
    Issues ins s (if ret then s.fa else s.fb) fun t id op => op.kind = .atomic ∧ op.returning = ret ∧
      op.need = (positions s.wact).length ∧ ∀ p, s.wact.getLsbD p = true → ∃ h u, s.fate true true false n (p, ea p) = .ok h u ∧
        t.agenda.any (·.ev = .atomicInvocation { core := s.cr, part := s.pt, op := id, lane := p, pa := h.pa, wide := wide, aop := aop
                                                 x := val d p, c := h.c, ret := ret, dreg := d }) = true
  let C := fun (ret : Bool) (ins : Instr) => s.full (if ret then s.fa else s.fb) = false →
    Issues ins s (if ret then s.fa else s.fb) fun t id op => op.kind = .atomic ∧ op.returning = ret ∧
      op.need = (positions s.wact).length ∧ ∀ p, s.wact.getLsbD p = true → ∃ h u, s.fate true true false n (p, ea p) = .ok h u ∧
        t.agenda.any (·.ev = .casInvocation { core := s.cr, part := s.pt, op := id, lane := p, pa := h.pa, wide := wide
                                              cmp := val d p, new := val (if wide then d + 2 else d + 1) p, c := h.c, ret := ret, dreg := d }) = true
  A true (.atmReturning aop wide d b o) ∧ A false (.atmPosted aop wide d b o) ∧
  C true (.casReturning wide d b o) ∧ C false (.casPosted wide d b o)

/-- R197: `rcall` checks its routine's class and its data registers at issue, and then sends one call for each active lane, or the
one of its scalar form.
R185 to R187: `rinst` and `rdrop` are supervisor instructions that issue on flag A. The image of `rinst` must be aligned to 128
bytes. A `rdrop` with status 0 takes the id out of the call table at once.
What stays of a dropped entry (log entry 16) is the model's reading. -/
def Obligations.Routines : Prop :=
  (∀ (s : State) (d o : Fin 128) (e : Fin 64) (b : Fin 32) (i : Fin 64), NoPoison s →
    let id := (s.sr i).toNat % 256
    let k := (s.parts.rd s.pt).calls.rd id
    let flag := if k.rets = 0 then s.fb else s.fa
    let ready := k.cls = 1 ∧ s.rtOn s.pt = true
    (s.wact = 0 → NoResult (.rcallLane d b o i) s) ∧
    (s.wact ≠ 0 → ¬ ready → exec (.rcallLane d b o i) s = .next (s.trap .prot none none 16 (BitVec.ofNat 64 (9 + 256 * id)))) ∧
    (¬ ready → exec (.rcallScalar e b i) s = .next (s.trap .prot none none 16 (BitVec.ofNat 64 (9 + 256 * id)))) ∧
    (s.wact ≠ 0 → ready → s.gr.vc < d + max k.ops k.rets → exec (.rcallLane d b o i) s = .next (s.trap .prot none none 8 10)) ∧
    (ready → s.full flag = false → NoPending s →
      (s.wact ≠ 0 → d + max k.ops k.rets ≤ s.gr.vc → MappedDirty s true 1 (s.lineAddrs s.wact b o) →
        Issues (.rcallLane d b o i) s flag fun t n op => op.kind = .call ∧ op.returning = (k.rets != 0) ∧ op.need = (positions s.wact).length ∧
          ∀ p, s.wact.getLsbD p = true → (t.agenda.any fun a => match a.ev with
            | .anvilInvocationStart r => r.op == n && r.lane == p && r.ids == [id] && r.ops == (List.range k.ops).map fun j => s.gr.vr (d + j) p
            | _ => false) = true) ∧
      (e + max k.ops k.rets ≤ 64 → MappedDirty s true 1 [(64, s.sr b)] →
        Issues (.rcallScalar e b i) s flag fun t n op => op.kind = .call ∧ op.returning = (k.rets != 0) ∧ op.need = 1 ∧
          (t.agenda.any fun a => match a.ev with
            | .anvilInvocationStart r => r.op == n && r.scalar && r.ids == [id] && r.ops == (List.range k.ops).map fun j => (s.sr (e + j)).setWidth 32
            | _ => false) = true))) ∧
  (∀ (s : State) (d a : Fin 64) (b : SclB),
    let id := (s.bScl b).toNat
    let words := (List.range 128).map fun i => (64 + i, s.sr a + BitVec.ofNat 64 (4 * i))
    (s.isSup = false → exec (.rinst d a b) s = .next (s.prot 0) ∧ exec (.rdrop d b) s = .next (s.prot 0)) ∧
    (s.isSup = true → s.full s.fa = false →
      ((s.sr a).toNat % 128 ≠ 0 → exec (.rinst d a b) s = .next (s.trap .align (some 0) (some (s.sr a)) 8 4)) ∧
      ((s.sr a).toNat % 128 = 0 → NoPending s → Mapped s true false 4 words →
        IssuesQuietly (.rinst d a b) s s.fa fun _ _ op => op.kind = .rinst id d ∧ op.returning = true) ∧
      IssuesQuietly (.rdrop d b) s s.fa fun t _ op => op.kind = .rdrop id d ∧ op.returning = true ∧
        op.a = BitVec.ofNat 64 (s.dropStatus s.pt id) ∧
        (s.dropStatus s.pt id = 0 → (t.parts.rd s.pt).calls.rd id = default) ∧
        ∀ n, n ≠ id → (t.parts.rd s.pt).calls.rd n = (s.parts.rd s.pt).calls.rd n))

/-! ### Barriers (12_sync.md) -/

/-- R199 to R201, R210 to R212: arrivals at a named barrier. A barrier that the team has not, a count of zero or above the team's
groups, and a count that differs from that of the phase in progress trap. The arrival of a group's only split counts the group;
the arrival that completes the count starts a new phase; a waiter waits for the end of its phase. `gbar` traps in a launch that is
not cooperative; otherwise its group's only split arrives once its accesses and its core's write-throughs are through, and goes on
when the grid's phase has ended. The release comes 8 clocks after the completing arrival, on the odd core of a pair 48.
The marks of merged splits (log entry 12), the second compare (log entry 92), that the split whose `bar` completes the phase waits for
the release too (log entry 90) and that a split at `bar` waits for the phase in which it marked itself (log entry 110) are the model's
reading. -/
def Obligations.Barriers : Prop :=
  (∀ (s : State) (n : Fin 32) (b : SclB),
    let c := (s.bScl b).toNat
    let x := barOf s s.tk n
    let count := if x.arr = 0 then c else x.count
    let lag := if s.gr.core = s.tm.core then 8 else 48
    let after := if x.arr + 1 = count then { x with count := count, phase := !x.phase, arr := 0, done := s.clock + 1 }
      else { x with count := count, arr := x.arr + 1 }
    let waits := fun (t : State) (own r : Bool) => (t.splits.rd s.cur).wait = .cond (.bar n own r) ∧ (t.splits.rd s.cur).pc = s.sp.pc
    let ready := n < s.tm.bars.length ∧ s.sp.phase = 0 ∧ s.tm.pair = false ∧ ownAccesses s = [] ∧ s.gr.marks = [] ∧ s.gr.markN = [] ∧ s.sp.live = true ∧
      (∀ k ∈ groupSplits s.gk, k ≠ s.cur → (s.splits.rd k).live = false) ∧ c ≠ 0 ∧ c ≤ s.tm.ngroups ∧ (x.arr ≠ 0 → c = x.count)
    (s.tm.bars.length ≤ n →
      (s.sp.phase = 0 → exec (.bar n b) s = .next (s.trap .prot none none 8 11) ∧ exec (.barr n b) s = .next (s.trap .prot none none 8 11)) ∧
      exec (.barw n) s = .next (s.trap .prot none none 8 11)) ∧
    (n < s.tm.bars.length → s.sp.phase = 0 → (c = 0 ∨ c > s.tm.ngroups ∨ (x.arr > 0 ∧ c ≠ x.count)) →
      exec (.bar n b) s = .next (s.trap .barClobber none none 8 1) ∧ exec (.barr n b) s = .next (s.trap .barClobber none none 8 1)) ∧
    (ready →
      (∃ t, exec (.barr n b) s = .next t ∧ GoesOn 2 s.sp (t.splits.rd s.cur) ∧ SameRegisters s t ∧ t.mem = s.mem ∧
        barOf t s.tk n = after ∧ (x.arr + 1 = count → t.agenda.any (fun e => e.ev = .barrierRelease s.tk n ∧ e.due = s.clock + 8) = true)) ∧
      ∃ t, exec (.bar n b) s = .next t ∧ SameRegisters s t ∧ t.mem = s.mem ∧ barOf t s.tk n = after ∧ waits t true x.phase ∧
        (x.arr + 1 = count → (t.splits.rd s.cur).phase = letGo ∧ (t.splits.rd s.cur).until_ = s.clock + lag)) ∧
    (n < s.tm.bars.length → s.sp.phase = 0 → s.tm.pair = false → ownLoads s = [] →
      if x.phase = s.barPhase n then Waits (.barw n) s (.bar n false x.phase)
      else if x.done ≠ 0 ∧ s.clock + 1 < x.done + lag then
        Waits (.barw n) s (.bar n false (s.barPhase n)) ∧ ∃ t, exec (.barw n) s = .next t ∧ (t.splits.rd s.cur).until_ = x.done + lag - 1
      else Passes (.barw n) s)) ∧
  (∀ (s : State),
    (s.gd.coop = false → exec .gbar s = .next (s.trap .gbarNoncoop none none 0 0)) ∧
    (s.gd.coop = true → s.sp.phase = 0 → ownAccesses s ≠ [] → Waits .gbar s (.ops (ownAccesses s))) ∧
    (s.gd.coop = true → s.sp.phase = 1 → s.wtPending s.cr s.sp.aux false = false → s.gr.marks = [] → s.sp.live = true →
      (∀ k ∈ groupSplits s.gk, k ≠ s.cur → (s.splits.rd k).live = false) →
      ∃ t, exec .gbar s = .next t ∧ (t.splits.rd s.cur).wait = .cond (.gbar s.gd.gphase) ∧ (t.splits.rd s.cur).pc = s.sp.pc ∧
        (t.grids.rd s.tm.grid).garr = s.gd.garr ++ [s.gk] ∧ SameRegisters s t ∧ t.mem = s.mem) ∧
    (s.gd.coop = true → s.sp.phase = 3 → s.gd.gphase = s.sp.aux → Waits .gbar s (.gbar s.sp.aux)) ∧
    (s.gd.coop = true → s.sp.phase = 3 → s.gd.gphase ≠ s.sp.aux → ownLoads s = [] → Passes .gbar s))

/-- R202 to R207: arrival-barrier objects in the scratchpad. `abinit` starts a phase; `abarr` counts an arrival and returns the phase
it found; `abexp` adds expected bytes; with no arrival and no byte outstanding the phase is complete; `abwait` waits for the end
of the phase it names. That the address checks come before those of BAR_CLOBBER (log entry 111) is the model's choice. -/
def Obligations.ArrivalBarriers : Prop := ∀ (s : State) (d a : Fin 64) (b : SclB),
  let off := (s.sr a).toNat
  let x := abGet s s.tk off
  let n := (s.bScl b).toNat
  let whole := off % 16 = 0 ∧ off + 16 ≤ s.tm.spSize ∧ ∀ i, i < 4 → s.tm.bad.rd (off / 4 + i) = false
  let clear := whole ∧ armedOver s s.tk off 16 = false
  let complete := abPending x = 1 ∧ abBytes x = 0
  (off % 16 ≠ 0 → exec (.abinit a b) s = .next (s.trap .align (some 0) (some (s.sr a)) 8 7) ∧
    exec (.abexp a b) s = .next (s.trap .align (some 0) (some (s.sr a)) 8 7)) ∧
  (whole → n = 0 ∨ n > 65535 → exec (.abinit a b) s = .next (s.trap .barClobber none none 8 2)) ∧
  (clear → n ≠ 0 → n ≤ 65535 → ∃ t, exec (.abinit a b) s = .next t ∧ GoesOn 2 s.sp (t.splits.rd s.cur) ∧ SameRegisters s t ∧ t.mem = s.mem ∧
    (let y := abGet t s.tk off
     abExpected y = n ∧ abPending y = n ∧ abPhase y = false ∧ abBytes y = 0) ∧
    ∀ k, k < off ∨ off + 16 ≤ k → (t.teams.rd s.tk).scratch.rd k = s.tm.scratch.rd k) ∧
  (whole → s.sp.phase = 0 → s.tm.pair = false → ownAccesses s = [] → abPending x = 0 →
    exec (.abarr d a) s = .next ((s.phased 2).trap .barClobber none none 8 2)) ∧
  (whole → s.sp.phase = 0 → s.tm.pair = false → ownAccesses s = [] → abPending x ≠ 0 →
    ∃ t, exec (.abarr d a) s = .next t ∧ GoesOn 2 s.sp (t.splits.rd s.cur) ∧ t.mem = s.mem ∧
      ScalarPut (.abarr d a) s t d (if abPhase x then 1 else 0) ∧
      (let y := abGet t s.tk off
       abExpected y = abExpected x ∧
       if complete then abPending y = abExpected x ∧ abPhase y = !abPhase x ∧ abBytes y = 0
       else abPending y = abPending x - 1 ∧ abPhase y = abPhase x ∧ abBytes y = abBytes x)) ∧
  (whole → n < 2 ^ 35 → abBytes x + n < 2 ^ 35 → ¬ (abPending x = 0 ∧ abBytes x + n = 0) →
    ∃ t, exec (.abexp a b) s = .next t ∧ GoesOn 2 s.sp (t.splits.rd s.cur) ∧ SameRegisters s t ∧ t.mem = s.mem ∧
      (let y := abGet t s.tk off
       abExpected y = abExpected x ∧ abPending y = abPending x ∧ abPhase y = abPhase x ∧ abBytes y = abBytes x + n)) ∧
  (whole → s.sp.phase = 0 → s.tm.pair = false → ownLoads s = [] →
    if abPhase x = (s.bScl b).getLsbD 0 then Waits (.abwait a b) s (.abar off ((s.bScl b).getLsbD 0)) else Passes (.abwait a b) s)

/-- R51: a lane instruction whose effective mask is all zeros only ends: it writes no register and no predicate, raises no flag,
makes no access, counts on nothing and takes no fault, whatever its operands; an `exit` then retires no lane. -/
def Obligations.EmptyMask : Prop := ∀ (i : Instr) (s : State), s.act = 0 →
  (isLaneInstr i = true → exec i s = .next (s.adv i.parcels) ∧ NoResult i s) ∧
  (i = .exit → ∃ t, exec i s = .next t ∧ (t.splits.rd s.cur).lanes = s.sp.lanes ∧ (∀ k, k ≠ s.cur → t.splits.rd k = s.splits.rd k) ∧
    Group.alike s.gr (t.groups.rd s.gk))

/-! ### The chart engine and the matrix unit (13_chart_engine.md, 14_matrix.md) -/

/-- R213, R214, R218 to R220, R225 to R230: a transfer that passes its checks goes to its die's engine as one operation on flag B,
on path 0 where it lands without an arrival barrier, with the record that its slot holds then. A slot that holds none traps with
RECORD, a record of the wrong kind likewise, a misplaced layout with ALIGN. `trec` reads 64 bytes; when it retires, its slot holds
the record, or, where the record fails a check, a RECORD trap with the check's code is deferred and the slot stays.
The trap of a misaligned list (log entry 43), of uncorrectable words (log entry 95) and what an operand register beyond s63 gives (log
entry 108) are the model's choice. -/
def Obligations.ChartTransfers : Prop := ∀ (s : State) (n : Fin 16) (c a : Fin 64) (tr ab : Bool),
  let die := dieOfCore s.cr
  let r := s.tm.chart.rd n
  let f := recField r 64 4
  let off := (s.sr a).toNat % 2 ^ 32
  let bar := (s.sr a).toNat / 2 ^ 32
  let list := (s.sr c).toNat / 2 ^ 32
  let idle := s.full s.fb = false ∧ (s.dies.rd die).chartQ.length < 256 ∧ s.tm.chartSet.getLsbD n = true
  let x := fun tr => (Xfer.mk r tr off [] false [])
  let room := fun (bytes : Nat) => off % 32 = 0 ∧ off + bytes ≤ s.tm.spSize
  let arrives := if ab = true then bar % 16 = 0 ∧ bar + 16 ≤ s.tm.spSize else s.pathFull 0 = false
  let origin := (chArr r = 1 → ((s.sr c).setWidth 32).toInt % 32 = 0) ∧ (chBits r = 4 → ((s.sr c).setWidth 32).toInt % 2 = 0)
  let sound := s.tm.bad = []
  let plain := chArr r < 2 ∧ (tr = true → chArr r = 0 ∧ (chBits r = 4 → chBox r 1 % 2 = 0))
  let I := fun (i : Instr) (sub : Nat) (tr ab : Bool) (path : Nat) => Issues i s s.fb fun t id o =>
    o.kind = .chart sub n tr ab ∧ o.cls = 3 ∧ o.path = path ∧ o.rec_ = r ∧ o.a = (if sub = 5 then 0 else s.sr a) ∧ o.b = s.sr c ∧
    o.b1 = (if c.val + 1 ≤ 63 then s.sr (c.val + 1) else 0) ∧ o.b2 = (if c.val + 2 ≤ 63 then s.sr (c.val + 2) else 0) ∧
    t.mem = s.mem ∧ t.slices = s.slices ∧ (t.dies.rd die).chartQ = (s.dies.rd die).chartQ ++ [id] ∧
    t.agenda.any (·.ev = .chartTransferStart die) = true
  (idle → plain → room (x tr).bytes → arrives → origin → I (.tcopy tr ab n c a) 1 tr ab (if ab then 0 else 1)) ∧
  (idle → sound → plain → room (x tr).bytes → origin → I (.tstore tr n c a) 2 tr false 0) ∧
  (idle → sound → chArr r = 1 → 5 ≤ f → f ≤ 9 → room ((x false).rows * (x false).pitchE 32) → origin → I (.tquant n c a) 3 false false 0) ∧
  (idle → sound → chArr r = 2 → room (x false).bytes → list % 4 = 0 → list + 4 * chBox r 1 ≤ s.tm.spSize → arrives → origin →
    I (.tgath ab n c a) 4 false ab (if ab then 0 else 1)) ∧
  (idle → chArr r < 2 → origin → I (.tfill n c) 5 false false 0) ∧
  (idle → sound → f = 0 → chArr r = 0 → room ((x false).rows * (x false).pitchE 32) → I (.tred n c a) 6 false false 0) ∧
  (s.full s.fb = false → (s.dies.rd die).chartQ.length < 256 → s.pathFull 0 = false → s.tm.chartSet.getLsbD n = false →
    ∀ i ∈ [Instr.tcopy tr ab n c a, .tstore tr n c a, .tquant n c a, .tgath ab n c a, .tfill n c, .tred n c a],
      exec i s = .next (s.trap .record none none 16 0x106)) ∧
  (idle → chArr r ≠ 2 → s.pathFull 0 = false → exec (.tgath ab n c a) s = .next (s.trap .record none none 16 0x107)) ∧
  (idle → chArr r ≠ 1 → exec (.tquant n c a) s = .next (s.trap .record none none 16 0x107)) ∧
  (idle → plain → room (x tr).bytes → origin → scratchBad s.tm [(off, (x tr).bytes)] = true → exec (.tstore tr n c a) s = .next s.poisonRead) ∧
  (idle → plain → off % 32 ≠ 0 → exec (.tstore tr n c a) s = .next (s.trap .align (some 0) (some (BitVec.ofNat 64 off)) 8 6)) ∧
  (s.full s.fa = false →
    ((s.sr a).toNat % 64 ≠ 0 → exec (.trec n a) s = .next (s.trap .align (some 0) (some (s.sr a)) 8 4)) ∧
    ((s.sr a).toNat % 64 = 0 → Mapped s true false 4 ((List.range 16).map fun i => (64 + i, s.sr a + BitVec.ofNat 64 (4 * i))) →
      IssuesQuietly (.trec n a) s s.fa fun t id o => o.kind = .trec n ∧ o.returning = true ∧ o.a = s.sr a ∧
        (t.agenda.any fun e => match e.ev with
          | .homeSliceRead q => q.op == id
          | _ => false) = true)) ∧
  ∀ (id : Nat) (o : Op), s.ops.rd id = o → o.live = true → o.need = 0 → o.kind = .trec n → o.returning = true → o.failed = false →
    o.bad = 0 → o.badS = false →
    ∃ t, exec (.operationRetire id) s = .next t ∧ (t.ops.rd id).live = false ∧ t.mem = s.mem ∧
      (let T := t.teams.rd (o.split / 512)
       let S := s.teams.rd (o.split / 512)
       if trecCode o.record = 0 then T.chart.rd n = o.record ∧ T.chartSet.getLsbD n = true ∧ ∀ m, m ≠ n.val → T.chart.rd m = S.chart.rd m
       else T.chart = S.chart ∧ T.chartSet = S.chartSet ∧ (o.discard = false →
         ∃ d, d ∈ (t.splits.rd o.split).defer ∧ d.id = id ∧ d.trap.cause = .record ∧ d.trap.info.toNat % 2 ^ 16 = 256 + trecCode o.record))

/-- R231 to R241, R247, R248: a matrix instruction that passes its checks takes its place behind the group's earlier ones, and
nothing else changes until it is applied; then `aclr` clears its tile, `aput` puts its registers there, `amov` gives the words of
its tile to its registers, a `mma` or `mmas` whose operands have been read adds to every element of each active octet's tile (FP64: two
tiles), and `ast` lands its tile's elements in eight rows, any number of them at a time, in the order of issue. A misaligned operand traps with ALIGN and its offset, a
byte past the scratchpad with PROT and the lowest such offset. `unf` checks and sets a descriptor; a `mma` that names an empty one
traps. What issues carries its operands: the scalar registers of a `mma`, `mmas` or `ast`, the descriptor of an unfolded A, the words
that `aput` reads, and `amov`'s destination.
The trap of a misaligned pitch (log entry 97), that of several misaligned operands A's comes first (log entry 127) and when unf writes
(log entry 45) are the model's reading. -/
def Obligations.MatrixOperations : Prop := ∀ (s : State) (f : Fmt) (tile : Fin 16) (n : Fin 4) (d va : Fin 128) (a b : Fin 64),
  NoPoison s → s.gr.badT = [] → s.tm.bad = [] →
  let m := s.act
  let in_ := fun (l : List (Nat × Nat)) => ∀ q ∈ l, q.1 + q.2 ≤ s.tm.spSize
  let al := fun (k : Nat) (x : W64) => lo32 x % k = 0 ∧ hi32 x % k = 0
  let base : Op := { lanes := m }
  let T := fun (i : Instr) (c : Cause) (off : Nat) (k : W64) => exec i s = .next (s.trap c none (some (BitVec.ofNat 64 off)) 8 k)
  let past := fun (l : List (Nat × Nat)) (off : Nat) =>
    let has := fun k => s.tm.spSize ≤ k ∧ ∃ q ∈ l, q.1 ≤ k ∧ k < q.1 + q.2
    has off ∧ ∀ k, has k → off ≤ k
  let rows := (List.range 8).map fun r => (lo32 (s.sr a) + r * astPitch f (s.sr a), astRow f)
  let I := fun (i : Instr) (flag sub path : Nat) (f : Fmt) (P : Op → Prop) => Issues i s flag fun t id o =>
    P o ∧ o.kind = .mtx sub f tile ∧ o.lanes = m ∧ o.need = 1 ∧ o.path = path ∧ o.returning = (sub == mAmov) ∧ (t.groups.rd s.gk).mtx = s.gr.mtx ++ [id] ∧
    t.agenda.any (·.ev = .matrixPassWrite s.gk) = true ∧ t.mem = s.mem ∧ t.slices = s.slices
  let reads := fun (sub : Nat) (o : Op) => o.todo = (mmaReads o sub f).map (·.1)
  let w := s.gr.width
  (m = 0 → ∀ i ∈ [Instr.mma f tile a b, .mmaUnfold f n tile b, .mmas f tile a b, .aclr tile, .amov d tile, .aput tile va, .ast f tile a],
    NoResult i s) ∧
  (m ≠ 0 → s.full s.fb = false →
    (al 32 (s.sr a) → al 32 (s.sr b) → in_ (mmaRanges { base with a := s.sr a, b := s.sr b } mMma f) →
      I (.mma f tile a b) s.fb mMma 0 f fun o => o.a = s.sr a ∧ o.b = s.sr b ∧ o.b2 = 0 ∧ reads mMma o) ∧
    (¬ al 32 (s.sr a) → T (.mma f tile a b) .align (lo32 (s.sr a)) 6 ∧ T (.mmas f tile a b) .align (lo32 (s.sr a)) 6) ∧
    (al 32 (s.sr a) → ¬ al 32 (s.sr b) → T (.mma f tile a b) .align (lo32 (s.sr b)) 6 ∧ T (.mmas f tile a b) .align (lo32 (s.sr b)) 6) ∧
    (al 32 (s.sr a) → al 32 (s.sr b) →
      (∀ off, past (mmaRanges { base with a := s.sr a, b := s.sr b } mMma f) off → T (.mma f tile a b) .prot off 6) ∧
      (¬ al 4 (s.sr (a + 1 : Nat)) → T (.mmas f tile a b) .align (lo32 (s.sr (a + 1 : Nat))) 6) ∧
      (al 4 (s.sr (a + 1 : Nat)) → ¬ al 4 (s.sr (b + 1 : Nat)) → T (.mmas f tile a b) .align (lo32 (s.sr (b + 1 : Nat))) 6)) ∧
    (s.gr.unfSet.getLsbD n = false → exec (.mmaUnfold f n tile b) s = .next (s.trap .record none none 16 0x206)) ∧
    (s.gr.unfSet.getLsbD n = true → ufField (s.gr.unf.rd n) 0 20 % 32 ≠ 0 →
      T (.mmaUnfold f n tile b) .align (ufField (s.gr.unf.rd n) 0 20) 6) ∧
    (s.gr.unfSet.getLsbD n = true → ufField (s.gr.unf.rd n) 0 20 % 32 = 0 → al 32 (s.sr b) →
      in_ (mmaRanges { base with b := s.sr b, b1 := s.sr (b + 1 : Nat), b2 := 1, rec_ := (s.gr.unf.rd n).setWidth 512 } mMma f) →
      I (.mmaUnfold f n tile b) s.fb mMma 0 f fun o =>
        o.b = s.sr b ∧ o.b1 = s.sr (b + 1 : Nat) ∧ o.b2 = 1 ∧ o.rec_.setWidth 128 = s.gr.unf.rd n ∧ reads mMma o) ∧
    (al 32 (s.sr a) → al 32 (s.sr b) → al 4 (s.sr (a + 1 : Nat)) → al 4 (s.sr (b + 1 : Nat)) →
      in_ (mmaRanges { base with a := s.sr a, a1 := s.sr (a + 1 : Nat), b := s.sr b, b1 := s.sr (b + 1 : Nat) } mMmas f) →
      I (.mmas f tile a b) s.fb mMmas 0 f fun o => o.a = s.sr a ∧ o.a1 = s.sr (a + 1 : Nat) ∧ o.b = s.sr b ∧ o.b1 = s.sr (b + 1 : Nat) ∧
        o.b2 = 0 ∧ reads mMmas o) ∧
    I (.aclr tile) s.fb mAclr 0 .f32 (fun _ => True) ∧
    I (.aput tile va) s.fb mAput 0 .f32 (fun o => (∀ k, k ∈ o.todo ↔ ∃ j p, j < 128 / w ∧ m.getLsbD p = true ∧ k = j * w + p) ∧
      ((∀ p, m.getLsbD p = true → p < w) → ∀ j p, j < 128 / w → m.getLsbD p = true → o.res.rd (j * w + p) = s.gr.vr (va + j) p)) ∧
    (s.pathFull 2 = false →
      (¬ al 32 (s.sr a) → T (.ast f tile a) .align (lo32 (s.sr a)) 7) ∧
      (al 32 (s.sr a) → (∀ off, past rows off → T (.ast f tile a) .prot off 7) ∧ (in_ rows → I (.ast f tile a) s.fb mAst 3 f fun o => o.a = s.sr a)))) ∧
  (m ≠ 0 → s.full s.fa = false → I (.amov d tile) s.fa mAmov 0 .f32 fun o => o.a.toNat = d.val) ∧
  (let D := s.sr (a + 1 : Nat) ++ s.sr a
   let u := fun lo k => D.toNat / 2 ^ lo % 2 ^ k
   let T := fun (code : W64) => exec (.unf n a) s = .next (s.trap .record none none 16 code)
   if u 56 8 ≠ 0 ∨ u 120 8 ≠ 0 then T 0x201
   else if u 20 12 = 0 ∨ u 32 12 = 0 ∨ u 44 12 = 0 ∨ u 108 12 = 0 ∨ u 96 12 = 0 then T 0x202
   else if u 0 20 % 32 ≠ 0 then T 0x203
   else ∃ t, Plain (.unf n a) s t ∧ Split.alike s.sp (t.splits.rd s.cur) ∧
     (let g := t.groups.rd s.gk
      Group.alike { s.gr with unf := g.unf, unfSet := g.unfSet } g ∧
      ∀ k : Fin 4, g.unf.rd k = (if k = n then D else s.gr.unf.rd k) ∧ g.unfSet.getLsbD k = (s.gr.unfSet.getLsbD k || k == n))) ∧
  ∀ (g id : Nat) (rest : List Nat) (o : Op), (s.groups.rd g).mtx = id :: rest → s.ops.rd id = o → o.live = true → o.need = 1 →
    let G := s.groups.rd g
    let E := fun (P : State → Group → Prop) => ∃ t, exec (.matrixPassWrite g) s = .next t ∧ (t.groups.rd g).mtx = rest ∧ t.mem = s.mem ∧
      t.agenda.any (·.ev = .operationRetire id) = true ∧ P t (t.groups.rd g)
    id ∉ rest →
    (o.kind = .mtx mAclr .f32 tile → E fun _ G' => ∀ k, G'.tile.rd k = if k / 128 = tile.val then 0 else G.tile.rd k) ∧
    (o.kind = .mtx mAput .f32 tile → (∀ w ∈ o.todo, w < 128) → E fun _ G' => ∀ k,
      G'.tile.rd k = if k / 128 = tile.val ∧ k % 128 ∈ o.todo then o.res.rd (k % 128) else G.tile.rd k) ∧
    (o.kind = .mtx mAmov .f32 tile → E fun t G' => G'.tile = G.tile ∧ ∀ j p, j < 128 / G.width → o.lanes.getLsbD p = true →
      (t.ops.rd id).res.rd (64 * (o.a.toNat + j) + p) = G.tile.rd (128 * tile + j * G.width + p)) ∧
    (∀ sub, sub = mMma ∨ sub = mMmas → o.kind = .mtx sub f tile → o.todo = [] →
      (f ≠ .f64 → E fun _ G' => ∀ q i col, q ∈ octets o.lanes → i < 8 → col < 16 →
        G'.tile.rd (128 * (tile + q) + 16 * i + col) =
          BitVec.ofNat 32 (accStep f (G.tile.rd (128 * (tile + q) + 16 * i + col)).toNat o sub (8 * q + i) col)) ∧
      (f = .f64 → E fun _ G' => ∀ q i col, q ∈ octets o.lanes → i < 8 → col < 16 →
        let k := 128 * (tile + 2 * q + i / 4) + 32 * (i % 4) + 2 * col
        (G'.tile.rd (k + 1) ++ G'.tile.rd k : W64) =
          BitVec.ofNat 64 (accStep f (G.tile.rd (k + 1) ++ G.tile.rd k : W64).toNat o sub (8 * q + i) col))) ∧
    (o.kind = .mtx mAst f tile → o.started = true → o.todo.Nodup → (∀ j ∈ o.todo, j < (astLands f G tile o.a).length) →
      astRow f ≤ astPitch f o.a → (∀ c, (s.cores.rd c).armed = []) →
      let at_ := fun r => lo32 o.a + r * astPitch f o.a
      let e := Fmt.pitch f
      let row := 16 + (astRow f - 2 * e)
      let bits := fun (u : State) r col => scratchBits u (o.split / 512) (8 * at_ r + col * e) e
      let byte := fun (u : State) r k => (u.teams.rd (o.split / 512)).scratch.rd (at_ r + k)
      let lands := fun j => (List.range o.todo.length).any fun k => o.todo[k]? == some j && Config.pick (s.tick + k) % 2 == 0
      ∃ t, exec (.matrixPassWrite g) s = .next t ∧ t.mem = s.mem ∧ (t.groups.rd g).tile = G.tile ∧
        (∀ r, r < 8 →
          (∀ col, col < 16 → bits t r col = if lands (row * r + col) then astElem f G tile r col % 2 ^ e else bits s r col) ∧
          ∀ k, 2 * e ≤ k → k < astRow f → byte t r k = if lands (row * r + 16 + (k - 2 * e)) then 0 else byte s r k) ∧
        if o.todo.all lands then (t.groups.rd g).mtx = rest ∧ t.agenda.any (·.ev = .operationRetire id) = true
        else (t.groups.rd g).mtx = id :: rest ∧ ∀ j, j ∈ (t.ops.rd id).todo ↔ j ∈ o.todo ∧ lands j = false)

/-! ### Render targets (15_targets.md) -/

/-- R272 to R274, R257: `vemit` stores a vertex for each active lane of a vertex kernel, once; `intrp` gives a fragment kernel the
attributes, the depth, the pixel word, the coverage in its draw's lowest slot, and the helper bit of each lane; `fpost` marks its
lanes as posted and sends one post for each lane with coverage, masked by its operand. Each traps with the lowest TARGET code that
holds.
What an uncovered lane marks (log entry 49) and the order of TARGET codes (log entry 50) are the model's reading. -/
def Obligations.VertexAndFragment : Prop := ∀ (s : State) (d a : Fin 128) (b : SclB), NoPoison s →
  let n := (s.bScl b).toNat % 2 ^ 32
  let vert := fun p => Vert.mk true ((List.range 4).map fun i => s.gr.vr (a + i) p) ((List.range n).map fun i => s.gr.vr (d + i) p)
  let t := s.slot s.pt n
  let cov := fun p => (s.gr.frag.rd p).cov.rd n
  let ps := (positions s.wact).filter fun p => cov p != 0
  let va := fun p => lineVa t.rec_ 0 (s.gr.frag.rd p).x (s.gr.frag.rd p).y
  (s.act ≠ 0 → s.full s.fb = false →
    (s.tm.kind ≠ .vertex → exec (.vemit d a b) s = .next (s.targetTrap 0 2)) ∧
    (s.tm.kind = .vertex →
      if ((positions s.act).any fun p => (s.dw.verts.rd (s.vertexOf p)).has) = true then exec (.vemit d a b) s = .next (s.targetTrap 0 3)
      else if s.gr.vc < a + 4 ∨ (n ≠ 0 ∧ s.gr.vc < d + n) then exec (.vemit d a b) s = .next (s.targetTrap 0 5)
      else if n ≠ drawAttrs s.dw then exec (.vemit d a b) s = .next (s.targetTrap 0 6)
      else IssuesQuietly (.vemit d a b) s s.fb fun t _ o => o.kind = .vemit ∧ o.lanes = s.act ∧ o.need = 0 ∧
        (∀ p, s.act.getLsbD p = true → (∀ q, s.act.getLsbD q = true → s.vertexOf q = s.vertexOf p → q = p) →
          (t.draws.rd s.gd.draw).verts.rd (s.vertexOf p) = vert p) ∧
        ∀ k, (∀ p, s.act.getLsbD p = true → s.vertexOf p ≠ k) → (t.draws.rd s.gd.draw).verts.rd k = s.dw.verts.rd k)) ∧
  (s.act ≠ 0 → s.tm.kind ≠ .fragment → exec (.intrp d b) s = .next (s.targetTrap 0 2)) ∧
  (s.act ≠ 0 → s.tm.kind = .fragment → n > 19 → exec (.intrp d b) s = .next (s.targetTrap 0 6)) ∧
  (s.tm.kind = .fragment → n ≤ 19 → LaneResult (.intrp d b) s d fun p =>
    let f := s.gr.frag.rd p
    if n = 17 then BitVec.ofNat 32 (f.x % 2 ^ 14 + 2 ^ 14 * (f.y % 2 ^ 14))
    else if n = 18 then f.cov.rd ((drawSlots s.dw).headD 0)
    else if n = 19 then (if f.helper then 1 else 0)
    else s.intrpValue n p) ∧
  (s.wact ≠ 0 → s.full s.fb = false →
    if n > 15 ∨ t.bound = false then exec (.fpost d a b) s = .next (s.targetTrap n 1)
    else if s.tm.kind ≠ .fragment then exec (.fpost d a b) s = .next (s.targetTrap n 2)
    else if ((positions s.wact).any fun p => (s.gr.frag.rd p).posted.getLsbD n) = true then exec (.fpost d a b) s = .next (s.targetTrap n 3)
    else if n ∉ drawSlots s.dw then exec (.fpost d a b) s = .next (s.targetTrap n 4)
    else if t.m ≠ 0 ∧ s.gr.vc < d + t.m then exec (.fpost d a b) s = .next (s.targetTrap n 5)
    else MappedDirty s false 1 (ps.map fun p => (p, va p)) → (s.cores.rd s.cr).posts.length + ps.length ≤ 64 →
      IssuesQuietly (.fpost d a b) s s.fb fun u id o => o.kind = .post ∧ o.lanes = maskOf ps ∧ o.need = ps.length ∧
        (∀ p, (u.groups.rd s.gk).frag.rd p =
          if s.wact.getLsbD p = true then { s.gr.frag.rd p with posted := (s.gr.frag.rd p).posted ||| (1#16 <<< n) } else s.gr.frag.rd p) ∧
        ∀ p ∈ ps, ∃ h w, s.fate false true false 1 (p, va p) = .ok h w ∧
          (let c := cov p &&& (s.gr.vr a p &&& BitVec.ofNat 32 (2 ^ recSamples t.rec_ - 1))
           let post : Post := { core := s.cr, part := s.pt, op := id, grid := s.tm.grid, slot := n, line := h.pa / 128
                                x := (s.gr.frag.rd p).x, y := (s.gr.frag.rd p).y, draw := drawNumber s.dw, ord := (s.gr.frag.rd p).ord
                                cov := c, words := (List.range t.m).map fun i => s.gr.vr (d + i) p, c := h.c, key := s.gd.draw }
           if c = 0 then u.agenda.any (·.ev = .nullPost post) = true
           else u.agenda.any (·.ev = .fragmentPost post) = true ∧ post ∈ (u.cores.rd s.cr).posts))

/-- R266 to R268, R275 to R278: `tbind` is a supervisor instruction that reads a 64-byte record, or unbinds with address 0; a
`tmeth` sends one request to each line of its rectangle, `tsample` one to the line of each active lane's pixel, and `tex` and
`texf` read texels. A slot that is not bound traps with TARGET code 1, the fourth mode of `tmeth` with code 6.
The order of TARGET codes (log entry 50) is the model's reading. -/
def Obligations.TargetAccesses : Prop := ∀ (s : State) (d a : Fin 128) (e f k : Fin 64) (b : SclB), NoPoison s → NoPending s →
  let slot := min (s.bScl b).toNat 16
  let va := s.sr e
  let record := (List.range 16).map fun i => (64 + i, va + BitVec.ofNat 64 (4 * i))
  (s.isSup = false → exec (.tbind f e b) s = .next (s.prot 0)) ∧
  (s.isSup = true → s.full s.fa = false →
    (va.toNat % 64 ≠ 0 → exec (.tbind f e b) s = .next (s.trap .align (some 0) (some va) 8 4)) ∧
    (va = 0 → IssuesQuietly (.tbind f e b) s s.fa fun _ _ o => o.kind = .tbind slot f ∧ o.returning = true ∧ o.need = 0) ∧
    (va ≠ 0 → va.toNat % 64 = 0 → Mapped s true false 4 record →
      IssuesQuietly (.tbind f e b) s s.fa fun _ _ o => o.kind = .tbind slot f ∧ o.returning = true)) ∧
  (let ctl := s.sr (k + 1 : Nat)
   let n := ctl.toNat % 16
   let t := s.slot s.pt n
   let rec_ := t.rec_
   let ls := rectLines rec_ (rectOf rec_ (s.sr k))
   let vas := ls.map fun l => (64, lineVa rec_ 0 l.1 l.2.1)
   let M := fun (i : Instr) (w : Bool) (mode : Nat) (args : List W64) => IssuesQuietly i s s.fb fun u id o =>
     o.kind = .tmeth ∧ o.need = ls.length ∧ ∀ l ∈ ls, ∃ h x, s.fate (!w) w false 1 (64, lineVa rec_ 0 l.1 l.2.1) = .ok h x ∧
       u.agenda.any (·.ev = .tmethInvocation { core := s.cr, part := s.pt, op := id, grid := s.tm.grid, slot := n, mode := mode, line := h.pa / 128
                                               x := l.1, y := l.2.1, bits := l.2.2, args := args, c := h.c }) = true
   (s.full s.fb = false → t.bound = false →
     (∀ m3, exec (.tmeth m3 e k) s = .next (s.targetTrap n 1)) ∧ exec (.tmethClear e k) s = .next (s.targetTrap n 1) ∧
     exec (.tmethResolve k) s = .next (s.targetTrap n 1)) ∧
   (s.full s.fb = false → t.bound = true →
     exec (.tmeth true e k) s = .next (s.targetTrap n 6) ∧
     (t.m ≠ 0 → 64 < e + t.m → exec (.tmeth false e k) s = .next (s.targetTrap n 5)) ∧
     (ctl.toNat < 16 →
       (t.m = 0 ∨ e + t.m ≤ 64 → MappedDirty s false 1 vas → M (.tmeth false e k) true 0 ((List.range t.m).map fun i => s.sr (e + i : Nat))) ∧
       (MappedDirty s false 1 vas → M (.tmethClear e k) true 1 [s.sr e]) ∧
       (if recSamples rec_ = 1 ∨ recField rec_ 116 1 = 0 then exec (.tmethResolve k) s = .next (s.targetTrap n 7)
        else Mapped s true false 1 vas → M (.tmethResolve k) false 2 [s.sr 0]))) ∧
   (s.act ≠ 0 → s.full s.fa = false →
     let w := s.gr.vr a
     let inside := fun p => !(w p).getLsbD 31 && pixX (w p) < recWidth rec_ && pixY (w p) < recHeight rec_ && pixS (w p) < recSamples rec_
     let word := fun p => sampleWord rec_ (pixInLine rec_ (pixX (w p)) (pixY (w p))) (pixS (w p))
     let at_ := fun p => (p, lineVa rec_ 0 (pixX (w p)) (pixY (w p)) + BitVec.ofNat 64 (4 * word p))
     let ins := (positions s.act).filter inside
     let T := fun (i : Instr) (settle : Bool) => IssuesQuietly i s s.fa fun u id o =>
       o.kind = .sample ∧ o.returning = true ∧ o.lanes = s.act ∧ o.need = ins.length ∧
       ∀ p ∈ ins, ∃ h x, s.fate true false false 1 (at_ p) = .ok h x ∧
         u.agenda.any (·.ev = .tsampleRead { core := s.cr, part := s.pt, op := id, lane := p, line := h.pa / 128
                                             pix := pixInLine rec_ (pixX (w p)) (pixY (w p)), word := word p, nwords := recWords rec_
                                             fence := s.fenceOf (s.sr k).toNat p, settle := settle, c := h.c, dreg := d }) = true
     if t.bound = false then ∀ i ∈ [Instr.tsample d a k, .tsampleSettle d a k], exec i s = .next (s.targetTrap n 1)
     else if s.gr.vc < d + recWords rec_ then ∀ i ∈ [Instr.tsample d a k, .tsampleSettle d a k], exec i s = .next (s.targetTrap n 5)
     else if 16 ≤ ctl.toNat then ∀ i ∈ [Instr.tsample d a k, .tsampleSettle d a k], exec i s = .next (s.targetTrap n 6)
     else Mapped s true false 1 (ins.map at_) → T (.tsample d a k) false ∧ T (.tsampleSettle d a k) true)) ∧
  (s.act ≠ 0 → s.full s.fa = false →
    let x := (s.bScl b).toNat % 2 ^ 32
    let n := x % 16
    let t := s.slot s.pt n
    let arg := fun p i => s.gr.vr (a + i) p
    let px := s.gr.vr a
    let words := List.range (recWords t.rec_)
    (let texels := (positions s.act).flatMap fun p => ((texPlan t.rec_ (x / 16 % 4) (arg p 0) (arg p 1) (arg p 2)).mapIdx fun j y =>
        words.map fun i => (texKey j i (recWords t.rec_) p, sampleVa t.rec_ y.l y.i y.j 0 i)).flatten
     if t.bound = false then exec (.tex d a b) s = .next (s.targetTrap n 1)
     else if s.gr.vc < d + 4 ∨ s.gr.vc < a + 3 then exec (.tex d a b) s = .next (s.targetTrap n 5)
     else if x / 16 % 4 = 3 ∨ 64 ≤ x then exec (.tex d a b) s = .next (s.targetTrap n 6)
     else if recSamples t.rec_ ≠ 1 then exec (.tex d a b) s = .next (s.targetTrap n 7)
     else Mapped s true false 1 texels →
       IssuesQuietly (.tex d a b) s s.fa fun _ _ o => o.kind = .tex n (x / 16 % 4) d ∧ o.returning = true ∧ o.lanes = s.act ∧ o.rec_ = t.rec_ ∧
         ∀ p i, s.act.getLsbD p = true → i < 3 → o.sres.rd (4 * p + i) = (arg p i).setWidth 64) ∧
    (let l := x / 16 % 16
     let texels := ((positions s.act).filter fun p => texfInside t.rec_ l (px p)).flatMap fun p =>
       words.map fun i => (texKey 0 i (recWords t.rec_) p, sampleVa t.rec_ l (pixX (px p)) (pixY (px p)) (pixS (px p)) i)
     if t.bound = false then exec (.texf d a b) s = .next (s.targetTrap n 1)
     else if s.gr.vc < d + recWords t.rec_ then exec (.texf d a b) s = .next (s.targetTrap n 5)
     else if 256 ≤ x then exec (.texf d a b) s = .next (s.targetTrap n 6)
     else Mapped s true false 1 texels →
       IssuesQuietly (.texf d a b) s s.fa fun _ _ o => o.kind = .texf n l d ∧ o.returning = true ∧ o.lanes = s.act ∧ o.rec_ = t.rec_ ∧
         ∀ p, s.act.getLsbD p = true → o.sres.rd (4 * p) = (px p).setWidth 64))

/-! ### Rays and regrouping (16_rays.md) -/

/-- R285 to R291: `rtrace` starts the rays of its active lanes from its eight registers and its root, which must be aligned to 128
bytes and canonical; `rnext` goes on with the suspended ones, `racc` commits them, and `rhit` gives a field of each lane's latest
record. Each waits in place while a lane's ray is under way. Then the traversal: a ray with an empty stack ends with its best
candidate or as a miss, and its record goes to its three registers at once (R286); a node farther than the ray's current end is passed over; a node at an address that is not canonical ends
the ray with error 3; a node whose page is missing parks it.
Which references are checked and how a root traps (log entry 42) and that `rhit` reads bits [31:0] of its operand (log entry 100) are the
model's reading. -/
def Obligations.Rays : Prop := ∀ (s : State) (d a : Fin 128) (b : Fin 64) (k : SclB) (g p : Nat), NoPoison s →
  let ray := s.gr.ray.rd
  let busy := rayBusy s s.act
  let root := s.sr b
  let vec := fun p => (List.range 8).map fun i => s.gr.vr (a + i) p
  let Start := fun (i : Instr) (ps : List Nat) (f : Nat → Ray) => IssuesQuietly i s s.fa fun t id o =>
    o.kind = .ray ∧ o.returning = true ∧ o.lanes = maskOf ps ∧ o.need = ps.length ∧ o.a = BitVec.ofNat 64 d ∧
    (∀ p, (t.groups.rd s.gk).ray.rd p = if p ∈ ps then { f p with op := id, busy := true, susp := false } else ray p) ∧
    ∀ p ∈ ps, t.agenda.any (·.ev = .rayRecord s.gk p) = true
  let T := fun (any : Bool) (i : Instr) => s.act ≠ 0 →
    if root.toNat % 128 ≠ 0 then exec i s = .next (s.trap .align none (some root) 8 14)
    else if canonical root = false then exec i s = .next (s.trap .prot none (some root) 8 14)
    else if busy = true ∨ s.full s.fa = true then exec i s = .next s
    else Start i (positions s.act) fun p =>
      { any := any, vec := vec p, root := root, tcur := s.gr.vr (a + 7) p
        stack := if root = 0 ∨ degenerate (vec p) = true then [] else [{ addr := root, tn := 0xFF800000 }] }
  let ps := (positions s.act).filter fun p => (ray p).susp
  T false (.rtrace d a b) ∧ T true (.rtraceAny d a b) ∧
  (busy = true → exec (.rnext d) s = .next s ∧ exec .racc s = .next s ∧ exec (.rhit d k) s = .next s) ∧
  (busy = false →
    (if ps = [] then NoResult (.rnext d) s else if s.full s.fa = true then exec (.rnext d) s = .next s else Start (.rnext d) ps ray) ∧
    (∃ t, Plain .racc s t ∧ Split.alike s.sp (t.splits.rd s.cur) ∧ Group.alike { s.gr with ray := (t.groups.rd s.gk).ray } (t.groups.rd s.gk) ∧
      ∀ p, (t.groups.rd s.gk).ray.rd p =
        if p ∈ ps then { ray p with susp := false, stack := [], rec_ := { (ray p).rec_ with st := ((ray p).rec_.st &&& ~~~11#32) ||| 1#32 } }
        else ray p) ∧
    LaneResult (.rhit d k) s d fun p =>
      let r := (ray p).rec_
      if (ray p).has = false then 0
      else [r.t, r.u, r.v, r.id, r.st, r.leaf.setWidth 32, (r.leaf >>> 32).setWidth 32, BitVec.ofNat 32 (ray p).visited].getD ((s.bScl k).toNat % 2 ^ 32) 0) ∧
  (let y := (s.groups.rd g).ray.rd p
   let part := groupPart s g
   let E := fun (i : Instr) (P : State → Ray → Prop) => ∃ t, exec i s = .next t ∧ t.mem = s.mem ∧ P t ((t.groups.rd g).ray.rd p)
   (s.groups.rd g).live = true → y.busy = true → y.parked = false →
   (y.stack = [] → E (.rayRecord g p) fun t z => z.busy = false ∧ z.has = true ∧ z.susp = false ∧
     z.rec_ = (if y.any = false ∧ y.hasBest = true then y.best else { t := 0x7F800000, id := 0xFFFFFFFF }) ∧
     (let o := s.ops.rd y.op
      o.live = true → o.discard = false → o.split / 4 = g → (s.groups.rd g).late = [] → p < 64 →
      let at_ := fun k => (t.groups.rd g).vr (o.a.toNat + k) p
      at_ 0 = z.rec_.t ∧ at_ 1 = z.rec_.id ∧ at_ 2 = z.rec_.st) ∧
     ((s.ops.rd y.op).live = true → (s.ops.rd y.op).need = 1 → t.agenda.any (·.ev = .operationRetire y.op) = true)) ∧
   ∀ n rest, y.stack = n :: rest →
     (y.any = false → fGt n.tn y.tcur = true → E (.rayRecord g p) fun t z => z = { y with stack := rest } ∧ t.agenda.any (·.ev = .rayRecord g p) = true) ∧
     ((y.any = true ∨ fGt n.tn y.tcur = false) → canonical n.addr = false →
       E (.rayRecord g p) fun _ z => z.busy = false ∧ z.has = true ∧ z.rec_ = { t := 0x7F800000, id := 0xFFFFFFFF, st := 0x303 }) ∧
     E (.rayPageFault g p) fun t z => z = { y with parked := true } ∧ t.agenda.any (·.ev = .faultRecordPost part) = true ∧
       (t.parts.rd part).tickets = (s.parts.rd part).tickets ++ [ticketOf 2 (64 * g + p)])

/-- R293 to R296: `regroup` traps inside a divergent region, stalls while vector results of its group are outstanding, and then parks its
group. When every group of a team waits at the same address, or 256 clocks after the first arrival, the groups of each core there are
compacted: of their live lanes, numbered in order of group and position, lane j moves to the group of rank j div W at position j mod W,
with its registers, predicates, random-number and ray state and lane number; a result group takes the scalar registers of the lowest
group that gave it a lane and the FPSTAT of all that did, keeps its own tiles, unfold slots, flags, barrier phases and age, and goes on
behind its `regroup` 32 clocks later and 2 more for each lane that moved; a group that receives no lane ends. -/
def Obligations.Regrouping : Prop := ∀ (s : State) (T : Nat) (a : W64) (g : Nat),
  (s.sp.entry ≠ 0 → exec .regroup s = .next (s.trap .stackSpill none none 16 2)) ∧
  (s.sp.entry = 0 → vectorOps s s.gk ≠ [] → exec .regroup s = .next s) ∧
  (s.sp.entry = 0 → vectorOps s s.gk = [] → ∃ t, exec .regroup s = .next t ∧ (t.splits.rd s.cur).wait = .regroup ∧
    (t.splits.rd s.cur).pc = s.sp.pc ∧ (t.splits.rd s.cur).off = s.sp.off ∧ SameRegisters s t ∧ t.mem = s.mem ∧
    (t.teams.rd s.tk).rg = s.tm.rg ++ [{ group := s.gk, addr := s.ia, clock := s.clock }] ∧
    ((∀ e ∈ s.tm.rg, e.addr ≠ s.ia) → t.agenda.any (fun e => e.ev = .regroupTimeout s.tk s.ia.toNat ∧ e.due = s.clock + 256) = true)) ∧
  (let tm := s.teams.rd T
   let w := tm.width
   let all := waitingAt s T a
   all.Nodup → 0 < w → w ≤ 64 →
   (∀ h ∈ all, h / 128 = T ∧ (s.groups.rd h).core ∈ teamCores tm ∧ (s.groups.rd h).v.wf = true) →
   (∀ h ∈ all, (s.splits.rd (parkedSplit s h)).lanes.toNat < 2 ^ w) →
   let F := fun (i : Instr) => ∃ t, exec i s = .next t ∧ t.mem = s.mem ∧ (t.teams.rd T).rg = tm.rg.filter (fun e => !all.contains e.group) ∧
     ∀ c ∈ teamCores tm,
       let gs := all.filter fun h => (s.groups.rd h).core == c
       let at_ := fun n => gs.getD n 0
       let live := fun n => positions (s.splits.rd (parkedSplit s (at_ n))).lanes
       let rank := fun n p => ((List.range n).map fun k => (live k).length).sum + ((live n).filter (· < p)).length
       let total := ((List.range gs.length).map fun k => (live k).length).sum
       (∀ n p, n < gs.length → p ∈ live n →
         let k := rank n p / w
         let q := rank n p % w
         let G := s.groups.rd (at_ n)
         let H := t.groups.rd (at_ k)
         let x := t.splits.rd (parkedSplit s (at_ k))
         x.lanes.getLsbD q = true ∧ (∀ r, H.vr r q = G.vr r p) ∧ (∀ m, m < 64 → (H.p.rd m).getLsbD q = (G.p.rd m).getLsbD p) ∧
         H.rng.rd q = G.rng.rd p ∧ H.inc.rd q = G.inc.rd p ∧ H.ray.rd q = G.ray.rd p ∧ H.laneid.rd q = G.laneid.rd p ∧
         (t.teams.rd T).laneMap.rd (at_ k % 128 * w + q) = tm.laneMap.rd (at_ n % 128 * w + p) ∧
         (q = 0 → x.s = (s.splits.rd (parkedSplit s (at_ n))).s)) ∧
       ∀ k, k < gs.length →
         let G := s.groups.rd (at_ k)
         let H := t.groups.rd (at_ k)
         if total ≤ k * w then H.live = false
         else
           (∀ q, (t.splits.rd (parkedSplit s (at_ k))).lanes.getLsbD q = true → k * w + q < total) ∧
           (∀ i, H.fpstat.getLsbD i = true ↔ ∃ n p, n < gs.length ∧ p ∈ live n ∧ rank n p / w = k ∧
             ((s.groups.rd (at_ n)).fpstat.getLsbD i = true ∨ ∃ e ∈ (s.groups.rd (at_ n)).late, (e.flags % 64).testBit i = true)) ∧
           H.tile = G.tile ∧ H.unf = G.unf ∧ H.unfSet = G.unfSet ∧ H.flags = G.flags ∧ H.barR = G.barR ∧ H.barH = G.barH ∧ H.age = G.age ∧
           (t.splits.rd (parkedSplit s (at_ k))).pass = 0 ∧
           (t.agenda.any fun e => e.ev = .regroupResume (at_ k) ∧ e.due = s.clock + 32 + 2 * ((List.range gs.length).map fun n =>
             ((live n).filter fun p => rank n p / w == k && (n != k || p != rank n p % w)).length).sum) = true
   ((∃ e, tm.rg.find? (·.group == g) = some e ∧ e.addr = a) → g / 128 = T → allWait s T a = true → F (.regroupArrival g)) ∧
   ((∃ e ∈ tm.rg, e.addr = a ∧ e.clock + 256 ≤ s.clock) → F (.regroupTimeout T a.toNat))) ∧
  (let k := parkedSplit s g
   let x := s.splits.rd k
   k / 4 = g → (s.groups.rd g).live = true → x.wait = .regroup → parcelsAt (x.code.drop x.off) = 2 → ((s.teams.rd (g / 128)).rg.any fun e => e.group == g) = false →
   ∃ t, exec (.regroupResume g) s = .next t ∧ t.mem = s.mem ∧ (t.splits.rd k).wait ≠ .regroup ∧ (t.splits.rd k).lanes = x.lanes ∧
     (t.splits.rd k).s = x.s ∧ GoesOn 2 x (t.splits.rd k))

/-! ### Launches from the device, work graphs, progress points (17_launch.md) -/

/-- R307 to R310: `launch` releases at device scope and reads its record on flag A, with a priority no higher than its own grid's;
`cwait` gives the child's status and forgets it, 0xFF for no such child, waits for one that runs, and has its group saved for one
that still stands in the spill ring.
The handle (log entry 67) and the spill of a record (log entry 56) are the model's reading. -/
def Obligations.LaunchesAndChildren : Prop := ∀ (s : State) (d a : Fin 64) (b : SclB),
  let va := s.sr a
  let record := (List.range 16).map fun i => (64 + i, va + BitVec.ofNat 64 (4 * i))
  let h := va.toNat / 2 ^ 32
  let child := s.grids.find? fun e => e.2.live && e.2.parent == s.tm.grid + 1 && h != 0 && e.2.handle == h
  (s.full s.fa = false → va.toNat % 64 ≠ 0 → exec (.launch d a b) s = .next (s.trap .align (some 0) (some va) 8 4)) ∧
  (s.full s.fa = false → va.toNat % 64 = 0 → s.sp.phase = 0 → ownAccesses s ≠ [] → Waits (.launch d a b) s (.ops (ownAccesses s))) ∧
  (s.full s.fa = false → va.toNat % 64 = 0 → s.sp.phase = 1 → s.wtPending s.cr s.sp.aux false = false → NoPending s →
    Mapped s true false 4 record →
    IssuesQuietly (.launch d a b) s s.fa fun _ _ o => o.kind = .launch d (min ((s.bScl b).toNat % 8) s.gd.prio) ∧ o.returning = true) ∧
  (let Gives := fun (x : W64) (P : State → Prop) => ∃ t, exec (.cwait d a) s = .next t ∧ GoesOn 2 s.sp (t.splits.rd s.cur) ∧
     ScalarPut (.cwait d a) s t d x ∧ (t.groups.rd s.gk).v = s.gr.v ∧ (t.groups.rd s.gk).p = s.gr.p ∧ t.mem = s.mem ∧ (s.gr.live = true → (t.groups.rd s.gk).region ≠ .opened) ∧ P t
   match child with
   | none => Gives 0xFF fun t => t.grids = s.grids
   | some (id, g) =>
     if g.done = true then
       s.sp.phase ≠ 0 ∨ ownLoads s = [] → Gives (BitVec.ofNat 64 g.status) fun t => t.grids.rd id = default ∧ ∀ n, n ≠ id → t.grids.rd n = s.grids.rd n
     else if g.admitted = true then Waits (.cwait d a) s (.child id)
     else s.gr.saveKind = 0 → ∃ t, exec (.cwait d a) s = .next t ∧ (t.groups.rd s.gk).saveKind = 5 ∧ (t.groups.rd s.gk).child = id ∧
       (t.splits.rd s.cur).wait = .faulting ∧ (t.splits.rd s.cur).pc = s.sp.pc ∧ (t.splits.rd s.cur).idx = s.sp.idx ∧ t.mem = s.mem)

/-- R312 to R317: `ralloc` takes one free slot for each active lane, in ascending order of positions, for the node that its output
leads to, and waits while fewer are free; `ralloc.in` gives a batch's lanes their records; `rcommit` queues and `rdone` frees the
slots whose addresses its lanes name, once each and in the state that is right.
The flag of ralloc.in (log entry 58), and a slot named twice (log entry 66) are the model's reading. -/
def Obligations.WorkGraphSlots : Prop := ∀ (s : State) (d : Fin 64) (b : SclB), NoPoison s → s.wact ≠ 0 →
  let ps := positions s.wact
  let k := ps.length
  let r := 2 * d.val
  let dest := (s.myGraph.nodes.rd s.myNode).outs.getD ((s.bScl b).toNat % 2 ^ 32) 0xFF
  let is := (s.freeSlots s.pt).take k
  let T := fun (i : Instr) (c : W64) => exec i s = .next (s.trap .record none none 16 (0x300 + c))
  let holds := fun (o : Op) (p : Nat) (x : W64) => o.res.rd (64 * r + p) = x.setWidth 32 ∧ o.res.rd (64 * (r + 1) + p) = (x >>> 32).setWidth 32
  (if s.tm.node = 0 then T (.ralloc d b) 1
   else if dest = 0xFF then T (.ralloc d b) 2
   else if s.wgCount s.pt < k then T (.ralloc d b) 3
   else s.full s.fa = false → (s.parts.rd s.pt).rallocQ = [] →
     if is.length < k then Waits (.ralloc d b) s (.slots k)
     else IssuesQuietly (.ralloc d b) s s.fa fun t _ o => o.kind = .regs ∧ o.returning = true ∧ o.lanes = s.wact ∧
       (∀ i ∈ is, t.wgSlot s.pt i = { st := .allocated, team := s.tk, graph := s.tm.graph, node := dest, clock := s.clock }) ∧
       (∀ i, i ∉ is → t.wgSlot s.pt i = s.wgSlot s.pt i) ∧
       ∀ j, j < k → holds o (ps.getD j 0) (s.wgAddr s.pt (is.getD j 0))) ∧
  (if s.tm.kind ≠ .batch then T (.rallocIn d) 1
   else s.full s.fa = false → s.sp.phase ≠ 0 ∨ ownLoads s = [] →
     IssuesQuietly (.rallocIn d) s s.fa fun t _ o => o.kind = .regs ∧ o.returning = true ∧ o.lanes = s.wact ∧
       (s.gr.live = true → (t.groups.rd s.gk).region ≠ .opened) ∧
       ∀ p ∈ ps, holds o p (match s.tm.batch[s.gr.laneid.rd p]? with
         | some i => s.wgAddr s.pt i
         | none => 0)) ∧
  (s.full s.fb = false → s.sp.phase = 1 → s.wtPending s.cr s.sp.aux false = false →
    (∀ i, (i = .rcommit d ∧ s.namedSlots r .allocated = none) ∨ (i = .rdone d ∧ s.namedSlots r .batched = none) →
      exec i s = .next ((s.sealNow.phased 2).trap .record none none 16 0x304)) ∧
    (∀ js, s.namedSlots r .allocated = some js → IssuesQuietly (.rcommit d) s s.fb fun t _ o => o.kind = .rcommit ∧ o.lanes = s.wact ∧ o.need = 0 ∧
      (∀ i ∈ js, t.wgSlot s.pt i = { s.wgSlot s.pt i with st := .queued, clock := s.clock }) ∧ (∀ i, i ∉ js → t.wgSlot s.pt i = s.wgSlot s.pt i)) ∧
    ∀ js, s.namedSlots r .batched = some js → IssuesQuietly (.rdone d) s s.fb fun t _ o => o.kind = .rdone ∧ o.lanes = s.wact ∧ o.need = 0 ∧
      (∀ i ∈ js, t.wgSlot s.pt i = {}) ∧ (∀ i, i ∉ js → t.wgSlot s.pt i = s.wgSlot s.pt i))

/-- R320, R321: `ppoint` waits in place for the group's operations and then for the write-throughs of its dirty words; behind it a
region starts: the group's splits and entries, its unfold slots and the mask are kept as they stand, and the tiles that the mask does
not name read zero. A group that is asked to drain is saved there; the new region of one whose region time is over is not open.
That a region start keeps the splits, lanes and entries as they stand (log entry 54) is the model's reading. -/
def Obligations.ProgressPoints : Prop := ∀ (s : State) (mask : BitVec 16),
  (s.sp.phase = 0 → groupOps s s.gk (fun _ => true) ≠ [] → exec (.ppoint mask) s = .next s) ∧
  (s.sp.phase = 0 → groupOps s s.gk (fun _ => true) = [] → ∃ t, exec (.ppoint mask) s = .next t ∧ (t.splits.rd s.cur).phase = 1 ∧
    (t.splits.rd s.cur).pc = s.sp.pc ∧ (t.splits.rd s.cur).idx = s.sp.idx ∧ SameRegisters s t ∧ t.mem = s.mem) ∧
  (s.sp.phase ≠ 0 → s.wtPending s.cr s.sp.aux true = true → exec (.ppoint mask) s = .next s) ∧
  (s.sp.phase ≠ 0 → s.wtPending s.cr s.sp.aux true = false → s.gr.tile.wf = true →
    ∃ t, exec (.ppoint mask) s = .next t ∧ GoesOn 2 s.sp (t.splits.rd s.cur) ∧ (t.splits.rd s.cur).s = s.sp.s ∧ t.mem = s.mem ∧ t.ops = s.ops ∧
      (let g := t.groups.rd s.gk
       g.region = (if s.gr.saveKind = 4 then .draining else .opened) ∧ g.rMask = mask ∧ g.rUnf = s.gr.unf ∧ g.rUnfSet = s.gr.unfSet ∧ g.rEntries = s.gr.entries ∧ g.v = s.gr.v ∧
       g.p = s.gr.p ∧ g.fpstat = s.gr.fpstat ∧ (∀ k ∈ groupSplits s.gk, g.rSplits.rd (k % 4) = t.splits.rd k) ∧
       (∀ i w, w < 128 → g.tile.rd (128 * i + w) = if mask.getLsbD i = true then s.gr.tile.rd (128 * i + w) else 0) ∧
       g.saveKind = if s.gr.region = .draining ∧ s.gr.saveKind = 0 then 2 else s.gr.saveKind))

/-! ### The system (18_system.md) -/

/-- R346: in handler mode `rbank` copies a register of the program's bank into a scalar register and `rbank.w` copies one there:
n from 0 to 7 names s(56 + n), n from 8 to 15 predicate p(48 + n) as a mask of the group's width. An n above 15, or use outside
handler mode, traps with PROT. Which of two results on their way to one register stays (log entry 6) is the model's reading. -/
def Obligations.HandlerBank : Prop := ∀ (s : State) (d : Fin 64) (b : SclB),
  let n := (s.bScl b).toNat
  let cut := fun (x : W64) => if n < 8 then x else BitVec.ofNat 64 (x.toNat % 2 ^ s.gr.width)
  if s.inHandler = false ∨ n > 15 then ∀ i ∈ [Instr.rbank d b, .rbankW d b],
    exec i s = .next (if s.isSup = true then s.trap .prot none none 0 0 else s.trap .prot none none 8 0)
  else
    ScalarResult (.rbank d b) s d (cut (s.gr.bank.rd n)) ∧
    ∃ t, Plain (.rbankW d b) s t ∧ Split.alike s.sp (t.splits.rd s.cur) ∧ Group.alike { s.gr with bank := (t.groups.rd s.gk).bank } (t.groups.rd s.gk) ∧
      ∀ j, (t.groups.rd s.gk).bank.rd j = if j = n then cut (s.sr d) else s.gr.bank.rd j

/-- R326, R333, R337, R344, R345, R347 to R349: the system instructions at supervisor level, and their PROT trap at user level.
`trap` hands off the trap under way; `sysc` traps with SYSC at user level and is a request to the service at supervisor level, of which
the unknown ones are answered with status 1; `brk` traps with BRK; `halt` has its group saved as kind 6 and goes on behind its
clause; `tlbinv` removes the partition's entries for its pages; `fresume` takes a ticket or a waiting frame; `ctxsv` and `ctxld` move
whole registers in every lane; `ctr` reads and `ctrsel` selects an event counter. An extension instruction traps with EXT_EMU.
What of a trap is free (log entry 7), that TRAP_INFO of a user's `sysc` is its operand (log entry 70), the hand-off of `trap` outside
handler mode (log entry 71), the answer to an unknown request (log entry 72), the counter addresses (log entry 75), the order of the
checks of `ctxsv` and `ctxld` and their counts above 128 (log entry 76) and that `ctxsv` leaves helper lanes out (log entry 112) are the
model's reading. -/
def Obligations.SystemInstructions : Prop := ∀ (s : State) (v : Fin 128) (d a : Fin 64) (b : SclB) (x : Fin 131072) (y : Fin 256),
  let n := (s.bScl b).toNat
  let va := s.sr a
  let after := s.sp.pc + BitVec.ofNat 64 (2 * (s.sp.off + 2))
  (s.isSup = false →
    (∀ i ∈ [Instr.trap b, .rti b, .halt, .rbank d b, .rbankW d b, .tlbinv a b, .fresume d a, .ctxsv v a b, .ctxld v a b, .ctrsel a b],
      exec i s = .next (s.prot 0)) ∧
    exec (.sysc b) s = .next ((s.drawn 2).raiseFor s.cur { cause := .sysc, pc := s.ia, lanes := s.fresh 0, addr := s.fresh 1, info := s.bScl b })) ∧
  exec (.brk b) s = .next (s.trap .brk none none 8 (s.bScl b)) ∧
  exec (.ext x y) s = .next (s.trap .extEmu (some s.act) none 0 0) ∧
  (match ctrAt s.cr va with
   | none => exec (.ctr d a) s = .next (s.prot 16) ∧ (s.isSup = true → exec (.ctrsel a b) s = .next (s.prot 16))
   | some c => ScalarResult (.ctr d a) s d (s.ctrVal s.pt c).val ∧
     (s.isSup = true → ∃ t, exec (.ctrsel a b) s = .next t ∧ GoesOn 2 s.sp (t.splits.rd s.cur) ∧ SameRegisters s t ∧ t.mem = s.mem ∧ t.ops = s.ops ∧
       (t.ctrVal s.pt c).ev = n % 256 ∧ (n % 256 ≠ 3 → (t.ctrVal s.pt c).val = 0))) ∧
  (s.isSup = true →
    (∃ t, exec (.trap b) s = .next t ∧ SameRegisters s t ∧ t.mem = s.mem ∧ ((t.cores.rd s.cr).slots.all fun e => e.2 != s.cur + 1) = true ∧
      ∃ r, (t.splits.rd s.cur).wait = .handing r (s.bScl b) ∧
        if s.inHandler = true then r = { cause := s.gr.tCause, pc := s.gr.tPc, lanes := s.gr.tLanes, addr := s.gr.tAddr, info := s.gr.tInfo }
        else r.cause = .sysc ∧ r.pc = s.ia) ∧
    (∃ t, exec (.sysc b) s = .next t ∧ GoesTo after (t.splits.rd s.cur) ∧ t.mem = s.mem ∧ (t.groups.rd s.gk).v = s.gr.v ∧
      (t.groups.rd s.gk).p = s.gr.p ∧
      match serviceEvent s.cur n with
      | some e => (t.splits.rd s.cur).wait = .service n ∧ (t.splits.rd s.cur).s = s.sp.s ∧ t.agenda.any (·.ev = e) = true
      | none => ∀ k, (t.splits.rd s.cur).s.rd k = if k = 56 then 1 else s.sr k) ∧
    (s.gr.saveKind = 0 → ∃ t, exec .halt s = .next t ∧ GoesTo after (t.splits.rd s.cur) ∧ SameRegisters s t ∧ t.mem = s.mem ∧
      (t.groups.rd s.gk).saveKind = 6 ∧ (t.groups.rd s.gk).fault.kind = 15 ∧ (t.groups.rd s.gk).fault.addr = s.ia ∧
      (t.groups.rd s.gk).fault.lanes = 0) ∧
    (s.full s.fb = false → s.sp.phase = 1 → s.wtPending s.cr s.sp.aux false = false →
      IssuesQuietly (.tlbinv a b) s s.fb fun t _ o => o.kind = .tlbinv ∧ o.need = 0 ∧
        let out := fun (u : Tlb) => u.part = s.pt ∧ u.maps va (s.bScl b) = true
        (∀ c u, u ∈ (t.cores.rd c).tlb ↔ u ∈ (s.cores.rd c).tlb ∧ ¬ out u) ∧
        ∀ c u, (u ∈ (t.dies.rd c).tlb ↔ u ∈ (s.dies.rd c).tlb ∧ ¬ out u) ∧ (u ∈ (t.dies.rd c).chartTlb ↔ u ∈ (s.dies.rd c).chartTlb ∧ ¬ out u)) ∧
    (let R := fun (x : W64) (P : State → Prop) => ∃ t, exec (.fresume d a) s = .next t ∧ GoesOn 2 s.sp (t.splits.rd s.cur) ∧ t.mem = s.mem ∧
       ScalarPut (.fresume d a) s t d x ∧ P t
     (va.getLsbD 0 = true → ((s.parts.rd s.pt).tickets.contains va.toNat = false → R 2 fun t => t.parts = s.parts) ∧
       ∀ u, s.resumeTicket s.pt va.toNat = some u → R 0 fun t => (t.parts.rd s.pt).tickets = (s.parts.rd s.pt).tickets.erase va.toNat) ∧
     (va.getLsbD 0 = false → match awaiting s s.pt va with
       | none => R 1 fun t => t.parts = s.parts
       | some g => R 0 fun t => (t.groups.rd g).child = 1)) ∧
    (let w := s.gr.width
     let words := (List.range (n * w)).map fun i => (ctxPos + i, va + BitVec.ofNat 64 (4 * i))
     (n = 0 → NoResult (.ctxsv v a b) s ∧ NoResult (.ctxld v a b) s) ∧
     (n ≠ 0 → va.toNat % 128 ≠ 0 → exec (.ctxsv v a b) s = .next (s.trap .align (some 0) (some va) 8 1) ∧
       exec (.ctxld v a b) s = .next (s.trap .align (some 0) (some va) 8 0)) ∧
     (n ≠ 0 → va.toNat % 128 = 0 → s.gr.vc < v + n → exec (.ctxsv v a b) s = .next (s.prot 1) ∧ exec (.ctxld v a b) s = .next (s.prot 0)) ∧
     (n ≠ 0 → va.toNat % 128 = 0 → v + n ≤ s.gr.vc → NoPoison s →
       (s.full s.fb = false → NoPending s → MappedDirty s false 4 (words.filter fun e => !s.helpers.getLsbD ((e.1 - ctxPos) % w)) →
         Issues (.ctxsv v a b) s s.fb fun t _ o => o.kind = .store ∧ o.returning = false ∧ t.mem = s.mem ∧ t.slices = s.slices) ∧
       (s.full s.fa = false → NoPending s → Mapped s true false 4 words →
         IssuesQuietly (.ctxld v a b) s s.fa fun _ _ o => o.kind = .ctxld v n ∧ o.returning = true ∧
           ∀ i, i < n * w → o.vas.rd (ctxPos + i) = va + BitVec.ofNat 64 (4 * i)))))

/-- R326, R329 to R333: taking a trap and returning. Outside handler mode, with no register-returning operation of the group
outstanding and no other split of it in a trap, the trap registers take the cause, the address of the instruction, and what the
cause states; the split enters handler mode with its live lanes at the vector of its partition, and s56 to s63 and p56 to p63 change
places with the handler's bank; a vector of 0, or a trap in handler mode, is handed off instead. `rti` switches the banks back and
goes on at TRAP_PC's instruction, behind it, or at a header there; outside handler mode and in mode 3 it traps with PROT. Deferred traps
of the program that are still due are kept with it until then (R330). A trap at which the group's shadow is unequal to it is not taken
(R343): the inequality is counted and the instruction comes again.
Where rti resumes a moved TRAP_PC (log entry 8) and what of a trap is free (log entry 7) and how a shadow parts (log entry 113) are the model's reading. -/
def Obligations.TrapsAndReturns : Prop := ∀ (s : State) (b : SclB),
  let x := s.sp
  let g := s.gr
  let mode := (s.bScl b).toNat % 4
  let banked := fun (u v : State) => ∀ j, j < 8 →
    (v.splits.rd s.cur).s.rd (56 + j) = (u.groups.rd s.gk).bank.rd j ∧ (v.groups.rd s.gk).bank.rd j = (u.splits.rd s.cur).s.rd (56 + j) ∧
    (v.groups.rd s.gk).p.rd (56 + j) = (u.groups.rd s.gk).bank.rd (8 + j) ∧ (v.groups.rd s.gk).bank.rd (8 + j) = (u.groups.rd s.gk).p.rd (56 + j)
  let kept := fun (v : State) => (∀ j, j < 56 → (v.splits.rd s.cur).s.rd j = x.s.rd j ∧ (v.groups.rd s.gk).p.rd j = g.p.rd j) ∧
    (v.groups.rd s.gk).v = g.v ∧ (v.splits.rd s.cur).lanes = x.lanes ∧ v.mem = s.mem ∧ v.ops = s.ops ∧ ∀ k, k ≠ s.cur → v.splits.rd k = s.splits.rd k
  (∀ (c : Cause) (lanes addr : Option W64) (k : Nat) (low : W64), k ≤ 64 →
    let t := s.trap c lanes addr k low
    let vec := s.preg s.pt (if c = .extEmu then 2 else 1)
    let unequal := g.parted = true ∧ Config.pick (s.tick + 3) % 2 = 1
    (unequal → (t.splits.rd s.cur).wait = .ready ∧ (t.splits.rd s.cur).pc = x.pc ∧ (t.splits.rd s.cur).idx = x.idx ∧ kept t ∧
      (s.gd.live = true → (t.grids.rd s.tm.grid).err = s.gd.err + 1)) ∧
    (¬ unequal →
    (s.inHandler = true → ∃ r, (t.splits.rd s.cur).wait = .handing r 0 ∧ r.cause = c ∧ r.pc = s.ia ∧ kept t) ∧
    (s.inHandler = false → otherTraps s s.cur = true → (t.splits.rd s.cur).wait = .ready ∧ (t.splits.rd s.cur).pc = x.pc ∧
      (t.splits.rd s.cur).idx = x.idx ∧ kept t) ∧
    (s.inHandler = false → otherTraps s s.cur = false → returning s s.gk = true → ∃ r, (t.splits.rd s.cur).wait = .trapping r ∧ r.cause = c ∧
      r.pc = s.ia ∧ kept t) ∧
    (s.inHandler = false → otherTraps s s.cur = false → returning s s.gk = false → vec = 0 → ∃ r, (t.splits.rd s.cur).wait = .handing r 0 ∧
      r.cause = c ∧ r.pc = s.ia ∧ kept t) ∧
    (s.inHandler = false → otherTraps s s.cur = false → returning s s.gk = false → vec ≠ 0 →
      let h := t.groups.rd s.gk
      t.inHandler = true ∧ h.tCause = c ∧ h.tPc = s.ia ∧ (∀ l, lanes = some l → h.tLanes = l) ∧ (∀ l, addr = some l → h.tAddr = l) ∧
      (∀ i, i < k → i < 16 → h.tInfo.getLsbD i = low.getLsbD i) ∧ h.tInfo.getLsbD 24 = false ∧ h.tInfo.getLsbD 25 = !x.begun ∧
      (t.splits.rd s.cur).wait = .ready ∧ GoesTo vec (t.splits.rd s.cur) ∧ (t.splits.rd s.cur).defer = [] ∧ h.tSplit.defer = x.defer ∧
      banked s t ∧ kept t))) ∧
  (s.isSup = true → s.inHandler = false ∨ mode = 3 → exec (.rti b) s = .next (s.trap .prot none none 0 0)) ∧
  (s.inHandler = true → mode ≠ 3 →
    let o := g.tSplit
    let off := (g.tPc - o.pc).toNat / 2
    let at_ := if o.begun = true ∧ g.tInfo.getLsbD 25 = false ∧ (g.tPc - o.pc).toNat % 2 = 0 then indexAt o.count (o.code.drop 2) 2 0 off else none
    let next := off + parcelsAt (o.code.drop off)
    let inside := fun (y : Split) (i m : Nat) => y.pc = o.pc ∧ y.code = o.code ∧ y.begun = true ∧ y.count = o.count ∧ y.idx = i ∧ y.off = m ∧
      y.guard = o.guard ∧ y.flagA = o.flagA ∧ y.flagB = o.flagB
    let last := mode = 1 ∧ (match at_ with
      | some i => decide (o.count ≤ i + 1)
      | none => false) = true
    let nap := if last then max x.nap o.nap else x.nap
    ∃ t, exec (.rti b) s = .next t ∧ t.inHandler = false ∧ banked s t ∧ kept t ∧
      (t.splits.rd s.cur).wait = (if nap = 0 then .ready else .asleep) ∧ (t.splits.rd s.cur).until_ = (if nap = 0 then 0 else s.clock + nap) ∧
      (t.groups.rd s.gk).age = (if x.yielding = true ∨ (last ∧ o.yielding = true) then s.clock else g.age) ∧
      (t.splits.rd s.cur).defer = o.defer.foldl (fun l d => addDefer d l) x.defer ∧
      (let y := t.splits.rd s.cur
       match at_ with
       | some i =>
         if mode = 0 then inside y i off
         else if mode = 1 then (if i + 1 < o.count then inside y (i + 1) next else GoesTo (o.pc + BitVec.ofNat 64 (2 * next)) y)
         else GoesTo g.tPc y
       | none => GoesTo g.tPc y))

/-! ### Anvil words (11_slice_routines.md) -/

/-- R183, R184, R188, R190: the words of a routine. Each takes one clock; a word that reads an L word in a poisoned sector ends the
invocation and leaves the line; every other word acts as its entry says, on its destination alone, and the next word follows. `h.skip`
passes over words. `h.end` commits L to the line, `h.ret` and `h.abt` leave it; each answers a returning call.
The operands that are read (log entry 91) and those beyond the count (log entry 38) are the model's reading. -/
def Obligations.AnvilWords : Prop := ∀ (s : State) (d : HDst) (k : Fin 16) (imm : BitVec 16) (a b : HSrc) (c : Fin 4) (n : Fin 128),
  let v := s.inv
  let x := v.src a
  let y := v.src b
  let old := v.src (HDst.asSrc d)
  let bad := fun (ls : List Nat) => ls.any fun i => (s.homePsn v.req.line).getLsbD (i / 8)
  let noOrs := ∀ i, (s.slices.rd i).ors = []
  let la := HSrc.lWords a
  let lb := HSrc.lWords b
  let W := fun (i : Instr) (ls : List Nat) (P : Inv → Prop) =>
    if bad ls = true then noOrs → ∃ t, exec i s = .next t ∧ t.inv = {} ∧ t.mem = s.mem ∧
      ∀ l, t.homeLine l = s.homeLine l
    else ∃ z, exec i s = .next (s.modInv fun _ => z) ∧ P z
  let D := fun (i : Instr) (ls : List Nat) (r : W32) => W i ls fun z =>
    let w := { v with clocks := v.clocks + 1, pc := v.pc + 1 }
    match d with
    | .k m => z = { w with k := z.k } ∧ ∀ j, z.k.rd j = if j = m.val then r else v.k.rd j
    | .q m => z = { w with q := z.q } ∧ ∀ j, z.q.rd j = if j = m.val then r else v.q.rd j
    | .l m => z = { w with l := z.l, wrote := v.wrote ||| (1#32 <<< m.val) } ∧ ∀ j, j < 32 → lineWord z.l j = if j = m.val then r else lineWord v.l j
  let D2 := fun (i : HDst → HSrc → HSrc → Instr) (r : W32) => D (i d a b) (la ++ lb) r
  let kv := (v.k.rd k).toNat
  let clampS := fun (z : Int) => BitVec.ofInt 32 (max (-2 ^ 31) (min (2 ^ 31 - 1) z))
  let r := v.req
  let Ends := fun (i : Instr) (ls : List Nat) (extra : Nat) (ws : List W32) (line : State → Prop) =>
    bad ls = false → noOrs → r.kind = .call → isPeer r.line = false → v.rets ≤ ws.length →
      ∃ t, exec i s = .next t ∧ t.inv = {} ∧ line t ∧
        (t.slices.rd s.curSlice).charge.rd r.part = (s.slices.rd s.curSlice).charge.rd r.part + v.clocks + 1 + extra ∧
        ((s.ops.rd r.op).live = true →
          (r.scalar = false → r.lane < 64 → ∀ j, j < v.rets → (t.ops.rd r.op).res.rd (64 * (r.dreg + j) + r.lane) = ws.getD j 0) ∧
          (r.scalar = true → ∀ j, j < v.rets → (t.ops.rd r.op).sres.rd (r.dreg + j) = (ws.getD j 0).setWidth 64) ∧
          (t.ops.rd r.op).need = (s.ops.rd r.op).need - 1 ∧ ((s.ops.rd r.op).need ≤ 1 → t.agenda.any (·.ev = .operationRetire r.op) = true))
  D (.hLdl d k) [kv % 32] (lineWord v.l (kv % 32)) ∧
  W (.hStl k b) lb (fun z => z = { v with clocks := v.clocks + 1, pc := v.pc + 1, l := z.l, wrote := v.wrote ||| (1#32 <<< (kv % 32)) } ∧
    ∀ j, j < 32 → lineWord z.l j = if j = kv % 32 then y else lineWord v.l j) ∧
  D (.hLdo d k) [] (v.o.rd (kv % 8)) ∧
  D (.hLdc d k) [] (v.cst.rd (kv % 64)) ∧
  D (.hLi d imm) [] (BitVec.ofInt 32 imm.toInt) ∧
  D (.hLiHi d imm) (HSrc.lWords (HDst.asSrc d)) (BitVec.ofNat 32 (2 ^ 16 * imm.toNat + old.toNat % 2 ^ 16)) ∧
  D2 (.hAdd .wrap) (x + y) ∧ D2 (.hAdd .satS) (clampS (x.toInt + y.toInt)) ∧ D2 (.hAdd .satZ) (BitVec.ofNat 32 (min (2 ^ 32 - 1) (x.toNat + y.toNat))) ∧
  D2 (.hSub .wrap) (x - y) ∧ D2 (.hSub .satS) (clampS (x.toInt - y.toInt)) ∧ D2 (.hSub .satZ) (BitVec.ofNat 32 (x.toNat - y.toNat)) ∧
  D2 (.hMul .wrap) (x * y) ∧ D2 (.hMul .satS) (clampS (x.toInt * y.toInt)) ∧ D2 (.hMul .satZ) (BitVec.ofNat 32 (min (2 ^ 32 - 1) (x.toNat * y.toNat))) ∧
  D2 .hAnd (x &&& y) ∧ D2 .hOr (x ||| y) ∧ D2 .hXor (x ^^^ y) ∧
  D2 .hShl (x <<< (y.toNat % 32)) ∧ D2 .hShr (x >>> (y.toNat % 32)) ∧ D2 .hSar (x.sshiftRight (y.toNat % 32)) ∧
  D2 (.hMin false) (if x.toInt ≤ y.toInt then x else y) ∧ D2 (.hMin true) (if x.toNat ≤ y.toNat then x else y) ∧
  D2 (.hMax false) (if x.toInt ≤ y.toInt then y else x) ∧ D2 (.hMax true) (if x.toNat ≤ y.toNat then y else x) ∧
  (∀ m, let E := fun (F : FmtP → Nat → Nat → Nat × Nat) =>
      (elementwise (HFloat.ty m) fun p i => F p (elemOf (HFloat.ty m) x i) (elemOf (HFloat.ty m) y i)).1
    D2 (.hFadd m) (E addF) ∧ D2 (.hFmul m) (E mulF) ∧ D2 (.hFmin m) (E minF) ∧ D2 (.hFmax m) (E maxF) ∧
    D (.hFfma m d a b) (la ++ lb ++ HSrc.lWords (HDst.asSrc d)) ((elementwise (HFloat.ty m) fun p i =>
      fmaF p (elemOf (HFloat.ty m) x i) (elemOf (HFloat.ty m) y i) (elemOf (HFloat.ty m) old i)).1)) ∧
  (∀ m, D (.hCvt m d a b) (la ++ if m = .f16F32 then lb else []) (hCvtF m x y)) ∧
  (∀ m, W (.hCmp m c a b) (la ++ lb) fun z => z = { v with clocks := v.clocks + 1, pc := v.pc + 1, cond := z.cond } ∧
    ∀ j : Fin 4, z.cond.getLsbD j = true ↔
      if j = c then (match m with
        | .eq => x = y
        | .ne => x ≠ y
        | .ltS => x.toInt < y.toInt
        | .leS => x.toInt ≤ y.toInt
        | .ltZ => x.toNat < y.toNat
        | .leZ => x.toNat ≤ y.toNat
        | .ltF => fcmpHolds .lt (f32p.val x.toNat) (f32p.val y.toNat) = true
        | .leF => fcmpHolds .le (f32p.val x.toNat) (f32p.val y.toNat) = true)
      else v.cond.getLsbD j = true) ∧
  D (.hSel d c a b) (la ++ lb) (if v.cond.getLsbD c = true then x else y) ∧
  (∀ m, W (.hSkip m n c) [] fun z => z = { v with clocks := v.clocks + 1, pc := z.pc } ∧
    z.pc = v.pc + 1 + (match m with
      | .onSet => if v.cond.getLsbD c = true then n.val else 0
      | .onClear => if v.cond.getLsbD c = true then 0 else n.val
      | .always => n.val)) ∧
  W (.hFwd n a) [] (fun z => z = { v with clocks := v.clocks + 1, pc := v.pc + 1, fwdA := Machine.HSrc.code a + 1, fwdN := n }) ∧
  Ends .hEnd [] 6 v.results (fun t => t.homeLine r.line = v.l ∧ t.homePsn r.line = s.homePsn r.line &&& ~~~(wroteSectors v.wrote)) ∧
  Ends .hRet [] 0 v.results (fun t => t.mem = s.mem ∧ ∀ l, t.homeLine l = s.homeLine l) ∧
  Ends (.hAbt b) lb 0 ((y ||| 0x80000000#32) :: [0, 0, 0]) (fun t => t.mem = s.mem ∧ ∀ l, t.homeLine l = s.homeLine l)

/-! ### Events of splits, groups and teams (04_control.md, 17_launch.md, 18_system.md) -/

/-- R26, R46, R47, R50, R52, R55, R56, R64, R72, R119, R331, R333: a clause is fetched whole through the LLC; a free issue slot takes
a ready split: it goes on at its instruction, or is to begin its clause, unless a deferred trap is due at the header or R19 rejects the
header; scoreboard entries, sleeping and switching splits, and entries in
the context area come when their clock has come; the float flags of results written are ORed into FPSTAT; scores are halved; a trap
enters the handler, or ends its grid.
When results of fixed latency count as written (log entry 6), where a fetch of poison traps (log entry 14) and that a deferred trap comes
before that of a rejected header (log entry 20) are the model's reading. -/
def Obligations.SplitEvents : Prop := ∀ (s : State) (k core : Nat),
  let u := { s with cur := k }
  let x := s.splits.rd k
  let g := k / 4
  let y := s.groups.rd g
  let at_ := fun (i : Nat) => x.pc + BitVec.ofNat 64 (2 * i)
  let readable := ∀ i, i < 200 → ∃ h t, u.fate false false true 2 (64, at_ i) = .ok h t ∧ s.present (h.pa / 128) = true ∧ s.busy (h.pa / 128) = false ∧
    (s.homePsn (h.pa / 128)).getLsbD (h.pa % 128 / 32) = false
  let sameSplits := fun (t : State) => ∀ j, j ≠ k → t.splits.rd j = s.splits.rd j
  (x.live = true → x.begun = false → x.code = [] → y.live = true → y.saveKind = 0 → readable →
    ∃ t, exec (.clauseFetch k) s = .next t ∧ t.mem = s.mem ∧ sameSplits t ∧
      (let z := t.splits.rd k
       z = { x with code := z.code, wait := .ready, xl := [] } ∧ 2 ≤ z.code.length ∧ clauseNeeds z.code = none ∧
       ∀ i, i < z.code.length → ∀ h w, u.fate false false true 2 (64, at_ i) = .ok h w →
         z.code[i]? = some (BitVec.ofNat 16 (lineBytes (s.homeLine (h.pa / 128)) (h.pa % 128) 2)))) ∧
  (∀ slot, slot < 4 → (s.cores.rd core).slots.rd slot = 0 → (∀ j, j < slot → (s.cores.rd core).slots.rd j ≠ 0) → readySplits s core = [k] →
    if x.begun = true then ∃ t, exec (.issueArbitration core) s = .next t ∧ (t.cores.rd core).slots.rd slot = k + 1 ∧
      t.splits.rd k = { x with wait := .ready, pass := 0 } ∧ sameSplits t ∧ t.mem = s.mem
    else
      let mask := ((headerOf x.code).map fun h => h.wait.toNat).getD ((x.code.headD 0).toNat % 4096)
      x.untracked = 0 ∧ (∀ i, i < 12 → (x.code.headD 0).getLsbD i = true → y.flags.rd i = 0) ∧ match dueDefer x mask true with
      | some d => exec (.issueArbitration core) s = .next (u.raiseDefer d)
      | none => match headerOf x.code with
        | none => exec (.issueArbitration core) s = .next (u.trap .illegalOp none none 16 0)
        | some h => ∃ t, exec (.issueArbitration core) s = .next t ∧
          (t.cores.rd core).slots.rd slot = k + 1 ∧ sameSplits t ∧ t.mem = s.mem ∧
          t.splits.rd k = { x with pass := 0, flagA := h.flagA, flagB := h.flagB, count := h.count }) ∧
  (y.late ≠ [] → ∃ t, exec (.fixedLatencyWrite g) s = .next t ∧ t = { s with clock := t.clock, groups := t.groups } ∧ s.clock ≤ t.clock ∧
    (∀ e ∈ y.late, s.clock ≤ e.due → t.clock ≤ e.due) ∧ ((∀ e ∈ y.late, s.clock < e.due) → ∃ e ∈ y.late, t.clock = e.due) ∧
    (let z := t.groups.rd g
     z = { y with late := y.late.filter (fun e => t.clock < e.due), fpstat := z.fpstat, fpNew := z.fpNew, fpAt := t.clock } ∧
     (y.fpAt < t.clock → ∀ i, z.fpNew.getLsbD i = true ↔ ∃ e ∈ y.late, e.due ≤ t.clock ∧ i < 6 ∧ e.flags.testBit i = true) ∧
     ∀ i, z.fpstat.getLsbD i = true ↔ y.fpstat.getLsbD i = true ∨ ∃ e ∈ y.late, e.due ≤ t.clock ∧ i < 6 ∧ e.flags.testBit i = true) ∧
    ∀ j, j ≠ g → t.groups.rd j = s.groups.rd j) ∧
  (∀ i, (i = .sleepExpiry k ∧ x.wait = .asleep) ∨ (i = .splitSwitch k ∧ x.wait = .switching) → x.live = true →
    ∃ t, exec i s = .next t ∧ t = { s with clock := max s.clock x.until_, splits := t.splits } ∧ t.splits.rd k = { x with wait := .ready, until_ := 0 } ∧
      sameSplits t) ∧
  (x.live = true → x.wait = .entryReturn → y.inCore.length < 32 → ∃ t, exec (.stackEntryReturn k) s = .next t ∧
    t.splits.rd k = { x with wait := .ready, until_ := 0 } ∧ t.clock = max s.clock x.until_ ∧ t.mem = s.mem ∧ sameSplits t ∧
    ((t.groups.rd g).entries.rd (x.entry - 1) = { y.entries.rd (x.entry - 1) with spilled := false }) ∧
    ∀ j, j ≠ x.entry - 1 → (t.groups.rd g).entries.rd j = y.entries.rd j) ∧
  (∃ t, exec (.throttleScoreHalving core) s = .next t ∧ t = { s with groups := t.groups, agenda := t.agenda } ∧ (s.groups.wf = true → ∀ j,
    t.groups.rd j = if j ∈ coreGroups s core then { s.groups.rd j with score := (s.groups.rd j).score / 2 } else s.groups.rd j)) ∧
  (∀ tr, x.wait = .trapping tr → returning s g = false →
    let vec := s.preg (groupPart s g) (if tr.cause = .extEmu then 2 else 1)
    ∃ t, exec (.trapEntry k) s = .next t ∧ t.mem = s.mem ∧ t.ops = s.ops ∧ sameSplits t ∧ (t.splits.rd k).lanes = x.lanes ∧
      if vec = 0 then t.splits.rd k = { x with wait := .handing tr 0 }
      else GoesTo vec (t.splits.rd k) ∧ (t.splits.rd k).wait = .ready ∧ (t.splits.rd k).defer = [] ∧ (t.groups.rd g).tSplit.defer = x.defer ∧
        (let z := t.groups.rd g
         z.handler = k % 4 + 1 ∧ z.tCause = tr.cause ∧ z.tPc = tr.pc ∧ z.tLanes = tr.lanes ∧ z.tAddr = tr.addr ∧ z.tInfo = tr.info)) ∧
  (∀ tr code, x.wait = .handing tr code →
    let G := (s.teams.rd (k / 512)).grid
    let d := s.grids.rd G
    let root := s.grids.rd d.root
    ∃ t, exec (.trapHandoff k) s = .next t ∧ t.mem = s.mem ∧ t.reports = s.reports ++ [{ part := d.part, code := code, trap := tr, fault := {} }] ∧
      if d.snap = true ∧ root.unprotected = false ∧ root.replayed = false then
        t.splits.rd k = { x with wait := .saved } ∧ t.agenda.any (·.ev = .snapshotRollback d.root) = true
      else (t.grids.rd G).trapped = true ∧ ∀ T, (s.teams.rd T).live = true → (s.teams.rd T).grid = G → ∀ j ∈ teamGroups s T,
        (s.groups.rd j).live = true → (t.groups.rd j).live = false ∧ ∀ q ∈ groupSplits j, (t.splits.rd q).live = false)

/-- R128, R304, R320 to R323, R327, R334, R335, R341 to R343: a save takes a frame, leaves the group saved with its registers and
splits as they stand, and posts a record for a page fault or a `halt`; a restore gives the group its registers from its frame, the program's
where the program's stand and the handler's bank apart, and counts as a placement unless a child was waited for; pre-emption
rolls open regions back at once and drains sealed ones until their time is over; a team's save frees its barriers; a record lands at
FAULT_TAIL; a pair that its owner takes back is scrubbed; a snapshot's page takes the lowest free slot; a rollback has its record
admitted again; a shadow parts from its group.
The form of a frame (log entries 29 and 30), of a roll-back (log entries 54 and 134) and of snapshots (log entry 65) and how a shadow parts
from its group (log entry 113) are the model's reading. -/
def Obligations.SaveAndRestoreEvents : Prop := ∀ (s : State) (g T part pair grid page : Nat),
  let y := s.groups.rd g
  let x := s.teams.rd T
  let d := s.grids.rd grid
  (∀ u w, (y.saveKind = 1 ∨ y.saveKind = 6) → saveDue s g = true → s.takeFrame g = some u →
    (u.modGroup g fun y => y.settle y.lastDue).frameBusy (groupPart s g) (u.groups.rd g).frame = [] →
    (u.modGroup g fun y => y.settle y.lastDue).writeFrame g y.saveKind = some w →
    ∃ t, exec (.pageFaultSave g) s = .next t ∧ (t.groups.rd g).saved = true ∧ (t.groups.rd g).live = true ∧ (t.groups.rd g).v = y.v ∧
      (t.groups.rd g).p = y.p ∧ (t.groups.rd g).frame = (u.groups.rd g).frame ∧ (t.groups.rd g).saveKind = y.saveKind ∧
      (∀ k ∈ groupSplits g, (t.splits.rd k).pc = (s.splits.rd k).pc ∧ (t.splits.rd k).idx = (s.splits.rd k).idx ∧ (t.splits.rd k).s = (s.splits.rd k).s ∧
        (t.splits.rd k).wait ≠ .faulting) ∧
      (∃ l, (t.parts.rd (groupPart s g)).waiting = l ++ [{ y.fault with frame := (u.groups.rd g).frame }]) ∧
      t.agenda.any (·.ev = .faultRecordPost (groupPart s g)) = true) ∧
  (restoreReady s g = true → restoreRoom s g = true → (s.teams.rd (g / 128)).saved = false → y.width ≤ 64 → y.handler ≤ 4 →
    let word := fun (o n old : Nat) => (s.coreRead y.core (groupPart s g) (y.frame + BitVec.ofNat 64 o) n).getD old
    ∃ t, exec (.groupRestore g) s = .next t ∧ t.mem = s.mem ∧
      (let z := t.groups.rd g
       z.saved = false ∧ z.saveKind = 0 ∧ z.live = true ∧ z.placed = (if y.saveKind = 5 ∧ y.placed ≠ 0 then y.placed else s.nextId) ∧
       (∀ i w, i < 16 → w < 128 → z.tile.rd (128 * i + w) = if (y.keptTiles y.saveKind).getLsbD i = true
         then BitVec.ofNat 32 (word (0x9000 + 512 * i + 4 * w) 4 (y.tile.rd (128 * i + w)).toNat) else 0) ∧
       (∀ r q, r < y.vc → q < y.width → z.vr r q = BitVec.ofNat 32 (word (0x1000 + 256 * r + 4 * q) 4 (y.vr r q).toNat)) ∧
       (∀ n, 1 ≤ n → n < 64 → z.p.rd n = BitVec.ofNat 64 (word (if y.handler ≠ 0 ∧ 56 ≤ n then 0xC00 + 8 * (n - 48) else 0xA00 + 8 * n) 8
         (y.p.rd n).toNat)) ∧
       (∀ n, n < 16 → y.handler = 0 ∨ 8 ≤ n ∨ (s.splits.rd (4 * g + (y.handler - 1))).live = true →
         z.bank.rd n = BitVec.ofNat 64 (word (if y.handler = 0 then 0xC00 + 8 * n else if n < 8 then 0x200 + 512 * (y.handler - 1) + 8 * (56 + n)
           else 0xA00 + 8 * (48 + n)) 8 (y.bank.rd n).toNat)) ∧
       z.fpstat = BitVec.ofNat 64 (word 0x18 8 y.fpstat.toNat % 2 ^ 6) ∧
       ∀ i, i < 4 → (s.splits.rd (4 * g + i)).live = true →
         (t.splits.rd (4 * g + i)).lanes = BitVec.ofNat 64 (word (0x50 + 32 * i) 8 (s.splits.rd (4 * g + i)).lanes.toNat) ∧
         (t.splits.rd (4 * g + i)).pc = BitVec.ofNat 64 (word (0x40 + 32 * i) 8 (s.splits.rd (4 * g + i)).pc.toNat) ∧
         ∀ n, n < 64 → (t.splits.rd (4 * g + i)).s.rd n = BitVec.ofNat 64 (word (if y.handler = i + 1 ∧ 56 ≤ n then 0xC00 + 8 * (n - 56)
           else 0x200 + 512 * i + 8 * n) 8 ((s.splits.rd (4 * g + i)).s.rd n).toNat))) ∧
  (x.live = true → x.saved = false →
    if x.graphics = true then ∃ t, exec (.preemptRequest T) s = .next t ∧ t = { s with draws := t.draws } ∧ (t.draws.rd (s.grids.rd x.grid).draw).stopped = true
    else ∃ t, exec (.preemptRequest T) s = .next t ∧ t.mem = s.mem ∧ t.teams.rd T = { x with preempt := true, rg := (t.teams.rd T).rg } ∧
      (∀ q, (s.groups.rd (q / 4)).region ≠ .opened → t.splits.rd q = s.splits.rd q) ∧
      ∀ j ∈ teamGroups s T, let z := s.groups.rd j
        if z.live = true ∧ z.saved = false ∧ z.saveKind = 0 then
          (z.region = .opened →
            (let w := t.groups.rd j
             w.saveKind = 3 ∧ w.live = true ∧ w.v = z.v ∧ w.p = z.p ∧ w.unf = z.rUnf ∧ w.flags = [] ∧ w.late = [] ∧
             w.tile = z.tile ∧ w.mtx = z.mtx ∧ w.keptTiles 3 = (BitVec.ofNat 16 (2 ^ z.tc - 1) &&& z.rMask)) ∧
            (∀ line i, i < 32 → (i, j + 1) ∈ (s.l1 z.core line).tag →
              (t.l1 z.core line).valid.getLsbD i = false ∧ (t.l1 z.core line).dirty.getLsbD i = false) ∧
            ∀ i, i < 4 →
              let old := z.rSplits.rd i
              let m := old.lanes &&& groupLanes s j
              let b := t.splits.rd (4 * j + i)
              if old.live = true ∧ m ≠ 0 then b.live = true ∧ b.lanes = m ∧ b.pc = old.pc ∧ b.idx = old.idx ∧
                ∀ q, (liveSplits s j).find? (fun q => (s.splits.rd q).lanes.getLsbD (lowest m)) = some q → b.s = (s.splits.rd q).s
              else b.live = false) ∧
          (z.region = .draining → t.groups.rd j = z) ∧
          (z.region = .sealed → t.groups.rd j = { z with region := .draining, expiry := s.clock + (s.grids.rd x.grid).region } ∧
            t.agenda.any (fun e => e.ev = .regionTimerExpiry j ∧ e.due = s.clock + (s.grids.rd x.grid).region) = true)
        else t.groups.rd j = z) ∧
  (y.live = true → y.saved = false → y.saveKind = 0 → y.region = .draining → y.expiry ≤ s.clock → ∃ t, exec (.regionTimerExpiry g) s = .next t ∧
    t = { s with groups := t.groups } ∧ t.groups.rd g = { y with saveKind := 4 } ∧ ∀ j, j ≠ g → t.groups.rd j = s.groups.rd j) ∧
  (let p := groupPart s (128 * T)
   let is := ((List.range (s.frameCount p)).filter fun i => (s.parts.rd p).frames.rd i == 0).take (areaFrames x.spSize)
   let fs := is.map fun i => (s.frameAddr p i).toNat
   teamSaveDue s T = true → (∀ f ∈ fs, s.frameBusy p (BitVec.ofNat 64 f) = []) →
   (∀ j ∈ teamGroups s T, (s.groups.rd j).live = true → s.frameBusy p (s.groups.rd j).frame = []) → ∀ w, (s.modPart p fun y => { y with frames := is.foldl (fun (m : TMap Nat) i => m.wr i (teamFrames T)) y.frames }).writeArea T fs = some w →
     ∃ t, exec (.teamSaveWrite T) s = .next t ∧ (t.teams.rd T).saved = true ∧ (t.teams.rd T).frames = fs ∧ fs.length = areaFrames x.spSize ∧
       (t.teams.rd T).bars = [] ∧ (∀ j ∈ teamGroups s T, (t.groups.rd j).placed = 0) ∧ (t.teams.rd T).savedBars = (x.bars.map fun n => (s.cores.rd x.core).bars.rd n) ∧
       ∀ n ∈ x.bars, (t.cores.rd x.core).bars.rd n = {}) ∧
  (∀ f rest u pa c, (s.parts.rd part).waiting = f :: rest → s.faultReady part = true →
    let tail := s.preg part 5
    let q := s.preg part 4
    let va := BitVec.ofNat 64 (q.toNat / 32 % 2 ^ 43 * 32 + 32 * (tail.toNat % 2 ^ (q.toNat / 2 ^ 48 % 16)))
    (s.modPart part fun p => { p with waiting := rest }).hwXlate part va true = (u, .ok pa c) → u.held (pa / 128) = false → u.homeWait (pa / 128) = false →
    (s.cleared (pa / 128) (bytesWords (BitVec.ofNat 128 ((2 ^ 32 - 1) * 2 ^ (pa % 128)))) noOwner).2 = true →
    (u.homePsn (pa / 128)).getLsbD (pa % 128 / 32) = false → isPeer (pa / 128) = false → pa % 32 = 0 →
    ∃ t, exec (.faultRecordPost part) s = .next t ∧ (t.parts.rd part).waiting = rest ∧ t.preg part 5 = tail + 1 ∧
      lineBytes (t.homeLine (pa / 128)) (pa % 128) 32 = f.addr.toNat + 2 ^ 64 * f.frame.toNat + 2 ^ 128 * (f.team % 2 ^ 32) + 2 ^ 160 * (f.core % 2 ^ 16) +
        2 ^ 176 * (f.group % 2 ^ 8) + 2 ^ 184 * (f.kind % 2 ^ 8) + 2 ^ 192 * f.lanes.toNat) ∧
  (∀ o, marginOwner s pair = some o → foreignTeams s o pair = [] → ∃ t, exec (.borrowRevocation pair) s = .next t ∧ t.mem = s.mem ∧ t.teams = s.teams ∧
    ∀ c, c = 2 * pair ∨ c = 2 * pair + 1 → (t.cores.rd c).l1 = [] ∧ (t.cores.rd c).victims = [] ∧
      ∀ e, e ∈ (t.cores.rd c).tlb ↔ e ∈ (s.cores.rd c).tlb ∧ e.part = o) ∧
  (d.live = true → d.snap = true → d.unprotected = false → (∀ e ∈ d.pages, e.1 ≠ page) →
    match (List.range (s.snapCount d.part)).find? fun i => (s.parts.rd d.part).snapUsed.rd i == 0 with
    | none => ∃ t, exec (.snapshotCopy grid page) s = .next t ∧ t.mem = s.mem ∧ t.grids.rd grid = { d with unprotected := true } ∧ ∀ j, j ≠ grid → t.grids.rd j = s.grids.rd j
    | some i => ∀ u pa c, s.hwXlate d.part (s.snapAddr d.part i) true = (u, .ok pa c) → pagesHeld u [page, pa / 2 ^ 16] = none →
      ∃ t, exec (.snapshotCopy grid page) s = .next t ∧ t.grids.rd grid = { d with pages := d.pages ++ [(page, i)] } ∧
        (t.parts.rd d.part).snapUsed.rd i = page + 1 ∧ ∀ j, j ≠ grid → t.grids.rd j = s.grids.rd j) ∧
  (d.live = true → d.snap = true → d.unprotected = false → d.replayed = false → d.done = false → (∀ i ∈ s.family grid, gridTeams s i = []) →
    pagesBusy s (d.pages.map (·.1)) = false → pagesHeld s (d.pages.map (·.1)) = none → slotsHeld s d.part (d.pages.map (·.2)) = none → ∃ t, exec (.snapshotRollback grid) s = .next t ∧ t.teams = s.teams ∧
      (let z := t.grids.rd grid
       z.replayed = true ∧ z.placed = 0 ∧ z.ended = 0 ∧ z.err = 0 ∧ z.trapped = false ∧ z.pages = [] ∧ z.live = true ∧ z.rec_ = d.rec_) ∧
      ∀ i ∈ s.family grid, i ≠ grid → t.grids.rd i = default) ∧
  (y.live = true → (s.grids.rd (s.teams.rd (g / 128)).grid).verify = true →
    ∃ t, exec (.verifyMismatch g) s = .next t ∧ t = { s with groups := t.groups } ∧ t.groups.rd g = { y with parted := true } ∧
      ∀ j, j ≠ g → t.groups.rd j = s.groups.rd j)

/-! ### Events of memory (08_memory_access.md to 10_llc_compression.md, 12_sync.md) -/

/-- R117, R118, R124, R126, R129 to R131, R140, R141, R144, R158, R163, R170, R175, R200, R212: a walk answers the splits that wait
for its page, and waits for its lines; a read takes its words from the line at its home slice and waits for the line, for a hold, and for the anvil, an
invocation that has arrived before, revokes under way and a carve; a fill
gives the L1 the words it lacks; a write-through puts its bytes there; revokes clear owned bits and are acknowledged; a fill from HBM
brings the line as memory holds it; a recall releases a hold that is done; the first element of a gather in a line reads it for all of
them and lands; a row's timer closes it unless a request for the row is queued, a
period's charges end, a refresh closes the rows of its pseudo-channel or, while requests are queued for it, is postponed, at most eight
times; a slice changes its next set for a carve, or counts its part as done; barriers let their waiters go.
The walker's writes (log entry 28) and the order of a carve's blocks (log entry 93) are the model's reading. -/
def Obligations.MemoryEvents : Prop := ∀ (s : State) (r : LineReq) (a : LineReply) (w : WtReq) (core line part ack op lane unit vpn stack bank slice team bar grid : Nat)
    (mask : W32) (c : Bool),
  let free := fun (l : Nat) => isPeer l = false ∧ s.held l = false ∧ s.homeWait l = false
  let E := fun (i : Instr) (P : State → Prop) => ∃ t, exec i s = .next t ∧ P t
  let has := fun (t : State) (e : Ev) => t.agenda.any (·.ev = e) = true
  (∀ k, (s.groups.rd (k / 4)).core = unit → groupPart s (k / 4) = part → (s.splits.rd k).xl.rd vpn = 1 →
    match s.tlbServe (s.dies.rd (dieOfCore unit)).tlb part (vpn * 2 ^ 16) with
    | some e => E (.tlbWalk false unit part vpn) fun t => t.mem = s.mem ∧ e ∈ (t.cores.rd unit).tlb ∧ (t.splits.rd k).xl.rd vpn = 0
    | none =>
      ((∃ l ∈ walkLines s part (vpn * 2 ^ 16), s.busy l = true) → E (.tlbWalk false unit part vpn) fun t =>
        t = { s with agenda := t.agenda } ∧ has t (.tlbWalk false unit part vpn)) ∧
      ((∀ l ∈ walkLines s part (vpn * 2 ^ 16), s.present l = true ∧ s.busy l = false) → E (.tlbWalk false unit part vpn) fun t =>
        (t.splits.rd k).xl.rd vpn = (match s.walk part (vpn * 2 ^ 16) with
          | .ok _ _ => 0
          | .fault => 2
          | _ => 3))) ∧
  (isPeer r.line = true → E (.homeSliceRead r) fun t => t = { s with agenda := t.agenda } ∧
    t.agenda.any (fun e => e.ev = .slotlinkTimeout r.op ∧ e.due = s.clock + 1600000) = true ∧ (t.agenda.any fun e => match e.ev with
    | .slotlinkRequest q => q.kind == .read r && !q.incoming
    | _ => false) = true) ∧
  (isPeer r.line = false → s.held r.line = true → E (.homeSliceRead r) fun t => t = { s with agenda := t.agenda } ∧ has t (.engineRecall r.line) ∧ has t (.homeSliceRead r)) ∧
  (isPeer r.line = false → s.held r.line = false → (s.anvilOn r.line = true ∨ s.reserved r.line = true ∨ s.revoking r.line = true ∨ s.carving r.line = true) →
    E (.homeSliceRead r) fun t => t = { s with agenda := t.agenda } ∧ has t (.homeSliceRead r)) ∧
  (free r.line → s.present r.line = false → E (.homeSliceRead r) fun t => t = { s with agenda := t.agenda } ∧ has t (.llcFill r.line r.part r.c) ∧ has t (.homeSliceRead r)) ∧
  (free r.line → s.present r.line = true → E (.homeSliceRead r) fun t => t.mem = s.mem ∧ (∀ l, t.homeLine l = s.homeLine l) ∧
    match r.dest with
    | .fill k => has t (.mergingFillReturn { core := k, part := r.part, line := r.line, mask := r.mask, data := s.homeLine r.line, psn := s.homePsn r.line
                                             c := r.c, op := r.op })
    | .op => (s.ops.rd r.op).live = true → (∀ i, i < 32 → r.mask.getLsbD i = true → (t.ops.rd r.op).cap.rd (32 * r.line + i) = lineWord (s.homeLine r.line) i) ∧
      (t.ops.rd r.op).need = (s.ops.rd r.op).need - 1 ∧ ((s.ops.rd r.op).need ≤ 1 → has t (.operationRetire r.op))) ∧
  (a.op = 0 → a.mask ≠ 0 → E (.mergingFillReturn a) fun t => t.mem = s.mem ∧ t.ops = s.ops ∧
    (let l := if (s.l1 a.core a.line).live = true then s.l1 a.core a.line else {}
     let m := t.l1 a.core a.line
     m.live = true ∧ m.valid = l.valid ||| a.mask ∧ m.dirty = l.dirty ∧
     ∀ i, i < 32 → lineWord m.data i = lineWord (if a.mask.getLsbD i = true ∧ l.valid.getLsbD i = false then a.data else l.data) i)) ∧
  (free w.line → w.own = true → s.present w.line = true → E (.writeThrough w) fun t => ∀ i, i < 128 →
    lineByte (t.homeLine w.line) i = lineByte (if w.bytes.getLsbD i = true then w.data else s.homeLine w.line) i) ∧
  (free w.line → w.own = false → E (.writeThrough w) fun t => t.present w.line = true ∧ t.homeLine w.line = 0 ∧ t.homePsn w.line = 0) ∧
  (E (.revoke core line mask ack) fun t => t.mem = s.mem ∧ t.slices = s.slices ∧ (ack ≠ 0 → has t (.revokeAcknowledge ack)) ∧
    ((s.l1 core line).live = true → t.l1 core line = { s.l1 core line with owned := (s.l1 core line).owned &&& ~~~mask })) ∧
  ((s.acks.rd ack).live = true → E (.revokeAcknowledge ack) fun t => t.mem = s.mem ∧
    t.acks.rd ack = if (s.acks.rd ack).left ≤ 1 then default else { s.acks.rd ack with left := (s.acks.rd ack).left - 1 }) ∧
  (s.present line = false → E (.llcFill line part c) fun t =>
    if s.carving line = true ∨ s.memHeld line part = true then t = { s with agenda := t.agenda } ∧ has t (.llcFill line part c)
    else t.present line = true ∧ t.homeLine line = s.mem.line line ∧ t.homePsn line = s.hbmPsn line) ∧
  (∀ h, (s.slices.rd (sliceOf line)).holds.find? (·.line == line) = some h → (s.slices.rd (sliceOf line)).ors = [] →
    E (.engineRecall line) fun t => t.mem = s.mem ∧
    (t.slices.rd (sliceOf line)).holds = if h.done = true then (s.slices.rd (sliceOf line)).holds.erase h else (s.slices.rd (sliceOf line)).holds) ∧
  (∀ sz dst, let o := s.ops.rd op
    let pa := o.pas.rd lane
    let n := MemSz.bytes sz
    o.live = true → o.kind = .gather sz dst → o.todo.contains (pa / 128) = false → o.bad = 0 → (lane, pa) ∈ o.pas → lane < 64 → pa % n = 0 →
    s.place pa ≠ none → free (pa / 128) → (s.present (pa / 128) = true ∨ s.memHeld (pa / 128) o.part = false) → s.homePsn (pa / 128) = 0 →
    (∀ i, i < n → armedOver s (o.split / 512) (dst + lane * n + i) 1 = false) → E (.gatherLanding op lane) fun t => t.mem = s.mem ∧
      (∀ i, i < n → (t.teams.rd (o.split / 512)).scratch.rd (dst + lane * n + i) = BitVec.ofNat 8 (lineBytes (s.homeLine (pa / 128)) (pa % 128) n / 256 ^ i)) ∧
      (∀ j, j < dst + lane * n ∨ dst + lane * n + n ≤ j → (t.teams.rd (o.split / 512)).scratch.rd j = (s.teams.rd (o.split / 512)).scratch.rd j) ∧
      (t.ops.rd op).todo = pa / 128 :: o.todo ∧ (t.ops.rd op).need = o.need - 1 ∧ (o.need ≤ 1 → has t (.operationRetire op))) ∧
  (((s.dies.rd (stack / 2)).rows.rd bank).1 ≠ 0 → E (.rowIdleTimer stack bank) fun t => t = { s with clock := t.clock, dies := t.dies } ∧
    t.clock = max s.clock ((s.dies.rd (stack / 2)).rows.rd bank).2 ∧
    (let d := s.dies.rd (stack / 2)
     let wants := fun (u : Nat) => bankKey u == bank && Config.rowOf u + 1 == (d.rows.rd bank).1
     (t.dies.rd (stack / 2)).rows.rd bank =
       if d.idle (stack % 2) ≠ 0 ∧ (memQueue s ++ (burstQueue s).map (·.1)).any (unitOf stack wants) = true
       then ((d.rows.rd bank).1, t.clock + d.idle (stack % 2)) else default)) ∧
  (E .memBudgetPeriod fun t => t = { s with dies := t.dies } ∧ ∀ d, t.dies.rd d = { s.dies.rd d with used := [] }) ∧
  (E (.refresh stack) fun t => t.mem = s.mem ∧ t.slices = s.slices ∧
    (let d := s.dies.rd (stack / 2)
     let e := t.dies.rd (stack / 2)
     let ch := Config.channelOf (Config.pick s.tick)
     let n := d.postponed.rd (2 * ch + stack % 2)
     let busy := (memQueue s ++ (burstQueue s).map (·.1)).any (unitOf stack fun u => Config.channelOf (Config.bankOf u) == ch)
     if busy = true ∧ n < 8 then e.postponed.rd (2 * ch + stack % 2) = n + 1 ∧ e.rows = d.rows
     else e.postponed.rd (2 * ch + stack % 2) = 0 ∧
       ∀ r, r ∈ e.rows ↔ r ∈ d.rows ∧ ¬ (r.1 / 2 ^ 32 = stack % 2 ∧ Config.channelOf (r.1 % 2 ^ 32) = ch))) ∧
  (∀ die n, let o := s.ops.rd op
    o.live = true → o.kind = .carve part die n → (∀ e ∈ s.ops, e.1 < op → e.2.live = true → ∀ m, e.2.kind ≠ .carve part die m) →
    let have_ := o.b.toNat
    let m := (s.slices.rd slice).carveAt.rd part
    E (.carveSliceApply op slice) fun t => (t.ops.rd op).started = true ∧ (o.started = true →
      match (s.carveChunks part die have_ n)[m / 1536]? with
      | some c =>
        let l := chunkLine (s.carveBase part die).2 c.k slice (m % 1536)
        (t.slices.rd slice).carveAt.rd part = m + 1 ∧ has t (.carveSliceApply op slice) ∧ (t.ops.rd op).need = o.need ∧
        (t.tagOf l).carved = decide (have_ < n) ∧ (have_ < n → (t.tagOf l).valid = true ∧ (t.tagOf l).form = 15 ∧
          (t.tagOf l).secs = [4 * c.bank, 4 * c.bank + 1, 4 * c.bank + 2, 4 * c.bank + 3])
      | none => (t.slices.rd slice).carveAt.rd part = 0 ∧ (t.ops.rd op).need = o.need - 1 ∧ (o.need ≤ 1 → has t (.operationRetire op)))) ∧
  (let goes := fun (k : Nat) => k / 512 = team ∧ (s.splits.rd k).phase = letGo ∧ (s.splits.rd k).until_ ≤ s.clock ∧
     ∃ b d, (s.splits.rd k).wait = .cond (.bar bar b d)
   E (.barrierRelease team bar) fun t => t = { s with splits := t.splits } ∧ (s.splits.wf = true → ∀ k,
     (goes k → t.splits.rd k = { s.splits.rd k with wait := .ready, until_ := 0 }) ∧ (¬ goes k → t.splits.rd k = s.splits.rd k))) ∧
  (gridArrived s grid = true → E (.gridBarrierRelease grid) fun t => t = { s with grids := t.grids } ∧
    t.grids.rd grid = { s.grids.rd grid with gphase := (s.grids.rd grid).gphase + 1, garr := [] } ∧ ∀ g, g ≠ grid → t.grids.rd g = s.grids.rd g)

/-! ### Events of anvils and posts (11_slice_routines.md, 15_targets.md) -/

/-- R178 to R182, R188, R190, R193, R195, R196, R230: a fixed atomic reads and writes its word as one event once its line is there,
held by nobody and owned by no core, and answers with the old value; an invocation without its entry waits at its slice and has it fetched,
and starts with its operands, its constants and its line; an entry that is fetched stands in the anvil's cache; a period's charges end; one
invocation of a `tred` adds its elements.
How R183's operand count and R261 stand to each other (log entry 38), that a fetch ignores poison (log entry 40) and what becomes of an
entry without memory (log entry 135) are the model's reading. -/
def Obligations.SliceEvents : Prop := ∀ (s : State) (r : AtmReq) (q : CasReq) (v : InvReq) (slice part id op line : Nat),
  let E := fun (i : Instr) (P : State → Prop) => ∃ t, exec i s = .next t ∧ P t
  let has := fun (t : State) (e : Ev) => t.agenda.any (·.ev = e) = true
  let open_ := fun (l p : Nat) => isPeer l = false ∧ s.held l = false ∧ s.homeWait l = false ∧ (s.slices.rd (sliceOf l)).inv.live = false ∧
    s.anvilSpent (sliceOf l) p = false ∧ s.present l = true ∧ s.owners l (BitVec.allOnes 32) noOwner = []
  let value := fun (pa n : Nat) (t : State) => lineBytes (t.homeLine (pa / 128)) (pa % 128) n
  let rest := fun (pa n : Nat) (t : State) => ∀ i, i < 128 → i < pa % 128 ∨ pa % 128 + n ≤ i → lineByte (t.homeLine (pa / 128)) i = lineByte (s.homeLine (pa / 128)) i
  let answered := fun (op lane dreg n old : Nat) (ret : Bool) (t : State) => (s.ops.rd op).live = true →
    (t.ops.rd op).need = (s.ops.rd op).need - 1 ∧ ((s.ops.rd op).need ≤ 1 → has t (.operationRetire op)) ∧
    (ret = true → lane < 64 → (t.ops.rd op).res.rd (64 * dreg + lane) = BitVec.ofNat 32 old ∧
      (n = 8 → (t.ops.rd op).res.rd (64 * (dreg + 1) + lane) = BitVec.ofNat 32 (old / 2 ^ 32)))
  (let n := if r.wide then 8 else 4
   let old := value r.pa n s
   let o := BitVec.ofNat (8 * n) old
   let x := BitVec.ofNat (8 * n) r.x.toNat
   open_ (r.pa / 128) r.part → r.pa % n = 0 → (s.homePsn (r.pa / 128)).getLsbD (r.pa % 128 / 32) = false →
     E (.atomicInvocation r) fun t => rest r.pa n t ∧ answered r.op r.lane r.dreg n old r.ret t ∧ value r.pa n t = (match r.aop with
       | .add => o + x
       | .minS => if o.toInt ≤ x.toInt then o else x
       | .maxS => if o.toInt ≤ x.toInt then x else o
       | .minZ => if o.toNat ≤ x.toNat then o else x
       | .maxZ => if o.toNat ≤ x.toNat then x else o
       | .and => o &&& x
       | .or => o ||| x
       | .xor => o ^^^ x
       | .exch => x
       | .inc => if o.toNat ≥ x.toNat then 0 else o + 1
       | .dec => if o = 0 ∨ o.toNat > x.toNat then x else o - 1
       | .faddF32 => BitVec.ofNat (8 * n) (addF f32p o.toNat x.toNat).1
       | .faddF16 => BitVec.ofNat (8 * n) ((addF (Fmt.p .f16) (o.toNat % 2 ^ 16) (x.toNat % 2 ^ 16)).1 +
           2 ^ 16 * (addF (Fmt.p .f16) (o.toNat / 2 ^ 16 % 2 ^ 16) (x.toNat / 2 ^ 16 % 2 ^ 16)).1)).toNat) ∧
  (let n := if q.wide then 8 else 4
   let old := value q.pa n s
   open_ (q.pa / 128) q.part → q.pa % n = 0 → (s.homePsn (q.pa / 128)).getLsbD (q.pa % 128 / 32) = false →
     E (.casInvocation q) fun t => rest q.pa n t ∧ answered q.op q.lane q.dreg n old q.ret t ∧
       value q.pa n t = if old = q.cmp.toNat % 2 ^ (8 * n) then q.new.toNat % 2 ^ (8 * n) else old) ∧
  (isPeer (r.pa / 128) = true → E (.atomicInvocation r) fun t => t = { s with agenda := t.agenda } ∧
    t.agenda.any (fun e => e.ev = .slotlinkTimeout r.op ∧ e.due = s.clock + 1600000) = true ∧ (t.agenda.any fun e => match e.ev with
    | .slotlinkRequest u => u.kind == .atomic r && !u.incoming
    | _ => false) = true) ∧
  (isPeer v.line = false → v.ids = [id] → v.nth = 0 →
    match s.cached (sliceOf v.line) v.part id with
    | none =>
      let arrived := (s.slices.rd (sliceOf v.line)).waits.contains v
      let stopped := arrived = false ∧ (s.homeWait v.line = true ∨ s.heldFrom v.line v.hold = true ∨ s.anvilSpent (sliceOf v.line) v.part = true)
      (stopped → E (.anvilInvocationStart v) fun t => t = { s with agenda := t.agenda } ∧ has t (.anvilInvocationStart v) ∧
        (s.heldFrom v.line v.hold = true → has t (.engineRecall v.line))) ∧
      (¬ stopped → s.rtAbsent v.part id = false → E (.anvilInvocationStart v) fun t => t = { s with agenda := t.agenda, slices := t.slices } ∧
        has t (.anvilInvocationStart v) ∧ has t (.routineEntryFetch (sliceOf v.line) v.part id) ∧
        if arrived = true then t.slices = s.slices
        else (t.slices.rd (sliceOf v.line)).waits = (s.slices.rd (sliceOf v.line)).waits ++ [v]) ∧
      (¬ stopped → s.rtAbsent v.part id = true → v.kind = .call → E (.anvilInvocationStart v) fun t => t.mem = s.mem ∧
        (t.slices.rd (sliceOf v.line)).waits = (s.slices.rd (sliceOf v.line)).waits.erase v ∧
        ((s.grids.rd v.grid).live = true → (t.grids.rd v.grid).err = (s.grids.rd v.grid).err + 1) ∧
        ((s.ops.rd v.op).live = true → (t.ops.rd v.op).need = (s.ops.rd v.op).need - 1 ∧ ((s.ops.rd v.op).need ≤ 1 → has t (.operationRetire v.op))))
    | some e => open_ v.line v.part → E (.anvilInvocationStart v) fun t => t.mem = s.mem ∧ (∀ l, t.homeLine l = s.homeLine l) ∧
      (let i := (t.slices.rd (sliceOf v.line)).inv
       i.live = true ∧ i.req = v ∧ i.pc = 0 ∧ i.l = s.homeLine v.line ∧ i.wrote = 0 ∧ i.cond = 0 ∧ i.q = [] ∧ i.len = hdrLength (e.words.getD 0 0) ∧
       i.rets = hdrRets (e.words.getD 0 0) ∧
       (∀ j, i.o.rd j = if v.kind = .call ∧ hdrOps (e.words.getD 0 0) ≤ j then 0 else v.ops.getD j 0) ∧ (∀ j, j < v.ks.length → i.k.rd j = v.ks.getD j 0) ∧
       ∀ j, j < 32 → 4 + j < e.words.length → i.code.rd j = e.words.getD (4 + j) 0)) ∧
  (if s.rtAbsent part id = true then exec (.routineEntryFetch slice part id) s = .next s
   else (∀ l ∈ s.rtLines part id, s.present l = true ∧ s.held l = false ∧ s.homeWait l = false) → E (.routineEntryFetch slice part id) fun t =>
    t.mem = s.mem ∧ (t.cached slice part id).map (·.words) = some (s.rtWords part id) ∧ (t.slices.rd slice).inv = (s.slices.rd slice).inv ∧
    (t.slices.rd slice).waits = (s.slices.rd slice).waits) ∧
  (E .anvilBudgetPeriod fun t => t = { s with slices := t.slices } ∧ ∀ i, t.slices.rd i = { s.slices.rd i with charge := [] }) ∧
  (let o := s.ops.rd op
   let pl := o.pas.rd line - 1
   let ps := linePieces (opXfer o).pieces line
   o.live = true → open_ pl o.part → (∀ p ∈ ps, (s.homePsn pl).getLsbD (p.mem % 1024 / 256) = false) → E (.tredInvocation op line) fun t =>
     t.homeLine pl = ps.foldl (fun l p => setLineWord l (p.mem % 1024 / 32)
       (BitVec.ofNat 32 (addF f32p (lineWord l (p.mem % 1024 / 32)).toNat (scratchBits s (o.split / 512) p.sp 32)).1)) (s.homeLine pl) ∧
     (t.ops.rd op).need = o.need - 1 ∧ (t.ops.rd op).vas.rd line = 0 ∧ (o.need ≤ 1 → has t (.operationRetire op)))

/-! ### Events of the chart engines and of posts (13_chart.md, 15_targets.md) -/

/-- R144, R218, R221, R222: the next transfer of a die's engine starts, and one that stores holds the lines it will write; a line of a
loading transfer lands in scratchpad; a page without a translation parks the transfer and posts a record. R257, R262 to R267: a post
whose notice is its line's oldest starts its chain, another is held, or refused when the slice holds 511, and comes again; a null post
clears its bit; a forward post takes an engine hold on the line of the second target and goes there; a clear writes its pattern; the reads of
one sample instruction on a line are served in one access, and settling ones wait for the notices below their fences.
That the settling reads of one line wait for one another (log entry 109) is the model's reading. -/
def Obligations.TransferAndPostEvents : Prop := ∀ (s : State) (p : Post) (r : TsReq) (q : TmReq) (die op l : Nat),
  let E := fun (i : Instr) (P : State → Prop) => ∃ t, exec i s = .next t ∧ P t
  let has := fun (t : State) (e : Ev) => t.agenda.any (·.ev = e) = true
  let o := s.ops.rd op
  let stepped := fun (n need : Nat) (t : State) => (t.ops.rd n).need = need - 1 ∧ (need ≤ 1 → has t (.operationRetire n))
  let quiet := fun (i : Instr) (e : Ev) => ∃ t, exec i s = .next t ∧ t = { s with agenda := t.agenda } ∧ has t e
  let free := fun (l : Nat) => isPeer l = false ∧ s.held l = false ∧ s.homeWait l = false ∧ s.present l = true
  (∀ n tr ab, ((s.dies.rd die).chartQ.find? fun id => !(s.ops.rd id).started) = some op → o.live = true → o.kind = .chart 1 n tr ab →
    E (.chartTransferStart die) fun t => t = { s with ops := t.ops, agenda := t.agenda } ∧ has t (.chartBytesLanding op) ∧
      t.ops.rd op = { o with started := true, todo := 0 :: (pieceLines (opXfer o).pieces).map (· + 1) }) ∧
  (∀ n tr ab, ((s.dies.rd die).chartQ.find? fun id => !(s.ops.rd id).started) = some op → o.live = true → o.kind = .chart 2 n tr ab →
    E (.chartTransferStart die) fun t => t.mem = s.mem ∧ (t.ops.rd op).started = true ∧ (t.ops.rd op).todo = (pieceLines (opXfer o).pieces).map (· + 1) ∧
      ∀ k ∈ pieceLines (opXfer o).pieces, ∀ ent e pa, s.walk o.part (va56 (BitVec.ofNat 64 (128 * k))) = .ok ent e → e.testBit 2 = true →
        s.place (fld e 16 36 * 2 ^ 16 + fld (128 * k) 0 16) = some pa → isPeer (pa / 128) = false → t.held (pa / 128) = true) ∧
  (let u := s.drawn 1
   let T := o.split / 512
   ∀ n tr w pa c sb x, o.live = true → o.kind = .chart 1 n tr false → o.started = true → o.parked = false → o.todo = [l + 1] →
     u.chartPages (dieOfCore o.core) o.part false [l / 512] = (u, .ok w x sb) →
     u.engineXlate (dieOfCore o.core) o.part (BitVec.ofNat 64 (128 * l)) false = (u, .ok pa c sb) → free (pa / 128) →
     ∀ b, linePieces (opXfer o).pieces l = [b] → (s.homePsn (pa / 128)).getLsbD (b.mem % 1024 / 256) = false →
       (∀ i, armedOver s T i 1 = false) → E (.chartBytesLanding op) fun t => t.mem = s.mem ∧ (t.ops.rd op).todo = [] ∧ stepped op o.need t ∧
         scratchBits t T b.sp b.n = fld (s.homeLine (pa / 128)).toNat (b.mem % 1024) b.n) ∧
  (∀ w, o.live = true → o.started = true → o.parked = false →
    ((o.todo.filter (· != 0)).find? fun w => s.walk o.part (va56 (BitVec.ofNat 64 (128 * (w - 1)))) == .fault) = some w →
    E (.chartPageFault op) fun t => t.mem = s.mem ∧ t.ops.rd op = { o with parked := true } ∧ has t (.faultRecordPost o.part) ∧
      ∃ f, (t.parts.rd o.part).waiting = (s.parts.rd o.part).waiting ++ [f] ∧ f.kind = 12 ∧ f.frame = 0 ∧ f.lanes = BitVec.ofNat 64 (ticketOf 0 op)) ∧
  (let rec_ := (s.slot p.part p.slot).rec_
   let home := sliceOf p.line
   let kept := fun (t : State) => (t.cores.rd p.core).posts = (s.cores.rd p.core).posts.erase p
   if s.homeWait p.line = true then quiet (.fragmentPost p) (.fragmentPost p) else match s.entryOf p with
   | none => E (.fragmentPost p) fun t => t.mem = s.mem ∧ kept t ∧ ((s.ops.rd p.op).live = true → stepped p.op (s.ops.rd p.op).need t)
   | some e =>
     if recField rec_ 102 1 = 1 ∨ (s.noticesOf p.line).head? = some e then
       E (.fragmentPost p) fun t => t = { s with cores := t.cores, agenda := t.agenda } ∧ kept t ∧ has t (.anvilInvocationStart (s.postReq p false))
     else if (s.slices.rd home).held.length < 511 then
       E (.fragmentPost p) fun t => t.mem = s.mem ∧ kept t ∧ (t.slices.rd home).held = (s.slices.rd home).held ++ [p]
     else E (.fragmentPost p) fun t => t.mem = s.mem ∧ t.cores = s.cores ∧ has t (.postReturn p)) ∧
  quiet (.postReturn p) (.fragmentPost p) ∧
  (E (.nullPost p) fun t => t.mem = s.mem ∧ ((s.ops.rd p.op).live = true → stepped p.op (s.ops.rd p.op).need t) ∧
    (∀ e ∈ (t.slices.rd (sliceOf p.line)).notices, entryFor p.line p.key p.slot p.ord e = true → e.mask.getLsbD (postPix s p) = false) ∧
    ∀ e ∈ (s.slices.rd (sliceOf p.line)).notices, e.mask ≠ 0 → entryFor p.line p.key p.slot p.ord e = false →
      e ∈ (t.slices.rd (sliceOf p.line)).notices) ∧
  (∀ u pa c sb, s.engineXlate (dieOf p.line) p.part (lineVa (s.slot p.part p.slot).rec_ 0 p.x p.y) true = (u, .ok pa c sb) →
    u.uncopied p.grid sb pa = false → E (.forwardPost p) fun t => t.mem = u.mem ∧ t.nextId = u.nextId + 1 ∧
      has t (.anvilInvocationStart { u.postReq { p with line := pa / 128, c := c } true with hold := u.nextId, die := dieOf p.line }) ∧
      (isPeer (pa / 128) = false → t.holds (pa / 128) u.nextId = true)) ∧
  (let rec_ := (s.slot q.part q.slot).rec_
   (q.mode = 0 → ∃ v, quiet (.tmethInvocation q) (.anvilInvocationStart v) ∧ v.line = q.line ∧ v.ids = recChain rec_ ∧ v.ops = q.args.map (·.setWidth 32) ∧
     v.part = q.part ∧ v.op = q.op ∧ v.grid = q.grid) ∧
   (q.mode = 1 → free q.line → (s.slices.rd (sliceOf q.line)).inv.live = false → s.anvilSpent (sliceOf q.line) q.part = false →
     s.owners q.line (BitVec.allOnes 32) noOwner = [] → recField rec_ 192 64 = 0 →
     E (.tmethInvocation q) fun t => ((s.ops.rd q.op).live = true → stepped q.op (s.ops.rd q.op).need t) ∧ ∀ i, i < 32 → lineWord (t.homeLine q.line) i =
       if i ∈ pixelWords rec_ q.bits then BitVec.ofNat 32 ((q.args.headD 0).toNat / 2 ^ (32 * (i % recWords rec_))) else lineWord (s.homeLine q.line) i)) ∧
  (let qs := s.lineReads r
   let need := (s.ops.rd r.op).need
   free r.line → if r.settle = true ∧ qs.all (fun v => s.settled v.line v.pix v.fence) = false then quiet (.tsampleRead r) (.tsampleRead r)
     else (s.ops.rd r.op).live = true → (∀ v ∈ qs, v.lane < 64) →
       E (.tsampleRead r) fun t => t.mem = s.mem ∧ (t.ops.rd r.op).need = need - qs.length ∧ (need ≤ qs.length → has t (.operationRetire r.op)) ∧
         (∀ v ∈ qs, ∀ e ∈ t.agenda, e.ev ≠ .tsampleRead v) ∧
         ∀ v ∈ qs, (∀ w ∈ qs, w ≠ v → w.lane ≠ v.lane) → (∀ i, i < v.nwords → (s.homePsn r.line).getLsbD ((v.word + i) / 8) = false) →
           (∀ i, i < v.nwords → (t.ops.rd r.op).res.rd (64 * (v.dreg + i) + v.lane) = lineWord (s.homeLine r.line) (v.word + i)) ∧
           (if s.settled r.line v.pix v.fence = true then (t.ops.rd r.op).pset.getLsbD v.lane = true else (t.ops.rd r.op).pclr.getLsbD v.lane = true))

/-! ### Events of draws and displays (15_targets.md, 18_system.md, 19_device.md) -/

/-- R255, R257, R259, R260: the next triangle of a draw is assembled, and kept when it can produce fragments; the primitives of a tile
follow one another, each with one notice entry for each line it covers; a slice takes an entry while it has one of 8,192 free, and the last lets
the primitive's quads be launched, oldest first, as fragment teams; a page without a translation parks the draw and posts a record. R324,
R361: a frame launches its re-projection, lets the compositor go on at half the lead where that has not been placed, and shows the buffer
that the present word names at the vblank, which stops the compositor after a record in progress; re-projection beyond its budget is
pre-empted.
The order of the tiles of a primitive (log entry 48) is the model's reading. -/
def Obligations.DrawAndDisplayEvents : Prop := ∀ (s : State) (n : Notice) (out : Fin 2) (draw : Nat),
  let E := fun (i : Instr) (P : State → Prop) => ∃ t, exec i s = .next t ∧ P t
  let d := s.draws.rd draw
  let x := s.outs.rd out.val
  let prim := d.prims.getD d.tprim 0
  let only := fun (t : State) => t = { s with draws := t.draws } ∧ ∀ j, j ≠ draw → t.draws.rd j = s.draws.rd j
  (triangleDue s draw = true → E (.primitiveAssembly draw d.nprim) fun t => only t ∧ t.draws.rd draw =
    { d with nprim := d.nprim + 1, prims := if triKept (drawTri d d.nprim) = true then d.prims ++ [d.nprim] else d.prims }) ∧
  (rasterDue s draw = true → rasterFirst s draw = true →
    (tileCount s d ≤ d.tile → E (.rasterTileBegin draw) fun t => only t ∧ (t.draws.rd draw).rasterDone = if d.nprim = drawTris d then true else d.rasterDone) ∧
    (d.tile < tileCount s d → d.prims.length ≤ d.tprim → E (.rasterTileBegin draw) fun t => only t ∧
      t.draws.rd draw = { d with stopped := false, tile := d.tile + 1, tprim := 0 }) ∧
    (d.tile < tileCount s d → d.tprim < d.prims.length →
      ∀ u p, (s.modDraw draw fun d => { d with stopped := false }).rasterPlan draw d.tile prim = (u, p) → p.miss = false → p.fault = none →
        E (.rasterTileBegin draw) fun t => (t.draws.rd draw).tprim = d.tprim + 1 ∧ (t.draws.rd draw).notices = p.lines.length ∧
          ∀ l ∈ p.lines, (t.agenda.any fun e => match e.ev with
            | .noticeEntry e => e.key == draw && e.line == l.2.2 && e.ord == prim && e.draw == drawNumber d && e.part == d.part
            | _ => false) = true)) ∧
  (∀ va, rasterFault s draw = some va → E (.rasterPageFault draw) fun t => t.mem = s.mem ∧ t.draws.rd draw = { d with parked := true } ∧
    t.agenda.any (·.ev = .faultRecordPost d.part) = true ∧ ∃ f, (t.parts.rd d.part).waiting = (s.parts.rd d.part).waiting ++ [f] ∧
      f.kind = 13 ∧ f.addr = va ∧ f.frame = 0 ∧ f.lanes = BitVec.ofNat 64 (ticketOf 1 draw)) ∧
  (let full := 8192 ≤ (s.slices.rd (sliceOf n.line)).notices.length
   let y := s.draws.rd n.key
   (full → E (.noticeEntry n) fun t => t = { s with agenda := t.agenda } ∧ t.agenda.any (·.ev = .noticeEntry n) = true) ∧
   (¬ full → y.live = true → E (.noticeEntry n) fun t => t.mem = s.mem ∧
     (t.slices.rd (sliceOf n.line)).notices = (s.slices.rd (sliceOf n.line)).notices ++ [n] ∧
     t.draws.rd n.key = if y.notices ≤ 1 then { y with notices := y.notices - 1, quads := y.quads ++ y.newQuads, newQuads := [] }
       else { y with notices := y.notices - 1 })) ∧
  (let g := s.grids.rd d.fgrid
   let T := s.nextId
   ∀ c, fragmentsDue s draw = true → bestPlace (places s (pendingRestores s) g (fragSpec s draw)) = some c → 4 ≤ g.lanes →
     E (.fragmentGroupLaunch draw) fun t => t.mem = s.mem ∧ (t.teams.rd T).live = true ∧ (t.teams.rd T).kind = .fragment ∧ (t.teams.rd T).grid = d.fgrid ∧
       (t.teams.rd T).core = c ∧ (t.grids.rd d.fgrid).placed = g.placed + 1 ∧
       ∃ k, 1 ≤ k ∧ k ≤ g.lanes / 4 ∧ (t.draws.rd draw).quads = d.quads.drop k ∧ (t.splits.rd (512 * T)).live = true ∧
         (t.splits.rd (512 * T)).pc = g.entry ∧ (t.splits.rd (512 * T)).lanes = ones (4 * k) ∧
         ∀ p, ((t.groups.rd (128 * T)).frag.rd p).live = true → ∃ a ∈ d.quads.take k, (t.groups.rd (128 * T)).frag.rd p ∈ a.frags) ∧
  (let off := fun (i : Instr) => exec i s = .next s
   let due := fun (t : State) (e : Ev) (k : Nat) => t.agenda.any (fun p => p.ev = e ∧ p.due = k) = true
   let ctl := (s.queues.rd x.queue).ctl
   (x.enabled = false → off (.reprojectionLaunch out) ∧ off (.compositorUnstop out) ∧ off (.vblank out)) ∧
   (x.enabled = true → (∀ e ∈ s.agenda, e.ev ≠ .vblank out) → E (.reprojectionLaunch out) fun t =>
     due t (.compositorUnstop out) (s.clock + x.lead / 2) ∧ due t (.vblank out) (s.clock + x.lead)) ∧
   (let r := s.modOut out.val fun o => { o with used := 0, grid := 0, placed := false }
    ∀ u v w y, x.enabled = true → x.reproj.toNat % 64 = 0 → r.hwRead (s.outPart out.val) x.reproj 64 = (u, .ok v) →
      u.checkLaunch (s.outPart out.val) true (BitVec.ofNat 512 v) = (w, some (.ok y)) → E (.reprojectionLaunch out) fun t =>
        t.outs.rd out.val = { w.outs.rd out.val with grid := w.nextId } ∧ (t.outs.rd out.val).ctl = x.ctl ∧ (t.outs.rd out.val).used = 0 ∧
        (t.outs.rd out.val).placed = false ∧
        (let g := t.grids.rd w.nextId
         g.live = true ∧ g.kind = .reproj ∧ g.prio = 7 ∧ g.part = s.outPart out.val ∧ g.queue = 0 ∧ g.parent = 0 ∧ g.root = w.nextId ∧ g.admitted = true ∧
         g.entry = y.entry ∧ g.word = y.word ∧ g.teams = y.teams ∧ g.lanes = y.lanes ∧ g.bars = y.bars ∧ g.pair = y.pair ∧ g.coop = y.coop ∧
         g.verify = y.verify ∧ g.snap = y.snap ∧ g.region = y.region ∧ g.compl = y.compl ∧ g.placed = 0 ∧ g.done = false)) ∧
   (let stops := fun (u t : State) => let q := u.queues.rd x.queue
      if q.busy = true ∨ q.parked = true then t.queues.rd x.queue = { q with stopping := true }
      else t.queues.rd x.queue = { q with stopping := false, ctl := q.ctl ||| 1#64 }
    (x.enabled = true → if reprojPlaced s out = true then off (.compositorUnstop out)
      else E (.compositorUnstop out) fun t => t = { s with queues := t.queues } ∧
        t.queues.rd x.queue = { s.queues.rd x.queue with stopping := false, ctl := ctl &&& ~~~1#64 } ∧ ∀ j, j ≠ x.queue → t.queues.rd j = s.queues.rd j) ∧
    (x.enabled = true → x.present.toNat % 8 ≠ 0 → E (.vblank out) fun t => t.mem = s.mem ∧ stops s t ∧
      t.outs.rd out.val = { x with stat := (x.stat + 1) &&& bitsAt 0 32 } ∧ frameDue t out = true) ∧
    (∀ u, x.enabled = true → x.present.toNat % 8 = 0 → s.hwRead (s.outPart out.val) x.present 8 = (u, .wait) → E (.vblank out) fun t =>
      t = { u with agenda := t.agenda } ∧ t.agenda.any (·.ev = .vblank out) = true) ∧
    (∀ u v, x.enabled = true → x.present.toNat % 8 = 0 → s.hwRead (s.outPart out.val) x.present 8 = (u, .ok v) →
      let w := BitVec.ofNat 64 v
      (w = x.last → E (.vblank out) fun t => stops u t ∧ frameDue t out = true ∧
        t.outs.rd out.val = { u.outs.rd out.val with last := w, stat := ((u.outs.rd out.val).stat + 1) &&& bitsAt 0 32 }) ∧
      (∀ y, w ≠ x.last → u.showBuffer (s.outPart out.val) w = (y, some true) → E (.vblank out) fun t => stops y t ∧ frameDue t out = true ∧
        t.outs.rd out.val = { y.outs.rd out.val with last := w, shown := w }) ∧
      (∀ y, w ≠ x.last → u.showBuffer (s.outPart out.val) w = (y, some false) → E (.vblank out) fun t => stops y t ∧ frameDue t out = true ∧
        t.outs.rd out.val = { y.outs.rd out.val with last := w, stat := ((y.outs.rd out.val).stat + 1) &&& bitsAt 0 32 }) ∧
      (∀ y, w ≠ x.last → u.showBuffer (s.outPart out.val) w = (y, none) → E (.vblank out) fun t => t.queues = y.queues ∧ t.outs = y.outs ∧
        t.agenda.any (·.ev = .vblank out) = true))) ∧
   (x.grid ≠ 0 → overBudget s x.grid = true → E (.reprojectionBudgetExpiry out) fun t => t.mem = s.mem ∧ ∀ T ∈ gridTeams s x.grid,
     (s.teams.rd T).saved = false → (s.teams.rd T).graphics = false → (t.teams.rd T).preempt = true) ∧
   (x.grid = 0 ∨ overBudget s x.grid = false → off (.reprojectionBudgetExpiry out)))

/-! ### Events of queues, grids and teams (17_launch.md) -/

/-- R297 to R303, R306, R374: a front end reads the record at its queue's head; a LAUNCH record opens a grid with the record's fields, a
DRAW record a vertex grid and a fragment grid, and one that fails its checks is passed with its status for the completion word; a SIGNAL
waits for every earlier record and writes its value; a WAIT passes once its word has reached the value, and is read again 256 clocks later
until then; an access without a translation parks the queue, or the grid, and posts a record; a complete grid has its dirty words
written through, then its status written, and its record complete; the oldest spilled record is admitted.
How a spilled record is read back (log entry 56) and the order of the checks of a record (log entries 60 and 62) are the model's reading. -/
def Obligations.QueueEvents : Prop := ∀ (s : State) (q grid part : Nat),
  let E := fun (i : Instr) (P : State → Prop) => ∃ t, exec i s = .next t ∧ P t
  let x := s.queues.rd q
  let passed := fun (t : State) (ids : List Nat) => t.queues.rd q = { x with
    head := x.head + 1, busy := false, stopping := false, ctl := if x.stopping = true then x.ctl ||| 1#64 else x.ctl, open_ := x.open_ ++ ids }
  let posted := fun (t : State) (part : Nat) (va ticket : W64) => t.agenda.any (·.ev = .faultRecordPost part) = true ∧
    ∃ f, (t.parts.rd part).waiting = (s.parts.rd part).waiting ++ [f] ∧ f.kind = 17 ∧ f.addr = va ∧ f.frame = 0 ∧ f.lanes = ticket
  let value := fun (pa n : Nat) (t : State) => lineBytes (t.homeLine (pa / 128)) (pa % 128) n
  let open_ := fun (u : State) (pa : Nat) => isPeer (pa / 128) = false ∧ u.held (pa / 128) = false ∧ u.homeWait (pa / 128) = false ∧
    u.owners (pa / 128) (BitVec.allOnes 32) noOwner = [] ∧ (u.homePsn (pa / 128)).getLsbD (pa % 128 / 32) = false ∧ pa % 8 = 0
  (queueReady s q = false → ∀ i, i = .queueLaunchRecord q ∨ i = .queueDrawRecord q ∨ i = .queueSignalRecord q ∨ i = .queueWaitRecord q →
    exec i s = .next s) ∧
  (∀ u v, queueReady s q = true → s.hwRead (qPart x) (headVa x) 64 = (u, .ok v) →
    let r := BitVec.ofNat 512 v
    (∀ w y, rf r 0 8 = 1 → u.checkLaunch (qPart x) true r = (w, some (.ok y)) → y.coop = false → E (.queueLaunchRecord q) fun t => passed t [w.nextId] ∧
      (let g := t.grids.rd w.nextId
       g.live = true ∧ g.kind = (if y.isGraph = true then .graph else .compute) ∧ g.part = qPart x ∧ g.queue = q + 1 ∧ g.die = qDie x ∧ g.prio = qPrio x ∧
       g.root = w.nextId ∧ g.parent = 0 ∧ g.entry = y.entry ∧ g.word = y.word ∧ g.teams = y.teams ∧ g.lanes = y.lanes ∧ g.bars = y.bars ∧ g.pair = y.pair ∧
       g.verify = y.verify ∧ g.snap = y.snap ∧ g.region = y.region ∧ g.compl = y.compl ∧ g.admitted = true ∧ g.placed = 0 ∧ g.done = false)) ∧
    (∀ w st, rf r 0 8 = 1 → u.checkLaunch (qPart x) true r = (w, some (.error st)) →
      let c := BitVec.ofNat 64 (rf r 256 64)
      if c = 0 ∨ c.toNat % 8 ≠ 0 then E (.queueLaunchRecord q) fun t => passed t [] ∧ t.grids = w.grids
      else E (.queueLaunchRecord q) fun t => passed t [w.nextId] ∧ (let g := t.grids.rd w.nextId
        g.live = true ∧ g.status = st ∧ g.compl = c ∧ g.teams = 0 ∧ g.placed = 0 ∧ g.part = qPart x)) ∧
    (rf r 0 8 = 0 ∨ 4 < rf r 0 8 → E (.queueLaunchRecord q) fun t => passed t [] ∧ t.grids = u.grids) ∧
    (rf r 0 8 = 2 → u.drawStatus (qPart x) r = 0 → let d := u.nextId
      E (.queueDrawRecord q) fun t => passed t [d + 1] ∧ (let y := t.draws.rd d
        y.live = true ∧ y.part = qPart x ∧ y.rec_ = r ∧ y.vgrid = d + 1 ∧ y.fgrid = d + 2 ∧ y.verts = [] ∧ y.prims = [] ∧ y.rasterDone = false) ∧
      (let v := t.grids.rd (d + 1)
       v.live = true ∧ v.kind = .vertex ∧ v.draw = d ∧ v.entry = BitVec.ofNat 64 (rf r 64 64) ∧ v.word = BitVec.ofNat 32 (rf r 32 32) ∧
       v.lanes = rf r 240 16 ∧ v.teams = ceilDiv (rf r 160 32) (rf r 240 16) ∧ v.bars = rf r 8 8 ∧ v.compl = BitVec.ofNat 64 (rf r 384 64)) ∧
      (let f := t.grids.rd (d + 2)
       f.live = true ∧ f.kind = .fragment ∧ f.draw = d ∧ f.entry = BitVec.ofNat 64 (rf r 256 64) ∧ f.word = BitVec.ofNat 32 (rf r 320 32) ∧ f.bars = rf r 24 8)) ∧
    (∀ va k, rf r 0 8 = 3 → syncRecord r = some (va, k) →
      if x.open_ ≠ [] then exec (.queueSignalRecord q) s = .next u
      else ∀ w pa c, u.hwXlate (qPart x) va true = (w, .ok pa c) → open_ w pa → E (.queueSignalRecord q) fun t => passed t [] ∧ value pa 8 t = k) ∧
    (∀ va k w y, rf r 0 8 = 4 → syncRecord r = some (va, k) → u.hwRead (qPart x) va 8 = (w, .ok y) → E (.queueWaitRecord q) fun t =>
      if k ≤ y then passed t [] else t.queues.rd q = { x with busy := true } ∧ (t.agenda.any fun p => p.ev = .waitRecheck q ∧ p.due = s.clock + 256) = true)) ∧
  (x.busy = false → exec (.waitRecheck q) s = .next s) ∧
  (x.busy = true → if (s.hwRead (qPart x) (headVa x) 64).2 = .wait
    then E (.waitRecheck q) fun t => t.queues = s.queues ∧ (t.agenda.any fun p => p.ev = .waitRecheck q ∧ p.due = s.clock + 1) = true
    else E (.waitRecheck q) fun t => exec (.queueWaitRecord q) (s.modQueue q fun x => { x with busy := false }) = .next t) ∧
  (∀ va, q < 64 → queueFault s q = some va → E (.frontEndPageFault q) fun t => t.mem = s.mem ∧ t.queues.rd q = { x with parked := true } ∧
    posted t (qPart x) va (BitVec.ofNat 64 (ticketOf 3 q))) ∧
  (let g := s.grids.rd grid
   g.live = true → g.done = false → g.parked = false → g.compl ≠ 0 → s.hwPeek g.part g.compl true = .fault → E (.frontEndPageFault (64 + grid)) fun t =>
     t.mem = s.mem ∧ t.grids.rd grid = { g with parked := true } ∧ posted t g.part g.compl (BitVec.ofNat 64 (ticketOf 3 (64 + grid)))) ∧
  (let g := s.grids.rd grid
   let ids := gridPair s grid
   let closed := fun (t : State) => (g.parent = 0 → ∀ i ∈ ids, t.grids.rd i = default) ∧
     (g.parent ≠ 0 → (t.grids.rd grid).done = true ∧ (t.grids.rd grid).status = finalStatus s grid) ∧
     (g.queue ≠ 0 → (t.queues.rd (g.queue - 1)).open_ = (s.queues.rd (g.queue - 1)).open_.erase grid) ∧
     (t.parts.rd g.part).count = if g.counts = true then (s.parts.rd g.part).count - 1 else (s.parts.rd g.part).count
   (gridDue s grid = false → exec (.gridComplete grid) s = .next s) ∧
   (gridDue s grid = true → g.flushed = 0 → E (.gridComplete grid) fun t => t.mem = s.mem ∧ t.slices = s.slices ∧ (t.grids.rd grid).flushed ≠ 0 ∧
     ∀ c ∈ ids.flatMap fun i => (s.grids.rd i).ran, ∀ l, (t.l1 c l).live = true → (t.l1 c l).dirty = 0) ∧
   (gridDue s grid = true → g.flushed ≠ 0 → g.compl = 0 → E (.gridComplete grid) fun t => t.mem = s.mem ∧ closed t) ∧
   (∀ w pa c, gridDue s grid = true → g.flushed ≠ 0 → g.compl ≠ 0 → s.hwXlate g.part g.compl true = (w, .ok pa c) → open_ w pa →
     E (.gridComplete grid) fun t => closed t ∧ value pa 8 t = finalStatus s grid % 2 ^ 64)) ∧
  (∀ g rest, (s.parts.rd part).spilled = g :: rest → spillDue s part = true → E (.spillAdmission part) fun t =>
    t = { s with parts := t.parts, grids := t.grids, nextId := s.nextId + 1 } ∧
    t.parts.rd part = { s.parts.rd part with spilled := rest, spillHead := (s.parts.rd part).spillHead + 1, count := (s.parts.rd part).count + 1 } ∧
    t.grids.rd g = { s.grids.rd g with admitted := true, order := s.nextId, counts := true } ∧ ∀ j, j ≠ g → t.grids.rd j = s.grids.rd j)

/-- R58, R115, R304, R313 to R315: the next team of a grid, or the next batch of a graph, takes the core of least load, with every
register and every byte of its scratchpad zero; a node's oldest slot that has waited its time takes every queued slot with it; a team
whose operations have all retired has the words that its stores left dirty written through, and when these are acknowledged gives back its
core, its barriers and its slots.
A batch's TEAMID (log entry 57) and which groups of a pair team stand on which core (log entry 59) are the model's reading. -/
def Obligations.TeamEvents : Prop := ∀ (s : State) (grid graph node team : Nat),
  let E := fun (i : Instr) (P : State → Prop) => ∃ t, exec i s = .next t ∧ P t
  let T := s.nextId
  let placed := fun (t : State) (G c : Nat) (y : TeamSpec) =>
    (let z := t.teams.rd T
     z.live = true ∧ z.kind = y.kind ∧ z.grid = G ∧ z.core = c ∧ z.lanes = y.lanes ∧ z.ngroups = y.ngroups ∧ z.width = wWidth y.word ∧
     z.vregs = wVregs y.word ∧ z.tiles = wTiles y.word ∧ z.spSize = wScratch y.word ∧ z.scratch = [] ∧ z.chart = [] ∧ z.batch = y.batch) ∧
    (∀ i, i < y.ngroups → let z := t.groups.rd (128 * T + i)
      z.live = true ∧ z.width = wWidth y.word ∧ z.vc = wVregs y.word ∧ z.tc = wTiles y.word ∧ z.v = [] ∧ z.p = [] ∧ z.tile = [] ∧ z.fpstat = 0 ∧
      z.handler = 0 ∧ z.core = (if i < y.onLead then c else c + 1) ∧ z.region = .opened) ∧
    ∀ i, i < y.ngroups → let k := 512 * T + 4 * i
      t.splits.rd k = { live := true, lanes := ones (laneCount y.lanes (wWidth y.word) i), pc := y.entry }
  (canPlace s grid = false → exec (.teamPlacement grid) s = .next s) ∧
  (∀ c, canPlace s grid = true → (s.grids.rd grid).coop = false →
    bestPlace (places s (pendingRestores s) (s.grids.rd grid) (nextTeam s grid)) = some c → E (.teamPlacement grid) fun t => t.mem = s.mem ∧
      placed t grid c (nextTeam s grid) ∧ (t.teams.rd T).teamId = (s.grids.rd grid).placed ∧ (t.grids.rd grid).placed = (s.grids.rd grid).placed + 1) ∧
  (let g := s.graphs.rd graph
   let n := g.nodes.rd node
   (∀ i rest, n.queued = i :: rest → g.live = true →
     if (s.wgSlot g.part i).clock + n.timeout ≤ s.clock then E (.batchTimeout graph node) fun t => t = { s with graphs := t.graphs } ∧
       ((t.graphs.rd graph).nodes.rd node).queued = [] ∧ (t.graphs.rd graph).ready = g.ready ++ [{ node := node, slots := n.queued, clock := s.clock }]
     else exec (.batchTimeout graph node) s = .next s) ∧
   (∀ b c, nextBatch g = some b → batchDue s graph = true →
     bestPlace (places s (pendingRestores s) (s.grids.rd g.grid) (batchSpec s graph b)) = some c → E (.batchLaunch graph) fun t => t.mem = s.mem ∧
       placed t g.grid c (batchSpec s graph b) ∧ (t.teams.rd T).kind = .batch ∧ (t.teams.rd T).batch = b.slots ∧ (t.graphs.rd graph).ready = g.ready.erase b ∧
       ∀ i ∈ b.slots, (t.wgSlot g.part i).st = .batched ∧ (t.wgSlot g.part i).team = T)) ∧
  (let y := s.teams.rd team
   y.live = true → y.ending = true →
     if teamOps s team ≠ [] then E (.teamEnd team) fun t => t = { s with agenda := t.agenda } ∧ t.agenda.any (·.ev = .teamEnd team) = true
     else if y.flushed = 0 then E (.teamEnd team) fun t => t.mem = s.mem ∧ t.slices = s.slices ∧ t.agenda.any (·.ev = .teamEnd team) = true ∧
       t.teams.rd team = { y with flushed := (t.teams.rd team).flushed } ∧ (t.teams.rd team).flushed ≠ 0 ∧
       ∀ g ∈ teamGroups s team, ∀ l i, (s.l1 (s.groups.rd g).core l).live = true → i < 32 → (i, g + 1) ∈ (s.l1 (s.groups.rd g).core l).tag →
         (t.l1 (s.groups.rd g).core l).dirty.getLsbD i = false ∧ ∀ h, (i, h) ∉ (t.l1 (s.groups.rd g).core l).tag
     else if (teamCores y).any (fun c => s.wtPending c (y.flushed - 1) true) = true then
       E (.teamEnd team) fun t => t = { s with agenda := t.agenda } ∧ t.agenda.any (·.ev = .teamEnd team) = true
     else E (.teamEnd team) fun t => t.mem = s.mem ∧ t.ops = s.ops ∧ t.teams.rd team = default ∧ (∀ j, j ≠ team → t.teams.rd j = s.teams.rd j) ∧
       (∀ g, t.groups.rd g = if g / 128 = team then default else s.groups.rd g) ∧ (∀ k, t.splits.rd k = if k / 512 = team then default else s.splits.rd k) ∧
       (t.grids.rd y.grid).ended = (s.grids.rd y.grid).ended + 1 ∧
       ∀ e ∈ (t.parts.rd (groupPart s (128 * team))).wg, (e.2.st = .allocated ∨ e.2.st = .batched) → e.2.team ≠ team)

/-! ### Register writes and requests to the service (18_system.md, 19_device.md) -/

/-- R123, R167, R180, R297, R298, R312, R327, R336, R352: a register that takes a value reads as it afterwards, and no other register of
its partition or queue changes; a write of PT_ROOT or of a window leaves no translation of the partition in any TLB; a write that a queue
register may not take now is counted as discarded; the addresses of R352's range reach the same registers. Which values a register with
reserved bits takes is the model's choice (log entry 31), and so are the offsets of the display's registers (log entry 79). -/
def Obligations.RegisterEvents : Prop := ∀ (s : State) (part q n : Nat) (die : Fin 4) (v : W64),
  let E := fun (i : Instr) (P : State → Prop) => ∃ t, exec i s = .next t ∧ P t
  let takes := fun (i : Instr) (k : Nat) => (pregOk s part k v = false → exec i s = .next s) ∧
    (pregOk s part k v = true → E i fun t => t.mem = s.mem ∧ t.preg part k = v ∧ (∀ j, j ≠ k → t.preg part j = s.preg part j) ∧
      (∀ p, p ≠ part → t.parts.rd p = s.parts.rd p) ∧ (k = 0 → ∀ c e, e ∈ (t.cores.rd c).tlb → e.part ≠ part) ∧
      (k = 4 ∨ k = 6 → t.agenda.any (·.ev = .faultRecordPost part) = true))
  let off := fun (i : Instr) => exec i s = .next s
  let x := s.queues.rd q
  let pAt := fun (o : Nat) => regBase + 2 ^ 32 + 2 ^ 16 * part + o
  let qAt := fun (o : Nat) => regBase + 2 ^ 16 * q + o
  let inQueue := fun (i : Instr) (y : Queue) => E i fun t => t = { s with queues := t.queues } ∧ t.queues.rd q = y ∧ ∀ j, j ≠ q → t.queues.rd j = s.queues.rd j
  let counted := fun (i : Instr) => exec i s = .next { s with discards := s.discards + 1 }
  let up := s.boot = .running ∧ ∀ key, s.hmac = some key → key ∈ s.sessions
  takes (.ptRootWrite part v) 0 ∧ takes (.llcCarveLimitWrite part v) 0x13 ∧ takes (.llcCarveBaseWrite part die v) (0x14 + die.val) ∧
  takes (.wgPoolWrite part v) 9 ∧ takes (.rtBaseWrite part v) 0x18 ∧ takes (.faultHeadWrite part v) 6 ∧ takes (.faultQWrite part v) 4 ∧
  (part ≤ 63 → n < 256 → takes (.registerWrite (pAt (8 * n)) v) n) ∧
  (∀ limit, let at_ := fun (t : State) (j : Nat) => if limit = true then (t.parts.rd part).winLimit.rd j else (t.parts.rd part).winBase.rd j
    ∀ i, i = .pwinWrite part n limit v ∨ (part ≤ 63 ∧ i = .registerWrite (pAt ((if limit = true then 0xA00 else 0x800) + 8 * n)) v) → n ≤ 63 →
      v &&& ~~~(if limit = true then bitsAt 16 36 else bitsAt 16 36 ||| bitsAt 63 1) = 0 → E i fun t => t.mem = s.mem ∧ at_ t n = v ∧
        (∀ j, j ≠ n → at_ t j = at_ s j) ∧ ∀ c e, e ∈ (t.cores.rd c).tlb → e.part ≠ part) ∧
  (q ≤ 63 →
    (∀ i, i = .qTailWrite q v ∨ i = .registerWrite (qAt 16) v ∨ (up ∧ i = .queueSet q .tail v) →
      if x.size.toNat < (v.setWidth 32 - x.head).toNat then counted i else inQueue i { x with tail := v.setWidth 32 }) ∧
    (∀ i, i = .queueGeometryWrite q false v ∨ i = .registerWrite (qAt 0) v ∨ (up ∧ i = .queueSet q .base v) →
      (x.head ≠ x.tail → counted i) ∧ (x.head = x.tail → v.toNat % 64 = 0 → inQueue i { x with base := v })) ∧
    (∀ i, i = .queueGeometryWrite q true v ∨ i = .registerWrite (qAt 8) v ∨ (up ∧ i = .queueSet q .size v) →
      (x.head ≠ x.tail → counted i) ∧ (∀ k, x.head = x.tail → 1 ≤ k → k ≤ 16 → v.toNat = 2 ^ k → inQueue i { x with size := v })) ∧
    (∀ i, i = .registerWrite (qAt 24) v ∨ (up ∧ i = .queueSet q .head v) → inQueue i { x with head := v.setWidth 32 }) ∧
    ∀ i, i = .qctlWrite q v ∨ i = .registerWrite (qAt 32) v ∨ (up ∧ i = .queueSet q .ctl v) →
      v &&& ~~~(bitsAt 63 1 ||| bitsAt 48 11 ||| 1#64) = 0 → inQueue i { x with ctl := v }) ∧
  (∀ i, i = .borrowRegionMaxWrite die v ∨ i = .registerWrite (regBase + 3 * 2 ^ 32 + 0x1000 * die.val + 24) v →
    if v.toNat ≤ 240000 then E i fun t => t = { s with dies := t.dies } ∧ t.dies.rd die.val = { s.dies.rd die.val with borrowMax := v.toNat } else off i) ∧
  (∀ j : Fin 2, E (.registerWrite (regBase + 3 * 2 ^ 32 + 0x1000 * die.val + 8 * j.val) v) fun t => (t.dies.rd die.val).idle j.val = v.toNat % 2 ^ 16) ∧
  (v.toNat < 1024 → E (.registerWrite (regBase + 4 * 2 ^ 32) v) fun t => t = { s with slotId := v.setWidth 10 }) ∧
  (v.toNat < 4 → E (.registerWrite (regBase + 4 * 2 ^ 32 + 8) v) fun t => t.preserve = v.getLsbD 0 ∧
    (v.getLsbD 1 = true → t.agenda.any (·.ev = .orderlyWarmReset) = true) ∧ (v.getLsbD 1 = false → t.agenda = s.agenda)) ∧
  (v.toNat < 2 ^ 48 → exec (.registerWrite (regBase + 2 * 2 ^ 32 + 80) v) s = .next { s with reserve := v }) ∧
  (∀ a, a < regBase ∨ a % 8 ≠ 0 → off (.registerWrite a v))

/-- R298, R345, R356 to R358, R360: a request to the service has no effect before boot has ended, is answered with BOOT_FAIL where boot has
failed, and is discarded and counted where its HMAC was made under no session's key;
a partition comes up empty and goes with everything it holds; bytes are loaded where its windows allow; a report and an attestation report
are answered; a `sysc` request is answered
in s56 and s57 of its split, which then goes on.
What is left of peers and of cryptography (log entry 84), a status that is free (log entry 73), LOAD (log entry 99), what a report and an
attestation report hold (log entries 115 and 116) and that creating a partition that exists does nothing (log entry 117) are the model's
reading. -/
def Obligations.RequestEvents : Prop := ∀ (s : State) (cfg : PartCfg) (g : Grant) (part pa k n : Nat) (bytes nonce : List W8) (q : Nat) (f : QField) (v : W64) (b : Bool),
  let E := fun (i : Instr) (P : State → Prop) => ∃ t, exec i s = .next t ∧ P t
  let off := fun (i : Instr) => exec i s = .next s
  let up := s.boot = .running ∧ ∀ key, s.hmac = some key → key ∈ s.sessions
  (∀ i, i = .partCreate cfg ∨ i = .partDestroy part ∨ i = .load part pa bytes ∨ i = .queueSet q f v ∨ i = .tableSet (.rtBase part v) ∨
      i = .tableSet (.grant g) ∨ i = .report part ∨ i = .attest nonce ∨ i = .reset b →
    (s.boot = .rom → off i) ∧ (s.boot = .failed → exec i s = .next { s with replies := s.replies ++ [.bootFail] }) ∧
    (∀ key, s.boot = .running → s.hmac = some key → key ∉ s.sessions → exec i s = .next { s with discards := s.discards + 1 })) ∧
  (up → exec (.report part) s = .next { s with replies := s.replies ++ [.report part (s.reports.filter (·.part == part)) (s.partCtrs part) s.discards] } ∧
    exec (.attest nonce) s = .next { s with replies := s.replies ++
      [.attestation s.measured nonce ((s.parts.filter (·.2.live)).map fun e => (e.1, e.2.config))] }) ∧
  (up → cfg.id ≤ 63 → (s.parts.rd cfg.id).live = false → E (.partCreate cfg) fun t => t.mem = s.mem ∧
    (∀ j, j ≠ cfg.id → t.parts.rd j = s.parts.rd j) ∧
    (let y := t.parts.rd cfg.id
     y.live = true ∧ y.key = true ∧ y.slots = [] ∧ y.calls = [] ∧ y.wg = [] ∧ y.frames = [] ∧ y.count = 0 ∧
     (cfg.regs = [] → y.regs = []) ∧ (cfg.windows = [] → y.winBase = [] ∧ y.winLimit = []) ∧
     (∀ lo hi, cfg.windows = [(n, lo, hi)] → n ≤ 63 → (lo &&& ~~~(bitsAt 16 36 ||| bitsAt 63 1)) = 0 → (hi &&& ~~~(bitsAt 16 36)) = 0 →
       y.winBase.rd n = lo ∧ y.winLimit.rd n = hi))) ∧
  (up → (s.parts.rd cfg.id).live = true → off (.partCreate cfg)) ∧
  (up → (s.parts.rd part).live = false → off (.partDestroy part)) ∧
  (up → (s.parts.rd part).live = true → (∀ e ∈ s.grids, e.2.live = true → e.2.part ≠ part) → (∀ d, d < 4 → s.chunksOf part d = []) →
    (∀ e ∈ s.ops, e.2.live = true → ∀ d m, e.2.kind ≠ .carve part d m) → (∀ p ∈ partPairs s part, foreignTeams s part p = []) →
    E (.partDestroy part) fun t => t.mem = s.mem ∧ t.parts.rd part = default ∧ (∀ c e, e ∈ (t.cores.rd c).tlb → e.part ≠ part) ∧
      (∀ p ∈ partPairs s part, ∀ c, c = 2 * p ∨ c = 2 * p + 1 → (t.cores.rd c).l1 = []) ∧
      ∀ j, qPart (s.queues.rd j) = part → (t.queues.rd j).open_ = [] ∧ (t.queues.rd j).parked = false) ∧
  (∀ a, up → pa + bytes.length < 2 ^ 52 → bytes ≠ [] → pa % 128 + bytes.length ≤ 128 → s.inWindows part pa = true → s.place pa = some a →
    isPeer (a / 128) = false → s.held (a / 128) = false → s.homeWait (a / 128) = false → E (.load part pa bytes) fun t =>
      ∀ i, i < 128 → lineByte (t.homeLine (a / 128)) i =
        if a % 128 ≤ i ∧ i < a % 128 + bytes.length then bytes.getD (i - a % 128) 0 else lineByte (s.homeLine (a / 128)) i) ∧
  (up → E (.tableSet (.grant g)) fun t => t = { s with grants := t.grants } ∧ g ∈ t.grants ∧
    ∀ h ∈ s.grants, h.dev ≠ g.dev ∨ h.part ≠ g.part ∨ h.lo ≠ g.lo → h ∈ t.grants) ∧
  (up → pregOk s part 0x18 v = true → E (.tableSet (.rtBase part v)) fun t => t.mem = s.mem ∧ t.preg part 0x18 = v) ∧
  (up → E (.reset b) fun t => t.boot = .rom ∧ t.sessions = [] ∧ t.parts = [] ∧ t.splits = [] ∧ t.resetCause = .orderly ∧ t.clock = s.clock) ∧
  (let x := s.splits.rd k
   let P := groupPart s (k / 4)
   let r := x.s.rd 56
   let asks := fun (m : Nat) => x.live = true ∧ x.wait = .service m ∧ (s.groups.rd (k / 4)).saved = false ∧ (s.groups.rd (k / 4)).saveKind = 0
   let on := { x with wait := if x.until_ = 0 then .ready else .asleep }
   let answers := fun (i : Instr) (r56 : W64) (Q : State → Prop) => E i fun t => (t.splits.rd k).s.rd 56 = r56 ∧
     t.splits.rd k = { on with s := (t.splits.rd k).s } ∧ (∀ j, j ≠ 56 → j ≠ 57 → (t.splits.rd k).s.rd j = x.s.rd j) ∧
     (∀ j, j ≠ k → t.splits.rd j = s.splits.rd j) ∧ Q t
   let reg := r.toNat % 256
   (asks 1 → if pregMask reg = none then answers (.pregWrite k) 1 fun t => t.parts = s.parts
     else if pregSup reg = false then answers (.pregWrite k) 2 fun t => t.parts = s.parts
     else answers (.pregWrite k) 0 fun t => pregOk s P reg (x.s.rd 57) = true → t.preg P reg = x.s.rd 57) ∧
   (asks 2 → if pregMask reg = none then answers (.pregRead k) 1 fun t => t.parts = s.parts
     else answers (.pregRead k) 0 fun t => t.parts = s.parts ∧ (t.splits.rd k).s.rd 57 = s.preg P reg) ∧
   (asks 3 → s.reports.find? (·.part == P) = none → answers (.reportRead k) 2 fun t => t.reports = s.reports) ∧
   (∀ e, asks 3 → s.reports.find? (·.part == P) = some e → svcBusy s P true (pieces (x.s.rd 57) (freeBytes s.tick 256)) = [] →
     let w := s.svcWrite P (pieces (x.s.rd 57) (freeBytes s.tick 256))
     ∃ r56, answers (.reportRead k) r56 (fun t => t.reports = if w.isSome = true then s.reports.erase e else s.reports) ∧ (w.isSome = true → r56 = 0)) ∧
   (asks 4 → svcBusy s P false (pieces (x.s.rd 57) (List.replicate 48 0)) = [] →
     let r := s.svcRead P (pieces (x.s.rd 57) (List.replicate 48 0))
     let u := r.1
     match r.2 with
     | none => ∃ r56, answers (.syscAttest k) r56 (fun t => t.reports = s.reports)
     | some nonce =>
       let bs := (List.range Config.reportLen).map (Config.attestByte u.measured nonce (u.parts.rd P).config u.tick)
       svcBusy u P true (pieces (x.s.rd 57 + 48) bs) = [] → ∃ r56, answers (.syscAttest k) r56 (fun t => t.reports = s.reports) ∧
         ((u.svcWrite P (pieces (x.s.rd 57 + 48) bs)).isSome = true → r56 = 0)) ∧
   (∀ d rest, asks 5 → (s.parts.rd P).removes = d :: rest → answers (.removeDone k) 0 fun t => (t.parts.rd P).removes = rest ∧
     ((∀ e ∈ t.parts, d ∉ e.2.removes) → t.agenda.any (·.ev = .layerMapOut (Fin.ofNat 4 d)) = true)) ∧
   ∀ i m, (i, m) ∈ [(Instr.pregWrite k, 1), (.pregRead k, 2), (.syscAttest k, 4), (.removeDone k, 5)] → x.wait ≠ .service m → off i)

/-! ### Events of the device (18_system.md, 19_device.md) -/

/-- R354, R355, R357 to R360, R362, R339: boot ends with its three measurements, or fails; a reset leaves nothing resident and boot to
come, an orderly one after every line that only the LLC holds has gone to memory, a fatal one with their pages poisoned, and memory is
left undefined but for the peers' where it is not preserved; a poisoned sector or word is marked; a failed layer is recorded for each partition
whose windows reach the range it takes, which afterwards exists no more and lies in no window; the power controller withholds issue;
a session begins once boot has left its key; a peer's request is served when a grant names it, and a request to a peer fails where no grant
does and when no answer comes.
What ends a coolant event (log entry 32), what R359 leaves unsaid of a reset (log entry 81), what a peer may have done (log entry 83), the
lanes of a request that fails (log entry 88), when a time-out begins (log entry 5) and that a second
failed layer does nothing until the first is mapped out (log entry 118) are the model's reading. -/
def Obligations.DeviceEvents : Prop := ∀ (s : State) (die : Fin 4) (part ctl pa op req : Nat) (share : BitVec 6) (q : SlotReq) (r : AtmReq) (w : WtReq) (l : LineReq)
    (fwOk svcOk : Bool) (rom fw svc : List W8),
  let E := fun (i : Instr) (P : State → Prop) => ∃ t, exec i s = .next t ∧ P t
  let off := fun (i : Instr) => exec i s = .next s
  let has := fun (t : State) (e : Ev) => t.agenda.any (·.ev = e) = true
  let empty := fun (t : State) => t.boot = .rom ∧ t.sessions = [] ∧ t.agenda = [] ∧ t.splits = [] ∧ t.groups = [] ∧ t.teams = [] ∧ t.ops = [] ∧ t.cores = [] ∧
    t.slices = [] ∧ t.parts = [] ∧ t.queues = [] ∧ t.grids = [] ∧ t.draws = [] ∧ t.graphs = [] ∧ t.acks = [] ∧ t.outs = [] ∧ t.grants = [] ∧ t.reports = []
  let forgot := fun (t : State) => t.mem.epoch = s.mem.epoch + 1
  (s.boot ≠ .rom → off (.boot fwOk svcOk rom fw svc)) ∧
  (s.boot = .rom → exec (.boot fwOk svcOk rom fw svc) s = .next (match fwOk, svcOk with
    | false, _ => { s with boot := .failed }
    | true, false => { s with boot := .failed, measured := [rom, fw], attestKey := true }
    | true, true => { s with boot := .running, measured := [rom, fw, svc], attestKey := true })) ∧
  (if s.boot = .running ∧ s.attestKey = true ∧ req ∉ s.sessions then exec (.sessionKeyExchange req) s = .next { s with sessions := s.sessions ++ [req] }
    else off (.sessionKeyExchange req)) ∧
  (E .orderlyWarmReset fun t => empty t ∧ t.clock = s.clock ∧ t.resetCause = .orderly ∧
    if s.preserve = true then t.mem.epoch = s.mem.epoch ∧ (∀ k, k ∈ s.llcOnly → t.mem.line k = (s.tagOf k).data) ∧ ∀ k, k ∉ s.llcOnly → t.mem.line k = s.mem.line k
    else forgot t ∧ ((∀ k ∈ s.llcOnly, k < 2 ^ 32) → ∀ a, 2 ^ 39 ≤ a → t.mem.byte a = s.mem.byte a)) ∧
  (E .fatalWarmReset fun t => empty t ∧ t.clock = s.clock ∧ t.resetCause = .fatal ∧ t.replies = s.replies ∧
    (∀ k ∈ s.llcOnly, ∀ i, i < 512 → t.hbmPsn (512 * (k / 512) + i) = 0xF#4) ∧ if s.preserve = true then t.mem = s.mem else forgot t ∧ ∀ a, 2 ^ 39 ≤ a → t.mem.byte a = s.mem.byte a) ∧
  (E (.dieOvertemp die) fun t => exec .fatalWarmReset s = .next t) ∧
  (E .coldReset fun t => empty t ∧ t.clock = 0 ∧ t.resetCause = .none ∧ t.slotId = 0 ∧ t.preserve = false ∧ t.dies = [] ∧ t.attestKey = false ∧ t.measured = [] ∧
    forgot t ∧ ∀ a, 2 ^ 39 ≤ a → t.mem.byte a = s.mem.byte a) ∧
  (E (.correctableError part ctl) fun t => t = { s with mcCtr := t.mcCtr } ∧ ∀ i, i < 8 → t.mcCtr.rd (512 * (ctl % 8) + 8 * part + i) =
    (let c := s.mcCtr.rd (512 * (ctl % 8) + 8 * part + i)
     if c.ev = 0x85 then { c with val := c.val + 1 } else c)) ∧
  (∀ a, s.place pa = some a → isPeer (a / 128) = false → E (.uncorrectableDataError (.memory pa)) fun t =>
    t.homePsn (a / 128) = s.homePsn (a / 128) ||| (1#4 <<< (a % 128 / 32)) ∧ t.homeLine (a / 128) = s.homeLine (a / 128)) ∧
  (∀ c k i, (s.l1 c k).live = true → i < 4 → E (.uncorrectableDataError (.l1 c k i)) fun t => t.l1 c k = { s.l1 c k with psn := (s.l1 c k).psn ||| (1#4 <<< i) }) ∧
  (∀ g n p, (s.groups.rd g).live = true → E (.uncorrectableDataError (.vreg g n p)) fun t => t = { s with groups := t.groups } ∧
    t.groups.rd g = { s.groups.rd g with badV := (s.groups.rd g).badV.wr (64 * n + p) true }) ∧
  (∀ g n, (s.groups.rd g).live = true → E (.uncorrectableDataError (.tile g n)) fun t => t = { s with groups := t.groups } ∧
    t.groups.rd g = { s.groups.rd g with badT := (s.groups.rd g).badT.wr n true }) ∧
  (∀ T o, (s.teams.rd T).live = true → E (.uncorrectableDataError (.scratch T o)) fun t => t = { s with teams := t.teams } ∧
    (t.teams.rd T).bad.rd (o / 4) = true) ∧
  (let R := s.topRange die.val
   let d := s.dies.rd die.val
   (R.2 ≠ 0 → d.failing = false → s.parts.wf = true → E (.layerFailure die) fun t => t.mem = s.mem ∧ t.dies.rd die.val = { d with failing := true } ∧
     has t (.layerMapOut die) ∧ ∀ p, if (s.parts.rd p).live = true ∧ (s.parts.rd p).reaches R.1 R.2 = true then
       (t.parts.rd p).removes = (s.parts.rd p).removes ++ [die.val] ∧ has t (.faultRecordPost p) ∧
       (t.parts.rd p).waiting = (s.parts.rd p).waiting ++ [{ kind := 16, addr := BitVec.ofNat 64 R.1, frame := BitVec.ofNat 64 R.2 }]
     else t.parts.rd p = s.parts.rd p) ∧
   (R.2 = 0 ∨ d.failing = true → off (.layerFailure die)) ∧
   (d.failing = true → E (.layerMapOut die) fun t => (t.dies.rd die.val).failing = false ∧ (t.dies.rd die.val).lost = d.lost + R.2 ∧
     (∀ a, R.1 ≤ a → a < R.1 + R.2 → t.place a = none) ∧ (∀ a, a < R.1 ∨ R.1 + R.2 ≤ a → t.mem.byte a = s.mem.byte a) ∧
     (∀ p, (s.parts.rd p).live = true → die.val ∉ (t.parts.rd p).removes) ∧
     (d.lost % 2 ^ 16 = 0 → ∀ p, (s.parts.rd p).live = true → (t.parts.rd p).reaches R.1 R.2 = false)) ∧
   (d.failing = false → off (.layerMapOut die))) ∧
  (E (.powerThrottle share) fun t => t = { s with hot := false, dies := t.dies } ∧ ∀ d, d < 4 → t.dies.rd d = { s.dies.rd d with power := share }) ∧
  exec .coolantOvertemp s = .next { s with hot := true } ∧
  (q.incoming = true → s.grantFor q = none → off (.slotlinkRequest q)) ∧
  (q.incoming = true → s.place (128 * q.line) = none → off (.slotlinkRequest q)) ∧
  (∀ g, q.incoming = true → s.grantFor q = some g → q.kind = .read l → l.line = q.line → s.place (128 * q.line) ≠ none → isPeer q.line = false → s.held q.line = false →
    s.homeWait q.line = false → s.present q.line = true → E (.slotlinkRequest q) fun t => t.mem = s.mem ∧ t.ops = s.ops ∧ ∀ k, t.homeLine k = s.homeLine k) ∧
  (∀ g, q.incoming = true → s.grantFor q = some g → q.kind = .write w → w.line = q.line → w.own = true → s.place (128 * q.line) ≠ none → isPeer q.line = false → s.held q.line = false →
    s.homeWait q.line = false → s.present q.line = true → E (.slotlinkRequest q) fun t => ∀ i, i < 128 → lineByte (t.homeLine q.line) i =
      lineByte (if w.bytes.getLsbD i = true then w.data else s.homeLine q.line) i) ∧
  (q.incoming = false → s.peerAllows q.part q.line = true → s.revoking q.line = true → E (.slotlinkRequest q) fun t =>
    t = { s with agenda := t.agenda } ∧ has t (.slotlinkRequest q)) ∧
  (q.incoming = false → s.peerAllows q.part q.line = true → s.revoking q.line = false → q.kind = .read l → E (.slotlinkRequest q) fun t => t.mem = s.mem ∧ match l.dest with
    | .fill c => t = { s with agenda := t.agenda } ∧
        has t (.mergingFillReturn { core := c, part := l.part, line := l.line, mask := l.mask, data := s.homeLine l.line, psn := s.homePsn l.line, c := l.c, op := l.op })
    | .op => (s.ops.rd l.op).live = true → (t.ops.rd l.op).need = (s.ops.rd l.op).need - 1) ∧
  (q.incoming = false → s.peerAllows q.part q.line = true → s.revoking q.line = false → q.kind = .write w → isPeer w.line = true → w.own = true →
    s.owners q.line (bytesWords w.bytes) w.core = [] → E (.slotlinkRequest q) fun t =>
    ∀ i, i < 128 → lineByte (t.mem.line w.line) i = lineByte (if w.bytes.getLsbD i = true then w.data else s.homeLine w.line) i) ∧
  (let o := s.ops.rd r.op
   let refused := fun (t : State) => (t.ops.rd r.op).failed = true ∧ (t.ops.rd r.op).fail.trap.cause = .prot ∧ (t.ops.rd r.op).need = o.need - 1 ∧
     (o.need ≤ 1 → has t (.operationRetire r.op)) ∧ (r.lane < 64 → (t.ops.rd r.op).fail.trap.lanes.getLsbD r.lane = true)
   o.live = true → o.returning = true → q.kind = .atomic r →
     (q.incoming = false → s.peerAllows q.part q.line = false → E (.slotlinkRequest q) fun t => t.mem = s.mem ∧ refused t) ∧
     (∀ p, 0 < r.op → q.incoming = false → q.op = op → p.ev = .slotlinkRequest q →
       (s.agenda.find? fun e => unheard s op e.ev) = some p → E (.slotlinkTimeout op) refused)) ∧
  (∀ p v, (s.agenda.find? fun e => unheard s op e.ev) = some p → p.ev = .tsampleRead v → (s.ops.rd op).live = true →
    (s.ops.rd op).returning = true → E (.slotlinkTimeout op) fun t => t.mem = s.mem ∧ (t.ops.rd op).failed = true ∧
      (t.ops.rd op).fail.trap.cause = .prot ∧ (t.ops.rd op).need = (s.ops.rd op).need - 1) ∧
  (∀ p lane, (s.agenda.find? fun e => unheard s op e.ev) = some p → p.ev = .gatherLanding op lane → (s.ops.rd op).live = true →
    (s.grids.rd (s.ops.rd op).grid).live = true → E (.slotlinkTimeout op) fun t => t.mem = s.mem ∧
      (t.grids.rd (s.ops.rd op).grid).err = (s.grids.rd (s.ops.rd op).grid).err + 1 ∧ (t.ops.rd op).need = (s.ops.rd op).need - 1) ∧
  ((∀ e ∈ s.agenda, ∀ v, peerOp s e.ev = some v → v.1 = op → v.2 = 0 ∨ s.clock < v.2 - 1 + 1600000) →
    (∀ k ∈ (s.ops.rd op).todo, (s.ops.rd op).sent.rd k = 0 ∨ s.clock < (s.ops.rd op).sent.rd k - 1 + 1600000) → off (.slotlinkTimeout op))

/-! ### Steps, reset, and encodings (00_overview.md to 03_encoding.md, 19_device.md) -/

/-- R26, R45, R178: a step runs exactly what the state's turn names: the instruction that the next parcels of the split's clause decode to, the
word at which an anvil's routine stands, an event, or an input; a state that leaves the choice open first takes one of its choices. Around
that the step does nothing but name the executing split or slice, take the event from where it stood, name the key of an input's HMAC, and let
the time pass until it is due. An output of a group whose shadow has parted from it is compared, and one that is unequal is counted and passed over (R343).
How a shadow parts from its group (log entry 113) is the model's reading. -/
def Obligations.StepRunsDecoded : Prop := ∀ (s : State),
  let u := { s with turn := .choose }
  (∀ k i rest, s.turn = .split k → (s.splits.rd k).begun = true → (s.splits.rd k).idx < (s.splits.rd k).count →
    decode ((s.splits.rd k).code.drop (s.splits.rd k).off) = .ok (i, rest) →
    step s = if (s.groups.rd (k / 4)).parted = true ∧ outputs i = true ∧ Config.pick s.tick % 2 = 1 then
        .next (((({ u with cur := k } : State).drawn 1).mismatch (k / 4)).adv i.parcels)
      else exec i (if (s.groups.rd (k / 4)).parted = true ∧ outputs i = true then ({ u with cur := k } : State).drawn 1 else { u with cur := k })) ∧
  (∀ n i, s.turn = .anvil n → decodeH ((s.slices.rd n).inv.code.rd (s.slices.rd n).inv.pc).toNat = .ok i → step s = exec i { u with curSlice := n }) ∧
  (∀ n p, s.turn = .event n → s.agenda[n]? = some p → step s = exec p.ev.toInstr ({ u with agenda := s.agenda.eraseIdx n, hmac := none }.passTo p.due)) ∧
  (∀ e, s.turn = .run e → step s = exec e.toInstr (u.passTo (dueAt s e))) ∧
  (∀ e rest, s.turn = .input → s.inputs = e :: rest → step s = exec e.ev.toInstr { u with inputs := rest, hmac := some e.key }) ∧
  (s.turn = .choose → ∃ t ∈ choices s, step s = step { s.drawn 1 with turn := t })

/-- R325, R335, R354, R359: what reset leaves: nothing resident, no partition and no session, boot to come, CLOCK 0, RESET_CTL, SLOT_ID and the display's
registers 0, DISP_REGION_MAX 16,000. MC_IDLE_TIMER 256 and BORROW_REGION_MAX 160,000 are the values of R130 and R335. The invariant holds
there. Registers without a stated reset value read 0, memory is all zero, by log entries 1 and 2. -/
def Obligations.ResetValues : Prop :=
  let s := State.reset
  s.clock = 0 ∧ s.boot = .rom ∧ s.sessions = [] ∧ s.attestKey = false ∧ s.slotId = 0 ∧ s.preserve = false ∧ s.resetCause = .none ∧
  s.regionMax = 16000 ∧ s.reserve = 0 ∧ (∀ d, (s.dies.rd d).borrowMax = 160000 ∧ ∀ i, (s.dies.rd d).idle i = 256) ∧
  (∀ n, (s.outs.rd n).ctl = 0) ∧ (∀ n, (s.queues.rd n).ctl = 0 ∧ queueReady s n = false) ∧ (∀ p, (s.parts.rd p).live = false) ∧
  (∀ k, (s.splits.rd k).live = false) ∧ (∀ T, (s.teams.rd T).live = false) ∧ (∀ l, isPeer l = false → s.present l = false) ∧
  (∀ a, s.mem.byte a = 0) ∧ Invariant s

/-- R19, R27 to R41: instructions, anvil words and a clause header as their encodings give them, bit by bit. -/
def Obligations.DecodeWords : Prop :=
  let w := fun (n : Nat) => (decode (halves n)).toOption
  w 0xFFFEF481 = some (.brAll 0xFFFE#16 61, []) ∧
  w 0x8001FE81 = some (.call 63 0x8001#16, []) ∧
  w 0x0A01FC07 = some (.sregVector .clock 127, []) ∧
  w 0x7FC8140B = some (.addLane 5 100 (.v 127), []) ∧
  w 0xE803000B = some (.addLane 64 1 (.c 40), []) ∧
  w 0x9112FE0F = some (.mulScalar true 63 9 (.s 17), []) ∧
  w 0x159A0E35 = some (.cvt .f16 .e5m2 .rneSat 3 77, []) ∧
  w 0xA11221BF = some (.shfl .xor 8 9 (.s 33), []) ∧
  w 0x00FF03C5 = some (.scan .fadd 64 127, []) ∧
  w 0xFFDA15CB = some (.ld .b8 10 31 90 15, []) ∧
  w 0x3082FCD7 = some (.sts .b2 126 1 2 3, []) ∧
  w 0x14000061 = some (.fence .sy .rel, []) ∧
  w 0x0382B063 = some (.cflush .dv 44 65, []) ∧
  w 0xAF630DE5 = some (.atmReturning .dec true 6 30 99, []) ∧
  w 0xFC0C3FE9 = some (.rcallLane 127 16 1 63, []) ∧
  w 0x5FA12473 = some (.mma .e5m2 9 33 62, []) ∧
  w 0xC764A375 = some (.tex 40 50 (.c 7), []) ∧
  w 0xBD303077 = some (.rtrace 12 24 61, []) ∧
  w 0x82505079 = some (.launch 20 40 (.s 2), []) ∧
  w 0xC500A979 = some (.ralloc 21 (.c 5), []) ∧
  w 0xC10000FB = some (.rti (.c 1), []) ∧
  (decode [0x8C20#16]).toOption = some (.add16 33 17, []) ∧
  (decode (halves 0x00013521 ++ halves 0xDEADBEEF)).toOption = some (.liLane 77 0xDEADBEEF#32, []) ∧
  (decodeH 0x1FDF9B45).toOption = some (.hAdd .satZ (.q 3) (.l 31) (.c 63)) ∧
  (decodeH 0x65C780D6).toOption = some (.hCmp .ltF 3 (.k 15) (.o 7)) ∧
  (decodeH 0x06048001).toOption = some (.hStl 9 (.q 0)) ∧
  decodeHeader 0x138F3801 = some { guard := 9, count := 24, flagA := 3, flagB := 15, wait := 0x801#12 } ∧
  decodeHeader 0x938F3801 = none ∧
  w 0x05020063 = none ∧
  w 0x40000061 = none

/-- R19 to R44: every well-formed core instruction is read back from the parcels that encode it, with every operand, whatever follows;
every well-formed anvil word from its word. -/
def Obligations.EncodeDecode : Prop :=
  (∀ (i : Instr) (rest : List W16), isCore i → i.wf = true → decode (encode i ++ rest) = .ok (i, rest)) ∧
  ∀ i, isAnvil i = true → i.wf = true → decodeH i.word = .ok i

/-- R28, R44: no bit of an encoding is without meaning: parcels that decode to an instruction are its encoding, and so is an anvil word. -/
def Obligations.DecodeEncode : Prop :=
  (∀ (ps rest : List W16) (i : Instr), decode ps = .ok (i, rest) → isCore i ∧ i.wf = true ∧ ps = encode i ++ rest) ∧
  ∀ (w : Nat) (i : Instr), w < 2 ^ 32 → decodeH w = .ok i → isAnvil i = true ∧ i.wf = true ∧ w = i.word

/-- Every step of every agent keeps the invariant, from every state that has it, and no such step stops for want of an instruction. -/
def Obligations.StepInvariant : Prop := ∀ (s : State), Invariant s → step s ≠ .fault .noInstruction ∧ ∀ t, step s = .next t → Invariant t
end

