-- ==== Sys2Proof/Laws/Map.lean ====
section
/-! SUPPORT. The laws of the finite maps: what a read finds after a write, and that every operation keeps the canonical
form. -/

namespace Sys2Proof

variable {α : Type}

theorem TMap.getD_put_same (d : Nat → α) (m : TMap α) (k : Nat) (v : α) : (m.put k v).getD d k = v := by
  induction m with
  | nil => simp [TMap.put, TMap.getD]
  | cons e m ih =>
    obtain ⟨k', v'⟩ := e
    simp only [TMap.put]
    split
    · simp [TMap.getD]
    · split
      · simp [TMap.getD]
      · simp [TMap.getD, *]

theorem TMap.getD_put_ne (d : Nat → α) (m : TMap α) {j k : Nat} (v : α) (h : j ≠ k) : (m.put k v).getD d j = m.getD d j := by
  induction m with
  | nil => simp [TMap.put, TMap.getD, h]
  | cons e m ih =>
    obtain ⟨k', v'⟩ := e
    simp only [TMap.put]
    split
    · subst_vars; simp [TMap.getD, h]
    · split
      · simp [TMap.getD, h]
      · simp [TMap.getD, ih]

theorem TMap.getD_del_same (d : Nat → α) (m : TMap α) (k : Nat) : (m.del k).getD d k = d k := by
  induction m with
  | nil => rfl
  | cons e m ih =>
    obtain ⟨k', v'⟩ := e
    simp only [TMap.del]
    split
    · exact ih
    · simp [TMap.getD, *]

theorem TMap.getD_del_ne (d : Nat → α) (m : TMap α) {j k : Nat} (h : j ≠ k) : (m.del k).getD d j = m.getD d j := by
  induction m with
  | nil => rfl
  | cons e m ih =>
    obtain ⟨k', v'⟩ := e
    simp only [TMap.del]
    split
    · subst_vars; simp [TMap.getD, h, ih]
    · simp [TMap.getD, ih]

theorem TMap.getD_setD_same [DecidableEq α] (d : Nat → α) (m : TMap α) (k : Nat) (v : α) : (m.setD d k v).getD d k = v := by
  unfold TMap.setD
  split
  · rw [TMap.getD_del_same]; exact Eq.symm ‹_›
  · exact TMap.getD_put_same d m k v

theorem TMap.getD_setD_ne [DecidableEq α] (d : Nat → α) (m : TMap α) {j k : Nat} (v : α) (h : j ≠ k) :
    (m.setD d k v).getD d j = m.getD d j := by
  unfold TMap.setD
  split
  · exact TMap.getD_del_ne d m h
  · exact TMap.getD_put_ne d m v h

/-- What is read after a write. -/
theorem TMap.rd_wr [Inhabited α] [DecidableEq α] (m : TMap α) (j k : Nat) (v : α) :
    (m.wr k v).rd j = if j = k then v else m.rd j := by
  split
  · subst_vars; exact TMap.getD_setD_same _ _ _ _
  · exact TMap.getD_setD_ne _ _ _ ‹_›
@[simp] theorem TMap.rd_wr_same [Inhabited α] [DecidableEq α] (m : TMap α) (k : Nat) (v : α) : (m.wr k v).rd k = v :=
  TMap.getD_setD_same _ _ _ _
theorem TMap.rd_wr_ne [Inhabited α] [DecidableEq α] (m : TMap α) {j k : Nat} (v : α) (h : j ≠ k) : (m.wr k v).rd j = m.rd j :=
  TMap.getD_setD_ne _ _ _ h
theorem TMap.rd_mod [Inhabited α] [DecidableEq α] (m : TMap α) (j k : Nat) (f : α → α) :
    (m.mod k f).rd j = if j = k then f (m.rd k) else m.rd j := TMap.rd_wr m j k _
@[simp] theorem TMap.rd_mod_same [Inhabited α] [DecidableEq α] (m : TMap α) (k : Nat) (f : α → α) : (m.mod k f).rd k = f (m.rd k) :=
  TMap.rd_wr_same _ _ _
theorem TMap.rd_mod_ne [Inhabited α] [DecidableEq α] (m : TMap α) {j k : Nat} (f : α → α) (h : j ≠ k) : (m.mod k f).rd j = m.rd j :=
  TMap.rd_wr_ne _ _ h
/-- A map that changes no key, and no default, changes what each key reads as. -/
theorem TMap.rd_map [Inhabited α] (m : TMap α) (f : α → α) (hf : f default = default) (k : Nat) :
    TMap.rd (m.map fun e => (e.1, f e.2)) k = f (m.rd k) := by
  induction m with
  | nil => exact hf.symm
  | cons e m ih =>
    by_cases h : k = e.1
    · simp only [TMap.rd, List.map_cons, TMap.getD, h, if_true]
    · simpa only [TMap.rd, List.map_cons, TMap.getD, if_neg h] using ih
@[simp] theorem TMap.rd_nil [Inhabited α] (k : Nat) : TMap.rd ([] : TMap α) k = default := rfl

/-! ### The canonical form -/

/-- The form of a map whose entries are `(k, v) :: m`. -/
theorem TMap.wfD_cons [DecidableEq α] (d : Nat → α) (k : Nat) (v : α) (m : TMap α) :
    TMap.wfD d ((k, v) :: m) = true ↔ v ≠ d k ∧ (∀ e ∈ m.head?, k < e.1) ∧ TMap.wfD d m = true := by
  cases m with
  | nil => simp [TMap.wfD]
  | cons e m => obtain ⟨k', v'⟩ := e; simp [TMap.wfD, and_assoc]

theorem TMap.wfD_head_lt [DecidableEq α] {d : Nat → α} {k : Nat} {v : α} {m : TMap α} (h : TMap.wfD d ((k, v) :: m) = true) :
    ∀ e ∈ m, k < e.1 := by
  induction m generalizing k v with
  | nil => simp
  | cons e m ih =>
    obtain ⟨k', v'⟩ := e
    rw [TMap.wfD_cons] at h
    have h1 : k < k' := h.2.1 _ rfl
    intro x hx
    rcases List.mem_cons.1 hx with rfl | hx
    · exact h1
    · exact Nat.lt_trans h1 (ih h.2.2 x hx)

/-- The form as three facts about every entry and every two. -/
theorem TMap.wfD_iff [DecidableEq α] (d : Nat → α) (m : TMap α) :
    TMap.wfD d m = true ↔ m.Pairwise (fun a b => a.1 < b.1) ∧ ∀ e ∈ m, e.2 ≠ d e.1 := by
  induction m with
  | nil => simp [TMap.wfD]
  | cons e m ih =>
    obtain ⟨k, v⟩ := e
    constructor
    · intro h
      have hl := TMap.wfD_head_lt h
      rw [TMap.wfD_cons] at h
      have := ih.1 h.2.2
      refine ⟨List.Pairwise.cons hl this.1, ?_⟩
      intro x hx
      rcases List.mem_cons.1 hx with rfl | hx
      · exact h.1
      · exact this.2 x hx
    · rintro ⟨h1, h2⟩
      rw [TMap.wfD_cons]
      cases h1 with
      | cons hl hp =>
        refine ⟨h2 _ (List.mem_cons_self ..), ?_, ih.2 ⟨hp, fun x hx => h2 x (List.mem_cons_of_mem _ hx)⟩⟩
        intro x hx
        exact hl x (List.mem_of_mem_head? hx)

theorem TMap.wfD_filter [DecidableEq α] (d : Nat → α) (m : TMap α) (f : Nat × α → Bool) (h : TMap.wfD d m = true) :
    TMap.wfD d (m.filter f) = true := by
  rw [TMap.wfD_iff] at h ⊢
  exact ⟨h.1.filter f, fun e he => h.2 e (List.mem_filter.1 he).1⟩

theorem TMap.del_eq_filter (m : TMap α) (k : Nat) : m.del k = m.filter fun e => k != e.1 := by
  induction m with
  | nil => rfl
  | cons e m ih =>
    obtain ⟨k', v'⟩ := e
    simp only [TMap.del, List.filter_cons]
    split
    · subst_vars; simp [ih]
    · simp [*]

theorem TMap.mem_put {m : TMap α} {k : Nat} {v : α} {e : Nat × α} (h : e ∈ m.put k v) : e = (k, v) ∨ e ∈ m := by
  induction m with
  | nil => exact .inl (List.mem_singleton.1 h)
  | cons x m ih =>
    obtain ⟨k', v'⟩ := x
    simp only [TMap.put] at h
    split at h
    · rcases List.mem_cons.1 h with h | h
      · exact .inl h
      · exact .inr (List.mem_cons_of_mem _ h)
    · split at h
      · rcases List.mem_cons.1 h with h | h
        · exact .inl h
        · exact .inr h
      · rcases List.mem_cons.1 h with h | h
        · exact .inr (h ▸ List.mem_cons_self ..)
        · rcases ih h with h | h
          · exact .inl h
          · exact .inr (List.mem_cons_of_mem _ h)

theorem TMap.wfD_put [DecidableEq α] (d : Nat → α) (m : TMap α) (k : Nat) (v : α) (hv : v ≠ d k) (h : TMap.wfD d m = true) :
    TMap.wfD d (m.put k v) = true := by
  induction m with
  | nil => simp [TMap.put, TMap.wfD, hv]
  | cons x m ih =>
    obtain ⟨k', v'⟩ := x
    have hl := TMap.wfD_head_lt h
    have h' := (TMap.wfD_cons d k' v' m).1 h
    simp only [TMap.put]
    split
    · subst_vars; rw [TMap.wfD_cons]; exact ⟨hv, h'.2.1, h'.2.2⟩
    · split
      · rw [TMap.wfD_cons]
        refine ⟨hv, ?_, h⟩
        intro e he
        simp only [List.head?_cons, Option.mem_def, Option.some.injEq] at he
        subst he; assumption
      · rw [TMap.wfD_cons]
        refine ⟨h'.1, ?_, ih h'.2.2⟩
        intro e he
        rcases TMap.mem_put (List.mem_of_mem_head? he) with rfl | he
        · have : k' ≠ k := fun h => ‹¬ k = k'› h.symm
          omega
        · exact hl e he

/-- A write keeps the canonical form. -/
theorem TMap.wfD_setD [DecidableEq α] (d : Nat → α) (m : TMap α) (k : Nat) (v : α) (h : TMap.wfD d m = true) :
    TMap.wfD d (m.setD d k v) = true := by
  unfold TMap.setD
  split
  · rw [TMap.del_eq_filter]; exact TMap.wfD_filter d m _ h
  · exact TMap.wfD_put d m k v ‹_› h

theorem TMap.wf_wr [Inhabited α] [DecidableEq α] (m : TMap α) (k : Nat) (v : α) (h : m.wf = true) : (m.wr k v).wf = true :=
  TMap.wfD_setD _ _ _ _ h

/-- In canonical form, maps that read alike are equal. -/
theorem TMap.ext_of_wfD [DecidableEq α] (d : Nat → α) {m n : TMap α} (hm : TMap.wfD d m = true) (hn : TMap.wfD d n = true)
    (h : ∀ k, m.getD d k = n.getD d k) : m = n := by
  have none_of : ∀ {m : TMap α} {k : Nat}, (∀ e ∈ m, k < e.1) → m.getD d k = d k := by
    intro m k
    induction m with
    | nil => intro _; rfl
    | cons e m ih =>
      obtain ⟨k', v'⟩ := e
      intro hl
      have : k < k' := hl (k', v') (List.mem_cons_self ..)
      rw [TMap.getD, if_neg (Nat.ne_of_lt this)]
      exact ih fun e he => hl e (List.mem_cons_of_mem _ he)
  have tail_lt : ∀ {m : TMap α} {a k : Nat}, (∀ e ∈ m, k < e.1) → a ≤ k → ∀ e ∈ m, a < e.1 :=
    fun hl ha e he => Nat.lt_of_le_of_lt ha (hl e he)
  induction m generalizing n with
  | nil =>
    cases n with
    | nil => rfl
    | cons e n =>
      obtain ⟨k, v⟩ := e
      have := h k
      rw [TMap.getD, TMap.getD, if_pos rfl] at this
      exact absurd this.symm ((TMap.wfD_cons d k v n).1 hn).1
  | cons x m ih =>
    obtain ⟨k, v⟩ := x
    have hmk := (TMap.wfD_cons d k v m).1 hm
    have hlm := TMap.wfD_head_lt hm
    cases n with
    | nil =>
      have := h k
      rw [TMap.getD, TMap.getD, if_pos rfl] at this
      exact absurd this hmk.1
    | cons y n =>
      obtain ⟨j, w⟩ := y
      have hnj := (TMap.wfD_cons d j w n).1 hn
      have hln := TMap.wfD_head_lt hn
      have hkj : k = j := by
        rcases Nat.lt_trichotomy k j with hlt | heq | hgt
        · have := h k
          rw [TMap.getD, if_pos rfl, TMap.getD, if_neg (Nat.ne_of_lt hlt), none_of (tail_lt hln (Nat.le_of_lt hlt))] at this
          exact absurd this hmk.1
        · exact heq
        · have := h j
          rw [TMap.getD, if_neg (Nat.ne_of_lt hgt), none_of (tail_lt hlm (Nat.le_of_lt hgt)), TMap.getD, if_pos rfl] at this
          exact absurd this.symm hnj.1
      subst hkj
      have hv : v = w := by have := h k; rwa [TMap.getD, if_pos rfl, TMap.getD, if_pos rfl] at this
      subst hv
      rw [ih hmk.2.2 hnj.2.2]
      intro i
      have := h i
      rw [TMap.getD, TMap.getD] at this
      by_cases hi : i = k
      · subst hi; rw [none_of hlm, none_of hln]
      · rwa [if_neg hi, if_neg hi] at this

end Sys2Proof
end

