-- ==== Sys2Proof/Laws/State.lean ====
section
/-! SUPPORT. One lemma per field and update of the state: what the named updates leave and what they change. -/

namespace Sys2Proof.Machine

/-! ### `modSplit` -/

@[simp] theorem State.modSplit_cur (k : Nat) (f : Split → Split) (s : State) : (s.modSplit k f).cur = s.cur := rfl
@[simp] theorem State.modSplit_curSlice (k : Nat) (f : Split → Split) (s : State) : (s.modSplit k f).curSlice = s.curSlice := rfl
@[simp] theorem State.modSplit_turn (k : Nat) (f : Split → Split) (s : State) : (s.modSplit k f).turn = s.turn := rfl
@[simp] theorem State.modSplit_clock (k : Nat) (f : Split → Split) (s : State) : (s.modSplit k f).clock = s.clock := rfl
@[simp] theorem State.modSplit_tick (k : Nat) (f : Split → Split) (s : State) : (s.modSplit k f).tick = s.tick := rfl
@[simp] theorem State.modSplit_nextId (k : Nat) (f : Split → Split) (s : State) : (s.modSplit k f).nextId = s.nextId := rfl
@[simp] theorem State.modSplit_agenda (k : Nat) (f : Split → Split) (s : State) : (s.modSplit k f).agenda = s.agenda := rfl
@[simp] theorem State.modSplit_inputs (k : Nat) (f : Split → Split) (s : State) : (s.modSplit k f).inputs = s.inputs := rfl
@[simp] theorem State.modSplit_splits (k : Nat) (f : Split → Split) (s : State) : (s.modSplit k f).splits = s.splits.mod k f := rfl
@[simp] theorem State.modSplit_groups (k : Nat) (f : Split → Split) (s : State) : (s.modSplit k f).groups = s.groups := rfl
@[simp] theorem State.modSplit_teams (k : Nat) (f : Split → Split) (s : State) : (s.modSplit k f).teams = s.teams := rfl
@[simp] theorem State.modSplit_ops (k : Nat) (f : Split → Split) (s : State) : (s.modSplit k f).ops = s.ops := rfl
@[simp] theorem State.modSplit_cores (k : Nat) (f : Split → Split) (s : State) : (s.modSplit k f).cores = s.cores := rfl
@[simp] theorem State.modSplit_slices (k : Nat) (f : Split → Split) (s : State) : (s.modSplit k f).slices = s.slices := rfl
@[simp] theorem State.modSplit_dies (k : Nat) (f : Split → Split) (s : State) : (s.modSplit k f).dies = s.dies := rfl
@[simp] theorem State.modSplit_mem (k : Nat) (f : Split → Split) (s : State) : (s.modSplit k f).mem = s.mem := rfl
@[simp] theorem State.modSplit_poison (k : Nat) (f : Split → Split) (s : State) : (s.modSplit k f).poison = s.poison := rfl
@[simp] theorem State.modSplit_parts (k : Nat) (f : Split → Split) (s : State) : (s.modSplit k f).parts = s.parts := rfl
@[simp] theorem State.modSplit_queues (k : Nat) (f : Split → Split) (s : State) : (s.modSplit k f).queues = s.queues := rfl
@[simp] theorem State.modSplit_grids (k : Nat) (f : Split → Split) (s : State) : (s.modSplit k f).grids = s.grids := rfl
@[simp] theorem State.modSplit_draws (k : Nat) (f : Split → Split) (s : State) : (s.modSplit k f).draws = s.draws := rfl
@[simp] theorem State.modSplit_graphs (k : Nat) (f : Split → Split) (s : State) : (s.modSplit k f).graphs = s.graphs := rfl
@[simp] theorem State.modSplit_acks (k : Nat) (f : Split → Split) (s : State) : (s.modSplit k f).acks = s.acks := rfl
@[simp] theorem State.modSplit_mcCtr (k : Nat) (f : Split → Split) (s : State) : (s.modSplit k f).mcCtr = s.mcCtr := rfl
@[simp] theorem State.modSplit_reports (k : Nat) (f : Split → Split) (s : State) : (s.modSplit k f).reports = s.reports := rfl
@[simp] theorem State.modSplit_grants (k : Nat) (f : Split → Split) (s : State) : (s.modSplit k f).grants = s.grants := rfl
@[simp] theorem State.modSplit_peerGrants (k : Nat) (f : Split → Split) (s : State) : (s.modSplit k f).peerGrants = s.peerGrants := rfl
@[simp] theorem State.modSplit_outs (k : Nat) (f : Split → Split) (s : State) : (s.modSplit k f).outs = s.outs := rfl
@[simp] theorem State.modSplit_reserve (k : Nat) (f : Split → Split) (s : State) : (s.modSplit k f).reserve = s.reserve := rfl
@[simp] theorem State.modSplit_regionMax (k : Nat) (f : Split → Split) (s : State) : (s.modSplit k f).regionMax = s.regionMax := rfl
@[simp] theorem State.modSplit_slotId (k : Nat) (f : Split → Split) (s : State) : (s.modSplit k f).slotId = s.slotId := rfl
@[simp] theorem State.modSplit_preserve (k : Nat) (f : Split → Split) (s : State) : (s.modSplit k f).preserve = s.preserve := rfl
@[simp] theorem State.modSplit_resetCause (k : Nat) (f : Split → Split) (s : State) : (s.modSplit k f).resetCause = s.resetCause := rfl
@[simp] theorem State.modSplit_hot (k : Nat) (f : Split → Split) (s : State) : (s.modSplit k f).hot = s.hot := rfl
@[simp] theorem State.modSplit_boot (k : Nat) (f : Split → Split) (s : State) : (s.modSplit k f).boot = s.boot := rfl
@[simp] theorem State.modSplit_measured (k : Nat) (f : Split → Split) (s : State) : (s.modSplit k f).measured = s.measured := rfl
@[simp] theorem State.modSplit_attestKey (k : Nat) (f : Split → Split) (s : State) : (s.modSplit k f).attestKey = s.attestKey := rfl
@[simp] theorem State.modSplit_sessions (k : Nat) (f : Split → Split) (s : State) : (s.modSplit k f).sessions = s.sessions := rfl
@[simp] theorem State.modSplit_discards (k : Nat) (f : Split → Split) (s : State) : (s.modSplit k f).discards = s.discards := rfl
@[simp] theorem State.modSplit_hmac (k : Nat) (f : Split → Split) (s : State) : (s.modSplit k f).hmac = s.hmac := rfl
@[simp] theorem State.modSplit_replies (k : Nat) (f : Split → Split) (s : State) : (s.modSplit k f).replies = s.replies := rfl

/-! ### `modGroup` -/

@[simp] theorem State.modGroup_cur (k : Nat) (f : Group → Group) (s : State) : (s.modGroup k f).cur = s.cur := rfl
@[simp] theorem State.modGroup_curSlice (k : Nat) (f : Group → Group) (s : State) : (s.modGroup k f).curSlice = s.curSlice := rfl
@[simp] theorem State.modGroup_turn (k : Nat) (f : Group → Group) (s : State) : (s.modGroup k f).turn = s.turn := rfl
@[simp] theorem State.modGroup_clock (k : Nat) (f : Group → Group) (s : State) : (s.modGroup k f).clock = s.clock := rfl
@[simp] theorem State.modGroup_tick (k : Nat) (f : Group → Group) (s : State) : (s.modGroup k f).tick = s.tick := rfl
@[simp] theorem State.modGroup_nextId (k : Nat) (f : Group → Group) (s : State) : (s.modGroup k f).nextId = s.nextId := rfl
@[simp] theorem State.modGroup_agenda (k : Nat) (f : Group → Group) (s : State) : (s.modGroup k f).agenda = s.agenda := rfl
@[simp] theorem State.modGroup_inputs (k : Nat) (f : Group → Group) (s : State) : (s.modGroup k f).inputs = s.inputs := rfl
@[simp] theorem State.modGroup_splits (k : Nat) (f : Group → Group) (s : State) : (s.modGroup k f).splits = s.splits := rfl
@[simp] theorem State.modGroup_groups (k : Nat) (f : Group → Group) (s : State) : (s.modGroup k f).groups = s.groups.mod k f := rfl
@[simp] theorem State.modGroup_teams (k : Nat) (f : Group → Group) (s : State) : (s.modGroup k f).teams = s.teams := rfl
@[simp] theorem State.modGroup_ops (k : Nat) (f : Group → Group) (s : State) : (s.modGroup k f).ops = s.ops := rfl
@[simp] theorem State.modGroup_cores (k : Nat) (f : Group → Group) (s : State) : (s.modGroup k f).cores = s.cores := rfl
@[simp] theorem State.modGroup_slices (k : Nat) (f : Group → Group) (s : State) : (s.modGroup k f).slices = s.slices := rfl
@[simp] theorem State.modGroup_dies (k : Nat) (f : Group → Group) (s : State) : (s.modGroup k f).dies = s.dies := rfl
@[simp] theorem State.modGroup_mem (k : Nat) (f : Group → Group) (s : State) : (s.modGroup k f).mem = s.mem := rfl
@[simp] theorem State.modGroup_poison (k : Nat) (f : Group → Group) (s : State) : (s.modGroup k f).poison = s.poison := rfl
@[simp] theorem State.modGroup_parts (k : Nat) (f : Group → Group) (s : State) : (s.modGroup k f).parts = s.parts := rfl
@[simp] theorem State.modGroup_queues (k : Nat) (f : Group → Group) (s : State) : (s.modGroup k f).queues = s.queues := rfl
@[simp] theorem State.modGroup_grids (k : Nat) (f : Group → Group) (s : State) : (s.modGroup k f).grids = s.grids := rfl
@[simp] theorem State.modGroup_draws (k : Nat) (f : Group → Group) (s : State) : (s.modGroup k f).draws = s.draws := rfl
@[simp] theorem State.modGroup_graphs (k : Nat) (f : Group → Group) (s : State) : (s.modGroup k f).graphs = s.graphs := rfl
@[simp] theorem State.modGroup_acks (k : Nat) (f : Group → Group) (s : State) : (s.modGroup k f).acks = s.acks := rfl
@[simp] theorem State.modGroup_mcCtr (k : Nat) (f : Group → Group) (s : State) : (s.modGroup k f).mcCtr = s.mcCtr := rfl
@[simp] theorem State.modGroup_reports (k : Nat) (f : Group → Group) (s : State) : (s.modGroup k f).reports = s.reports := rfl
@[simp] theorem State.modGroup_grants (k : Nat) (f : Group → Group) (s : State) : (s.modGroup k f).grants = s.grants := rfl
@[simp] theorem State.modGroup_peerGrants (k : Nat) (f : Group → Group) (s : State) : (s.modGroup k f).peerGrants = s.peerGrants := rfl
@[simp] theorem State.modGroup_outs (k : Nat) (f : Group → Group) (s : State) : (s.modGroup k f).outs = s.outs := rfl
@[simp] theorem State.modGroup_reserve (k : Nat) (f : Group → Group) (s : State) : (s.modGroup k f).reserve = s.reserve := rfl
@[simp] theorem State.modGroup_regionMax (k : Nat) (f : Group → Group) (s : State) : (s.modGroup k f).regionMax = s.regionMax := rfl
@[simp] theorem State.modGroup_slotId (k : Nat) (f : Group → Group) (s : State) : (s.modGroup k f).slotId = s.slotId := rfl
@[simp] theorem State.modGroup_preserve (k : Nat) (f : Group → Group) (s : State) : (s.modGroup k f).preserve = s.preserve := rfl
@[simp] theorem State.modGroup_resetCause (k : Nat) (f : Group → Group) (s : State) : (s.modGroup k f).resetCause = s.resetCause := rfl
@[simp] theorem State.modGroup_hot (k : Nat) (f : Group → Group) (s : State) : (s.modGroup k f).hot = s.hot := rfl
@[simp] theorem State.modGroup_boot (k : Nat) (f : Group → Group) (s : State) : (s.modGroup k f).boot = s.boot := rfl
@[simp] theorem State.modGroup_measured (k : Nat) (f : Group → Group) (s : State) : (s.modGroup k f).measured = s.measured := rfl
@[simp] theorem State.modGroup_attestKey (k : Nat) (f : Group → Group) (s : State) : (s.modGroup k f).attestKey = s.attestKey := rfl
@[simp] theorem State.modGroup_sessions (k : Nat) (f : Group → Group) (s : State) : (s.modGroup k f).sessions = s.sessions := rfl
@[simp] theorem State.modGroup_discards (k : Nat) (f : Group → Group) (s : State) : (s.modGroup k f).discards = s.discards := rfl
@[simp] theorem State.modGroup_hmac (k : Nat) (f : Group → Group) (s : State) : (s.modGroup k f).hmac = s.hmac := rfl
@[simp] theorem State.modGroup_replies (k : Nat) (f : Group → Group) (s : State) : (s.modGroup k f).replies = s.replies := rfl

/-! ### `modTeam` -/

@[simp] theorem State.modTeam_cur (k : Nat) (f : Team → Team) (s : State) : (s.modTeam k f).cur = s.cur := rfl
@[simp] theorem State.modTeam_curSlice (k : Nat) (f : Team → Team) (s : State) : (s.modTeam k f).curSlice = s.curSlice := rfl
@[simp] theorem State.modTeam_turn (k : Nat) (f : Team → Team) (s : State) : (s.modTeam k f).turn = s.turn := rfl
@[simp] theorem State.modTeam_clock (k : Nat) (f : Team → Team) (s : State) : (s.modTeam k f).clock = s.clock := rfl
@[simp] theorem State.modTeam_tick (k : Nat) (f : Team → Team) (s : State) : (s.modTeam k f).tick = s.tick := rfl
@[simp] theorem State.modTeam_nextId (k : Nat) (f : Team → Team) (s : State) : (s.modTeam k f).nextId = s.nextId := rfl
@[simp] theorem State.modTeam_agenda (k : Nat) (f : Team → Team) (s : State) : (s.modTeam k f).agenda = s.agenda := rfl
@[simp] theorem State.modTeam_inputs (k : Nat) (f : Team → Team) (s : State) : (s.modTeam k f).inputs = s.inputs := rfl
@[simp] theorem State.modTeam_splits (k : Nat) (f : Team → Team) (s : State) : (s.modTeam k f).splits = s.splits := rfl
@[simp] theorem State.modTeam_groups (k : Nat) (f : Team → Team) (s : State) : (s.modTeam k f).groups = s.groups := rfl
@[simp] theorem State.modTeam_teams (k : Nat) (f : Team → Team) (s : State) : (s.modTeam k f).teams = s.teams.mod k f := rfl
@[simp] theorem State.modTeam_ops (k : Nat) (f : Team → Team) (s : State) : (s.modTeam k f).ops = s.ops := rfl
@[simp] theorem State.modTeam_cores (k : Nat) (f : Team → Team) (s : State) : (s.modTeam k f).cores = s.cores := rfl
@[simp] theorem State.modTeam_slices (k : Nat) (f : Team → Team) (s : State) : (s.modTeam k f).slices = s.slices := rfl
@[simp] theorem State.modTeam_dies (k : Nat) (f : Team → Team) (s : State) : (s.modTeam k f).dies = s.dies := rfl
@[simp] theorem State.modTeam_mem (k : Nat) (f : Team → Team) (s : State) : (s.modTeam k f).mem = s.mem := rfl
@[simp] theorem State.modTeam_poison (k : Nat) (f : Team → Team) (s : State) : (s.modTeam k f).poison = s.poison := rfl
@[simp] theorem State.modTeam_parts (k : Nat) (f : Team → Team) (s : State) : (s.modTeam k f).parts = s.parts := rfl
@[simp] theorem State.modTeam_queues (k : Nat) (f : Team → Team) (s : State) : (s.modTeam k f).queues = s.queues := rfl
@[simp] theorem State.modTeam_grids (k : Nat) (f : Team → Team) (s : State) : (s.modTeam k f).grids = s.grids := rfl
@[simp] theorem State.modTeam_draws (k : Nat) (f : Team → Team) (s : State) : (s.modTeam k f).draws = s.draws := rfl
@[simp] theorem State.modTeam_graphs (k : Nat) (f : Team → Team) (s : State) : (s.modTeam k f).graphs = s.graphs := rfl
@[simp] theorem State.modTeam_acks (k : Nat) (f : Team → Team) (s : State) : (s.modTeam k f).acks = s.acks := rfl
@[simp] theorem State.modTeam_mcCtr (k : Nat) (f : Team → Team) (s : State) : (s.modTeam k f).mcCtr = s.mcCtr := rfl
@[simp] theorem State.modTeam_reports (k : Nat) (f : Team → Team) (s : State) : (s.modTeam k f).reports = s.reports := rfl
@[simp] theorem State.modTeam_grants (k : Nat) (f : Team → Team) (s : State) : (s.modTeam k f).grants = s.grants := rfl
@[simp] theorem State.modTeam_peerGrants (k : Nat) (f : Team → Team) (s : State) : (s.modTeam k f).peerGrants = s.peerGrants := rfl
@[simp] theorem State.modTeam_outs (k : Nat) (f : Team → Team) (s : State) : (s.modTeam k f).outs = s.outs := rfl
@[simp] theorem State.modTeam_reserve (k : Nat) (f : Team → Team) (s : State) : (s.modTeam k f).reserve = s.reserve := rfl
@[simp] theorem State.modTeam_regionMax (k : Nat) (f : Team → Team) (s : State) : (s.modTeam k f).regionMax = s.regionMax := rfl
@[simp] theorem State.modTeam_slotId (k : Nat) (f : Team → Team) (s : State) : (s.modTeam k f).slotId = s.slotId := rfl
@[simp] theorem State.modTeam_preserve (k : Nat) (f : Team → Team) (s : State) : (s.modTeam k f).preserve = s.preserve := rfl
@[simp] theorem State.modTeam_resetCause (k : Nat) (f : Team → Team) (s : State) : (s.modTeam k f).resetCause = s.resetCause := rfl
@[simp] theorem State.modTeam_hot (k : Nat) (f : Team → Team) (s : State) : (s.modTeam k f).hot = s.hot := rfl
@[simp] theorem State.modTeam_boot (k : Nat) (f : Team → Team) (s : State) : (s.modTeam k f).boot = s.boot := rfl
@[simp] theorem State.modTeam_measured (k : Nat) (f : Team → Team) (s : State) : (s.modTeam k f).measured = s.measured := rfl
@[simp] theorem State.modTeam_attestKey (k : Nat) (f : Team → Team) (s : State) : (s.modTeam k f).attestKey = s.attestKey := rfl
@[simp] theorem State.modTeam_sessions (k : Nat) (f : Team → Team) (s : State) : (s.modTeam k f).sessions = s.sessions := rfl
@[simp] theorem State.modTeam_discards (k : Nat) (f : Team → Team) (s : State) : (s.modTeam k f).discards = s.discards := rfl
@[simp] theorem State.modTeam_hmac (k : Nat) (f : Team → Team) (s : State) : (s.modTeam k f).hmac = s.hmac := rfl
@[simp] theorem State.modTeam_replies (k : Nat) (f : Team → Team) (s : State) : (s.modTeam k f).replies = s.replies := rfl

/-! ### `modCore` -/

@[simp] theorem State.modCore_cur (k : Nat) (f : Core → Core) (s : State) : (s.modCore k f).cur = s.cur := rfl
@[simp] theorem State.modCore_curSlice (k : Nat) (f : Core → Core) (s : State) : (s.modCore k f).curSlice = s.curSlice := rfl
@[simp] theorem State.modCore_turn (k : Nat) (f : Core → Core) (s : State) : (s.modCore k f).turn = s.turn := rfl
@[simp] theorem State.modCore_clock (k : Nat) (f : Core → Core) (s : State) : (s.modCore k f).clock = s.clock := rfl
@[simp] theorem State.modCore_tick (k : Nat) (f : Core → Core) (s : State) : (s.modCore k f).tick = s.tick := rfl
@[simp] theorem State.modCore_nextId (k : Nat) (f : Core → Core) (s : State) : (s.modCore k f).nextId = s.nextId := rfl
@[simp] theorem State.modCore_agenda (k : Nat) (f : Core → Core) (s : State) : (s.modCore k f).agenda = s.agenda := rfl
@[simp] theorem State.modCore_inputs (k : Nat) (f : Core → Core) (s : State) : (s.modCore k f).inputs = s.inputs := rfl
@[simp] theorem State.modCore_splits (k : Nat) (f : Core → Core) (s : State) : (s.modCore k f).splits = s.splits := rfl
@[simp] theorem State.modCore_groups (k : Nat) (f : Core → Core) (s : State) : (s.modCore k f).groups = s.groups := rfl
@[simp] theorem State.modCore_teams (k : Nat) (f : Core → Core) (s : State) : (s.modCore k f).teams = s.teams := rfl
@[simp] theorem State.modCore_ops (k : Nat) (f : Core → Core) (s : State) : (s.modCore k f).ops = s.ops := rfl
@[simp] theorem State.modCore_cores (k : Nat) (f : Core → Core) (s : State) : (s.modCore k f).cores = s.cores.mod k f := rfl
@[simp] theorem State.modCore_slices (k : Nat) (f : Core → Core) (s : State) : (s.modCore k f).slices = s.slices := rfl
@[simp] theorem State.modCore_dies (k : Nat) (f : Core → Core) (s : State) : (s.modCore k f).dies = s.dies := rfl
@[simp] theorem State.modCore_mem (k : Nat) (f : Core → Core) (s : State) : (s.modCore k f).mem = s.mem := rfl
@[simp] theorem State.modCore_poison (k : Nat) (f : Core → Core) (s : State) : (s.modCore k f).poison = s.poison := rfl
@[simp] theorem State.modCore_parts (k : Nat) (f : Core → Core) (s : State) : (s.modCore k f).parts = s.parts := rfl
@[simp] theorem State.modCore_queues (k : Nat) (f : Core → Core) (s : State) : (s.modCore k f).queues = s.queues := rfl
@[simp] theorem State.modCore_grids (k : Nat) (f : Core → Core) (s : State) : (s.modCore k f).grids = s.grids := rfl
@[simp] theorem State.modCore_draws (k : Nat) (f : Core → Core) (s : State) : (s.modCore k f).draws = s.draws := rfl
@[simp] theorem State.modCore_graphs (k : Nat) (f : Core → Core) (s : State) : (s.modCore k f).graphs = s.graphs := rfl
@[simp] theorem State.modCore_acks (k : Nat) (f : Core → Core) (s : State) : (s.modCore k f).acks = s.acks := rfl
@[simp] theorem State.modCore_mcCtr (k : Nat) (f : Core → Core) (s : State) : (s.modCore k f).mcCtr = s.mcCtr := rfl
@[simp] theorem State.modCore_reports (k : Nat) (f : Core → Core) (s : State) : (s.modCore k f).reports = s.reports := rfl
@[simp] theorem State.modCore_grants (k : Nat) (f : Core → Core) (s : State) : (s.modCore k f).grants = s.grants := rfl
@[simp] theorem State.modCore_peerGrants (k : Nat) (f : Core → Core) (s : State) : (s.modCore k f).peerGrants = s.peerGrants := rfl
@[simp] theorem State.modCore_outs (k : Nat) (f : Core → Core) (s : State) : (s.modCore k f).outs = s.outs := rfl
@[simp] theorem State.modCore_reserve (k : Nat) (f : Core → Core) (s : State) : (s.modCore k f).reserve = s.reserve := rfl
@[simp] theorem State.modCore_regionMax (k : Nat) (f : Core → Core) (s : State) : (s.modCore k f).regionMax = s.regionMax := rfl
@[simp] theorem State.modCore_slotId (k : Nat) (f : Core → Core) (s : State) : (s.modCore k f).slotId = s.slotId := rfl
@[simp] theorem State.modCore_preserve (k : Nat) (f : Core → Core) (s : State) : (s.modCore k f).preserve = s.preserve := rfl
@[simp] theorem State.modCore_resetCause (k : Nat) (f : Core → Core) (s : State) : (s.modCore k f).resetCause = s.resetCause := rfl
@[simp] theorem State.modCore_hot (k : Nat) (f : Core → Core) (s : State) : (s.modCore k f).hot = s.hot := rfl
@[simp] theorem State.modCore_boot (k : Nat) (f : Core → Core) (s : State) : (s.modCore k f).boot = s.boot := rfl
@[simp] theorem State.modCore_measured (k : Nat) (f : Core → Core) (s : State) : (s.modCore k f).measured = s.measured := rfl
@[simp] theorem State.modCore_attestKey (k : Nat) (f : Core → Core) (s : State) : (s.modCore k f).attestKey = s.attestKey := rfl
@[simp] theorem State.modCore_sessions (k : Nat) (f : Core → Core) (s : State) : (s.modCore k f).sessions = s.sessions := rfl
@[simp] theorem State.modCore_discards (k : Nat) (f : Core → Core) (s : State) : (s.modCore k f).discards = s.discards := rfl
@[simp] theorem State.modCore_hmac (k : Nat) (f : Core → Core) (s : State) : (s.modCore k f).hmac = s.hmac := rfl
@[simp] theorem State.modCore_replies (k : Nat) (f : Core → Core) (s : State) : (s.modCore k f).replies = s.replies := rfl

/-! ### `modSlice` -/

@[simp] theorem State.modSlice_cur (k : Nat) (f : Slice → Slice) (s : State) : (s.modSlice k f).cur = s.cur := rfl
@[simp] theorem State.modSlice_curSlice (k : Nat) (f : Slice → Slice) (s : State) : (s.modSlice k f).curSlice = s.curSlice := rfl
@[simp] theorem State.modSlice_turn (k : Nat) (f : Slice → Slice) (s : State) : (s.modSlice k f).turn = s.turn := rfl
@[simp] theorem State.modSlice_clock (k : Nat) (f : Slice → Slice) (s : State) : (s.modSlice k f).clock = s.clock := rfl
@[simp] theorem State.modSlice_tick (k : Nat) (f : Slice → Slice) (s : State) : (s.modSlice k f).tick = s.tick := rfl
@[simp] theorem State.modSlice_nextId (k : Nat) (f : Slice → Slice) (s : State) : (s.modSlice k f).nextId = s.nextId := rfl
@[simp] theorem State.modSlice_agenda (k : Nat) (f : Slice → Slice) (s : State) : (s.modSlice k f).agenda = s.agenda := rfl
@[simp] theorem State.modSlice_inputs (k : Nat) (f : Slice → Slice) (s : State) : (s.modSlice k f).inputs = s.inputs := rfl
@[simp] theorem State.modSlice_splits (k : Nat) (f : Slice → Slice) (s : State) : (s.modSlice k f).splits = s.splits := rfl
@[simp] theorem State.modSlice_groups (k : Nat) (f : Slice → Slice) (s : State) : (s.modSlice k f).groups = s.groups := rfl
@[simp] theorem State.modSlice_teams (k : Nat) (f : Slice → Slice) (s : State) : (s.modSlice k f).teams = s.teams := rfl
@[simp] theorem State.modSlice_ops (k : Nat) (f : Slice → Slice) (s : State) : (s.modSlice k f).ops = s.ops := rfl
@[simp] theorem State.modSlice_cores (k : Nat) (f : Slice → Slice) (s : State) : (s.modSlice k f).cores = s.cores := rfl
@[simp] theorem State.modSlice_slices (k : Nat) (f : Slice → Slice) (s : State) : (s.modSlice k f).slices = s.slices.mod k f := rfl
@[simp] theorem State.modSlice_dies (k : Nat) (f : Slice → Slice) (s : State) : (s.modSlice k f).dies = s.dies := rfl
@[simp] theorem State.modSlice_mem (k : Nat) (f : Slice → Slice) (s : State) : (s.modSlice k f).mem = s.mem := rfl
@[simp] theorem State.modSlice_poison (k : Nat) (f : Slice → Slice) (s : State) : (s.modSlice k f).poison = s.poison := rfl
@[simp] theorem State.modSlice_parts (k : Nat) (f : Slice → Slice) (s : State) : (s.modSlice k f).parts = s.parts := rfl
@[simp] theorem State.modSlice_queues (k : Nat) (f : Slice → Slice) (s : State) : (s.modSlice k f).queues = s.queues := rfl
@[simp] theorem State.modSlice_grids (k : Nat) (f : Slice → Slice) (s : State) : (s.modSlice k f).grids = s.grids := rfl
@[simp] theorem State.modSlice_draws (k : Nat) (f : Slice → Slice) (s : State) : (s.modSlice k f).draws = s.draws := rfl
@[simp] theorem State.modSlice_graphs (k : Nat) (f : Slice → Slice) (s : State) : (s.modSlice k f).graphs = s.graphs := rfl
@[simp] theorem State.modSlice_acks (k : Nat) (f : Slice → Slice) (s : State) : (s.modSlice k f).acks = s.acks := rfl
@[simp] theorem State.modSlice_mcCtr (k : Nat) (f : Slice → Slice) (s : State) : (s.modSlice k f).mcCtr = s.mcCtr := rfl
@[simp] theorem State.modSlice_reports (k : Nat) (f : Slice → Slice) (s : State) : (s.modSlice k f).reports = s.reports := rfl
@[simp] theorem State.modSlice_grants (k : Nat) (f : Slice → Slice) (s : State) : (s.modSlice k f).grants = s.grants := rfl
@[simp] theorem State.modSlice_peerGrants (k : Nat) (f : Slice → Slice) (s : State) : (s.modSlice k f).peerGrants = s.peerGrants := rfl
@[simp] theorem State.modSlice_outs (k : Nat) (f : Slice → Slice) (s : State) : (s.modSlice k f).outs = s.outs := rfl
@[simp] theorem State.modSlice_reserve (k : Nat) (f : Slice → Slice) (s : State) : (s.modSlice k f).reserve = s.reserve := rfl
@[simp] theorem State.modSlice_regionMax (k : Nat) (f : Slice → Slice) (s : State) : (s.modSlice k f).regionMax = s.regionMax := rfl
@[simp] theorem State.modSlice_slotId (k : Nat) (f : Slice → Slice) (s : State) : (s.modSlice k f).slotId = s.slotId := rfl
@[simp] theorem State.modSlice_preserve (k : Nat) (f : Slice → Slice) (s : State) : (s.modSlice k f).preserve = s.preserve := rfl
@[simp] theorem State.modSlice_resetCause (k : Nat) (f : Slice → Slice) (s : State) : (s.modSlice k f).resetCause = s.resetCause := rfl
@[simp] theorem State.modSlice_hot (k : Nat) (f : Slice → Slice) (s : State) : (s.modSlice k f).hot = s.hot := rfl
@[simp] theorem State.modSlice_boot (k : Nat) (f : Slice → Slice) (s : State) : (s.modSlice k f).boot = s.boot := rfl
@[simp] theorem State.modSlice_measured (k : Nat) (f : Slice → Slice) (s : State) : (s.modSlice k f).measured = s.measured := rfl
@[simp] theorem State.modSlice_attestKey (k : Nat) (f : Slice → Slice) (s : State) : (s.modSlice k f).attestKey = s.attestKey := rfl
@[simp] theorem State.modSlice_sessions (k : Nat) (f : Slice → Slice) (s : State) : (s.modSlice k f).sessions = s.sessions := rfl
@[simp] theorem State.modSlice_discards (k : Nat) (f : Slice → Slice) (s : State) : (s.modSlice k f).discards = s.discards := rfl
@[simp] theorem State.modSlice_hmac (k : Nat) (f : Slice → Slice) (s : State) : (s.modSlice k f).hmac = s.hmac := rfl
@[simp] theorem State.modSlice_replies (k : Nat) (f : Slice → Slice) (s : State) : (s.modSlice k f).replies = s.replies := rfl

/-! ### `modDie` -/

@[simp] theorem State.modDie_cur (k : Nat) (f : Die → Die) (s : State) : (s.modDie k f).cur = s.cur := rfl
@[simp] theorem State.modDie_curSlice (k : Nat) (f : Die → Die) (s : State) : (s.modDie k f).curSlice = s.curSlice := rfl
@[simp] theorem State.modDie_turn (k : Nat) (f : Die → Die) (s : State) : (s.modDie k f).turn = s.turn := rfl
@[simp] theorem State.modDie_clock (k : Nat) (f : Die → Die) (s : State) : (s.modDie k f).clock = s.clock := rfl
@[simp] theorem State.modDie_tick (k : Nat) (f : Die → Die) (s : State) : (s.modDie k f).tick = s.tick := rfl
@[simp] theorem State.modDie_nextId (k : Nat) (f : Die → Die) (s : State) : (s.modDie k f).nextId = s.nextId := rfl
@[simp] theorem State.modDie_agenda (k : Nat) (f : Die → Die) (s : State) : (s.modDie k f).agenda = s.agenda := rfl
@[simp] theorem State.modDie_inputs (k : Nat) (f : Die → Die) (s : State) : (s.modDie k f).inputs = s.inputs := rfl
@[simp] theorem State.modDie_splits (k : Nat) (f : Die → Die) (s : State) : (s.modDie k f).splits = s.splits := rfl
@[simp] theorem State.modDie_groups (k : Nat) (f : Die → Die) (s : State) : (s.modDie k f).groups = s.groups := rfl
@[simp] theorem State.modDie_teams (k : Nat) (f : Die → Die) (s : State) : (s.modDie k f).teams = s.teams := rfl
@[simp] theorem State.modDie_ops (k : Nat) (f : Die → Die) (s : State) : (s.modDie k f).ops = s.ops := rfl
@[simp] theorem State.modDie_cores (k : Nat) (f : Die → Die) (s : State) : (s.modDie k f).cores = s.cores := rfl
@[simp] theorem State.modDie_slices (k : Nat) (f : Die → Die) (s : State) : (s.modDie k f).slices = s.slices := rfl
@[simp] theorem State.modDie_dies (k : Nat) (f : Die → Die) (s : State) : (s.modDie k f).dies = s.dies.mod k f := rfl
@[simp] theorem State.modDie_mem (k : Nat) (f : Die → Die) (s : State) : (s.modDie k f).mem = s.mem := rfl
@[simp] theorem State.modDie_poison (k : Nat) (f : Die → Die) (s : State) : (s.modDie k f).poison = s.poison := rfl
@[simp] theorem State.modDie_parts (k : Nat) (f : Die → Die) (s : State) : (s.modDie k f).parts = s.parts := rfl
@[simp] theorem State.modDie_queues (k : Nat) (f : Die → Die) (s : State) : (s.modDie k f).queues = s.queues := rfl
@[simp] theorem State.modDie_grids (k : Nat) (f : Die → Die) (s : State) : (s.modDie k f).grids = s.grids := rfl
@[simp] theorem State.modDie_draws (k : Nat) (f : Die → Die) (s : State) : (s.modDie k f).draws = s.draws := rfl
@[simp] theorem State.modDie_graphs (k : Nat) (f : Die → Die) (s : State) : (s.modDie k f).graphs = s.graphs := rfl
@[simp] theorem State.modDie_acks (k : Nat) (f : Die → Die) (s : State) : (s.modDie k f).acks = s.acks := rfl
@[simp] theorem State.modDie_mcCtr (k : Nat) (f : Die → Die) (s : State) : (s.modDie k f).mcCtr = s.mcCtr := rfl
@[simp] theorem State.modDie_reports (k : Nat) (f : Die → Die) (s : State) : (s.modDie k f).reports = s.reports := rfl
@[simp] theorem State.modDie_grants (k : Nat) (f : Die → Die) (s : State) : (s.modDie k f).grants = s.grants := rfl
@[simp] theorem State.modDie_peerGrants (k : Nat) (f : Die → Die) (s : State) : (s.modDie k f).peerGrants = s.peerGrants := rfl
@[simp] theorem State.modDie_outs (k : Nat) (f : Die → Die) (s : State) : (s.modDie k f).outs = s.outs := rfl
@[simp] theorem State.modDie_reserve (k : Nat) (f : Die → Die) (s : State) : (s.modDie k f).reserve = s.reserve := rfl
@[simp] theorem State.modDie_regionMax (k : Nat) (f : Die → Die) (s : State) : (s.modDie k f).regionMax = s.regionMax := rfl
@[simp] theorem State.modDie_slotId (k : Nat) (f : Die → Die) (s : State) : (s.modDie k f).slotId = s.slotId := rfl
@[simp] theorem State.modDie_preserve (k : Nat) (f : Die → Die) (s : State) : (s.modDie k f).preserve = s.preserve := rfl
@[simp] theorem State.modDie_resetCause (k : Nat) (f : Die → Die) (s : State) : (s.modDie k f).resetCause = s.resetCause := rfl
@[simp] theorem State.modDie_hot (k : Nat) (f : Die → Die) (s : State) : (s.modDie k f).hot = s.hot := rfl
@[simp] theorem State.modDie_boot (k : Nat) (f : Die → Die) (s : State) : (s.modDie k f).boot = s.boot := rfl
@[simp] theorem State.modDie_measured (k : Nat) (f : Die → Die) (s : State) : (s.modDie k f).measured = s.measured := rfl
@[simp] theorem State.modDie_attestKey (k : Nat) (f : Die → Die) (s : State) : (s.modDie k f).attestKey = s.attestKey := rfl
@[simp] theorem State.modDie_sessions (k : Nat) (f : Die → Die) (s : State) : (s.modDie k f).sessions = s.sessions := rfl
@[simp] theorem State.modDie_discards (k : Nat) (f : Die → Die) (s : State) : (s.modDie k f).discards = s.discards := rfl
@[simp] theorem State.modDie_hmac (k : Nat) (f : Die → Die) (s : State) : (s.modDie k f).hmac = s.hmac := rfl
@[simp] theorem State.modDie_replies (k : Nat) (f : Die → Die) (s : State) : (s.modDie k f).replies = s.replies := rfl

/-! ### `modPart` -/

@[simp] theorem State.modPart_cur (k : Nat) (f : Part → Part) (s : State) : (s.modPart k f).cur = s.cur := rfl
@[simp] theorem State.modPart_curSlice (k : Nat) (f : Part → Part) (s : State) : (s.modPart k f).curSlice = s.curSlice := rfl
@[simp] theorem State.modPart_turn (k : Nat) (f : Part → Part) (s : State) : (s.modPart k f).turn = s.turn := rfl
@[simp] theorem State.modPart_clock (k : Nat) (f : Part → Part) (s : State) : (s.modPart k f).clock = s.clock := rfl
@[simp] theorem State.modPart_tick (k : Nat) (f : Part → Part) (s : State) : (s.modPart k f).tick = s.tick := rfl
@[simp] theorem State.modPart_nextId (k : Nat) (f : Part → Part) (s : State) : (s.modPart k f).nextId = s.nextId := rfl
@[simp] theorem State.modPart_agenda (k : Nat) (f : Part → Part) (s : State) : (s.modPart k f).agenda = s.agenda := rfl
@[simp] theorem State.modPart_inputs (k : Nat) (f : Part → Part) (s : State) : (s.modPart k f).inputs = s.inputs := rfl
@[simp] theorem State.modPart_splits (k : Nat) (f : Part → Part) (s : State) : (s.modPart k f).splits = s.splits := rfl
@[simp] theorem State.modPart_groups (k : Nat) (f : Part → Part) (s : State) : (s.modPart k f).groups = s.groups := rfl
@[simp] theorem State.modPart_teams (k : Nat) (f : Part → Part) (s : State) : (s.modPart k f).teams = s.teams := rfl
@[simp] theorem State.modPart_ops (k : Nat) (f : Part → Part) (s : State) : (s.modPart k f).ops = s.ops := rfl
@[simp] theorem State.modPart_cores (k : Nat) (f : Part → Part) (s : State) : (s.modPart k f).cores = s.cores := rfl
@[simp] theorem State.modPart_slices (k : Nat) (f : Part → Part) (s : State) : (s.modPart k f).slices = s.slices := rfl
@[simp] theorem State.modPart_dies (k : Nat) (f : Part → Part) (s : State) : (s.modPart k f).dies = s.dies := rfl
@[simp] theorem State.modPart_mem (k : Nat) (f : Part → Part) (s : State) : (s.modPart k f).mem = s.mem := rfl
@[simp] theorem State.modPart_poison (k : Nat) (f : Part → Part) (s : State) : (s.modPart k f).poison = s.poison := rfl
@[simp] theorem State.modPart_parts (k : Nat) (f : Part → Part) (s : State) : (s.modPart k f).parts = s.parts.mod k f := rfl
@[simp] theorem State.modPart_queues (k : Nat) (f : Part → Part) (s : State) : (s.modPart k f).queues = s.queues := rfl
@[simp] theorem State.modPart_grids (k : Nat) (f : Part → Part) (s : State) : (s.modPart k f).grids = s.grids := rfl
@[simp] theorem State.modPart_draws (k : Nat) (f : Part → Part) (s : State) : (s.modPart k f).draws = s.draws := rfl
@[simp] theorem State.modPart_graphs (k : Nat) (f : Part → Part) (s : State) : (s.modPart k f).graphs = s.graphs := rfl
@[simp] theorem State.modPart_acks (k : Nat) (f : Part → Part) (s : State) : (s.modPart k f).acks = s.acks := rfl
@[simp] theorem State.modPart_mcCtr (k : Nat) (f : Part → Part) (s : State) : (s.modPart k f).mcCtr = s.mcCtr := rfl
@[simp] theorem State.modPart_reports (k : Nat) (f : Part → Part) (s : State) : (s.modPart k f).reports = s.reports := rfl
@[simp] theorem State.modPart_grants (k : Nat) (f : Part → Part) (s : State) : (s.modPart k f).grants = s.grants := rfl
@[simp] theorem State.modPart_peerGrants (k : Nat) (f : Part → Part) (s : State) : (s.modPart k f).peerGrants = s.peerGrants := rfl
@[simp] theorem State.modPart_outs (k : Nat) (f : Part → Part) (s : State) : (s.modPart k f).outs = s.outs := rfl
@[simp] theorem State.modPart_reserve (k : Nat) (f : Part → Part) (s : State) : (s.modPart k f).reserve = s.reserve := rfl
@[simp] theorem State.modPart_regionMax (k : Nat) (f : Part → Part) (s : State) : (s.modPart k f).regionMax = s.regionMax := rfl
@[simp] theorem State.modPart_slotId (k : Nat) (f : Part → Part) (s : State) : (s.modPart k f).slotId = s.slotId := rfl
@[simp] theorem State.modPart_preserve (k : Nat) (f : Part → Part) (s : State) : (s.modPart k f).preserve = s.preserve := rfl
@[simp] theorem State.modPart_resetCause (k : Nat) (f : Part → Part) (s : State) : (s.modPart k f).resetCause = s.resetCause := rfl
@[simp] theorem State.modPart_hot (k : Nat) (f : Part → Part) (s : State) : (s.modPart k f).hot = s.hot := rfl
@[simp] theorem State.modPart_boot (k : Nat) (f : Part → Part) (s : State) : (s.modPart k f).boot = s.boot := rfl
@[simp] theorem State.modPart_measured (k : Nat) (f : Part → Part) (s : State) : (s.modPart k f).measured = s.measured := rfl
@[simp] theorem State.modPart_attestKey (k : Nat) (f : Part → Part) (s : State) : (s.modPart k f).attestKey = s.attestKey := rfl
@[simp] theorem State.modPart_sessions (k : Nat) (f : Part → Part) (s : State) : (s.modPart k f).sessions = s.sessions := rfl
@[simp] theorem State.modPart_discards (k : Nat) (f : Part → Part) (s : State) : (s.modPart k f).discards = s.discards := rfl
@[simp] theorem State.modPart_hmac (k : Nat) (f : Part → Part) (s : State) : (s.modPart k f).hmac = s.hmac := rfl
@[simp] theorem State.modPart_replies (k : Nat) (f : Part → Part) (s : State) : (s.modPart k f).replies = s.replies := rfl

/-! ### `modQueue` -/

@[simp] theorem State.modQueue_cur (k : Nat) (f : Queue → Queue) (s : State) : (s.modQueue k f).cur = s.cur := rfl
@[simp] theorem State.modQueue_curSlice (k : Nat) (f : Queue → Queue) (s : State) : (s.modQueue k f).curSlice = s.curSlice := rfl
@[simp] theorem State.modQueue_turn (k : Nat) (f : Queue → Queue) (s : State) : (s.modQueue k f).turn = s.turn := rfl
@[simp] theorem State.modQueue_clock (k : Nat) (f : Queue → Queue) (s : State) : (s.modQueue k f).clock = s.clock := rfl
@[simp] theorem State.modQueue_tick (k : Nat) (f : Queue → Queue) (s : State) : (s.modQueue k f).tick = s.tick := rfl
@[simp] theorem State.modQueue_nextId (k : Nat) (f : Queue → Queue) (s : State) : (s.modQueue k f).nextId = s.nextId := rfl
@[simp] theorem State.modQueue_agenda (k : Nat) (f : Queue → Queue) (s : State) : (s.modQueue k f).agenda = s.agenda := rfl
@[simp] theorem State.modQueue_inputs (k : Nat) (f : Queue → Queue) (s : State) : (s.modQueue k f).inputs = s.inputs := rfl
@[simp] theorem State.modQueue_splits (k : Nat) (f : Queue → Queue) (s : State) : (s.modQueue k f).splits = s.splits := rfl
@[simp] theorem State.modQueue_groups (k : Nat) (f : Queue → Queue) (s : State) : (s.modQueue k f).groups = s.groups := rfl
@[simp] theorem State.modQueue_teams (k : Nat) (f : Queue → Queue) (s : State) : (s.modQueue k f).teams = s.teams := rfl
@[simp] theorem State.modQueue_ops (k : Nat) (f : Queue → Queue) (s : State) : (s.modQueue k f).ops = s.ops := rfl
@[simp] theorem State.modQueue_cores (k : Nat) (f : Queue → Queue) (s : State) : (s.modQueue k f).cores = s.cores := rfl
@[simp] theorem State.modQueue_slices (k : Nat) (f : Queue → Queue) (s : State) : (s.modQueue k f).slices = s.slices := rfl
@[simp] theorem State.modQueue_dies (k : Nat) (f : Queue → Queue) (s : State) : (s.modQueue k f).dies = s.dies := rfl
@[simp] theorem State.modQueue_mem (k : Nat) (f : Queue → Queue) (s : State) : (s.modQueue k f).mem = s.mem := rfl
@[simp] theorem State.modQueue_poison (k : Nat) (f : Queue → Queue) (s : State) : (s.modQueue k f).poison = s.poison := rfl
@[simp] theorem State.modQueue_parts (k : Nat) (f : Queue → Queue) (s : State) : (s.modQueue k f).parts = s.parts := rfl
@[simp] theorem State.modQueue_queues (k : Nat) (f : Queue → Queue) (s : State) : (s.modQueue k f).queues = s.queues.mod k f := rfl
@[simp] theorem State.modQueue_grids (k : Nat) (f : Queue → Queue) (s : State) : (s.modQueue k f).grids = s.grids := rfl
@[simp] theorem State.modQueue_draws (k : Nat) (f : Queue → Queue) (s : State) : (s.modQueue k f).draws = s.draws := rfl
@[simp] theorem State.modQueue_graphs (k : Nat) (f : Queue → Queue) (s : State) : (s.modQueue k f).graphs = s.graphs := rfl
@[simp] theorem State.modQueue_acks (k : Nat) (f : Queue → Queue) (s : State) : (s.modQueue k f).acks = s.acks := rfl
@[simp] theorem State.modQueue_mcCtr (k : Nat) (f : Queue → Queue) (s : State) : (s.modQueue k f).mcCtr = s.mcCtr := rfl
@[simp] theorem State.modQueue_reports (k : Nat) (f : Queue → Queue) (s : State) : (s.modQueue k f).reports = s.reports := rfl
@[simp] theorem State.modQueue_grants (k : Nat) (f : Queue → Queue) (s : State) : (s.modQueue k f).grants = s.grants := rfl
@[simp] theorem State.modQueue_peerGrants (k : Nat) (f : Queue → Queue) (s : State) : (s.modQueue k f).peerGrants = s.peerGrants := rfl
@[simp] theorem State.modQueue_outs (k : Nat) (f : Queue → Queue) (s : State) : (s.modQueue k f).outs = s.outs := rfl
@[simp] theorem State.modQueue_reserve (k : Nat) (f : Queue → Queue) (s : State) : (s.modQueue k f).reserve = s.reserve := rfl
@[simp] theorem State.modQueue_regionMax (k : Nat) (f : Queue → Queue) (s : State) : (s.modQueue k f).regionMax = s.regionMax := rfl
@[simp] theorem State.modQueue_slotId (k : Nat) (f : Queue → Queue) (s : State) : (s.modQueue k f).slotId = s.slotId := rfl
@[simp] theorem State.modQueue_preserve (k : Nat) (f : Queue → Queue) (s : State) : (s.modQueue k f).preserve = s.preserve := rfl
@[simp] theorem State.modQueue_resetCause (k : Nat) (f : Queue → Queue) (s : State) : (s.modQueue k f).resetCause = s.resetCause := rfl
@[simp] theorem State.modQueue_hot (k : Nat) (f : Queue → Queue) (s : State) : (s.modQueue k f).hot = s.hot := rfl
@[simp] theorem State.modQueue_boot (k : Nat) (f : Queue → Queue) (s : State) : (s.modQueue k f).boot = s.boot := rfl
@[simp] theorem State.modQueue_measured (k : Nat) (f : Queue → Queue) (s : State) : (s.modQueue k f).measured = s.measured := rfl
@[simp] theorem State.modQueue_attestKey (k : Nat) (f : Queue → Queue) (s : State) : (s.modQueue k f).attestKey = s.attestKey := rfl
@[simp] theorem State.modQueue_sessions (k : Nat) (f : Queue → Queue) (s : State) : (s.modQueue k f).sessions = s.sessions := rfl
@[simp] theorem State.modQueue_discards (k : Nat) (f : Queue → Queue) (s : State) : (s.modQueue k f).discards = s.discards := rfl
@[simp] theorem State.modQueue_hmac (k : Nat) (f : Queue → Queue) (s : State) : (s.modQueue k f).hmac = s.hmac := rfl
@[simp] theorem State.modQueue_replies (k : Nat) (f : Queue → Queue) (s : State) : (s.modQueue k f).replies = s.replies := rfl

/-! ### `modGrid` -/

@[simp] theorem State.modGrid_cur (k : Nat) (f : Grid → Grid) (s : State) : (s.modGrid k f).cur = s.cur := rfl
@[simp] theorem State.modGrid_curSlice (k : Nat) (f : Grid → Grid) (s : State) : (s.modGrid k f).curSlice = s.curSlice := rfl
@[simp] theorem State.modGrid_turn (k : Nat) (f : Grid → Grid) (s : State) : (s.modGrid k f).turn = s.turn := rfl
@[simp] theorem State.modGrid_clock (k : Nat) (f : Grid → Grid) (s : State) : (s.modGrid k f).clock = s.clock := rfl
@[simp] theorem State.modGrid_tick (k : Nat) (f : Grid → Grid) (s : State) : (s.modGrid k f).tick = s.tick := rfl
@[simp] theorem State.modGrid_nextId (k : Nat) (f : Grid → Grid) (s : State) : (s.modGrid k f).nextId = s.nextId := rfl
@[simp] theorem State.modGrid_agenda (k : Nat) (f : Grid → Grid) (s : State) : (s.modGrid k f).agenda = s.agenda := rfl
@[simp] theorem State.modGrid_inputs (k : Nat) (f : Grid → Grid) (s : State) : (s.modGrid k f).inputs = s.inputs := rfl
@[simp] theorem State.modGrid_splits (k : Nat) (f : Grid → Grid) (s : State) : (s.modGrid k f).splits = s.splits := rfl
@[simp] theorem State.modGrid_groups (k : Nat) (f : Grid → Grid) (s : State) : (s.modGrid k f).groups = s.groups := rfl
@[simp] theorem State.modGrid_teams (k : Nat) (f : Grid → Grid) (s : State) : (s.modGrid k f).teams = s.teams := rfl
@[simp] theorem State.modGrid_ops (k : Nat) (f : Grid → Grid) (s : State) : (s.modGrid k f).ops = s.ops := rfl
@[simp] theorem State.modGrid_cores (k : Nat) (f : Grid → Grid) (s : State) : (s.modGrid k f).cores = s.cores := rfl
@[simp] theorem State.modGrid_slices (k : Nat) (f : Grid → Grid) (s : State) : (s.modGrid k f).slices = s.slices := rfl
@[simp] theorem State.modGrid_dies (k : Nat) (f : Grid → Grid) (s : State) : (s.modGrid k f).dies = s.dies := rfl
@[simp] theorem State.modGrid_mem (k : Nat) (f : Grid → Grid) (s : State) : (s.modGrid k f).mem = s.mem := rfl
@[simp] theorem State.modGrid_poison (k : Nat) (f : Grid → Grid) (s : State) : (s.modGrid k f).poison = s.poison := rfl
@[simp] theorem State.modGrid_parts (k : Nat) (f : Grid → Grid) (s : State) : (s.modGrid k f).parts = s.parts := rfl
@[simp] theorem State.modGrid_queues (k : Nat) (f : Grid → Grid) (s : State) : (s.modGrid k f).queues = s.queues := rfl
@[simp] theorem State.modGrid_grids (k : Nat) (f : Grid → Grid) (s : State) : (s.modGrid k f).grids = s.grids.mod k f := rfl
@[simp] theorem State.modGrid_draws (k : Nat) (f : Grid → Grid) (s : State) : (s.modGrid k f).draws = s.draws := rfl
@[simp] theorem State.modGrid_graphs (k : Nat) (f : Grid → Grid) (s : State) : (s.modGrid k f).graphs = s.graphs := rfl
@[simp] theorem State.modGrid_acks (k : Nat) (f : Grid → Grid) (s : State) : (s.modGrid k f).acks = s.acks := rfl
@[simp] theorem State.modGrid_mcCtr (k : Nat) (f : Grid → Grid) (s : State) : (s.modGrid k f).mcCtr = s.mcCtr := rfl
@[simp] theorem State.modGrid_reports (k : Nat) (f : Grid → Grid) (s : State) : (s.modGrid k f).reports = s.reports := rfl
@[simp] theorem State.modGrid_grants (k : Nat) (f : Grid → Grid) (s : State) : (s.modGrid k f).grants = s.grants := rfl
@[simp] theorem State.modGrid_peerGrants (k : Nat) (f : Grid → Grid) (s : State) : (s.modGrid k f).peerGrants = s.peerGrants := rfl
@[simp] theorem State.modGrid_outs (k : Nat) (f : Grid → Grid) (s : State) : (s.modGrid k f).outs = s.outs := rfl
@[simp] theorem State.modGrid_reserve (k : Nat) (f : Grid → Grid) (s : State) : (s.modGrid k f).reserve = s.reserve := rfl
@[simp] theorem State.modGrid_regionMax (k : Nat) (f : Grid → Grid) (s : State) : (s.modGrid k f).regionMax = s.regionMax := rfl
@[simp] theorem State.modGrid_slotId (k : Nat) (f : Grid → Grid) (s : State) : (s.modGrid k f).slotId = s.slotId := rfl
@[simp] theorem State.modGrid_preserve (k : Nat) (f : Grid → Grid) (s : State) : (s.modGrid k f).preserve = s.preserve := rfl
@[simp] theorem State.modGrid_resetCause (k : Nat) (f : Grid → Grid) (s : State) : (s.modGrid k f).resetCause = s.resetCause := rfl
@[simp] theorem State.modGrid_hot (k : Nat) (f : Grid → Grid) (s : State) : (s.modGrid k f).hot = s.hot := rfl
@[simp] theorem State.modGrid_boot (k : Nat) (f : Grid → Grid) (s : State) : (s.modGrid k f).boot = s.boot := rfl
@[simp] theorem State.modGrid_measured (k : Nat) (f : Grid → Grid) (s : State) : (s.modGrid k f).measured = s.measured := rfl
@[simp] theorem State.modGrid_attestKey (k : Nat) (f : Grid → Grid) (s : State) : (s.modGrid k f).attestKey = s.attestKey := rfl
@[simp] theorem State.modGrid_sessions (k : Nat) (f : Grid → Grid) (s : State) : (s.modGrid k f).sessions = s.sessions := rfl
@[simp] theorem State.modGrid_discards (k : Nat) (f : Grid → Grid) (s : State) : (s.modGrid k f).discards = s.discards := rfl
@[simp] theorem State.modGrid_hmac (k : Nat) (f : Grid → Grid) (s : State) : (s.modGrid k f).hmac = s.hmac := rfl
@[simp] theorem State.modGrid_replies (k : Nat) (f : Grid → Grid) (s : State) : (s.modGrid k f).replies = s.replies := rfl

/-! ### `modDraw` -/

@[simp] theorem State.modDraw_cur (k : Nat) (f : Draw → Draw) (s : State) : (s.modDraw k f).cur = s.cur := rfl
@[simp] theorem State.modDraw_curSlice (k : Nat) (f : Draw → Draw) (s : State) : (s.modDraw k f).curSlice = s.curSlice := rfl
@[simp] theorem State.modDraw_turn (k : Nat) (f : Draw → Draw) (s : State) : (s.modDraw k f).turn = s.turn := rfl
@[simp] theorem State.modDraw_clock (k : Nat) (f : Draw → Draw) (s : State) : (s.modDraw k f).clock = s.clock := rfl
@[simp] theorem State.modDraw_tick (k : Nat) (f : Draw → Draw) (s : State) : (s.modDraw k f).tick = s.tick := rfl
@[simp] theorem State.modDraw_nextId (k : Nat) (f : Draw → Draw) (s : State) : (s.modDraw k f).nextId = s.nextId := rfl
@[simp] theorem State.modDraw_agenda (k : Nat) (f : Draw → Draw) (s : State) : (s.modDraw k f).agenda = s.agenda := rfl
@[simp] theorem State.modDraw_inputs (k : Nat) (f : Draw → Draw) (s : State) : (s.modDraw k f).inputs = s.inputs := rfl
@[simp] theorem State.modDraw_splits (k : Nat) (f : Draw → Draw) (s : State) : (s.modDraw k f).splits = s.splits := rfl
@[simp] theorem State.modDraw_groups (k : Nat) (f : Draw → Draw) (s : State) : (s.modDraw k f).groups = s.groups := rfl
@[simp] theorem State.modDraw_teams (k : Nat) (f : Draw → Draw) (s : State) : (s.modDraw k f).teams = s.teams := rfl
@[simp] theorem State.modDraw_ops (k : Nat) (f : Draw → Draw) (s : State) : (s.modDraw k f).ops = s.ops := rfl
@[simp] theorem State.modDraw_cores (k : Nat) (f : Draw → Draw) (s : State) : (s.modDraw k f).cores = s.cores := rfl
@[simp] theorem State.modDraw_slices (k : Nat) (f : Draw → Draw) (s : State) : (s.modDraw k f).slices = s.slices := rfl
@[simp] theorem State.modDraw_dies (k : Nat) (f : Draw → Draw) (s : State) : (s.modDraw k f).dies = s.dies := rfl
@[simp] theorem State.modDraw_mem (k : Nat) (f : Draw → Draw) (s : State) : (s.modDraw k f).mem = s.mem := rfl
@[simp] theorem State.modDraw_poison (k : Nat) (f : Draw → Draw) (s : State) : (s.modDraw k f).poison = s.poison := rfl
@[simp] theorem State.modDraw_parts (k : Nat) (f : Draw → Draw) (s : State) : (s.modDraw k f).parts = s.parts := rfl
@[simp] theorem State.modDraw_queues (k : Nat) (f : Draw → Draw) (s : State) : (s.modDraw k f).queues = s.queues := rfl
@[simp] theorem State.modDraw_grids (k : Nat) (f : Draw → Draw) (s : State) : (s.modDraw k f).grids = s.grids := rfl
@[simp] theorem State.modDraw_draws (k : Nat) (f : Draw → Draw) (s : State) : (s.modDraw k f).draws = s.draws.mod k f := rfl
@[simp] theorem State.modDraw_graphs (k : Nat) (f : Draw → Draw) (s : State) : (s.modDraw k f).graphs = s.graphs := rfl
@[simp] theorem State.modDraw_acks (k : Nat) (f : Draw → Draw) (s : State) : (s.modDraw k f).acks = s.acks := rfl
@[simp] theorem State.modDraw_mcCtr (k : Nat) (f : Draw → Draw) (s : State) : (s.modDraw k f).mcCtr = s.mcCtr := rfl
@[simp] theorem State.modDraw_reports (k : Nat) (f : Draw → Draw) (s : State) : (s.modDraw k f).reports = s.reports := rfl
@[simp] theorem State.modDraw_grants (k : Nat) (f : Draw → Draw) (s : State) : (s.modDraw k f).grants = s.grants := rfl
@[simp] theorem State.modDraw_peerGrants (k : Nat) (f : Draw → Draw) (s : State) : (s.modDraw k f).peerGrants = s.peerGrants := rfl
@[simp] theorem State.modDraw_outs (k : Nat) (f : Draw → Draw) (s : State) : (s.modDraw k f).outs = s.outs := rfl
@[simp] theorem State.modDraw_reserve (k : Nat) (f : Draw → Draw) (s : State) : (s.modDraw k f).reserve = s.reserve := rfl
@[simp] theorem State.modDraw_regionMax (k : Nat) (f : Draw → Draw) (s : State) : (s.modDraw k f).regionMax = s.regionMax := rfl
@[simp] theorem State.modDraw_slotId (k : Nat) (f : Draw → Draw) (s : State) : (s.modDraw k f).slotId = s.slotId := rfl
@[simp] theorem State.modDraw_preserve (k : Nat) (f : Draw → Draw) (s : State) : (s.modDraw k f).preserve = s.preserve := rfl
@[simp] theorem State.modDraw_resetCause (k : Nat) (f : Draw → Draw) (s : State) : (s.modDraw k f).resetCause = s.resetCause := rfl
@[simp] theorem State.modDraw_hot (k : Nat) (f : Draw → Draw) (s : State) : (s.modDraw k f).hot = s.hot := rfl
@[simp] theorem State.modDraw_boot (k : Nat) (f : Draw → Draw) (s : State) : (s.modDraw k f).boot = s.boot := rfl
@[simp] theorem State.modDraw_measured (k : Nat) (f : Draw → Draw) (s : State) : (s.modDraw k f).measured = s.measured := rfl
@[simp] theorem State.modDraw_attestKey (k : Nat) (f : Draw → Draw) (s : State) : (s.modDraw k f).attestKey = s.attestKey := rfl
@[simp] theorem State.modDraw_sessions (k : Nat) (f : Draw → Draw) (s : State) : (s.modDraw k f).sessions = s.sessions := rfl
@[simp] theorem State.modDraw_discards (k : Nat) (f : Draw → Draw) (s : State) : (s.modDraw k f).discards = s.discards := rfl
@[simp] theorem State.modDraw_hmac (k : Nat) (f : Draw → Draw) (s : State) : (s.modDraw k f).hmac = s.hmac := rfl
@[simp] theorem State.modDraw_replies (k : Nat) (f : Draw → Draw) (s : State) : (s.modDraw k f).replies = s.replies := rfl

/-! ### `modGraph` -/

@[simp] theorem State.modGraph_cur (k : Nat) (f : Graph → Graph) (s : State) : (s.modGraph k f).cur = s.cur := rfl
@[simp] theorem State.modGraph_curSlice (k : Nat) (f : Graph → Graph) (s : State) : (s.modGraph k f).curSlice = s.curSlice := rfl
@[simp] theorem State.modGraph_turn (k : Nat) (f : Graph → Graph) (s : State) : (s.modGraph k f).turn = s.turn := rfl
@[simp] theorem State.modGraph_clock (k : Nat) (f : Graph → Graph) (s : State) : (s.modGraph k f).clock = s.clock := rfl
@[simp] theorem State.modGraph_tick (k : Nat) (f : Graph → Graph) (s : State) : (s.modGraph k f).tick = s.tick := rfl
@[simp] theorem State.modGraph_nextId (k : Nat) (f : Graph → Graph) (s : State) : (s.modGraph k f).nextId = s.nextId := rfl
@[simp] theorem State.modGraph_agenda (k : Nat) (f : Graph → Graph) (s : State) : (s.modGraph k f).agenda = s.agenda := rfl
@[simp] theorem State.modGraph_inputs (k : Nat) (f : Graph → Graph) (s : State) : (s.modGraph k f).inputs = s.inputs := rfl
@[simp] theorem State.modGraph_splits (k : Nat) (f : Graph → Graph) (s : State) : (s.modGraph k f).splits = s.splits := rfl
@[simp] theorem State.modGraph_groups (k : Nat) (f : Graph → Graph) (s : State) : (s.modGraph k f).groups = s.groups := rfl
@[simp] theorem State.modGraph_teams (k : Nat) (f : Graph → Graph) (s : State) : (s.modGraph k f).teams = s.teams := rfl
@[simp] theorem State.modGraph_ops (k : Nat) (f : Graph → Graph) (s : State) : (s.modGraph k f).ops = s.ops := rfl
@[simp] theorem State.modGraph_cores (k : Nat) (f : Graph → Graph) (s : State) : (s.modGraph k f).cores = s.cores := rfl
@[simp] theorem State.modGraph_slices (k : Nat) (f : Graph → Graph) (s : State) : (s.modGraph k f).slices = s.slices := rfl
@[simp] theorem State.modGraph_dies (k : Nat) (f : Graph → Graph) (s : State) : (s.modGraph k f).dies = s.dies := rfl
@[simp] theorem State.modGraph_mem (k : Nat) (f : Graph → Graph) (s : State) : (s.modGraph k f).mem = s.mem := rfl
@[simp] theorem State.modGraph_poison (k : Nat) (f : Graph → Graph) (s : State) : (s.modGraph k f).poison = s.poison := rfl
@[simp] theorem State.modGraph_parts (k : Nat) (f : Graph → Graph) (s : State) : (s.modGraph k f).parts = s.parts := rfl
@[simp] theorem State.modGraph_queues (k : Nat) (f : Graph → Graph) (s : State) : (s.modGraph k f).queues = s.queues := rfl
@[simp] theorem State.modGraph_grids (k : Nat) (f : Graph → Graph) (s : State) : (s.modGraph k f).grids = s.grids := rfl
@[simp] theorem State.modGraph_draws (k : Nat) (f : Graph → Graph) (s : State) : (s.modGraph k f).draws = s.draws := rfl
@[simp] theorem State.modGraph_graphs (k : Nat) (f : Graph → Graph) (s : State) : (s.modGraph k f).graphs = s.graphs.mod k f := rfl
@[simp] theorem State.modGraph_acks (k : Nat) (f : Graph → Graph) (s : State) : (s.modGraph k f).acks = s.acks := rfl
@[simp] theorem State.modGraph_mcCtr (k : Nat) (f : Graph → Graph) (s : State) : (s.modGraph k f).mcCtr = s.mcCtr := rfl
@[simp] theorem State.modGraph_reports (k : Nat) (f : Graph → Graph) (s : State) : (s.modGraph k f).reports = s.reports := rfl
@[simp] theorem State.modGraph_grants (k : Nat) (f : Graph → Graph) (s : State) : (s.modGraph k f).grants = s.grants := rfl
@[simp] theorem State.modGraph_peerGrants (k : Nat) (f : Graph → Graph) (s : State) : (s.modGraph k f).peerGrants = s.peerGrants := rfl
@[simp] theorem State.modGraph_outs (k : Nat) (f : Graph → Graph) (s : State) : (s.modGraph k f).outs = s.outs := rfl
@[simp] theorem State.modGraph_reserve (k : Nat) (f : Graph → Graph) (s : State) : (s.modGraph k f).reserve = s.reserve := rfl
@[simp] theorem State.modGraph_regionMax (k : Nat) (f : Graph → Graph) (s : State) : (s.modGraph k f).regionMax = s.regionMax := rfl
@[simp] theorem State.modGraph_slotId (k : Nat) (f : Graph → Graph) (s : State) : (s.modGraph k f).slotId = s.slotId := rfl
@[simp] theorem State.modGraph_preserve (k : Nat) (f : Graph → Graph) (s : State) : (s.modGraph k f).preserve = s.preserve := rfl
@[simp] theorem State.modGraph_resetCause (k : Nat) (f : Graph → Graph) (s : State) : (s.modGraph k f).resetCause = s.resetCause := rfl
@[simp] theorem State.modGraph_hot (k : Nat) (f : Graph → Graph) (s : State) : (s.modGraph k f).hot = s.hot := rfl
@[simp] theorem State.modGraph_boot (k : Nat) (f : Graph → Graph) (s : State) : (s.modGraph k f).boot = s.boot := rfl
@[simp] theorem State.modGraph_measured (k : Nat) (f : Graph → Graph) (s : State) : (s.modGraph k f).measured = s.measured := rfl
@[simp] theorem State.modGraph_attestKey (k : Nat) (f : Graph → Graph) (s : State) : (s.modGraph k f).attestKey = s.attestKey := rfl
@[simp] theorem State.modGraph_sessions (k : Nat) (f : Graph → Graph) (s : State) : (s.modGraph k f).sessions = s.sessions := rfl
@[simp] theorem State.modGraph_discards (k : Nat) (f : Graph → Graph) (s : State) : (s.modGraph k f).discards = s.discards := rfl
@[simp] theorem State.modGraph_hmac (k : Nat) (f : Graph → Graph) (s : State) : (s.modGraph k f).hmac = s.hmac := rfl
@[simp] theorem State.modGraph_replies (k : Nat) (f : Graph → Graph) (s : State) : (s.modGraph k f).replies = s.replies := rfl

/-! ### `modSp` -/

@[simp] theorem State.modSp_cur (f : Split → Split) (s : State) : (s.modSp f).cur = s.cur := rfl
@[simp] theorem State.modSp_curSlice (f : Split → Split) (s : State) : (s.modSp f).curSlice = s.curSlice := rfl
@[simp] theorem State.modSp_turn (f : Split → Split) (s : State) : (s.modSp f).turn = s.turn := rfl
@[simp] theorem State.modSp_clock (f : Split → Split) (s : State) : (s.modSp f).clock = s.clock := rfl
@[simp] theorem State.modSp_tick (f : Split → Split) (s : State) : (s.modSp f).tick = s.tick := rfl
@[simp] theorem State.modSp_nextId (f : Split → Split) (s : State) : (s.modSp f).nextId = s.nextId := rfl
@[simp] theorem State.modSp_agenda (f : Split → Split) (s : State) : (s.modSp f).agenda = s.agenda := rfl
@[simp] theorem State.modSp_inputs (f : Split → Split) (s : State) : (s.modSp f).inputs = s.inputs := rfl
@[simp] theorem State.modSp_splits (f : Split → Split) (s : State) : (s.modSp f).splits = s.splits.mod s.cur f := rfl
@[simp] theorem State.modSp_groups (f : Split → Split) (s : State) : (s.modSp f).groups = s.groups := rfl
@[simp] theorem State.modSp_teams (f : Split → Split) (s : State) : (s.modSp f).teams = s.teams := rfl
@[simp] theorem State.modSp_ops (f : Split → Split) (s : State) : (s.modSp f).ops = s.ops := rfl
@[simp] theorem State.modSp_cores (f : Split → Split) (s : State) : (s.modSp f).cores = s.cores := rfl
@[simp] theorem State.modSp_slices (f : Split → Split) (s : State) : (s.modSp f).slices = s.slices := rfl
@[simp] theorem State.modSp_dies (f : Split → Split) (s : State) : (s.modSp f).dies = s.dies := rfl
@[simp] theorem State.modSp_mem (f : Split → Split) (s : State) : (s.modSp f).mem = s.mem := rfl
@[simp] theorem State.modSp_poison (f : Split → Split) (s : State) : (s.modSp f).poison = s.poison := rfl
@[simp] theorem State.modSp_parts (f : Split → Split) (s : State) : (s.modSp f).parts = s.parts := rfl
@[simp] theorem State.modSp_queues (f : Split → Split) (s : State) : (s.modSp f).queues = s.queues := rfl
@[simp] theorem State.modSp_grids (f : Split → Split) (s : State) : (s.modSp f).grids = s.grids := rfl
@[simp] theorem State.modSp_draws (f : Split → Split) (s : State) : (s.modSp f).draws = s.draws := rfl
@[simp] theorem State.modSp_graphs (f : Split → Split) (s : State) : (s.modSp f).graphs = s.graphs := rfl
@[simp] theorem State.modSp_acks (f : Split → Split) (s : State) : (s.modSp f).acks = s.acks := rfl
@[simp] theorem State.modSp_mcCtr (f : Split → Split) (s : State) : (s.modSp f).mcCtr = s.mcCtr := rfl
@[simp] theorem State.modSp_reports (f : Split → Split) (s : State) : (s.modSp f).reports = s.reports := rfl
@[simp] theorem State.modSp_grants (f : Split → Split) (s : State) : (s.modSp f).grants = s.grants := rfl
@[simp] theorem State.modSp_peerGrants (f : Split → Split) (s : State) : (s.modSp f).peerGrants = s.peerGrants := rfl
@[simp] theorem State.modSp_outs (f : Split → Split) (s : State) : (s.modSp f).outs = s.outs := rfl
@[simp] theorem State.modSp_reserve (f : Split → Split) (s : State) : (s.modSp f).reserve = s.reserve := rfl
@[simp] theorem State.modSp_regionMax (f : Split → Split) (s : State) : (s.modSp f).regionMax = s.regionMax := rfl
@[simp] theorem State.modSp_slotId (f : Split → Split) (s : State) : (s.modSp f).slotId = s.slotId := rfl
@[simp] theorem State.modSp_preserve (f : Split → Split) (s : State) : (s.modSp f).preserve = s.preserve := rfl
@[simp] theorem State.modSp_resetCause (f : Split → Split) (s : State) : (s.modSp f).resetCause = s.resetCause := rfl
@[simp] theorem State.modSp_hot (f : Split → Split) (s : State) : (s.modSp f).hot = s.hot := rfl
@[simp] theorem State.modSp_boot (f : Split → Split) (s : State) : (s.modSp f).boot = s.boot := rfl
@[simp] theorem State.modSp_measured (f : Split → Split) (s : State) : (s.modSp f).measured = s.measured := rfl
@[simp] theorem State.modSp_attestKey (f : Split → Split) (s : State) : (s.modSp f).attestKey = s.attestKey := rfl
@[simp] theorem State.modSp_sessions (f : Split → Split) (s : State) : (s.modSp f).sessions = s.sessions := rfl
@[simp] theorem State.modSp_discards (f : Split → Split) (s : State) : (s.modSp f).discards = s.discards := rfl
@[simp] theorem State.modSp_hmac (f : Split → Split) (s : State) : (s.modSp f).hmac = s.hmac := rfl
@[simp] theorem State.modSp_replies (f : Split → Split) (s : State) : (s.modSp f).replies = s.replies := rfl

/-! ### `modGr` -/

@[simp] theorem State.modGr_cur (f : Group → Group) (s : State) : (s.modGr f).cur = s.cur := rfl
@[simp] theorem State.modGr_curSlice (f : Group → Group) (s : State) : (s.modGr f).curSlice = s.curSlice := rfl
@[simp] theorem State.modGr_turn (f : Group → Group) (s : State) : (s.modGr f).turn = s.turn := rfl
@[simp] theorem State.modGr_clock (f : Group → Group) (s : State) : (s.modGr f).clock = s.clock := rfl
@[simp] theorem State.modGr_tick (f : Group → Group) (s : State) : (s.modGr f).tick = s.tick := rfl
@[simp] theorem State.modGr_nextId (f : Group → Group) (s : State) : (s.modGr f).nextId = s.nextId := rfl
@[simp] theorem State.modGr_agenda (f : Group → Group) (s : State) : (s.modGr f).agenda = s.agenda := rfl
@[simp] theorem State.modGr_inputs (f : Group → Group) (s : State) : (s.modGr f).inputs = s.inputs := rfl
@[simp] theorem State.modGr_splits (f : Group → Group) (s : State) : (s.modGr f).splits = s.splits := rfl
@[simp] theorem State.modGr_groups (f : Group → Group) (s : State) : (s.modGr f).groups = s.groups.mod s.gk f := rfl
@[simp] theorem State.modGr_teams (f : Group → Group) (s : State) : (s.modGr f).teams = s.teams := rfl
@[simp] theorem State.modGr_ops (f : Group → Group) (s : State) : (s.modGr f).ops = s.ops := rfl
@[simp] theorem State.modGr_cores (f : Group → Group) (s : State) : (s.modGr f).cores = s.cores := rfl
@[simp] theorem State.modGr_slices (f : Group → Group) (s : State) : (s.modGr f).slices = s.slices := rfl
@[simp] theorem State.modGr_dies (f : Group → Group) (s : State) : (s.modGr f).dies = s.dies := rfl
@[simp] theorem State.modGr_mem (f : Group → Group) (s : State) : (s.modGr f).mem = s.mem := rfl
@[simp] theorem State.modGr_poison (f : Group → Group) (s : State) : (s.modGr f).poison = s.poison := rfl
@[simp] theorem State.modGr_parts (f : Group → Group) (s : State) : (s.modGr f).parts = s.parts := rfl
@[simp] theorem State.modGr_queues (f : Group → Group) (s : State) : (s.modGr f).queues = s.queues := rfl
@[simp] theorem State.modGr_grids (f : Group → Group) (s : State) : (s.modGr f).grids = s.grids := rfl
@[simp] theorem State.modGr_draws (f : Group → Group) (s : State) : (s.modGr f).draws = s.draws := rfl
@[simp] theorem State.modGr_graphs (f : Group → Group) (s : State) : (s.modGr f).graphs = s.graphs := rfl
@[simp] theorem State.modGr_acks (f : Group → Group) (s : State) : (s.modGr f).acks = s.acks := rfl
@[simp] theorem State.modGr_mcCtr (f : Group → Group) (s : State) : (s.modGr f).mcCtr = s.mcCtr := rfl
@[simp] theorem State.modGr_reports (f : Group → Group) (s : State) : (s.modGr f).reports = s.reports := rfl
@[simp] theorem State.modGr_grants (f : Group → Group) (s : State) : (s.modGr f).grants = s.grants := rfl
@[simp] theorem State.modGr_peerGrants (f : Group → Group) (s : State) : (s.modGr f).peerGrants = s.peerGrants := rfl
@[simp] theorem State.modGr_outs (f : Group → Group) (s : State) : (s.modGr f).outs = s.outs := rfl
@[simp] theorem State.modGr_reserve (f : Group → Group) (s : State) : (s.modGr f).reserve = s.reserve := rfl
@[simp] theorem State.modGr_regionMax (f : Group → Group) (s : State) : (s.modGr f).regionMax = s.regionMax := rfl
@[simp] theorem State.modGr_slotId (f : Group → Group) (s : State) : (s.modGr f).slotId = s.slotId := rfl
@[simp] theorem State.modGr_preserve (f : Group → Group) (s : State) : (s.modGr f).preserve = s.preserve := rfl
@[simp] theorem State.modGr_resetCause (f : Group → Group) (s : State) : (s.modGr f).resetCause = s.resetCause := rfl
@[simp] theorem State.modGr_hot (f : Group → Group) (s : State) : (s.modGr f).hot = s.hot := rfl
@[simp] theorem State.modGr_boot (f : Group → Group) (s : State) : (s.modGr f).boot = s.boot := rfl
@[simp] theorem State.modGr_measured (f : Group → Group) (s : State) : (s.modGr f).measured = s.measured := rfl
@[simp] theorem State.modGr_attestKey (f : Group → Group) (s : State) : (s.modGr f).attestKey = s.attestKey := rfl
@[simp] theorem State.modGr_sessions (f : Group → Group) (s : State) : (s.modGr f).sessions = s.sessions := rfl
@[simp] theorem State.modGr_discards (f : Group → Group) (s : State) : (s.modGr f).discards = s.discards := rfl
@[simp] theorem State.modGr_hmac (f : Group → Group) (s : State) : (s.modGr f).hmac = s.hmac := rfl
@[simp] theorem State.modGr_replies (f : Group → Group) (s : State) : (s.modGr f).replies = s.replies := rfl

/-! ### `modTm` -/

@[simp] theorem State.modTm_cur (f : Team → Team) (s : State) : (s.modTm f).cur = s.cur := rfl
@[simp] theorem State.modTm_curSlice (f : Team → Team) (s : State) : (s.modTm f).curSlice = s.curSlice := rfl
@[simp] theorem State.modTm_turn (f : Team → Team) (s : State) : (s.modTm f).turn = s.turn := rfl
@[simp] theorem State.modTm_clock (f : Team → Team) (s : State) : (s.modTm f).clock = s.clock := rfl
@[simp] theorem State.modTm_tick (f : Team → Team) (s : State) : (s.modTm f).tick = s.tick := rfl
@[simp] theorem State.modTm_nextId (f : Team → Team) (s : State) : (s.modTm f).nextId = s.nextId := rfl
@[simp] theorem State.modTm_agenda (f : Team → Team) (s : State) : (s.modTm f).agenda = s.agenda := rfl
@[simp] theorem State.modTm_inputs (f : Team → Team) (s : State) : (s.modTm f).inputs = s.inputs := rfl
@[simp] theorem State.modTm_splits (f : Team → Team) (s : State) : (s.modTm f).splits = s.splits := rfl
@[simp] theorem State.modTm_groups (f : Team → Team) (s : State) : (s.modTm f).groups = s.groups := rfl
@[simp] theorem State.modTm_teams (f : Team → Team) (s : State) : (s.modTm f).teams = s.teams.mod s.tk f := rfl
@[simp] theorem State.modTm_ops (f : Team → Team) (s : State) : (s.modTm f).ops = s.ops := rfl
@[simp] theorem State.modTm_cores (f : Team → Team) (s : State) : (s.modTm f).cores = s.cores := rfl
@[simp] theorem State.modTm_slices (f : Team → Team) (s : State) : (s.modTm f).slices = s.slices := rfl
@[simp] theorem State.modTm_dies (f : Team → Team) (s : State) : (s.modTm f).dies = s.dies := rfl
@[simp] theorem State.modTm_mem (f : Team → Team) (s : State) : (s.modTm f).mem = s.mem := rfl
@[simp] theorem State.modTm_poison (f : Team → Team) (s : State) : (s.modTm f).poison = s.poison := rfl
@[simp] theorem State.modTm_parts (f : Team → Team) (s : State) : (s.modTm f).parts = s.parts := rfl
@[simp] theorem State.modTm_queues (f : Team → Team) (s : State) : (s.modTm f).queues = s.queues := rfl
@[simp] theorem State.modTm_grids (f : Team → Team) (s : State) : (s.modTm f).grids = s.grids := rfl
@[simp] theorem State.modTm_draws (f : Team → Team) (s : State) : (s.modTm f).draws = s.draws := rfl
@[simp] theorem State.modTm_graphs (f : Team → Team) (s : State) : (s.modTm f).graphs = s.graphs := rfl
@[simp] theorem State.modTm_acks (f : Team → Team) (s : State) : (s.modTm f).acks = s.acks := rfl
@[simp] theorem State.modTm_mcCtr (f : Team → Team) (s : State) : (s.modTm f).mcCtr = s.mcCtr := rfl
@[simp] theorem State.modTm_reports (f : Team → Team) (s : State) : (s.modTm f).reports = s.reports := rfl
@[simp] theorem State.modTm_grants (f : Team → Team) (s : State) : (s.modTm f).grants = s.grants := rfl
@[simp] theorem State.modTm_peerGrants (f : Team → Team) (s : State) : (s.modTm f).peerGrants = s.peerGrants := rfl
@[simp] theorem State.modTm_outs (f : Team → Team) (s : State) : (s.modTm f).outs = s.outs := rfl
@[simp] theorem State.modTm_reserve (f : Team → Team) (s : State) : (s.modTm f).reserve = s.reserve := rfl
@[simp] theorem State.modTm_regionMax (f : Team → Team) (s : State) : (s.modTm f).regionMax = s.regionMax := rfl
@[simp] theorem State.modTm_slotId (f : Team → Team) (s : State) : (s.modTm f).slotId = s.slotId := rfl
@[simp] theorem State.modTm_preserve (f : Team → Team) (s : State) : (s.modTm f).preserve = s.preserve := rfl
@[simp] theorem State.modTm_resetCause (f : Team → Team) (s : State) : (s.modTm f).resetCause = s.resetCause := rfl
@[simp] theorem State.modTm_hot (f : Team → Team) (s : State) : (s.modTm f).hot = s.hot := rfl
@[simp] theorem State.modTm_boot (f : Team → Team) (s : State) : (s.modTm f).boot = s.boot := rfl
@[simp] theorem State.modTm_measured (f : Team → Team) (s : State) : (s.modTm f).measured = s.measured := rfl
@[simp] theorem State.modTm_attestKey (f : Team → Team) (s : State) : (s.modTm f).attestKey = s.attestKey := rfl
@[simp] theorem State.modTm_sessions (f : Team → Team) (s : State) : (s.modTm f).sessions = s.sessions := rfl
@[simp] theorem State.modTm_discards (f : Team → Team) (s : State) : (s.modTm f).discards = s.discards := rfl
@[simp] theorem State.modTm_hmac (f : Team → Team) (s : State) : (s.modTm f).hmac = s.hmac := rfl
@[simp] theorem State.modTm_replies (f : Team → Team) (s : State) : (s.modTm f).replies = s.replies := rfl

/-! ### `drawn` -/

@[simp] theorem State.drawn_cur (n : Nat) (s : State) : (s.drawn n).cur = s.cur := rfl
@[simp] theorem State.drawn_curSlice (n : Nat) (s : State) : (s.drawn n).curSlice = s.curSlice := rfl
@[simp] theorem State.drawn_turn (n : Nat) (s : State) : (s.drawn n).turn = s.turn := rfl
@[simp] theorem State.drawn_clock (n : Nat) (s : State) : (s.drawn n).clock = s.clock := rfl
@[simp] theorem State.drawn_tick (n : Nat) (s : State) : (s.drawn n).tick = s.tick + n := rfl
@[simp] theorem State.drawn_nextId (n : Nat) (s : State) : (s.drawn n).nextId = s.nextId := rfl
@[simp] theorem State.drawn_agenda (n : Nat) (s : State) : (s.drawn n).agenda = s.agenda := rfl
@[simp] theorem State.drawn_inputs (n : Nat) (s : State) : (s.drawn n).inputs = s.inputs := rfl
@[simp] theorem State.drawn_splits (n : Nat) (s : State) : (s.drawn n).splits = s.splits := rfl
@[simp] theorem State.drawn_groups (n : Nat) (s : State) : (s.drawn n).groups = s.groups := rfl
@[simp] theorem State.drawn_teams (n : Nat) (s : State) : (s.drawn n).teams = s.teams := rfl
@[simp] theorem State.drawn_ops (n : Nat) (s : State) : (s.drawn n).ops = s.ops := rfl
@[simp] theorem State.drawn_cores (n : Nat) (s : State) : (s.drawn n).cores = s.cores := rfl
@[simp] theorem State.drawn_slices (n : Nat) (s : State) : (s.drawn n).slices = s.slices := rfl
@[simp] theorem State.drawn_dies (n : Nat) (s : State) : (s.drawn n).dies = s.dies := rfl
@[simp] theorem State.drawn_mem (n : Nat) (s : State) : (s.drawn n).mem = s.mem := rfl
@[simp] theorem State.drawn_poison (n : Nat) (s : State) : (s.drawn n).poison = s.poison := rfl
@[simp] theorem State.drawn_parts (n : Nat) (s : State) : (s.drawn n).parts = s.parts := rfl
@[simp] theorem State.drawn_queues (n : Nat) (s : State) : (s.drawn n).queues = s.queues := rfl
@[simp] theorem State.drawn_grids (n : Nat) (s : State) : (s.drawn n).grids = s.grids := rfl
@[simp] theorem State.drawn_draws (n : Nat) (s : State) : (s.drawn n).draws = s.draws := rfl
@[simp] theorem State.drawn_graphs (n : Nat) (s : State) : (s.drawn n).graphs = s.graphs := rfl
@[simp] theorem State.drawn_acks (n : Nat) (s : State) : (s.drawn n).acks = s.acks := rfl
@[simp] theorem State.drawn_mcCtr (n : Nat) (s : State) : (s.drawn n).mcCtr = s.mcCtr := rfl
@[simp] theorem State.drawn_reports (n : Nat) (s : State) : (s.drawn n).reports = s.reports := rfl
@[simp] theorem State.drawn_grants (n : Nat) (s : State) : (s.drawn n).grants = s.grants := rfl
@[simp] theorem State.drawn_peerGrants (n : Nat) (s : State) : (s.drawn n).peerGrants = s.peerGrants := rfl
@[simp] theorem State.drawn_outs (n : Nat) (s : State) : (s.drawn n).outs = s.outs := rfl
@[simp] theorem State.drawn_reserve (n : Nat) (s : State) : (s.drawn n).reserve = s.reserve := rfl
@[simp] theorem State.drawn_regionMax (n : Nat) (s : State) : (s.drawn n).regionMax = s.regionMax := rfl
@[simp] theorem State.drawn_slotId (n : Nat) (s : State) : (s.drawn n).slotId = s.slotId := rfl
@[simp] theorem State.drawn_preserve (n : Nat) (s : State) : (s.drawn n).preserve = s.preserve := rfl
@[simp] theorem State.drawn_resetCause (n : Nat) (s : State) : (s.drawn n).resetCause = s.resetCause := rfl
@[simp] theorem State.drawn_hot (n : Nat) (s : State) : (s.drawn n).hot = s.hot := rfl
@[simp] theorem State.drawn_boot (n : Nat) (s : State) : (s.drawn n).boot = s.boot := rfl
@[simp] theorem State.drawn_measured (n : Nat) (s : State) : (s.drawn n).measured = s.measured := rfl
@[simp] theorem State.drawn_attestKey (n : Nat) (s : State) : (s.drawn n).attestKey = s.attestKey := rfl
@[simp] theorem State.drawn_sessions (n : Nat) (s : State) : (s.drawn n).sessions = s.sessions := rfl
@[simp] theorem State.drawn_discards (n : Nat) (s : State) : (s.drawn n).discards = s.discards := rfl
@[simp] theorem State.drawn_hmac (n : Nat) (s : State) : (s.drawn n).hmac = s.hmac := rfl
@[simp] theorem State.drawn_replies (n : Nat) (s : State) : (s.drawn n).replies = s.replies := rfl

/-! ### `lateWrite` -/

@[simp] theorem State.lateWrite_cur (code lat flags : Nat) (s : State) : (s.lateWrite code lat flags).cur = s.cur := rfl
@[simp] theorem State.lateWrite_curSlice (code lat flags : Nat) (s : State) : (s.lateWrite code lat flags).curSlice = s.curSlice := rfl
@[simp] theorem State.lateWrite_turn (code lat flags : Nat) (s : State) : (s.lateWrite code lat flags).turn = s.turn := rfl
@[simp] theorem State.lateWrite_clock (code lat flags : Nat) (s : State) : (s.lateWrite code lat flags).clock = s.clock := rfl
@[simp] theorem State.lateWrite_tick (code lat flags : Nat) (s : State) : (s.lateWrite code lat flags).tick = s.tick := rfl
@[simp] theorem State.lateWrite_nextId (code lat flags : Nat) (s : State) : (s.lateWrite code lat flags).nextId = s.nextId := rfl
@[simp] theorem State.lateWrite_agenda (code lat flags : Nat) (s : State) : (s.lateWrite code lat flags).agenda = s.agenda := rfl
@[simp] theorem State.lateWrite_inputs (code lat flags : Nat) (s : State) : (s.lateWrite code lat flags).inputs = s.inputs := rfl
@[simp] theorem State.lateWrite_splits (code lat flags : Nat) (s : State) : (s.lateWrite code lat flags).splits = s.splits := rfl
@[simp] theorem State.lateWrite_groups (code lat flags : Nat) (s : State) : (s.lateWrite code lat flags).groups = s.groups.mod s.gk fun g => { g with late := g.late ++ [{ code := code, split := s.cur, mask := s.act, due := s.clock + lat, flags := flags }] } := rfl
@[simp] theorem State.lateWrite_teams (code lat flags : Nat) (s : State) : (s.lateWrite code lat flags).teams = s.teams := rfl
@[simp] theorem State.lateWrite_ops (code lat flags : Nat) (s : State) : (s.lateWrite code lat flags).ops = s.ops := rfl
@[simp] theorem State.lateWrite_cores (code lat flags : Nat) (s : State) : (s.lateWrite code lat flags).cores = s.cores := rfl
@[simp] theorem State.lateWrite_slices (code lat flags : Nat) (s : State) : (s.lateWrite code lat flags).slices = s.slices := rfl
@[simp] theorem State.lateWrite_dies (code lat flags : Nat) (s : State) : (s.lateWrite code lat flags).dies = s.dies := rfl
@[simp] theorem State.lateWrite_mem (code lat flags : Nat) (s : State) : (s.lateWrite code lat flags).mem = s.mem := rfl
@[simp] theorem State.lateWrite_poison (code lat flags : Nat) (s : State) : (s.lateWrite code lat flags).poison = s.poison := rfl
@[simp] theorem State.lateWrite_parts (code lat flags : Nat) (s : State) : (s.lateWrite code lat flags).parts = s.parts := rfl
@[simp] theorem State.lateWrite_queues (code lat flags : Nat) (s : State) : (s.lateWrite code lat flags).queues = s.queues := rfl
@[simp] theorem State.lateWrite_grids (code lat flags : Nat) (s : State) : (s.lateWrite code lat flags).grids = s.grids := rfl
@[simp] theorem State.lateWrite_draws (code lat flags : Nat) (s : State) : (s.lateWrite code lat flags).draws = s.draws := rfl
@[simp] theorem State.lateWrite_graphs (code lat flags : Nat) (s : State) : (s.lateWrite code lat flags).graphs = s.graphs := rfl
@[simp] theorem State.lateWrite_acks (code lat flags : Nat) (s : State) : (s.lateWrite code lat flags).acks = s.acks := rfl
@[simp] theorem State.lateWrite_mcCtr (code lat flags : Nat) (s : State) : (s.lateWrite code lat flags).mcCtr = s.mcCtr := rfl
@[simp] theorem State.lateWrite_reports (code lat flags : Nat) (s : State) : (s.lateWrite code lat flags).reports = s.reports := rfl
@[simp] theorem State.lateWrite_grants (code lat flags : Nat) (s : State) : (s.lateWrite code lat flags).grants = s.grants := rfl
@[simp] theorem State.lateWrite_peerGrants (code lat flags : Nat) (s : State) : (s.lateWrite code lat flags).peerGrants = s.peerGrants := rfl
@[simp] theorem State.lateWrite_outs (code lat flags : Nat) (s : State) : (s.lateWrite code lat flags).outs = s.outs := rfl
@[simp] theorem State.lateWrite_reserve (code lat flags : Nat) (s : State) : (s.lateWrite code lat flags).reserve = s.reserve := rfl
@[simp] theorem State.lateWrite_regionMax (code lat flags : Nat) (s : State) : (s.lateWrite code lat flags).regionMax = s.regionMax := rfl
@[simp] theorem State.lateWrite_slotId (code lat flags : Nat) (s : State) : (s.lateWrite code lat flags).slotId = s.slotId := rfl
@[simp] theorem State.lateWrite_preserve (code lat flags : Nat) (s : State) : (s.lateWrite code lat flags).preserve = s.preserve := rfl
@[simp] theorem State.lateWrite_resetCause (code lat flags : Nat) (s : State) : (s.lateWrite code lat flags).resetCause = s.resetCause := rfl
@[simp] theorem State.lateWrite_hot (code lat flags : Nat) (s : State) : (s.lateWrite code lat flags).hot = s.hot := rfl
@[simp] theorem State.lateWrite_boot (code lat flags : Nat) (s : State) : (s.lateWrite code lat flags).boot = s.boot := rfl
@[simp] theorem State.lateWrite_measured (code lat flags : Nat) (s : State) : (s.lateWrite code lat flags).measured = s.measured := rfl
@[simp] theorem State.lateWrite_attestKey (code lat flags : Nat) (s : State) : (s.lateWrite code lat flags).attestKey = s.attestKey := rfl
@[simp] theorem State.lateWrite_sessions (code lat flags : Nat) (s : State) : (s.lateWrite code lat flags).sessions = s.sessions := rfl
@[simp] theorem State.lateWrite_discards (code lat flags : Nat) (s : State) : (s.lateWrite code lat flags).discards = s.discards := rfl
@[simp] theorem State.lateWrite_hmac (code lat flags : Nat) (s : State) : (s.lateWrite code lat flags).hmac = s.hmac := rfl
@[simp] theorem State.lateWrite_replies (code lat flags : Nat) (s : State) : (s.lateWrite code lat flags).replies = s.replies := rfl

/-! ### `setS` -/

@[simp] theorem State.setS_cur (n : Nat) (x : W64) (s : State) : (s.setS n x).cur = s.cur := rfl
@[simp] theorem State.setS_curSlice (n : Nat) (x : W64) (s : State) : (s.setS n x).curSlice = s.curSlice := rfl
@[simp] theorem State.setS_turn (n : Nat) (x : W64) (s : State) : (s.setS n x).turn = s.turn := rfl
@[simp] theorem State.setS_clock (n : Nat) (x : W64) (s : State) : (s.setS n x).clock = s.clock := rfl
@[simp] theorem State.setS_tick (n : Nat) (x : W64) (s : State) : (s.setS n x).tick = s.tick := rfl
@[simp] theorem State.setS_nextId (n : Nat) (x : W64) (s : State) : (s.setS n x).nextId = s.nextId := rfl
@[simp] theorem State.setS_agenda (n : Nat) (x : W64) (s : State) : (s.setS n x).agenda = s.agenda := rfl
@[simp] theorem State.setS_inputs (n : Nat) (x : W64) (s : State) : (s.setS n x).inputs = s.inputs := rfl
@[simp] theorem State.setS_splits (n : Nat) (x : W64) (s : State) : (s.setS n x).splits = s.splits.mod s.cur fun y => { y with s := y.s.wr n x } := rfl
@[simp] theorem State.setS_groups (n : Nat) (x : W64) (s : State) : (s.setS n x).groups = s.groups := rfl
@[simp] theorem State.setS_teams (n : Nat) (x : W64) (s : State) : (s.setS n x).teams = s.teams := rfl
@[simp] theorem State.setS_ops (n : Nat) (x : W64) (s : State) : (s.setS n x).ops = s.ops := rfl
@[simp] theorem State.setS_cores (n : Nat) (x : W64) (s : State) : (s.setS n x).cores = s.cores := rfl
@[simp] theorem State.setS_slices (n : Nat) (x : W64) (s : State) : (s.setS n x).slices = s.slices := rfl
@[simp] theorem State.setS_dies (n : Nat) (x : W64) (s : State) : (s.setS n x).dies = s.dies := rfl
@[simp] theorem State.setS_mem (n : Nat) (x : W64) (s : State) : (s.setS n x).mem = s.mem := rfl
@[simp] theorem State.setS_poison (n : Nat) (x : W64) (s : State) : (s.setS n x).poison = s.poison := rfl
@[simp] theorem State.setS_parts (n : Nat) (x : W64) (s : State) : (s.setS n x).parts = s.parts := rfl
@[simp] theorem State.setS_queues (n : Nat) (x : W64) (s : State) : (s.setS n x).queues = s.queues := rfl
@[simp] theorem State.setS_grids (n : Nat) (x : W64) (s : State) : (s.setS n x).grids = s.grids := rfl
@[simp] theorem State.setS_draws (n : Nat) (x : W64) (s : State) : (s.setS n x).draws = s.draws := rfl
@[simp] theorem State.setS_graphs (n : Nat) (x : W64) (s : State) : (s.setS n x).graphs = s.graphs := rfl
@[simp] theorem State.setS_acks (n : Nat) (x : W64) (s : State) : (s.setS n x).acks = s.acks := rfl
@[simp] theorem State.setS_mcCtr (n : Nat) (x : W64) (s : State) : (s.setS n x).mcCtr = s.mcCtr := rfl
@[simp] theorem State.setS_reports (n : Nat) (x : W64) (s : State) : (s.setS n x).reports = s.reports := rfl
@[simp] theorem State.setS_grants (n : Nat) (x : W64) (s : State) : (s.setS n x).grants = s.grants := rfl
@[simp] theorem State.setS_peerGrants (n : Nat) (x : W64) (s : State) : (s.setS n x).peerGrants = s.peerGrants := rfl
@[simp] theorem State.setS_outs (n : Nat) (x : W64) (s : State) : (s.setS n x).outs = s.outs := rfl
@[simp] theorem State.setS_reserve (n : Nat) (x : W64) (s : State) : (s.setS n x).reserve = s.reserve := rfl
@[simp] theorem State.setS_regionMax (n : Nat) (x : W64) (s : State) : (s.setS n x).regionMax = s.regionMax := rfl
@[simp] theorem State.setS_slotId (n : Nat) (x : W64) (s : State) : (s.setS n x).slotId = s.slotId := rfl
@[simp] theorem State.setS_preserve (n : Nat) (x : W64) (s : State) : (s.setS n x).preserve = s.preserve := rfl
@[simp] theorem State.setS_resetCause (n : Nat) (x : W64) (s : State) : (s.setS n x).resetCause = s.resetCause := rfl
@[simp] theorem State.setS_hot (n : Nat) (x : W64) (s : State) : (s.setS n x).hot = s.hot := rfl
@[simp] theorem State.setS_boot (n : Nat) (x : W64) (s : State) : (s.setS n x).boot = s.boot := rfl
@[simp] theorem State.setS_measured (n : Nat) (x : W64) (s : State) : (s.setS n x).measured = s.measured := rfl
@[simp] theorem State.setS_attestKey (n : Nat) (x : W64) (s : State) : (s.setS n x).attestKey = s.attestKey := rfl
@[simp] theorem State.setS_sessions (n : Nat) (x : W64) (s : State) : (s.setS n x).sessions = s.sessions := rfl
@[simp] theorem State.setS_discards (n : Nat) (x : W64) (s : State) : (s.setS n x).discards = s.discards := rfl
@[simp] theorem State.setS_hmac (n : Nat) (x : W64) (s : State) : (s.setS n x).hmac = s.hmac := rfl
@[simp] theorem State.setS_replies (n : Nat) (x : W64) (s : State) : (s.setS n x).replies = s.replies := rfl

/-! ### `coreEv` -/

@[simp] theorem State.coreEv_cur (core part ev n : Nat) (s : State) : (s.coreEv core part ev n).cur = s.cur := rfl
@[simp] theorem State.coreEv_curSlice (core part ev n : Nat) (s : State) : (s.coreEv core part ev n).curSlice = s.curSlice := rfl
@[simp] theorem State.coreEv_turn (core part ev n : Nat) (s : State) : (s.coreEv core part ev n).turn = s.turn := rfl
@[simp] theorem State.coreEv_clock (core part ev n : Nat) (s : State) : (s.coreEv core part ev n).clock = s.clock := rfl
@[simp] theorem State.coreEv_tick (core part ev n : Nat) (s : State) : (s.coreEv core part ev n).tick = s.tick := rfl
@[simp] theorem State.coreEv_nextId (core part ev n : Nat) (s : State) : (s.coreEv core part ev n).nextId = s.nextId := rfl
@[simp] theorem State.coreEv_agenda (core part ev n : Nat) (s : State) : (s.coreEv core part ev n).agenda = s.agenda := rfl
@[simp] theorem State.coreEv_inputs (core part ev n : Nat) (s : State) : (s.coreEv core part ev n).inputs = s.inputs := rfl
@[simp] theorem State.coreEv_splits (core part ev n : Nat) (s : State) : (s.coreEv core part ev n).splits = s.splits := rfl
@[simp] theorem State.coreEv_groups (core part ev n : Nat) (s : State) : (s.coreEv core part ev n).groups = s.groups := rfl
@[simp] theorem State.coreEv_teams (core part ev n : Nat) (s : State) : (s.coreEv core part ev n).teams = s.teams := rfl
@[simp] theorem State.coreEv_ops (core part ev n : Nat) (s : State) : (s.coreEv core part ev n).ops = s.ops := rfl
@[simp] theorem State.coreEv_cores (core part ev n : Nat) (s : State) : (s.coreEv core part ev n).cores = s.cores.mod core fun c => { c with ctr := bumpCtr c.ctr (8 * part) 8 ev n } := rfl
@[simp] theorem State.coreEv_slices (core part ev n : Nat) (s : State) : (s.coreEv core part ev n).slices = s.slices := rfl
@[simp] theorem State.coreEv_dies (core part ev n : Nat) (s : State) : (s.coreEv core part ev n).dies = s.dies := rfl
@[simp] theorem State.coreEv_mem (core part ev n : Nat) (s : State) : (s.coreEv core part ev n).mem = s.mem := rfl
@[simp] theorem State.coreEv_poison (core part ev n : Nat) (s : State) : (s.coreEv core part ev n).poison = s.poison := rfl
@[simp] theorem State.coreEv_parts (core part ev n : Nat) (s : State) : (s.coreEv core part ev n).parts = s.parts := rfl
@[simp] theorem State.coreEv_queues (core part ev n : Nat) (s : State) : (s.coreEv core part ev n).queues = s.queues := rfl
@[simp] theorem State.coreEv_grids (core part ev n : Nat) (s : State) : (s.coreEv core part ev n).grids = s.grids := rfl
@[simp] theorem State.coreEv_draws (core part ev n : Nat) (s : State) : (s.coreEv core part ev n).draws = s.draws := rfl
@[simp] theorem State.coreEv_graphs (core part ev n : Nat) (s : State) : (s.coreEv core part ev n).graphs = s.graphs := rfl
@[simp] theorem State.coreEv_acks (core part ev n : Nat) (s : State) : (s.coreEv core part ev n).acks = s.acks := rfl
@[simp] theorem State.coreEv_mcCtr (core part ev n : Nat) (s : State) : (s.coreEv core part ev n).mcCtr = s.mcCtr := rfl
@[simp] theorem State.coreEv_reports (core part ev n : Nat) (s : State) : (s.coreEv core part ev n).reports = s.reports := rfl
@[simp] theorem State.coreEv_grants (core part ev n : Nat) (s : State) : (s.coreEv core part ev n).grants = s.grants := rfl
@[simp] theorem State.coreEv_peerGrants (core part ev n : Nat) (s : State) : (s.coreEv core part ev n).peerGrants = s.peerGrants := rfl
@[simp] theorem State.coreEv_outs (core part ev n : Nat) (s : State) : (s.coreEv core part ev n).outs = s.outs := rfl
@[simp] theorem State.coreEv_reserve (core part ev n : Nat) (s : State) : (s.coreEv core part ev n).reserve = s.reserve := rfl
@[simp] theorem State.coreEv_regionMax (core part ev n : Nat) (s : State) : (s.coreEv core part ev n).regionMax = s.regionMax := rfl
@[simp] theorem State.coreEv_slotId (core part ev n : Nat) (s : State) : (s.coreEv core part ev n).slotId = s.slotId := rfl
@[simp] theorem State.coreEv_preserve (core part ev n : Nat) (s : State) : (s.coreEv core part ev n).preserve = s.preserve := rfl
@[simp] theorem State.coreEv_resetCause (core part ev n : Nat) (s : State) : (s.coreEv core part ev n).resetCause = s.resetCause := rfl
@[simp] theorem State.coreEv_hot (core part ev n : Nat) (s : State) : (s.coreEv core part ev n).hot = s.hot := rfl
@[simp] theorem State.coreEv_boot (core part ev n : Nat) (s : State) : (s.coreEv core part ev n).boot = s.boot := rfl
@[simp] theorem State.coreEv_measured (core part ev n : Nat) (s : State) : (s.coreEv core part ev n).measured = s.measured := rfl
@[simp] theorem State.coreEv_attestKey (core part ev n : Nat) (s : State) : (s.coreEv core part ev n).attestKey = s.attestKey := rfl
@[simp] theorem State.coreEv_sessions (core part ev n : Nat) (s : State) : (s.coreEv core part ev n).sessions = s.sessions := rfl
@[simp] theorem State.coreEv_discards (core part ev n : Nat) (s : State) : (s.coreEv core part ev n).discards = s.discards := rfl
@[simp] theorem State.coreEv_hmac (core part ev n : Nat) (s : State) : (s.coreEv core part ev n).hmac = s.hmac := rfl
@[simp] theorem State.coreEv_replies (core part ev n : Nat) (s : State) : (s.coreEv core part ev n).replies = s.replies := rfl

/-! ### `freeSlot` -/

@[simp] theorem State.freeSlot_cur (k : Nat) (s : State) : (s.freeSlot k).cur = s.cur := rfl
@[simp] theorem State.freeSlot_curSlice (k : Nat) (s : State) : (s.freeSlot k).curSlice = s.curSlice := rfl
@[simp] theorem State.freeSlot_turn (k : Nat) (s : State) : (s.freeSlot k).turn = s.turn := rfl
@[simp] theorem State.freeSlot_clock (k : Nat) (s : State) : (s.freeSlot k).clock = s.clock := rfl
@[simp] theorem State.freeSlot_tick (k : Nat) (s : State) : (s.freeSlot k).tick = s.tick := rfl
@[simp] theorem State.freeSlot_nextId (k : Nat) (s : State) : (s.freeSlot k).nextId = s.nextId := rfl
@[simp] theorem State.freeSlot_agenda (k : Nat) (s : State) : (s.freeSlot k).agenda = s.agenda := rfl
@[simp] theorem State.freeSlot_inputs (k : Nat) (s : State) : (s.freeSlot k).inputs = s.inputs := rfl
@[simp] theorem State.freeSlot_splits (k : Nat) (s : State) : (s.freeSlot k).splits = s.splits := rfl
@[simp] theorem State.freeSlot_groups (k : Nat) (s : State) : (s.freeSlot k).groups = s.groups := rfl
@[simp] theorem State.freeSlot_teams (k : Nat) (s : State) : (s.freeSlot k).teams = s.teams := rfl
@[simp] theorem State.freeSlot_ops (k : Nat) (s : State) : (s.freeSlot k).ops = s.ops := rfl
@[simp] theorem State.freeSlot_cores (k : Nat) (s : State) : (s.freeSlot k).cores = s.cores.map fun e => (e.1, { e.2 with slots := e.2.slots.filter fun x => x.2 != k + 1 }) := rfl
@[simp] theorem State.freeSlot_slices (k : Nat) (s : State) : (s.freeSlot k).slices = s.slices := rfl
@[simp] theorem State.freeSlot_dies (k : Nat) (s : State) : (s.freeSlot k).dies = s.dies := rfl
@[simp] theorem State.freeSlot_mem (k : Nat) (s : State) : (s.freeSlot k).mem = s.mem := rfl
@[simp] theorem State.freeSlot_poison (k : Nat) (s : State) : (s.freeSlot k).poison = s.poison := rfl
@[simp] theorem State.freeSlot_parts (k : Nat) (s : State) : (s.freeSlot k).parts = s.parts := rfl
@[simp] theorem State.freeSlot_queues (k : Nat) (s : State) : (s.freeSlot k).queues = s.queues := rfl
@[simp] theorem State.freeSlot_grids (k : Nat) (s : State) : (s.freeSlot k).grids = s.grids := rfl
@[simp] theorem State.freeSlot_draws (k : Nat) (s : State) : (s.freeSlot k).draws = s.draws := rfl
@[simp] theorem State.freeSlot_graphs (k : Nat) (s : State) : (s.freeSlot k).graphs = s.graphs := rfl
@[simp] theorem State.freeSlot_acks (k : Nat) (s : State) : (s.freeSlot k).acks = s.acks := rfl
@[simp] theorem State.freeSlot_mcCtr (k : Nat) (s : State) : (s.freeSlot k).mcCtr = s.mcCtr := rfl
@[simp] theorem State.freeSlot_reports (k : Nat) (s : State) : (s.freeSlot k).reports = s.reports := rfl
@[simp] theorem State.freeSlot_grants (k : Nat) (s : State) : (s.freeSlot k).grants = s.grants := rfl
@[simp] theorem State.freeSlot_peerGrants (k : Nat) (s : State) : (s.freeSlot k).peerGrants = s.peerGrants := rfl
@[simp] theorem State.freeSlot_outs (k : Nat) (s : State) : (s.freeSlot k).outs = s.outs := rfl
@[simp] theorem State.freeSlot_reserve (k : Nat) (s : State) : (s.freeSlot k).reserve = s.reserve := rfl
@[simp] theorem State.freeSlot_regionMax (k : Nat) (s : State) : (s.freeSlot k).regionMax = s.regionMax := rfl
@[simp] theorem State.freeSlot_slotId (k : Nat) (s : State) : (s.freeSlot k).slotId = s.slotId := rfl
@[simp] theorem State.freeSlot_preserve (k : Nat) (s : State) : (s.freeSlot k).preserve = s.preserve := rfl
@[simp] theorem State.freeSlot_resetCause (k : Nat) (s : State) : (s.freeSlot k).resetCause = s.resetCause := rfl
@[simp] theorem State.freeSlot_hot (k : Nat) (s : State) : (s.freeSlot k).hot = s.hot := rfl
@[simp] theorem State.freeSlot_boot (k : Nat) (s : State) : (s.freeSlot k).boot = s.boot := rfl
@[simp] theorem State.freeSlot_measured (k : Nat) (s : State) : (s.freeSlot k).measured = s.measured := rfl
@[simp] theorem State.freeSlot_attestKey (k : Nat) (s : State) : (s.freeSlot k).attestKey = s.attestKey := rfl
@[simp] theorem State.freeSlot_sessions (k : Nat) (s : State) : (s.freeSlot k).sessions = s.sessions := rfl
@[simp] theorem State.freeSlot_discards (k : Nat) (s : State) : (s.freeSlot k).discards = s.discards := rfl
@[simp] theorem State.freeSlot_hmac (k : Nat) (s : State) : (s.freeSlot k).hmac = s.hmac := rfl
@[simp] theorem State.freeSlot_replies (k : Nat) (s : State) : (s.freeSlot k).replies = s.replies := rfl

/-! ### `later` -/

@[simp] theorem State.later_cur (due : Nat) (e : Ev) (s : State) : (s.later due e).cur = s.cur := rfl
@[simp] theorem State.later_curSlice (due : Nat) (e : Ev) (s : State) : (s.later due e).curSlice = s.curSlice := rfl
@[simp] theorem State.later_turn (due : Nat) (e : Ev) (s : State) : (s.later due e).turn = s.turn := rfl
@[simp] theorem State.later_clock (due : Nat) (e : Ev) (s : State) : (s.later due e).clock = s.clock := rfl
@[simp] theorem State.later_tick (due : Nat) (e : Ev) (s : State) : (s.later due e).tick = s.tick := rfl
@[simp] theorem State.later_nextId (due : Nat) (e : Ev) (s : State) : (s.later due e).nextId = s.nextId := rfl
@[simp] theorem State.later_agenda (due : Nat) (e : Ev) (s : State) : (s.later due e).agenda = s.agenda ++ [{ due := due, ev := e }] := rfl
@[simp] theorem State.later_inputs (due : Nat) (e : Ev) (s : State) : (s.later due e).inputs = s.inputs := rfl
@[simp] theorem State.later_splits (due : Nat) (e : Ev) (s : State) : (s.later due e).splits = s.splits := rfl
@[simp] theorem State.later_groups (due : Nat) (e : Ev) (s : State) : (s.later due e).groups = s.groups := rfl
@[simp] theorem State.later_teams (due : Nat) (e : Ev) (s : State) : (s.later due e).teams = s.teams := rfl
@[simp] theorem State.later_ops (due : Nat) (e : Ev) (s : State) : (s.later due e).ops = s.ops := rfl
@[simp] theorem State.later_cores (due : Nat) (e : Ev) (s : State) : (s.later due e).cores = s.cores := rfl
@[simp] theorem State.later_slices (due : Nat) (e : Ev) (s : State) : (s.later due e).slices = s.slices := rfl
@[simp] theorem State.later_dies (due : Nat) (e : Ev) (s : State) : (s.later due e).dies = s.dies := rfl
@[simp] theorem State.later_mem (due : Nat) (e : Ev) (s : State) : (s.later due e).mem = s.mem := rfl
@[simp] theorem State.later_poison (due : Nat) (e : Ev) (s : State) : (s.later due e).poison = s.poison := rfl
@[simp] theorem State.later_parts (due : Nat) (e : Ev) (s : State) : (s.later due e).parts = s.parts := rfl
@[simp] theorem State.later_queues (due : Nat) (e : Ev) (s : State) : (s.later due e).queues = s.queues := rfl
@[simp] theorem State.later_grids (due : Nat) (e : Ev) (s : State) : (s.later due e).grids = s.grids := rfl
@[simp] theorem State.later_draws (due : Nat) (e : Ev) (s : State) : (s.later due e).draws = s.draws := rfl
@[simp] theorem State.later_graphs (due : Nat) (e : Ev) (s : State) : (s.later due e).graphs = s.graphs := rfl
@[simp] theorem State.later_acks (due : Nat) (e : Ev) (s : State) : (s.later due e).acks = s.acks := rfl
@[simp] theorem State.later_mcCtr (due : Nat) (e : Ev) (s : State) : (s.later due e).mcCtr = s.mcCtr := rfl
@[simp] theorem State.later_reports (due : Nat) (e : Ev) (s : State) : (s.later due e).reports = s.reports := rfl
@[simp] theorem State.later_grants (due : Nat) (e : Ev) (s : State) : (s.later due e).grants = s.grants := rfl
@[simp] theorem State.later_peerGrants (due : Nat) (e : Ev) (s : State) : (s.later due e).peerGrants = s.peerGrants := rfl
@[simp] theorem State.later_outs (due : Nat) (e : Ev) (s : State) : (s.later due e).outs = s.outs := rfl
@[simp] theorem State.later_reserve (due : Nat) (e : Ev) (s : State) : (s.later due e).reserve = s.reserve := rfl
@[simp] theorem State.later_regionMax (due : Nat) (e : Ev) (s : State) : (s.later due e).regionMax = s.regionMax := rfl
@[simp] theorem State.later_slotId (due : Nat) (e : Ev) (s : State) : (s.later due e).slotId = s.slotId := rfl
@[simp] theorem State.later_preserve (due : Nat) (e : Ev) (s : State) : (s.later due e).preserve = s.preserve := rfl
@[simp] theorem State.later_resetCause (due : Nat) (e : Ev) (s : State) : (s.later due e).resetCause = s.resetCause := rfl
@[simp] theorem State.later_hot (due : Nat) (e : Ev) (s : State) : (s.later due e).hot = s.hot := rfl
@[simp] theorem State.later_boot (due : Nat) (e : Ev) (s : State) : (s.later due e).boot = s.boot := rfl
@[simp] theorem State.later_measured (due : Nat) (e : Ev) (s : State) : (s.later due e).measured = s.measured := rfl
@[simp] theorem State.later_attestKey (due : Nat) (e : Ev) (s : State) : (s.later due e).attestKey = s.attestKey := rfl
@[simp] theorem State.later_sessions (due : Nat) (e : Ev) (s : State) : (s.later due e).sessions = s.sessions := rfl
@[simp] theorem State.later_discards (due : Nat) (e : Ev) (s : State) : (s.later due e).discards = s.discards := rfl
@[simp] theorem State.later_hmac (due : Nat) (e : Ev) (s : State) : (s.later due e).hmac = s.hmac := rfl
@[simp] theorem State.later_replies (due : Nat) (e : Ev) (s : State) : (s.later due e).replies = s.replies := rfl

/-! ### `soon` -/

@[simp] theorem State.soon_cur (e : Ev) (s : State) : (s.soon e).cur = s.cur := rfl
@[simp] theorem State.soon_curSlice (e : Ev) (s : State) : (s.soon e).curSlice = s.curSlice := rfl
@[simp] theorem State.soon_turn (e : Ev) (s : State) : (s.soon e).turn = s.turn := rfl
@[simp] theorem State.soon_clock (e : Ev) (s : State) : (s.soon e).clock = s.clock := rfl
@[simp] theorem State.soon_tick (e : Ev) (s : State) : (s.soon e).tick = s.tick := rfl
@[simp] theorem State.soon_nextId (e : Ev) (s : State) : (s.soon e).nextId = s.nextId := rfl
@[simp] theorem State.soon_agenda (e : Ev) (s : State) : (s.soon e).agenda = s.agenda ++ [{ due := s.clock, ev := e }] := rfl
@[simp] theorem State.soon_inputs (e : Ev) (s : State) : (s.soon e).inputs = s.inputs := rfl
@[simp] theorem State.soon_splits (e : Ev) (s : State) : (s.soon e).splits = s.splits := rfl
@[simp] theorem State.soon_groups (e : Ev) (s : State) : (s.soon e).groups = s.groups := rfl
@[simp] theorem State.soon_teams (e : Ev) (s : State) : (s.soon e).teams = s.teams := rfl
@[simp] theorem State.soon_ops (e : Ev) (s : State) : (s.soon e).ops = s.ops := rfl
@[simp] theorem State.soon_cores (e : Ev) (s : State) : (s.soon e).cores = s.cores := rfl
@[simp] theorem State.soon_slices (e : Ev) (s : State) : (s.soon e).slices = s.slices := rfl
@[simp] theorem State.soon_dies (e : Ev) (s : State) : (s.soon e).dies = s.dies := rfl
@[simp] theorem State.soon_mem (e : Ev) (s : State) : (s.soon e).mem = s.mem := rfl
@[simp] theorem State.soon_poison (e : Ev) (s : State) : (s.soon e).poison = s.poison := rfl
@[simp] theorem State.soon_parts (e : Ev) (s : State) : (s.soon e).parts = s.parts := rfl
@[simp] theorem State.soon_queues (e : Ev) (s : State) : (s.soon e).queues = s.queues := rfl
@[simp] theorem State.soon_grids (e : Ev) (s : State) : (s.soon e).grids = s.grids := rfl
@[simp] theorem State.soon_draws (e : Ev) (s : State) : (s.soon e).draws = s.draws := rfl
@[simp] theorem State.soon_graphs (e : Ev) (s : State) : (s.soon e).graphs = s.graphs := rfl
@[simp] theorem State.soon_acks (e : Ev) (s : State) : (s.soon e).acks = s.acks := rfl
@[simp] theorem State.soon_mcCtr (e : Ev) (s : State) : (s.soon e).mcCtr = s.mcCtr := rfl
@[simp] theorem State.soon_reports (e : Ev) (s : State) : (s.soon e).reports = s.reports := rfl
@[simp] theorem State.soon_grants (e : Ev) (s : State) : (s.soon e).grants = s.grants := rfl
@[simp] theorem State.soon_peerGrants (e : Ev) (s : State) : (s.soon e).peerGrants = s.peerGrants := rfl
@[simp] theorem State.soon_outs (e : Ev) (s : State) : (s.soon e).outs = s.outs := rfl
@[simp] theorem State.soon_reserve (e : Ev) (s : State) : (s.soon e).reserve = s.reserve := rfl
@[simp] theorem State.soon_regionMax (e : Ev) (s : State) : (s.soon e).regionMax = s.regionMax := rfl
@[simp] theorem State.soon_slotId (e : Ev) (s : State) : (s.soon e).slotId = s.slotId := rfl
@[simp] theorem State.soon_preserve (e : Ev) (s : State) : (s.soon e).preserve = s.preserve := rfl
@[simp] theorem State.soon_resetCause (e : Ev) (s : State) : (s.soon e).resetCause = s.resetCause := rfl
@[simp] theorem State.soon_hot (e : Ev) (s : State) : (s.soon e).hot = s.hot := rfl
@[simp] theorem State.soon_boot (e : Ev) (s : State) : (s.soon e).boot = s.boot := rfl
@[simp] theorem State.soon_measured (e : Ev) (s : State) : (s.soon e).measured = s.measured := rfl
@[simp] theorem State.soon_attestKey (e : Ev) (s : State) : (s.soon e).attestKey = s.attestKey := rfl
@[simp] theorem State.soon_sessions (e : Ev) (s : State) : (s.soon e).sessions = s.sessions := rfl
@[simp] theorem State.soon_discards (e : Ev) (s : State) : (s.soon e).discards = s.discards := rfl
@[simp] theorem State.soon_hmac (e : Ev) (s : State) : (s.soon e).hmac = s.hmac := rfl
@[simp] theorem State.soon_replies (e : Ev) (s : State) : (s.soon e).replies = s.replies := rfl

/-! ### `again` -/

@[simp] theorem State.again_cur (e : Ev) (s : State) : (s.again e).cur = s.cur := rfl
@[simp] theorem State.again_curSlice (e : Ev) (s : State) : (s.again e).curSlice = s.curSlice := rfl
@[simp] theorem State.again_turn (e : Ev) (s : State) : (s.again e).turn = s.turn := rfl
@[simp] theorem State.again_clock (e : Ev) (s : State) : (s.again e).clock = s.clock := rfl
@[simp] theorem State.again_tick (e : Ev) (s : State) : (s.again e).tick = s.tick := rfl
@[simp] theorem State.again_nextId (e : Ev) (s : State) : (s.again e).nextId = s.nextId := rfl
@[simp] theorem State.again_agenda (e : Ev) (s : State) : (s.again e).agenda = { due := s.clock, ev := e } :: s.agenda := rfl
@[simp] theorem State.again_inputs (e : Ev) (s : State) : (s.again e).inputs = s.inputs := rfl
@[simp] theorem State.again_splits (e : Ev) (s : State) : (s.again e).splits = s.splits := rfl
@[simp] theorem State.again_groups (e : Ev) (s : State) : (s.again e).groups = s.groups := rfl
@[simp] theorem State.again_teams (e : Ev) (s : State) : (s.again e).teams = s.teams := rfl
@[simp] theorem State.again_ops (e : Ev) (s : State) : (s.again e).ops = s.ops := rfl
@[simp] theorem State.again_cores (e : Ev) (s : State) : (s.again e).cores = s.cores := rfl
@[simp] theorem State.again_slices (e : Ev) (s : State) : (s.again e).slices = s.slices := rfl
@[simp] theorem State.again_dies (e : Ev) (s : State) : (s.again e).dies = s.dies := rfl
@[simp] theorem State.again_mem (e : Ev) (s : State) : (s.again e).mem = s.mem := rfl
@[simp] theorem State.again_poison (e : Ev) (s : State) : (s.again e).poison = s.poison := rfl
@[simp] theorem State.again_parts (e : Ev) (s : State) : (s.again e).parts = s.parts := rfl
@[simp] theorem State.again_queues (e : Ev) (s : State) : (s.again e).queues = s.queues := rfl
@[simp] theorem State.again_grids (e : Ev) (s : State) : (s.again e).grids = s.grids := rfl
@[simp] theorem State.again_draws (e : Ev) (s : State) : (s.again e).draws = s.draws := rfl
@[simp] theorem State.again_graphs (e : Ev) (s : State) : (s.again e).graphs = s.graphs := rfl
@[simp] theorem State.again_acks (e : Ev) (s : State) : (s.again e).acks = s.acks := rfl
@[simp] theorem State.again_mcCtr (e : Ev) (s : State) : (s.again e).mcCtr = s.mcCtr := rfl
@[simp] theorem State.again_reports (e : Ev) (s : State) : (s.again e).reports = s.reports := rfl
@[simp] theorem State.again_grants (e : Ev) (s : State) : (s.again e).grants = s.grants := rfl
@[simp] theorem State.again_peerGrants (e : Ev) (s : State) : (s.again e).peerGrants = s.peerGrants := rfl
@[simp] theorem State.again_outs (e : Ev) (s : State) : (s.again e).outs = s.outs := rfl
@[simp] theorem State.again_reserve (e : Ev) (s : State) : (s.again e).reserve = s.reserve := rfl
@[simp] theorem State.again_regionMax (e : Ev) (s : State) : (s.again e).regionMax = s.regionMax := rfl
@[simp] theorem State.again_slotId (e : Ev) (s : State) : (s.again e).slotId = s.slotId := rfl
@[simp] theorem State.again_preserve (e : Ev) (s : State) : (s.again e).preserve = s.preserve := rfl
@[simp] theorem State.again_resetCause (e : Ev) (s : State) : (s.again e).resetCause = s.resetCause := rfl
@[simp] theorem State.again_hot (e : Ev) (s : State) : (s.again e).hot = s.hot := rfl
@[simp] theorem State.again_boot (e : Ev) (s : State) : (s.again e).boot = s.boot := rfl
@[simp] theorem State.again_measured (e : Ev) (s : State) : (s.again e).measured = s.measured := rfl
@[simp] theorem State.again_attestKey (e : Ev) (s : State) : (s.again e).attestKey = s.attestKey := rfl
@[simp] theorem State.again_sessions (e : Ev) (s : State) : (s.again e).sessions = s.sessions := rfl
@[simp] theorem State.again_discards (e : Ev) (s : State) : (s.again e).discards = s.discards := rfl
@[simp] theorem State.again_hmac (e : Ev) (s : State) : (s.again e).hmac = s.hmac := rfl
@[simp] theorem State.again_replies (e : Ev) (s : State) : (s.again e).replies = s.replies := rfl

/-! ### `againAt` -/

@[simp] theorem State.againAt_cur (due : Nat) (e : Ev) (s : State) : (s.againAt due e).cur = s.cur := rfl
@[simp] theorem State.againAt_curSlice (due : Nat) (e : Ev) (s : State) : (s.againAt due e).curSlice = s.curSlice := rfl
@[simp] theorem State.againAt_turn (due : Nat) (e : Ev) (s : State) : (s.againAt due e).turn = s.turn := rfl
@[simp] theorem State.againAt_clock (due : Nat) (e : Ev) (s : State) : (s.againAt due e).clock = s.clock := rfl
@[simp] theorem State.againAt_tick (due : Nat) (e : Ev) (s : State) : (s.againAt due e).tick = s.tick := rfl
@[simp] theorem State.againAt_nextId (due : Nat) (e : Ev) (s : State) : (s.againAt due e).nextId = s.nextId := rfl
@[simp] theorem State.againAt_agenda (due : Nat) (e : Ev) (s : State) : (s.againAt due e).agenda = { due := due, ev := e } :: s.agenda := rfl
@[simp] theorem State.againAt_inputs (due : Nat) (e : Ev) (s : State) : (s.againAt due e).inputs = s.inputs := rfl
@[simp] theorem State.againAt_splits (due : Nat) (e : Ev) (s : State) : (s.againAt due e).splits = s.splits := rfl
@[simp] theorem State.againAt_groups (due : Nat) (e : Ev) (s : State) : (s.againAt due e).groups = s.groups := rfl
@[simp] theorem State.againAt_teams (due : Nat) (e : Ev) (s : State) : (s.againAt due e).teams = s.teams := rfl
@[simp] theorem State.againAt_ops (due : Nat) (e : Ev) (s : State) : (s.againAt due e).ops = s.ops := rfl
@[simp] theorem State.againAt_cores (due : Nat) (e : Ev) (s : State) : (s.againAt due e).cores = s.cores := rfl
@[simp] theorem State.againAt_slices (due : Nat) (e : Ev) (s : State) : (s.againAt due e).slices = s.slices := rfl
@[simp] theorem State.againAt_dies (due : Nat) (e : Ev) (s : State) : (s.againAt due e).dies = s.dies := rfl
@[simp] theorem State.againAt_mem (due : Nat) (e : Ev) (s : State) : (s.againAt due e).mem = s.mem := rfl
@[simp] theorem State.againAt_poison (due : Nat) (e : Ev) (s : State) : (s.againAt due e).poison = s.poison := rfl
@[simp] theorem State.againAt_parts (due : Nat) (e : Ev) (s : State) : (s.againAt due e).parts = s.parts := rfl
@[simp] theorem State.againAt_queues (due : Nat) (e : Ev) (s : State) : (s.againAt due e).queues = s.queues := rfl
@[simp] theorem State.againAt_grids (due : Nat) (e : Ev) (s : State) : (s.againAt due e).grids = s.grids := rfl
@[simp] theorem State.againAt_draws (due : Nat) (e : Ev) (s : State) : (s.againAt due e).draws = s.draws := rfl
@[simp] theorem State.againAt_graphs (due : Nat) (e : Ev) (s : State) : (s.againAt due e).graphs = s.graphs := rfl
@[simp] theorem State.againAt_acks (due : Nat) (e : Ev) (s : State) : (s.againAt due e).acks = s.acks := rfl
@[simp] theorem State.againAt_mcCtr (due : Nat) (e : Ev) (s : State) : (s.againAt due e).mcCtr = s.mcCtr := rfl
@[simp] theorem State.againAt_reports (due : Nat) (e : Ev) (s : State) : (s.againAt due e).reports = s.reports := rfl
@[simp] theorem State.againAt_grants (due : Nat) (e : Ev) (s : State) : (s.againAt due e).grants = s.grants := rfl
@[simp] theorem State.againAt_peerGrants (due : Nat) (e : Ev) (s : State) : (s.againAt due e).peerGrants = s.peerGrants := rfl
@[simp] theorem State.againAt_outs (due : Nat) (e : Ev) (s : State) : (s.againAt due e).outs = s.outs := rfl
@[simp] theorem State.againAt_reserve (due : Nat) (e : Ev) (s : State) : (s.againAt due e).reserve = s.reserve := rfl
@[simp] theorem State.againAt_regionMax (due : Nat) (e : Ev) (s : State) : (s.againAt due e).regionMax = s.regionMax := rfl
@[simp] theorem State.againAt_slotId (due : Nat) (e : Ev) (s : State) : (s.againAt due e).slotId = s.slotId := rfl
@[simp] theorem State.againAt_preserve (due : Nat) (e : Ev) (s : State) : (s.againAt due e).preserve = s.preserve := rfl
@[simp] theorem State.againAt_resetCause (due : Nat) (e : Ev) (s : State) : (s.againAt due e).resetCause = s.resetCause := rfl
@[simp] theorem State.againAt_hot (due : Nat) (e : Ev) (s : State) : (s.againAt due e).hot = s.hot := rfl
@[simp] theorem State.againAt_boot (due : Nat) (e : Ev) (s : State) : (s.againAt due e).boot = s.boot := rfl
@[simp] theorem State.againAt_measured (due : Nat) (e : Ev) (s : State) : (s.againAt due e).measured = s.measured := rfl
@[simp] theorem State.againAt_attestKey (due : Nat) (e : Ev) (s : State) : (s.againAt due e).attestKey = s.attestKey := rfl
@[simp] theorem State.againAt_sessions (due : Nat) (e : Ev) (s : State) : (s.againAt due e).sessions = s.sessions := rfl
@[simp] theorem State.againAt_discards (due : Nat) (e : Ev) (s : State) : (s.againAt due e).discards = s.discards := rfl
@[simp] theorem State.againAt_hmac (due : Nat) (e : Ev) (s : State) : (s.againAt due e).hmac = s.hmac := rfl
@[simp] theorem State.againAt_replies (due : Nat) (e : Ev) (s : State) : (s.againAt due e).replies = s.replies := rfl

end Sys2Proof.Machine
end

