-- ==== Sys2Proof/Laws/Memory.lean ====
section
/-! SUPPORT. Memory: a read after a write, and every operation that writes memory keeps the canonical form. -/

namespace Sys2Proof.Machine

variable {m : Memory} {s : State}

/-! ### Bytes -/

theorem Memory.byte_setByte_same (m : Memory) (a : Nat) (b : W8) : (m.setByte a b).byte a = b := TMap.getD_setD_same _ _ _ _
theorem Memory.byte_setByte_ne (m : Memory) {a i : Nat} (b : W8) (h : i ≠ a) : (m.setByte a b).byte i = m.byte i := TMap.getD_setD_ne _ _ _ h
@[simp] theorem Memory.epoch_setByte (m : Memory) (a : Nat) (b : W8) : (m.setByte a b).epoch = m.epoch := rfl

/-- What a run of byte writes does, from the place where it stands. -/
theorem Memory.foldl_setByte (bs : List W8) : ∀ (m : Memory) (a : Nat),
    let r := bs.foldl (fun (s : Memory × Nat) b => (s.1.setByte s.2 b, s.2 + 1)) (m, a)
    r.1.epoch = m.epoch ∧ (m.wf = true → r.1.wf = true) ∧
      ∀ i, r.1.byte i = if a ≤ i ∧ i < a + bs.length then bs.getD (i - a) 0 else m.byte i := by
  induction bs with
  | nil => intro m a; exact ⟨rfl, id, fun i => (if_neg (by simp)).symm⟩
  | cons b bs ih =>
    intro m a
    obtain ⟨h1, h2, h3⟩ := ih (m.setByte a b) (a + 1)
    refine ⟨h1, fun h => h2 (TMap.wfD_setD _ _ _ _ h), fun i => ?_⟩
    rw [List.foldl_cons, h3 i]
    by_cases h : i = a
    · subst h
      rw [if_neg (by omega), if_pos (by simp), Memory.byte_setByte_same]
      simp
    · rw [Memory.byte_setByte_ne _ _ h]
      by_cases h' : a + 1 ≤ i ∧ i < a + 1 + bs.length
      · rw [if_pos h', if_pos ⟨by omega, by simp; omega⟩, show i - a = i - (a + 1) + 1 by omega, List.getD_cons_succ]
      · rw [if_neg h', if_neg (by simp; omega)]

theorem Memory.byte_setBytes (m : Memory) (a : Nat) (bs : List W8) (i : Nat) :
    (m.setBytes a bs).byte i = if a ≤ i ∧ i < a + bs.length then bs.getD (i - a) 0 else m.byte i := (foldl_setByte bs m a).2.2 i

/-- A line written is that line, and every byte outside it is as it was. -/
theorem Memory.byte_setLine (m : Memory) (line : Nat) (l : Line) (i : Nat) :
    (m.setLine line l).byte i = if i / 128 = line then lineByte l (i % 128) else m.byte i := by
  rw [Memory.setLine, Memory.byte_setBytes, List.length_map, List.length_range]
  by_cases h : i / 128 = line
  · rw [if_pos (by omega), if_pos h, show i - 128 * line = i % 128 by omega, List.getD_eq_getElem?_getD]
    rw [List.getElem?_map, List.getElem?_range (Nat.mod_lt _ (by decide))]
    rfl
  · rw [if_neg (by omega), if_neg h]

/-! ### The canonical form -/

theorem Memory.wf_setByte (a : Nat) (b : W8) (h : m.wf = true) : (m.setByte a b).wf = true := TMap.wfD_setD _ _ _ _ h
theorem Memory.wf_setBytes (a : Nat) (bs : List W8) (h : m.wf = true) : (m.setBytes a bs).wf = true := (foldl_setByte bs m a).2.1 h
theorem Memory.wf_setLine (line : Nat) (l : Line) (h : m.wf = true) : (m.setLine line l).wf = true := wf_setBytes _ _ h
/-- Memory left out of a range. -/
theorem Memory.wf_filter (f : Host.Cell → Bool) (h : m.wf = true) : ({ m with cells := m.cells.filter f } : Memory).wf = true :=
  TMap.wfD_filter _ _ f h

/-- What the peers hold reads alike whatever became of local memory. -/
theorem Memory.wf_forget (h : m.wf = true) : m.forget.wf = true := by
  rw [Memory.wf, TMap.wfD_iff] at h ⊢
  refine ⟨h.1.sublist List.filter_sublist, fun e he => ?_⟩
  obtain ⟨he, hp⟩ := List.mem_filter.1 he
  have := h.2 e he
  have hp : 2 ^ 39 ≤ e.1 := of_decide_eq_true hp
  simp only [Memory.unlisted, hp, or_true, if_true] at this ⊢
  exact this

theorem Memory.wf_reset : State.reset.mem.wf = true := by decide

/-! ### The home slices -/

@[simp] theorem State.sliceEv_mem (k p e : Nat) (n : Int) (s : State) : (s.sliceEv k p e n).mem = s.mem := State.modSlice_mem _ _ _
@[simp] theorem State.mcEv_mem (k p e n : Nat) (s : State) : (s.mcEv k p e n).mem = s.mem := by rw [State.mcEv]
@[simp] theorem State.levels_mem (k : Nat) (t : Tag) (n : Int) (s : State) : (s.levels k t n).mem = s.mem := by rw [State.levels, State.sliceEv_mem, State.sliceEv_mem]
@[simp] theorem State.setTag_mem (l : Nat) (t : Tag) (s : State) : (s.setTag l t).mem = s.mem := State.modSlice_mem _ _ _
@[simp] theorem State.setHbmPsn_mem (l : Nat) (p : BitVec 4) (s : State) : (s.setHbmPsn l p).mem = s.mem := rfl
@[simp] theorem State.recent_mem (l : Nat) (s : State) : (s.recent l).mem = s.mem := by
  rw [State.recent]; split
  · rfl
  · exact State.modSlice_mem _ _ _

theorem State.foldl_mem {α : Type} (f : State → α → State) (h : ∀ s a, (f s a).mem = s.mem) (l : List α) : ∀ s, (l.foldl f s).mem = s.mem := by
  induction l with
  | nil => intro s; rfl
  | cons a l ih => intro s; rw [List.foldl_cons, ih, h]

@[simp] theorem State.hbm_mem (w : Bool) (l p : Nat) (s : State) : (s.hbm w l p).mem = s.mem := by
  rw [State.hbm, State.hbmUnits]
  split
  · rfl
  · rw [State.foldl_mem]
    · rw [State.modDie_mem, State.mcEv_mem]
    · intro s a
      dsimp only
      rw [State.modDie_mem]
      split
      · rfl
      · exact State.mcEv_mem _ _ _ _ _

/-- Writing a line back puts it into memory where it is dirty, and nothing else. -/
theorem State.writeBack_mem (l : Nat) (s : State) :
    (s.writeBack l).mem = if (s.tagOf l).valid = true ∧ (s.tagOf l).dirty = true then s.mem.setLine l (s.tagOf l).data else s.mem := by
  rw [State.writeBack]
  dsimp only
  split
  · rw [State.setTag_mem, State.hbm_mem, State.setHbmPsn_mem]
  · rfl

theorem State.wf_writeBack (l : Nat) (h : s.mem.wf = true) : (s.writeBack l).mem.wf = true := by
  rw [State.writeBack_mem]
  split
  · exact Memory.wf_setLine _ _ h
  · exact h

theorem State.wf_evictLine (e v : Bool) (l : Nat) (h : s.mem.wf = true) : (s.evictLine e v l).mem.wf = true := by
  have h := State.wf_writeBack l h
  have h1 : ∀ (x : State) (b : Bool) (k p e : Nat) (n : Int), (if b = true then x.sliceEv k p e n else x).mem = x.mem := by
    intro x b k p e n
    split
    · rw [State.sliceEv_mem]
    · rfl
  rw [State.evictLine, State.modSlice_mem, h1, h1, State.levels_mem]
  exact h

theorem State.wf_makeSectors (e v : Bool) (b l n f : Nat) : ∀ s : State, s.mem.wf = true → (s.makeSectors f e v b l n).mem.wf = true := by
  induction f with
  | zero => intro s h; exact h
  | succ f ih =>
    intro s h
    rw [State.makeSectors]
    split
    · exact h
    · split
      · exact ih _ (State.wf_evictLine _ _ _ h)
      · exact h

theorem State.wf_insertLine (l p : Nat) (d : Line) (q : BitVec 4) (b : Bool) (f : Nat) (h : s.mem.wf = true) : (s.insertLine l p d q b f).mem.wf = true := by
  rw [State.insertLine]
  have h1 : ∀ s : State, s.mem.wf = true → (if (s.setTags l).length < 32 then s else match s.victim l with
      | some v => s.evictLine false false v
      | none => s).mem.wf = true := by
    intro s h
    split
    · exact h
    · split
      · exact State.wf_evictLine _ _ _ h
      · exact h
  have h2 := State.wf_makeSectors false false 16 l (formSectors d f) 32 _ (h1 s h)
  rw [State.recent_mem]
  split
  · rw [State.levels_mem, State.setTag_mem]; exact h2
  · rw [State.sliceEv_mem, State.levels_mem, State.setTag_mem]; exact h2

theorem State.wf_fillLine (l p : Nat) (c : Bool) (h : s.mem.wf = true) : (s.fillLine l p c).mem.wf = true := by
  rw [State.fillLine]
  split
  · exact h
  · exact State.wf_insertLine _ _ _ _ _ _ (by rw [State.hbm_mem]; exact h)

theorem State.wf_of_mem {s : State} {m : Memory} (e : s.mem = m) (h : m.wf = true) : s.mem.wf = true := by rw [e]; exact h

theorem State.wf_setHome (l p : Nat) (d : Line) (q : BitVec 4) (c : Bool) (h : s.mem.wf = true) : (s.setHome l p d q c).mem.wf = true := by
  rw [State.setHome]
  split
  · have e : ∀ m, (State.setHbmPsn l q { s with mem := m }).mem = m := fun m => State.setHbmPsn_mem l q { s with mem := m }
    exact State.wf_of_mem (e _) (Memory.wf_setLine l d h)
  · dsimp only
    split
    · exact State.wf_insertLine _ _ _ _ _ _ h
    · have h1 : ∀ (n m : Nat), (if n > m then ((s.levels (sliceOf l) (s.tagOf l) (-1)).makeSectors 32 true false 16 l (n - m)).sliceEv (sliceOf l) p 0x47 1
          else s.levels (sliceOf l) (s.tagOf l) (-1)).mem.wf = true := by
        intro n m
        have h : (s.levels (sliceOf l) (s.tagOf l) (-1)).mem.wf = true := by rw [State.levels_mem]; exact h
        split
        · rw [State.sliceEv_mem]; exact State.wf_makeSectors _ _ _ _ _ _ _ h
        · exact h
      rw [State.recent_mem]
      generalize (if ((s.tagOf l).carved || (s.tagOf l).psn != 0) = true then 15 else chooseForm d q c) = f
      split
      · rw [State.levels_mem, State.setTag_mem]; exact h1 _ _
      · rw [State.sliceEv_mem, State.levels_mem, State.setTag_mem]; exact h1 _ _

/-- A store at a home slice keeps memory in canonical form, whatever poison it brings. -/
theorem State.wf_writeSectors (l p : Nat) (d : Line) (b : BitVec 128) (q : BitVec 4) (c : Bool) (h : s.mem.wf = true) :
    (s.writeSectors l p d b q c).mem.wf = true := State.wf_setHome _ _ _ _ _ h
theorem State.wf_writeHome (l p : Nat) (d : Line) (b : BitVec 128) (c : Bool) (h : s.mem.wf = true) : (s.writeHome l p d b c).mem.wf = true :=
  State.wf_setHome _ _ _ _ _ h

/-! ### Resets -/

/-- What each step of a fold keeps, the fold keeps. -/
theorem State.foldl_keeps {α : Type} (P : State → Prop) (f : State → α → State) (h : ∀ s a, P s → P (f s a)) (l : List α) : ∀ s, P s → P (l.foldl f s) := by
  induction l with
  | nil => intro s hs; exact hs
  | cons a l ih => intro s hs; exact ih (f s a) (h s a hs)

theorem State.wf_flushLlc (h : s.mem.wf = true) : s.flushLlc.mem.wf = true := by
  rw [State.flushLlc]
  refine State.foldl_keeps (fun s => s.mem.wf = true) _ (fun s a h => ?_) _ s h
  have h1 : ∀ m, ({ s with mem := m } : State).mem = m := fun _ => rfl
  rw [State.setHbmPsn_mem, h1]
  exact Memory.wf_setLine _ _ h

theorem State.poisonPages_mem (lines : List Nat) (s : State) : (s.poisonPages lines).mem = s.mem := by
  rw [State.poisonPages, State.foldl_mem]
  intro s _
  exact State.foldl_mem _ (fun s _ => State.setHbmPsn_mem _ _ s) _ s

theorem State.wf_warmReset (k : ResetKind) (h : s.mem.wf = true) : (s.warmReset k).mem.wf = true := by
  have h1 : (if k = .fatal then s else s.flushLlc).mem.wf = true := by
    split
    · exact h
    · exact State.wf_flushLlc h
  have h2 : ∀ u : State, u.mem.wf = true → (if u.preserve then u.cleared_ k u.mem u.poison else u.cleared_ k u.mem.forget (keepPeers u.poison)).mem.wf = true := by
    intro u hu
    split
    · exact hu
    · exact Memory.wf_forget hu
  rw [State.warmReset, State.poisonPages_mem]
  exact h2 _ h1

end Sys2Proof.Machine
end

