-- ==== Sys2Proof/Laws/Ops.lean ====
section
/-! SUPPORT. What the shared operations of Machine/Ops.lean can do: the cases of taking a trap, what issuing an operation leaves,
and that none of them touches what the machine's invariant is about. -/

namespace Sys2Proof.Machine

/-! ### What the invariant is about -/

/-- Two states agree on everything that `Steady` reads. -/
structure Agrees (s t : State) : Prop where
  mem : t.mem = s.mem
  boot : t.boot = s.boot
  key : t.attestKey = s.attestKey
  sessions : t.sessions = s.sessions
  reserve : t.reserve = s.reserve
  regionMax : t.regionMax = s.regionMax
  outs : t.outs = s.outs
  clock : t.clock = s.clock

variable {s t u : State}

theorem Agrees.refl (s : State) : Agrees s s := ⟨rfl, rfl, rfl, rfl, rfl, rfl, rfl, rfl⟩
theorem Agrees.trans (h : Agrees s t) (k : Agrees t u) : Agrees s u :=
  ⟨k.mem.trans h.mem, k.boot.trans h.boot, k.key.trans h.key, k.sessions.trans h.sessions, k.reserve.trans h.reserve, k.regionMax.trans h.regionMax,
   k.outs.trans h.outs, k.clock.trans h.clock⟩
theorem Agrees.steady (h : Agrees s t) (i : Steady s) : Steady t :=
  ⟨by rw [h.mem]; exact i.mem, by rw [h.boot, h.key]; exact i.key, by rw [h.boot, h.sessions]; exact i.session,
   by rw [h.reserve]; exact i.reserve, by rw [h.regionMax]; exact i.regionMax⟩
theorem Agrees.foldl {α : Type} (f : State → α → State) (hf : ∀ s a, Agrees s (f s a)) (l : List α) : ∀ s, Agrees s (l.foldl f s) := by
  induction l with
  | nil => exact Agrees.refl
  | cons a l ih => exact fun s => (hf s a).trans (ih _)
theorem Agrees.ite {c : Prop} [Decidable c] (h : Agrees s t) (k : Agrees s u) : Agrees s (if c then t else u) := by split <;> assumption

theorem Agrees.modSplit (h : Agrees s t) (k : Nat) (f : Split → Split) : Agrees s (t.modSplit k f) := h.trans ⟨rfl, rfl, rfl, rfl, rfl, rfl, rfl, rfl⟩
theorem Agrees.modGroup (h : Agrees s t) (k : Nat) (f : Group → Group) : Agrees s (t.modGroup k f) := h.trans ⟨rfl, rfl, rfl, rfl, rfl, rfl, rfl, rfl⟩
theorem Agrees.modTeam (h : Agrees s t) (k : Nat) (f : Team → Team) : Agrees s (t.modTeam k f) := h.trans ⟨rfl, rfl, rfl, rfl, rfl, rfl, rfl, rfl⟩
theorem Agrees.modCore (h : Agrees s t) (k : Nat) (f : Core → Core) : Agrees s (t.modCore k f) := h.trans ⟨rfl, rfl, rfl, rfl, rfl, rfl, rfl, rfl⟩
theorem Agrees.modSlice (h : Agrees s t) (k : Nat) (f : Slice → Slice) : Agrees s (t.modSlice k f) := h.trans ⟨rfl, rfl, rfl, rfl, rfl, rfl, rfl, rfl⟩
theorem Agrees.modDie (h : Agrees s t) (k : Nat) (f : Die → Die) : Agrees s (t.modDie k f) := h.trans ⟨rfl, rfl, rfl, rfl, rfl, rfl, rfl, rfl⟩
theorem Agrees.modPart (h : Agrees s t) (k : Nat) (f : Part → Part) : Agrees s (t.modPart k f) := h.trans ⟨rfl, rfl, rfl, rfl, rfl, rfl, rfl, rfl⟩
theorem Agrees.modQueue (h : Agrees s t) (k : Nat) (f : Queue → Queue) : Agrees s (t.modQueue k f) := h.trans ⟨rfl, rfl, rfl, rfl, rfl, rfl, rfl, rfl⟩
theorem Agrees.modGrid (h : Agrees s t) (k : Nat) (f : Grid → Grid) : Agrees s (t.modGrid k f) := h.trans ⟨rfl, rfl, rfl, rfl, rfl, rfl, rfl, rfl⟩
theorem Agrees.modDraw (h : Agrees s t) (k : Nat) (f : Draw → Draw) : Agrees s (t.modDraw k f) := h.trans ⟨rfl, rfl, rfl, rfl, rfl, rfl, rfl, rfl⟩
theorem Agrees.modGraph (h : Agrees s t) (k : Nat) (f : Graph → Graph) : Agrees s (t.modGraph k f) := h.trans ⟨rfl, rfl, rfl, rfl, rfl, rfl, rfl, rfl⟩
theorem Agrees.modOp (h : Agrees s t) (k : Nat) (f : Op → Op) : Agrees s (t.modOp k f) := by
  unfold State.modOp
  exact Agrees.ite (h.trans ⟨rfl, rfl, rfl, rfl, rfl, rfl, rfl, rfl⟩) h
theorem Agrees.modSp (h : Agrees s t) (f : Split → Split) : Agrees s (t.modSp f) := h.modSplit _ f
theorem Agrees.modGr (h : Agrees s t) (f : Group → Group) : Agrees s (t.modGr f) := h.modGroup _ f
theorem Agrees.modTm (h : Agrees s t) (f : Team → Team) : Agrees s (t.modTm f) := h.modTeam _ f

theorem Agrees.drawn (h : Agrees s t) (n : Nat) : Agrees s (t.drawn n) := h.trans ⟨rfl, rfl, rfl, rfl, rfl, rfl, rfl, rfl⟩
theorem Agrees.later (h : Agrees s t) (d : Nat) (e : Ev) : Agrees s (t.later d e) := h.trans ⟨rfl, rfl, rfl, rfl, rfl, rfl, rfl, rfl⟩
theorem Agrees.soon (h : Agrees s t) (e : Ev) : Agrees s (t.soon e) := h.later _ e
theorem Agrees.again (h : Agrees s t) (e : Ev) : Agrees s (t.again e) := h.trans ⟨rfl, rfl, rfl, rfl, rfl, rfl, rfl, rfl⟩
theorem Agrees.againAt (h : Agrees s t) (d : Nat) (e : Ev) : Agrees s (t.againAt d e) := h.trans ⟨rfl, rfl, rfl, rfl, rfl, rfl, rfl, rfl⟩
theorem Agrees.ask (h : Agrees s t) (e : Ev) : Agrees s (t.ask e) := by
  unfold State.ask
  exact Agrees.ite h (h.soon e)
theorem Agrees.setS (h : Agrees s t) (n : Nat) (x : W64) : Agrees s (t.setS n x) := h.modSp _
theorem Agrees.lateWrite (h : Agrees s t) (c l f : Nat) : Agrees s (t.lateWrite c l f) := h.modGr _
theorem Agrees.coreEv (h : Agrees s t) (c p e n : Nat) : Agrees s (t.coreEv c p e n) := h.modCore _ _
theorem Agrees.sliceEv (h : Agrees s t) (i p e : Nat) (n : Int) : Agrees s (t.sliceEv i p e n) := h.modSlice _ _
theorem Agrees.mcEv (h : Agrees s t) (c p e n : Nat) : Agrees s (t.mcEv c p e n) := by
  unfold State.mcEv
  exact h.trans ⟨rfl, rfl, rfl, rfl, rfl, rfl, rfl, rfl⟩
theorem Agrees.freeSlot (h : Agrees s t) (k : Nat) : Agrees s (t.freeSlot k) := h.trans ⟨rfl, rfl, rfl, rfl, rfl, rfl, rfl, rfl⟩
theorem Agrees.waitFor (h : Agrees s t) (c : Cond) : Agrees s (t.waitFor c) := (h.modSp _).freeSlot _
theorem Agrees.stall (h : Agrees s t) : Agrees s t.stall := h
theorem Agrees.endClause (h : Agrees s t) (pc : W64) : Agrees s (t.endClause pc) := by
  unfold State.endClause
  exact (Agrees.ite ((h.freeSlot _).modGr _) (h.freeSlot _)).modSp _
theorem Agrees.adv (h : Agrees s t) (n : Nat) : Agrees s (t.adv n) := by
  unfold State.adv
  exact Agrees.ite ((h.coreEv ..).modSp _) ((h.coreEv ..).endClause _)
theorem Agrees.jumpTo (h : Agrees s t) (pc : W64) : Agrees s (t.jumpTo pc) := (h.coreEv ..).endClause pc
theorem Agrees.sealGroup (h : Agrees s t) (g : Nat) : Agrees s (t.sealGroup g) := by
  unfold State.sealGroup
  exact Agrees.ite ((h.modGroup _ _).coreEv ..) h
theorem Agrees.sealNow (h : Agrees s t) : Agrees s t.sealNow := h.sealGroup _

/-! ### Operations in flight -/

theorem Agrees.issue (h : Agrees s t) (o : Op) : Agrees s (t.issue o) := by
  have e : Agrees s { t with nextId := t.nextId + 1, ops := t.ops.wr t.nextId o } := h.trans ⟨rfl, rfl, rfl, rfl, rfl, rfl, rfl, rfl⟩
  have e' := Agrees.ite (c := o.flag < 12) (e.modGroup (o.split / 4) fun g => { g with flags := g.flags.mod o.flag (· + 1) })
    (Agrees.ite (c := o.flag = orphan) e (e.modSplit o.split fun x => { x with untracked := x.untracked + 1 }))
  unfold State.issue
  exact Agrees.ite e' (e'.modTeam _ _)
theorem Agrees.pathDone (h : Agrees s t) (id : Nat) : Agrees s (t.pathDone id) := by
  unfold State.pathDone
  exact Agrees.ite h (h.modTeam _ _)
theorem Agrees.opDone (h : Agrees s t) (id : Nat) : Agrees s (t.opDone id) := by
  unfold State.opDone
  refine Agrees.trans (Agrees.ite (Agrees.modSplit ?_ _ _) ?_) ⟨rfl, rfl, rfl, rfl, rfl, rfl, rfl, rfl⟩ <;>
    exact Agrees.ite (h.pathDone id) (Agrees.ite ((h.pathDone id).modGroup _ _) (Agrees.ite (h.pathDone id) ((h.pathDone id).modSplit _ _)))
theorem Agrees.partDone (h : Agrees s t) (id n : Nat) : Agrees s (t.partDone id n) := by
  unfold State.partDone
  exact Agrees.ite (Agrees.ite ((h.modOp _ _).soon _) (h.modOp _ _)) h
theorem Agrees.readyIfDone (h : Agrees s t) (id : Nat) : Agrees s (t.readyIfDone id) := Agrees.ite (h.soon _) h
theorem Agrees.retarget (h : Agrees s t) (a b : Nat) : Agrees s (t.retarget a b) := by
  unfold State.retarget
  refine Agrees.ite h (Agrees.modSplit (Agrees.modSplit (h.trans ?_) _ _) _ _)
  exact ⟨rfl, rfl, rfl, rfl, rfl, rfl, rfl, rfl⟩
theorem Agrees.asyncErr (h : Agrees s t) (g : Nat) : Agrees s (t.asyncErr g) := by
  have e := Agrees.ite (c := (t.grids.rd g).live) (h.modGrid g fun g => { g with err := g.err + 1 }) h
  unfold State.asyncErr
  exact Agrees.ite (e.ask _) e

/-- An issued operation stands under the number that was next, and no other operation changes. -/
theorem State.issue_ops (o : Op) (s : State) : (s.issue o).ops = s.ops.wr s.nextId o := by
  unfold State.issue
  split <;> split <;> (try split) <;> rfl
theorem State.issue_nextId (o : Op) (s : State) : (s.issue o).nextId = s.nextId + 1 := by
  unfold State.issue
  split <;> split <;> (try split) <;> rfl
theorem State.issue_agenda (o : Op) (s : State) : (s.issue o).agenda = s.agenda := by
  unfold State.issue
  split <;> split <;> (try split) <;> rfl
theorem State.issue_cores (o : Op) (s : State) : (s.issue o).cores = s.cores := by
  unfold State.issue
  split <;> split <;> (try split) <;> rfl
theorem State.issue_slices (o : Op) (s : State) : (s.issue o).slices = s.slices := by
  unfold State.issue
  split <;> split <;> (try split) <;> rfl
/-- The flag it names counts one more, and no other flag of any group changes (R49). -/
theorem State.issue_flags (o : Op) (s : State) (g n : Nat) :
    ((s.issue o).groups.rd g).flags.rd n =
      if o.flag < 12 ∧ g = o.split / 4 ∧ n = o.flag then (s.groups.rd g).flags.rd n + 1 else (s.groups.rd g).flags.rd n := by
  have base : ∀ t : State, t.groups = s.groups → ((t.modGroup (o.split / 4) fun g => { g with flags := g.flags.mod o.flag (· + 1) }).groups.rd g).flags.rd n =
      if g = o.split / 4 ∧ n = o.flag then (s.groups.rd g).flags.rd n + 1 else (s.groups.rd g).flags.rd n := by
    intro t ht
    simp only [State.modGroup, TMap.mod, ht]
    by_cases hg : g = o.split / 4
    · subst hg
      rw [TMap.rd_wr_same]
      by_cases hn : n = o.flag
      · subst hn; simp [TMap.rd_wr_same]
      · simp [hn, TMap.rd_wr_ne]
    · simp [hg, TMap.rd_wr_ne]
  unfold State.issue
  by_cases hf : o.flag < 12
  · simp only [hf, if_true, true_and]
    split
    · exact base _ rfl
    · exact base _ rfl
  · simp only [hf, if_false, false_and]
    split <;> split <;> rfl

/-! ### Taking a trap (R329 to R333) -/

theorem Agrees.swapBank (h : Agrees s t) (k : Nat) : Agrees s (t.swapBank k) := (h.modSplit _ _).modGroup _ _
theorem Agrees.enterTrap (h : Agrees s t) (k : Nat) (tr : Trap) : Agrees s (t.enterTrap k tr) := by
  unfold State.enterTrap
  exact Agrees.ite ((h.sealGroup _).modSplit _ _) ((((h.sealGroup _).modGroup _ _).swapBank k).modSplit _ _)
theorem Agrees.mismatch (h : Agrees s t) (g : Nat) : Agrees s (t.mismatch g) := (h.coreEv ..).asyncErr _
theorem Agrees.raiseFor (h : Agrees s t) (k : Nat) (tr : Trap) : Agrees s (t.raiseFor k tr) := by
  unfold State.raiseFor
  have f := h.freeSlot k
  exact Agrees.ite (((f.drawn 1).mismatch _).modSplit _ _)
    (Agrees.ite ((f.coreEv ..).modSplit _ _) (Agrees.ite (f.modSplit _ _) (Agrees.ite ((f.coreEv ..).modSplit _ _) ((f.coreEv ..).enterTrap k tr))))
/-- Taking a trap ends in one of five ways: where the group's shadow is unequal to it the split is to execute its instruction again (R343);
in handler mode the trap is to be handed off (R333); while another split of the group traps it is held at its instruction (R331); while
register-returning operations are outstanding it waits for them; else it is entered. -/
theorem State.raiseFor_cases (k : Nat) (tr : Trap) (s : State) :
    let g := s.groups.rd (k / 4)
    let u := (s.freeSlot k).coreEv g.core (s.grids.rd (s.teams.rd (k / 512)).grid).part 0x09 1
    let parts := g.parted && s.unequal
    (parts = true ∧ s.raiseFor k tr = (((s.freeSlot k).drawn 1).mismatch (k / 4)).modSplit k fun x => { x with wait := .ready }) ∨
    (parts = false ∧ g.handler = k % 4 + 1 ∧ s.raiseFor k tr = u.modSplit k fun x => { x with wait := .handing tr 0 }) ∨
    (parts = false ∧ g.handler ≠ k % 4 + 1 ∧ otherTraps s k = true ∧
      s.raiseFor k tr = (s.freeSlot k).modSplit k fun x => { x with wait := .ready }) ∨
    (parts = false ∧ g.handler ≠ k % 4 + 1 ∧ otherTraps s k = false ∧ returning s (k / 4) = true ∧
      s.raiseFor k tr = u.modSplit k fun x => { x with wait := .trapping tr }) ∨
    (parts = false ∧ g.handler ≠ k % 4 + 1 ∧ otherTraps s k = false ∧ returning s (k / 4) = false ∧ s.raiseFor k tr = u.enterTrap k tr) := by
  intro g u parts
  have ho : otherTraps (s.freeSlot k) k = otherTraps s k := rfl
  have hr : returning u (k / 4) = returning s (k / 4) := rfl
  have e : s.raiseFor k tr =
      if parts then (((s.freeSlot k).drawn 1).mismatch (k / 4)).modSplit k fun x => { x with wait := .ready }
      else if g.handler = k % 4 + 1 then u.modSplit k fun x => { x with wait := .handing tr 0 }
      else if otherTraps (s.freeSlot k) k then (s.freeSlot k).modSplit k fun x => { x with wait := .ready }
      else if returning u (k / 4) then u.modSplit k fun x => { x with wait := .trapping tr } else u.enterTrap k tr := rfl
  rw [e, ho, hr]
  cases h0 : parts
  · rw [if_neg Bool.false_ne_true]
    refine .inr ?_
    by_cases h1 : g.handler = k % 4 + 1
    · exact .inl ⟨rfl, h1, if_pos h1⟩
    · rw [if_neg h1]
      cases h2 : otherTraps s k
      · cases h3 : returning s (k / 4)
        · exact .inr (.inr (.inr ⟨rfl, h1, rfl, rfl, by simp⟩))
        · exact .inr (.inr (.inl ⟨rfl, h1, rfl, rfl, by simp⟩))
      · exact .inr (.inl ⟨rfl, h1, rfl, by simp⟩)
  · exact .inl ⟨rfl, by simp⟩

/-- A trap enters at its vector, EVEC for an extension and TVEC else, or is to be handed off where that is 0 (R329, R331). -/
theorem State.enterTrap_wait (k : Nat) (tr : Trap) (s : State) :
    let v := s.preg (s.grids.rd (s.teams.rd (k / 512)).grid).part (if tr.cause = .extEmu then 2 else 1)
    (v = 0 → ((s.enterTrap k tr).splits.rd k).wait = .handing tr 0) ∧
    (v ≠ 0 → ((s.enterTrap k tr).splits.rd k).wait = .ready ∧ ((s.enterTrap k tr).splits.rd k).pc = v) := by
  intro v
  have hv : (s.sealGroup (k / 4)).preg (s.grids.rd (s.teams.rd (k / 512)).grid).part (if tr.cause = .extEmu then 2 else 1) = v := by
    unfold State.sealGroup
    dsimp only
    split <;> rfl
  unfold State.enterTrap
  dsimp only
  rw [hv]
  refine ⟨fun h => ?_, fun h => ?_⟩
  · rw [if_pos h]
    simp only [State.modSplit, TMap.mod, TMap.rd_wr_same]
  · rw [if_neg h]
    simp only [State.modSplit, TMap.mod, TMap.rd_wr_same, and_self]

theorem Agrees.trap (h : Agrees s t) (c : Cause) (l a : Option W64) (n : Nat) (w : W64) : Agrees s (t.trap c l a n w) := (h.drawn 3).raiseFor _ _
theorem Agrees.prot (h : Agrees s t) (kind : Nat) : Agrees s (t.prot kind) := h.trap ..
theorem Agrees.raiseDefer (h : Agrees s t) (d : Defer) : Agrees s (t.raiseDefer d) := by
  unfold State.raiseDefer
  exact Agrees.raiseFor (Agrees.ite h (h.modSp _)) _ _
theorem Agrees.sup (h : Agrees s t) {k : State → State} (hk : Agrees s (k t)) : Agrees s (t.sup k) := Agrees.ite hk (h.prot 0)
theorem Agrees.returnTrap (h : Agrees s t) (m : Nat) : Agrees s (t.returnTrap m) := by
  unfold State.returnTrap
  have f := ((h.swapBank t.cur).modGroup (t.cur / 4) fun g => { g with handler := 0, tSplit := {} }).freeSlot t.cur
  have e {c : Prop} [Decidable c] (g : Split → Split) (y : Group → Group) (w : Split → Split) {u : State} (h : Agrees s u) :
      Agrees s ((if c then (u.modSplit t.cur g).modGroup (t.cur / 4) y else u.modSplit t.cur g).modSplit t.cur w) :=
    (Agrees.ite ((h.modSplit _ _).modGroup _ _) (h.modSplit _ _)).modSplit _ _
  dsimp only
  split
  · exact e _ _ _ f
  · exact Agrees.ite (e _ _ _ f) (e _ _ _ f)
  · exact e _ _ _ f

end Sys2Proof.Machine
end

