-- ==== Sys2Proof/Laws/Access.lean ====
section
/-! SUPPORT. What the shared operations on caches, translations and accesses can do: each in its cases, and that each keeps the
machine's invariant where what goes on after it does. -/

namespace Sys2Proof.Machine

variable {s t u : State}

/-! ### Keeping the invariant -/

/-- The second state has the first one's boot, keys and display registers, and its memory is canonical where the first's is. -/
structure Keeps (s t : State) : Prop where
  mem : s.mem.wf = true → t.mem.wf = true
  boot : t.boot = s.boot
  key : t.attestKey = s.attestKey
  sessions : t.sessions = s.sessions
  reserve : t.reserve = s.reserve
  regionMax : t.regionMax = s.regionMax
  outs : t.outs = s.outs
  clock : t.clock = s.clock

theorem Keeps.refl (s : State) : Keeps s s := ⟨id, rfl, rfl, rfl, rfl, rfl, rfl, rfl⟩
theorem Keeps.trans (h : Keeps s t) (k : Keeps t u) : Keeps s u :=
  ⟨k.mem ∘ h.mem, k.boot.trans h.boot, k.key.trans h.key, k.sessions.trans h.sessions, k.reserve.trans h.reserve, k.regionMax.trans h.regionMax,
   k.outs.trans h.outs, k.clock.trans h.clock⟩
theorem Agrees.keeps (h : Agrees s t) : Keeps s t := ⟨fun w => by rw [h.mem]; exact w, h.boot, h.key, h.sessions, h.reserve, h.regionMax, h.outs, h.clock⟩
theorem Keeps.agrees (h : Keeps s t) (k : Agrees t u) : Keeps s u := h.trans k.keeps
theorem Keeps.steady (h : Keeps s t) (i : Steady s) : Steady t :=
  ⟨h.mem i.mem, by rw [h.boot, h.key]; exact i.key, by rw [h.boot, h.sessions]; exact i.session,
   by rw [h.reserve]; exact i.reserve, by rw [h.regionMax]; exact i.regionMax⟩
theorem Keeps.foldl {α : Type} (f : State → α → State) (hf : ∀ s a, Keeps s (f s a)) (l : List α) : ∀ s, Keeps s (l.foldl f s) := by
  induction l with
  | nil => exact Keeps.refl
  | cons a l ih => exact fun s => (hf s a).trans (ih _)
theorem Keeps.ite {c : Prop} [Decidable c] (h : Keeps s t) (k : Keeps s u) : Keeps s (if c then t else u) := by split <;> assumption

/-! ### The home slices (R158 to R165) -/

theorem Agrees.levels (h : Agrees s t) (i : Nat) (g : Tag) (n : Int) : Agrees s (t.levels i g n) := (h.sliceEv ..).sliceEv ..
theorem Agrees.setTag (h : Agrees s t) (l : Nat) (g : Tag) : Agrees s (t.setTag l g) := h.modSlice _ _
theorem Agrees.recent (h : Agrees s t) (l : Nat) : Agrees s (t.recent l) := by
  unfold State.recent
  exact Agrees.ite h (h.modSlice _ _)
theorem Agrees.hbm (h : Agrees s t) (w : Bool) (l p : Nat) : Agrees s (t.hbm w l p) := by
  unfold State.hbm State.hbmUnits
  dsimp only
  split
  · exact h
  · refine (h.trans ?_).trans (Agrees.foldl _ (fun s i => ?_) _ _)
    · exact ((Agrees.refl t).mcEv ..).modDie _ _
    · exact (Agrees.ite (Agrees.refl s) ((Agrees.refl s).mcEv ..)).modDie _ _
theorem Keeps.writeBack (h : Keeps s t) (l : Nat) : Keeps s (t.writeBack l) := by
  refine h.trans ⟨State.wf_writeBack l, ?_, ?_, ?_, ?_, ?_, ?_, ?_⟩ <;>
  · unfold State.writeBack
    dsimp only
    split
    · have e : ∀ u : State, Agrees u (((u.setHbmPsn l (t.tagOf l).psn).hbm true l (t.tagOf l).part).setTag l { t.tagOf l with dirty := false }) :=
        fun u => (Agrees.hbm (⟨rfl, rfl, rfl, rfl, rfl, rfl, rfl, rfl⟩ : Agrees u (u.setHbmPsn l (t.tagOf l).psn)) ..).setTag _ _
      first
        | exact (e _).boot | exact (e _).key | exact (e _).sessions | exact (e _).reserve | exact (e _).regionMax | exact (e _).outs | exact (e _).clock
    · rfl
theorem Keeps.evictLine (h : Keeps s t) (e m : Bool) (l : Nat) : Keeps s (t.evictLine e m l) := by
  unfold State.evictLine
  have w := (h.writeBack l)
  exact w.agrees (Agrees.modSlice (Agrees.ite (Agrees.sliceEv (Agrees.ite (((Agrees.refl _).levels ..).sliceEv ..) ((Agrees.refl _).levels ..)) ..)
    (Agrees.ite (((Agrees.refl _).levels ..).sliceEv ..) ((Agrees.refl _).levels ..))) _ _)
theorem Keeps.makeSectors (e m : Bool) (b l n : Nat) : ∀ (f : Nat) {t : State}, Keeps s t → Keeps s (t.makeSectors f e m b l n) := by
  intro f
  induction f with
  | zero => exact fun h => h
  | succ f ih =>
    intro t h
    rw [State.makeSectors]
    split
    · exact h
    · split
      · exact ih (h.evictLine ..)
      · exact h
theorem Keeps.insertLine (h : Keeps s t) (l p : Nat) (d : Line) (q : BitVec 4) (b : Bool) (f : Nat) : Keeps s (t.insertLine l p d q b f) := by
  have v : Keeps s (if (t.setTags l).length < 32 then t else match t.victim l with
      | some v => t.evictLine false false v
      | none => t) := by
    split
    · exact h
    · split
      · exact h.evictLine ..
      · exact h
  have w := Keeps.makeSectors false false 16 l (formSectors d f) 32 v
  unfold State.insertLine
  dsimp only
  generalize State.makeSectors 32 false false 16 l (formSectors d f) _ = w' at w ⊢
  exact w.agrees (Agrees.recent (Agrees.ite (((Agrees.refl _).setTag ..).levels ..) ((((Agrees.refl _).setTag ..).levels ..).sliceEv ..)) _)
theorem Keeps.fillLine (h : Keeps s t) (l p : Nat) (c : Bool) : Keeps s (t.fillLine l p c) := by
  unfold State.fillLine
  exact Keeps.ite h (Keeps.insertLine (h.agrees ((Agrees.refl t).hbm ..)) ..)
theorem Keeps.setHome (h : Keeps s t) (l p : Nat) (d : Line) (q : BitVec 4) (c : Bool) : Keeps s (t.setHome l p d q c) := by
  have e : ∀ m : Memory, (t.mem.wf = true → m.wf = true) → Keeps t { t with mem := m } := fun m hm => ⟨hm, rfl, rfl, rfl, rfl, rfl, rfl, rfl⟩
  unfold State.setHome
  refine Keeps.ite ((h.trans (e _ (Memory.wf_setLine l d))).agrees ⟨rfl, rfl, rfl, rfl, rfl, rfl, rfl, rfl⟩) ?_
  refine Keeps.ite (h.insertLine ..) ?_
  have g : ∀ n, Keeps s (if n > (t.tagOf l).secs.length then
      ((t.levels (sliceOf l) (t.tagOf l) (-1)).makeSectors 32 true false 16 l (n - (t.tagOf l).secs.length)).sliceEv (sliceOf l) p 0x47 1
      else t.levels (sliceOf l) (t.tagOf l) (-1)) := by
    intro n
    have e := h.agrees ((Agrees.refl t).levels (sliceOf l) (t.tagOf l) (-1))
    have m := Keeps.makeSectors true false 16 l (n - (t.tagOf l).secs.length) 32 e
    exact Keeps.ite (m.agrees ((Agrees.refl _).sliceEv ..)) e
  exact (g _).agrees (Agrees.recent (Agrees.ite (((Agrees.refl _).setTag ..).levels ..) ((((Agrees.refl _).setTag ..).levels ..).sliceEv ..)) _)
theorem Keeps.writeSectors (h : Keeps s t) (l p : Nat) (d : Line) (b : BitVec 128) (q : BitVec 4) (c : Bool) :
    Keeps s (t.writeSectors l p d b q c) := h.setHome ..
theorem Keeps.writeHome (h : Keeps s t) (l p : Nat) (d : Line) (b : BitVec 128) (c : Bool) : Keeps s (t.writeHome l p d b c) := h.writeSectors ..

/-! ### The registry and holds (R141, R144) -/

theorem Agrees.revokeWords (h : Agrees s t) (l : Nat) (m : W32) (b a : Nat) : Agrees s (t.revokeWords l m b a).1 :=
  (h.modSlice _ _).trans (Agrees.foldl _ (fun s _ => (Agrees.refl s).soon _) _ _)
theorem Agrees.cleared (h : Agrees s t) (l : Nat) (m : W32) (b : Nat) : Agrees s (t.cleared l m b).1 := by
  unfold State.cleared
  split
  · exact h
  · split
    · exact h
    · have e : Agrees s { t with nextId := t.nextId + 1 } := h.trans ⟨rfl, rfl, rfl, rfl, rfl, rfl, rfl, rfl⟩
      exact (e.revokeWords l m b t.nextId).trans ⟨rfl, rfl, rfl, rfl, rfl, rfl, rfl, rfl⟩
theorem Agrees.regRoom (h : Agrees s t) (i a : Nat) (f : RegEnt → Bool) : Agrees s (t.regRoom i a f).1 := by
  unfold State.regRoom
  dsimp only
  split
  · exact (h.modSlice _ _).soon _
  · exact h
theorem Agrees.register (h : Agrees s t) (l c : Nat) (m : W32) (a : Nat) : Agrees s (t.register l c m a).1 := (h.regRoom ..).modSlice _ _
theorem Agrees.takeHold (h : Agrees s t) (l o : Nat) : Agrees s (t.takeHold l o) := ((h.revokeWords ..).regRoom ..).modSlice _ _
theorem Agrees.holdDone (h : Agrees s t) (l o : Nat) : Agrees s (t.holdDone l o) := h.modSlice _ _
theorem Agrees.dropHolds (h : Agrees s t) (o : Nat) : Agrees s (t.dropHolds o) := h.trans ⟨rfl, rfl, rfl, rfl, rfl, rfl, rfl, rfl⟩

/-! ### The L1 (R117) -/

theorem Agrees.modL1 (h : Agrees s t) (c l : Nat) (f : L1Line → L1Line) : Agrees s (t.modL1 c l f) := h.modCore _ _
theorem Agrees.sendWt (h : Agrees s t) (r : WtReq) : Agrees s (t.sendWt r) := h.trans ⟨rfl, rfl, rfl, rfl, rfl, rfl, rfl, rfl⟩
theorem Agrees.writeThrough (h : Agrees s t) (c l : Nat) (m : W32) (o : Nat) : Agrees s (t.writeThrough c l m o) := by
  unfold State.writeThrough
  exact Agrees.ite h (Agrees.sendWt (Agrees.modL1 (h.trans (Agrees.foldl _ (fun s g => (Agrees.refl s).sealGroup g) _ _)) ..) _)
theorem Agrees.l1Evict (h : Agrees s t) (c l : Nat) : Agrees s (t.l1Evict c l) := (h.writeThrough ..).modCore _ _
theorem Agrees.l1Touch (h : Agrees s t) (c l : Nat) : Agrees s (t.l1Touch c l) := h.modCore _ _
theorem Agrees.l1Alloc (h : Agrees s t) (c l p : Nat) (b : Bool) : Agrees s (t.l1Alloc c l p b) := by
  unfold State.l1Alloc
  refine Agrees.ite (h.l1Touch ..) (Agrees.l1Touch (Agrees.modL1 ?_ ..) ..)
  split
  · exact h
  · split
    · exact h.l1Evict ..
    · exact h
theorem Agrees.halveNext (h : Agrees s t) (c : Nat) : Agrees s (t.halveNext c) := by
  unfold State.halveNext
  exact Agrees.ite h (h.later ..)
theorem Agrees.l1Count (h : Agrees s t) (c p g l : Nat) (b : Bool) : Agrees s (t.l1Count c p g l b) := by
  unfold State.l1Count
  exact Agrees.ite (h.coreEv ..) (Agrees.ite ((((h.coreEv ..).modGroup _ _).coreEv ..).halveNext _) (h.coreEv ..))
theorem Agrees.l1Seen (h : Agrees s t) (c l : Nat) (m : W32) (g : Nat) : Agrees s (t.l1Seen c l m g) :=
  h.trans (Agrees.foldl _ (fun s _ => Agrees.ite (Agrees.refl s) ((Agrees.refl s).sealGroup _)) _ _)
theorem Agrees.l1Store (h : Agrees s t) (c l p : Nat) (b : Bool) (d : Line) (y : BitVec 128) (g : Nat) : Agrees s (t.l1Store c l p b d y g) := by
  unfold State.l1Store
  exact Agrees.modL1 (Agrees.ite ((h.l1Alloc ..).sealGroup g) (h.l1Alloc ..)) ..
theorem Agrees.l1Fill (h : Agrees s t) (c l p : Nat) (b : Bool) (d : Line) (m : W32) (q : BitVec 4) : Agrees s (t.l1Fill c l p b d m q) :=
  (h.l1Alloc ..).modL1 ..
theorem Agrees.l1Drop (h : Agrees s t) (c l : Nat) : Agrees s (t.l1Drop c l) := (h.writeThrough ..).modCore _ _
theorem Agrees.flushL1 (h : Agrees s t) (c : Nat) : Agrees s (t.flushL1 c) :=
  h.trans (Agrees.foldl _ (fun s _ => (Agrees.refl s).writeThrough ..) _ _)
theorem Agrees.selfInvalidate (h : Agrees s t) (c : Nat) : Agrees s (t.selfInvalidate c) := by
  unfold State.selfInvalidate
  refine h.trans ?_
  exact ⟨rfl, rfl, rfl, rfl, rfl, rfl, rfl, rfl⟩
theorem Agrees.phased (h : Agrees s t) (n : Nat) : Agrees s (t.phased n) := h.modSp _

/-! ### Release and acquire (R142, R143) -/

/-- What a release can do: wait for the split's own accesses, or for write-throughs sent, or go on. -/
theorem State.release_cases (sc : Scope) (p : Nat) (k : State → State) (s : State) :
    (∃ t c, Agrees s t ∧ s.release sc p k = t.waitFor c) ∨ (∃ t, Agrees s t ∧ s.release sc p k = k t) := by
  have e : ∀ t, Agrees s t → (∃ u c, Agrees s u ∧ (if t.wtPending t.cr t.sp.aux (sc = .sy) then t.waitFor (.rel t.sp.aux (sc = .sy)) else k (t.phased (p + 2))) = u.waitFor c) ∨
      (∃ u, Agrees s u ∧ (if t.wtPending t.cr t.sp.aux (sc = .sy) then t.waitFor (.rel t.sp.aux (sc = .sy)) else k (t.phased (p + 2))) = k u) := by
    intro t ht
    split
    · exact .inl ⟨t, _, ht, rfl⟩
    · exact .inr ⟨_, ht.phased _, rfl⟩
  unfold State.release
  dsimp only
  split
  · split
    · split
      · exact e _ (Agrees.modSp (Agrees.flushL1 (Agrees.ite (Agrees.refl s).sealNow (Agrees.refl s)) _) _)
      · exact .inr ⟨_, (Agrees.refl s).phased _, rfl⟩
    · exact .inl ⟨_, _, (Agrees.refl s).phased _, rfl⟩
  · split
    · exact e s (Agrees.refl s)
    · exact .inr ⟨s, Agrees.refl s, rfl⟩

/-- What an acquire can do: wait for the split's own loads, or go on. -/
theorem State.acquire_cases (sc : Scope) (p : Nat) (k : State → State) (s : State) :
    (∃ t c, Agrees s t ∧ s.acquire sc p k = t.waitFor c) ∨ (∃ t, Agrees s t ∧ s.acquire sc p k = k t) := by
  unfold State.acquire
  split
  · split
    · exact .inr ⟨_, Agrees.phased (Agrees.ite ((Agrees.refl s).selfInvalidate _) (Agrees.refl s)) _, rfl⟩
    · exact .inl ⟨_, _, (Agrees.refl s).phased _, rfl⟩
  · exact .inr ⟨s, Agrees.refl s, rfl⟩

theorem Keeps.release (h : Keeps s t) (sc : Scope) (p : Nat) {k : State → State} (hk : ∀ u, Keeps s u → Keeps s (k u)) : Keeps s (t.release sc p k) := by
  obtain ⟨u, c, a, e⟩ | ⟨u, a, e⟩ := State.release_cases sc p k t
  · exact e ▸ (h.agrees a).agrees ((Agrees.refl u).waitFor c)
  · exact e ▸ hk u (h.agrees a)
theorem Keeps.acquire (h : Keeps s t) (sc : Scope) (p : Nat) {k : State → State} (hk : ∀ u, Keeps s u → Keeps s (k u)) : Keeps s (t.acquire sc p k) := by
  obtain ⟨u, c, a, e⟩ | ⟨u, a, e⟩ := State.acquire_cases sc p k t
  · exact e ▸ (h.agrees a).agrees ((Agrees.refl u).waitFor c)
  · exact e ▸ hk u (h.agrees a)

/-! ### Accesses (R126, R127) -/

theorem Agrees.askWalks (h : Agrees s t) (ps : List Nat) : Agrees s (t.askWalks ps) :=
  (h.trans (Agrees.foldl _ (fun s _ => Agrees.ite (Agrees.refl s) ((((Agrees.refl s).modSp _).ask _).coreEv ..)) _ _)).waitFor _
theorem Agrees.pageFault (h : Agrees s t) (kind : Nat) (a l : W64) : Agrees s (t.pageFault kind a l) := by
  have f := h.modSp fun x => { x with xl := [], phase := 0, aux := 0, wait := .ready }
  unfold State.pageFault
  exact Agrees.ite (f.freeSlot _) ((f.modSp _).modGroup _ _)
theorem Agrees.recall (h : Agrees s t) (ls : List Nat) : Agrees s (t.recall ls) :=
  h.trans (Agrees.foldl _ (fun s _ => Agrees.ite ((Agrees.refl s).ask _) (Agrees.refl s)) _ _)
theorem Keeps.orNow (h : Keeps s t) (part a bits : Nat) : Keeps s (t.orNow part a bits) := Keeps.writeHome (h.fillLine ..) ..
theorem Keeps.orTry (h : Keeps s t) (e : Nat × Nat × Nat) : Keeps s (t.orTry e) := by
  have w (u : State) (i : Nat) (f : Slice → Slice) (v : Ev) (g : Agrees t u) : Keeps s ((u.modSlice i f).ask v) := h.agrees ((g.modSlice i f).ask v)
  have c : ∀ m b, Agrees t (t.cleared (e.2.1 / 128) m b).1 := fun _ _ => (Agrees.refl t).cleared ..
  unfold State.orTry
  exact Keeps.ite (w _ _ _ _ (Agrees.refl t)) (Keeps.ite (Keeps.orNow (h.agrees (c _ _)) ..) (w _ _ _ _ (c _ _)))
theorem Keeps.orEntry (h : Keeps s t) (part pa bits : Nat) : Keeps s (t.orEntry part pa bits) := by
  unfold State.orEntry
  split
  · exact h
  · exact h.orTry _
theorem Keeps.lateOrs (h : Keeps s t) (i : Nat) : Keeps s (t.lateOrs i) :=
  (h.agrees ((Agrees.refl t).modSlice _ _)).trans (Keeps.foldl _ (fun s _ => (Keeps.refl s).orTry _) _ _)
theorem Keeps.setDirtyBit (h : Keeps s t) (e : Tlb) (va : Nat) : Keeps s (t.setDirtyBit e va) := by
  unfold State.setDirtyBit
  exact Keeps.ite h ((h.orEntry ..).agrees (((Agrees.refl _).modCore _ _).modDie _ _))

/-- What an access can do: ask for translations, trap with ALIGN or PROT, fault, ask for the copies of a snapshot, or be performed
by `k` with the hits of its lanes. -/
theorem State.access_cases (kind : Nat) (r w x : Bool) (al : Nat) (ls : List (Nat × W64)) (k : List Hit → State → State) (s : State) :
    (∃ m, s.missing ls = m ∧ m ≠ [] ∧ s.access kind r w x al ls k = s.askWalks m) ∨
    (s.missing ls = [] ∧
      ((∃ c l a, (c = .align ∨ c = .prot) ∧ s.access kind r w x al ls k =
          (s.modSp fun y => { y with xl := [] }).trap c (some l) (some a) 8 (BitVec.ofNat 64 kind)) ∨
       (∃ a l, s.access kind r w x al ls k = s.pageFault kind a l) ∨
       (∃ t, Agrees s t ∧ s.access kind r w x al ls k = t) ∨
       (∃ hs t, Keeps s t ∧ (w = false → t = s) ∧ s.access kind r w x al ls k = k hs t))) := by
  unfold State.access
  split
  next m _ _ hm => exact .inl ⟨_, hm, by simp, rfl⟩
  next hm =>
    refine .inr ⟨hm, ?_⟩
    dsimp only
    split
    · exact .inl ⟨_, _, _, .inl rfl, rfl⟩
    · exact .inl ⟨_, _, _, .inr rfl, rfl⟩
    · exact .inr (.inl ⟨_, _, rfl⟩)
    · split
      · exact .inr (.inr (.inl ⟨_, Agrees.foldl (fun (s : State) (h : Hit) => s.ask (.snapshotCopy s.gd.root (h.pa / 2 ^ 16))) (fun s _ => (Agrees.refl s).ask _) _ s, rfl⟩))
      · refine .inr (.inr (.inr ⟨_, _, ?_, fun e => ?_, rfl⟩))
        · exact Keeps.ite (Keeps.foldl _ (fun s _ => (Keeps.refl s).setDirtyBit ..) _ s) (Keeps.refl s)
        · rw [e]; rfl

theorem Keeps.access (h : Keeps s t) (kind : Nat) (r w x : Bool) (al : Nat) (ls : List (Nat × W64)) {k : List Hit → State → State}
    (hk : ∀ hs u, Keeps s u → Keeps s (k hs u)) : Keeps s (t.access kind r w x al ls k) := by
  obtain ⟨m, _, _, e⟩ | ⟨_, ⟨c, l, a, _, e⟩ | ⟨a, l, e⟩ | ⟨u, g, e⟩ | ⟨hs, u, g, _, e⟩⟩ := State.access_cases kind r w x al ls k t
  · exact e ▸ h.agrees ((Agrees.refl t).askWalks m)
  · exact e ▸ h.agrees (((Agrees.refl t).modSp _).trap ..)
  · exact e ▸ h.agrees ((Agrees.refl t).pageFault kind a l)
  · exact e ▸ h.agrees g
  · exact e ▸ hk hs u (h.trans g)

end Sys2Proof.Machine
end

