-- ==== Sys2Proof/Laws/Shapes.lean ====
section
/-! SUPPORT. One lemma per shared operation of the instructions of one split: what it may change, where the split goes on, and
the registers it writes. Statements about single instructions cite these and unfold nothing. -/

namespace Sys2Proof.Machine

variable {s t u : State}

/-! ### Frames compose -/

theorem Split.alike_refl (x : Split) : Split.alike x x := rfl
theorem Group.alike_refl (g : Group) : Group.alike g g := rfl
theorem Core.alike_refl (c : Core) : Core.alike c c := rfl
theorem Split.alike_trans {x y z : Split} (h : Split.alike x y) (k : Split.alike y z) : Split.alike x z := by
  unfold Split.alike at *; rw [k, h]
theorem Group.alike_trans {x y z : Group} (h : Group.alike x y) (k : Group.alike y z) : Group.alike x z := by
  unfold Group.alike at *; rw [k, h]
theorem Core.alike_trans {x y z : Core} (h : Core.alike x y) (k : Core.alike y z) : Core.alike x z := by
  unfold Core.alike at *; rw [k, h]

theorem OnlyHere.cur (h : OnlyHere s t) : t.cur = s.cur := by rw [h.rest]
theorem OnlyHere.refl (s : State) : OnlyHere s s := ⟨rfl, fun _ _ => rfl, fun _ _ => rfl, fun _ => rfl⟩
theorem OnlyHere.trans (h : OnlyHere s t) (k : OnlyHere t u) : OnlyHere s u := by
  refine ⟨?_, ?_, ?_, ?_⟩
  · rw [k.rest, h.rest]
  · intro i hi; rw [k.splits i (h.cur ▸ hi), h.splits i hi]
  · intro i hi; rw [k.groups i (by rw [State.gk, h.cur]; exact hi), h.groups i hi]
  · intro c; exact Core.alike_trans (h.cores c) (k.cores c)

theorem onlyHere_modSp (f : Split → Split) (s : State) : OnlyHere s (s.modSp f) :=
  ⟨rfl, fun _ h => TMap.rd_mod_ne _ _ h, fun _ _ => rfl, fun _ => rfl⟩
theorem onlyHere_modGr (f : Group → Group) (s : State) : OnlyHere s (s.modGr f) :=
  ⟨rfl, fun _ _ => rfl, fun _ h => TMap.rd_mod_ne _ _ h, fun _ => rfl⟩
theorem onlyHere_modCore (k : Nat) (f : Core → Core) (hf : ∀ c, Core.alike c (f c)) (s : State) : OnlyHere s (s.modCore k f) := by
  refine ⟨rfl, fun _ _ => rfl, fun _ _ => rfl, fun c => ?_⟩
  rw [State.modCore_cores, TMap.rd_mod]
  split
  · subst_vars; exact hf _
  · rfl
theorem onlyHere_coreEv (c p e n : Nat) (s : State) : OnlyHere s (s.coreEv c p e n) := onlyHere_modCore _ _ (fun _ => by simp only [Core.alike]) s
theorem onlyHere_freeSlot (k : Nat) (s : State) : OnlyHere s (s.freeSlot k) :=
  ⟨rfl, fun _ _ => rfl, fun _ _ => rfl, fun c => by
    rw [State.freeSlot_cores, TMap.rd_map _ (fun c : Core => { c with slots := c.slots.filter fun x => x.2 != k + 1 }) rfl]
    simp only [Core.alike]⟩
theorem onlyHere_lateWrite (c l f : Nat) (s : State) : OnlyHere s (s.lateWrite c l f) := onlyHere_modGr _ s
theorem onlyHere_setS (n : Nat) (x : W64) (s : State) : OnlyHere s (s.setS n x) := onlyHere_modSp _ s

theorem onlyHere_endClause (pc : W64) (s : State) : OnlyHere s (s.endClause pc) := by
  unfold State.endClause
  by_cases h : s.sp.yielding = true
  · simp only [if_pos h]
    exact ((onlyHere_freeSlot s.cur s).trans (onlyHere_modGr _ _)).trans (onlyHere_modSp _ _)
  · simp only [if_neg h]
    exact (onlyHere_freeSlot s.cur s).trans (onlyHere_modSp _ _)

theorem onlyHere_adv (n : Nat) (s : State) : OnlyHere s (s.adv n) := by
  unfold State.adv
  by_cases h : s.sp.idx + 1 < s.sp.count
  · simp only [if_pos h]
    exact (onlyHere_coreEv s.cr s.pt 0x03 1 s).trans (onlyHere_modSp _ _)
  · simp only [if_neg h]
    exact (onlyHere_coreEv s.cr s.pt 0x03 1 s).trans (onlyHere_endClause _ _)

theorem onlyHere_jumpTo (pc : W64) (s : State) : OnlyHere s (s.jumpTo pc) :=
  OnlyHere.trans (onlyHere_coreEv _ _ _ _ _) (onlyHere_endClause _ _)

/-! ### The end of an instruction -/

/-- The end of a clause: where the split goes, and that its registers and its group's stay. -/
theorem endClause_spec (pc : W64) (s : State) :
    GoesTo pc ((s.endClause pc).splits.rd s.cur) ∧ Split.alike s.sp ((s.endClause pc).splits.rd s.cur) ∧
      Group.alike s.gr ((s.endClause pc).groups.rd s.gk) := by
  unfold State.endClause
  by_cases h : s.sp.yielding = true
  · simp only [if_pos h]
    refine ⟨⟨?_, ?_, ?_⟩, ?_, ?_⟩ <;>
      simp [State.sp, State.gr, State.gk, Split.alike, Group.alike]
  · simp only [if_neg h]
    refine ⟨⟨?_, ?_, ?_⟩, ?_, ?_⟩ <;>
      simp [State.sp, State.gr, State.gk, Split.alike, Group.alike]

theorem jumpTo_spec (pc : W64) (s : State) :
    GoesTo pc ((s.jumpTo pc).splits.rd s.cur) ∧ Split.alike s.sp ((s.jumpTo pc).splits.rd s.cur) ∧
      Group.alike s.gr ((s.jumpTo pc).groups.rd s.gk) := endClause_spec pc (s.coreEv _ _ _ _)

/-- The end of an instruction of `n` parcels. -/
theorem adv_spec (n : Nat) (s : State) :
    GoesOn n s.sp ((s.adv n).splits.rd s.cur) ∧ Split.alike s.sp ((s.adv n).splits.rd s.cur) ∧
      Group.alike s.gr ((s.adv n).groups.rd s.gk) := by
  unfold State.adv
  by_cases h : s.sp.idx + 1 < s.sp.count
  · simp only [if_pos h]
    refine ⟨⟨?_, ?_⟩, ?_, ?_⟩
    · intro _; simp [State.sp]
    · intro h'; omega
    · simp [State.sp, Split.alike]
    · simp [State.gr, State.gk, Group.alike]
  · simp only [if_neg h]
    have := endClause_spec (s.sp.pc + BitVec.ofNat 64 (2 * (s.sp.off + n))) (s.coreEv s.cr s.pt 0x03 1)
    refine ⟨⟨fun h' => absurd h' h, fun _ => ⟨this.1.pc_, this.1.begun, this.1.code⟩⟩, this.2.1, this.2.2⟩

/-! ### Positions and registers -/

theorem mem_positions {m : W64} {p : Nat} : p ∈ positions m ↔ p < 64 ∧ m.getLsbD p = true := by
  simp [positions, List.mem_filter]

theorem positions_lt {m : W64} {p : Nat} (h : p ∈ positions m) : p < 64 := (mem_positions.1 h).1

theorem positions_zero : positions 0 = [] := by decide

theorem positions_nodup (m : W64) : (positions m).Nodup := List.Pairwise.filter _ List.nodup_range

theorem Group.setV_v (g : Group) (r p : Nat) (x : W32) : (g.setV r p x).v = g.v.wr (64 * r + p) x := rfl
theorem Group.setV_badV (g : Group) (r p : Nat) (x : W32) : (g.setV r p x).badV = g.badV.wr (64 * r + p) false := rfl
theorem Group.setV_rest (g : Group) (r p : Nat) (x : W32) :
    g.setV r p x = { g with v := (g.setV r p x).v, badV := (g.setV r p x).badV } := rfl

theorem Group.vr_setV (g : Group) (r p r' p' : Nat) (x : W32) (h : p < 64) (h' : p' < 64) :
    (g.setV r p x).vr r' p' = if r' = r ∧ p' = p then x else g.vr r' p' := by
  unfold Group.vr
  rw [Group.setV_v, TMap.rd_wr]
  by_cases h1 : r' = r ∧ p' = p
  · rw [if_pos h1, if_pos (by omega)]
  · rw [if_neg h1, if_neg (by omega)]

theorem Group.badV_setV (g : Group) (r p n : Nat) (x : W32) (h : g.badV.rd n = false) : (g.setV r p x).badV.rd n = false := by
  rw [Group.setV_badV, TMap.rd_wr]; split <;> simp_all

/-- Register writes at a list of positions. -/
theorem Group.setVs_spec (g : Group) (r : Nat) (ps : List Nat) (f : Nat → W32) (hp : ∀ p ∈ ps, p < 64) :
    g.setVs r ps f = { g with v := (g.setVs r ps f).v, badV := (g.setVs r ps f).badV } ∧
      (∀ n, g.badV.rd n = false → (g.setVs r ps f).badV.rd n = false) ∧
      ∀ r' p', p' < 64 → (g.setVs r ps f).vr r' p' = if r' = r ∧ p' ∈ ps then f p' else g.vr r' p' := by
  induction ps generalizing g with
  | nil => exact ⟨rfl, fun _ h => h, fun _ _ _ => by simp [Group.setVs]⟩
  | cons p ps ih =>
    have ih := ih (g.setV r p (f p)) fun q hq => hp q (List.mem_cons_of_mem _ hq)
    have e : g.setVs r (p :: ps) f = (g.setV r p (f p)).setVs r ps f := rfl
    rw [e]
    refine ⟨?_, ?_, ?_⟩
    · conv => lhs; rw [ih.1]
      rw [Group.setV_rest]
    · intro n hn; exact ih.2.1 n (Group.badV_setV g r p n _ hn)
    · intro r' p' h'
      rw [ih.2.2 r' p' h', Group.vr_setV g r p r' p' _ (hp p (List.mem_cons_self ..)) h']
      by_cases h1 : r' = r <;> by_cases h2 : p' = p <;> by_cases h3 : p' ∈ ps <;> simp [h1, h2, h3] <;> simp_all

/-- Nothing poisoned is read where no word of the group is poisoned. -/
theorem sram_noPoison (h : NoPoison s) (m : W64) (rs : List Nat) (k : State → State) : s.sram m rs k = k s := by
  unfold State.sram
  split
  · rfl
  · rw [if_neg]
    simp [h _]

/-- Results enter the list of those on their way. -/
theorem lateWrites_spec (i : Instr) (es : List (Nat × Nat)) : ∀ u : State,
    let t := es.foldl (fun s e => State.lateWrite e.1 (latency i) e.2 s) u
    OnlyHere u t ∧ t.sp = u.sp ∧ t.gr = { u.gr with late := u.gr.late ++ es.map fun e => entryOf u i e.1 e.2 } := by
  induction es with
  | nil => intro u; exact ⟨OnlyHere.refl u, rfl, by simp⟩
  | cons e es ih =>
    intro u
    have h := ih (u.lateWrite e.1 (latency i) e.2)
    refine ⟨(onlyHere_lateWrite _ _ _ u).trans h.1, h.2.1, h.2.2.trans ?_⟩
    have g : (u.lateWrite e.1 (latency i) e.2).gr = { u.gr with late := u.gr.late ++ [entryOf u i e.1 e.2] } := by
      simp [State.gr, State.gk, entryOf]
    rw [g]
    simp [entryOf, State.act, State.sp]

/-- A change of the executing group, its results on their way, then the end of the instruction. -/
theorem groupThenAdv (i : Instr) (f : Group → Group) (es : List (Nat × Nat)) (n : Nat) (s : State) (hf : (f s.gr).late = s.gr.late) :
    let t := (es.foldl (fun s e => State.lateWrite e.1 (latency i) e.2 s) (s.modGr f)).adv n
    OnlyHere s t ∧ GoesOn n s.sp (t.splits.rd s.cur) ∧ Split.alike s.sp (t.splits.rd s.cur) ∧
      Group.alike { f s.gr with late := s.gr.late ++ es.map fun e => entryOf s i e.1 e.2 } (t.groups.rd s.gk) := by
  have h := lateWrites_spec i es (s.modGr f)
  dsimp only at h ⊢
  generalize es.foldl (fun s e => State.lateWrite e.1 (latency i) e.2 s) (s.modGr f) = u at h ⊢
  have a := adv_spec n u
  have c : u.cur = s.cur := h.1.cur
  have e : (s.modGr f).gr = f s.gr := by simp [State.gr, State.gk]
  rw [h.2.1, c, State.gk, c] at a
  refine ⟨((onlyHere_modGr f s).trans h.1).trans (onlyHere_adv n u), a.1, a.2.1, ?_⟩
  have x := a.2.2
  rw [h.2.2, e, hf] at x
  exact x

theorem lateAfter_zero {i : Instr} {es : List (Nat × Nat)} (h : s.act = 0) : lateAfter s i es = s.gr.late := by simp [lateAfter, h]
theorem lateAfter_act {i : Instr} {es : List (Nat × Nat)} (h : s.act ≠ 0) :
    lateAfter s i es = s.gr.late ++ es.map fun e => entryOf s i e.1 e.2 := by rw [lateAfter, if_neg h]

/-- An instruction that only ends. -/
theorem onlyAdv (n : Nat) (s : State) :
    OnlyHere s (s.adv n) ∧ GoesOn n s.sp ((s.adv n).splits.rd s.cur) ∧ Split.alike s.sp ((s.adv n).splits.rd s.cur) ∧
      Group.alike s.gr ((s.adv n).groups.rd s.gk) := ⟨onlyHere_adv n s, adv_spec n s⟩

/-! ### Results by shape -/

theorem plain_of {i : Instr} {n : Nat} {t : State} (hi : exec i s = .next t) (hn : i.parcels = n) (ho : OnlyHere s t)
    (hg : GoesOn n s.sp (t.splits.rd s.cur)) : Plain i s t := ⟨hi, ho, by rw [hn]; exact hg⟩

theorem vr_of_alike {g h : Group} (e : Group.alike g h) (r p : Nat) : h.vr r p = g.vr r p := by
  unfold Group.alike at e; rw [e]; rfl
theorem badV_of_alike {g h : Group} (e : Group.alike g h) : h.badV = g.badV := by
  unfold Group.alike at e; rw [e]
theorem v_of_alike {g h : Group} (e : Group.alike g h) : h.v = g.v := by
  unfold Group.alike at e; rw [e]
theorem p_of_alike {g h : Group} (e : Group.alike g h) : h.p = g.p := by
  unfold Group.alike at e; rw [e]

theorem mem_lands {i : Instr} {r p : Nat} (hp : p < 64) : p ∈ s.lands r (latency i) ↔ landsAt s i r p = true := by
  simp [State.lands, mem_positions, landsAt, hp]
theorem lands_lt {r l p : Nat} (h : p ∈ s.lands r l) : p < 64 := positions_lt (List.mem_filter.1 h).1
theorem landsAt_zero {i : Instr} {r p : Nat} (h : s.act = 0) : landsAt s i r p = false := by simp [landsAt, h]

/-- The float flags of a mask are those that any of its lanes raises. -/
theorem testBit_raised (m : W64) (f : Nat → Nat) (k : Nat) :
    (raised m f).testBit k = true ↔ ∃ p, m.getLsbD p = true ∧ (f p).testBit k = true := by
  have : ∀ (ps : List Nat) (r : Nat), (ps.foldl (fun r p => r ||| f p) r).testBit k = true ↔ r.testBit k = true ∨ ∃ p ∈ ps, (f p).testBit k = true := by
    intro ps
    induction ps with
    | nil => intro r; simp
    | cons p ps ih => intro r; simp [ih, or_assoc]
  unfold raised
  rw [this]
  simp only [Nat.zero_testBit, Bool.false_eq_true, false_or, mem_positions]
  exact ⟨fun ⟨p, h, q⟩ => ⟨p, h.2, q⟩, fun ⟨p, h, q⟩ => ⟨p, ⟨BitVec.lt_of_getLsbD h, h⟩, q⟩⟩

/-- The three parts that a lane result with words of vector registers has in common. -/
theorem words_of_alike {g h : Group} {l : List Late} {P : Group → Prop} (hP : ∀ x y : Group, x.v = y.v → P x → P y)
    (w : g = { s.gr with v := g.v, badV := g.badV }) (b : ∀ n, g.badV.rd n = false) (v : P g) (a : Group.alike { g with late := l } h) :
    Group.alike { s.gr with v := h.v, badV := h.badV, late := l } h ∧ (∀ n, h.badV.rd n = false) ∧ P h := by
  have hv := v_of_alike a
  have hb := badV_of_alike a
  refine ⟨?_, fun n => by rw [hb]; exact b n, hP g _ hv.symm v⟩
  rw [hv, hb]
  rw [w] at a
  exact a

theorem single_v {i : Instr} {d : Nat} {f : Nat → W32} (x y : Group) (e : x.v = y.v) (h : Single s i d f x) : Single s i d f y :=
  fun r p hp => by rw [Group.vr, ← e]; exact h r p hp
theorem pair_v {i : Instr} {d : Nat} {f : Nat → W64} (x y : Group) (e : x.v = y.v) (h : Pair s i d f x) : Pair s i d f y :=
  fun r p hp => by rw [Group.vr, ← e]; exact h r p hp

/-- One word in every lane where the result lands. -/
theorem single_write (i : Instr) (d : Nat) (f : Nat → W32) :
    let g := s.gr.setVs d (s.lands d (latency i)) f
    g = { s.gr with v := g.v, badV := g.badV } ∧ (NoPoison s → ∀ n, g.badV.rd n = false) ∧ Single s i d f g := by
  have w := Group.setVs_spec s.gr d (s.lands d (latency i)) f fun _ h => lands_lt h
  exact ⟨w.1, fun hs n => w.2.1 n (hs n), fun r p hp => by rw [w.2.2 r p hp]; simp only [mem_lands hp]⟩

/-- Both words of a pair. -/
theorem pair_write (i : Instr) (d : Nat) (f : Nat → W64) :
    let g := (s.gr.setVs d (s.lands d (latency i)) fun p => (f p).setWidth 32).setVs (d + 1) (s.lands (d + 1) (latency i)) fun p => (f p >>> 32).setWidth 32
    g = { s.gr with v := g.v, badV := g.badV } ∧ (NoPoison s → ∀ n, g.badV.rd n = false) ∧ Pair s i d f g := by
  have w := Group.setVs_spec s.gr d (s.lands d (latency i)) (fun p => (f p).setWidth 32) fun _ h => lands_lt h
  have x := Group.setVs_spec (s.gr.setVs d (s.lands d (latency i)) fun p => (f p).setWidth 32) (d + 1) (s.lands (d + 1) (latency i))
    (fun p => (f p >>> 32).setWidth 32) fun _ h => lands_lt h
  refine ⟨?_, fun hs n => x.2.1 n (w.2.1 n (hs n)), fun r p hp => ?_⟩
  · conv => lhs; rw [x.1]
    rw [w.1]
  · rw [x.2.2 r p hp, w.2.2 r p hp]
    simp only [mem_lands hp]
    by_cases h1 : r = d
    · subst h1; simp
    · simp [h1]

/-- A lane instruction with no lane active has no result. -/
theorem words_of_idle {P : Group → Prop} {i : Instr} {es : List (Nat × Nat)} {h : Group} (hP : ∀ x y : Group, x.v = y.v → P x → P y) (hs : NoPoison s)
    (hm : s.act = 0) (v : P s.gr) (a : Group.alike s.gr h) :
    Group.alike { s.gr with v := h.v, badV := h.badV, late := lateAfter s i es } h ∧ (∀ n, h.badV.rd n = false) ∧ P h :=
  words_of_alike hP rfl hs v (by rw [lateAfter_zero hm]; exact a)

theorem single_idle {i : Instr} {d : Nat} {f : Nat → W32} (hm : s.act = 0) : Single s i d f s.gr := fun r p _ => by simp [landsAt_zero hm]
theorem pair_idle {i : Instr} {d : Nat} {f : Nat → W64} (hm : s.act = 0) : Pair s i d f s.gr := fun r p _ => by simp [landsAt_zero hm]

theorem setVs_late (g : Group) (r : Nat) (ps : List Nat) (f : Nat → W32) : (g.setVs r ps f).late = g.late := by
  have : ∀ (ps : List Nat) (g : Group), (ps.foldl (fun (g : Group) p => g.setV r p (f p)) g).late = g.late := by
    intro ps
    induction ps with
    | nil => intro g; rfl
    | cons p ps ih => intro g; exact ih _
  exact this ps g

/-- What an instruction that writes words of vector registers does, in its two cases: `W` writes them, `es` are their entries. -/
theorem words_of {i : Instr} {n : Nat} {W : Group → Group} {es : List (Nat × Nat)} {P : Group → Prop} (hP : ∀ x y : Group, x.v = y.v → P x → P y)
    (hs : NoPoison s) (hl : (W s.gr).late = s.gr.late)
    (w : W s.gr = { s.gr with v := (W s.gr).v, badV := (W s.gr).badV } ∧ (NoPoison s → ∀ n, (W s.gr).badV.rd n = false) ∧ P (W s.gr))
    (idle : s.act = 0 → P s.gr) (hn : i.parcels = n)
    (hi : exec i s = .next ((if s.act = 0 then s else es.foldl (fun s e => State.lateWrite e.1 (latency i) e.2 s) (s.modGr W)).adv n)) :
    ∃ t, Plain i s t ∧ Split.alike s.sp (t.splits.rd s.cur) ∧
      (let g := t.groups.rd s.gk
       Group.alike { s.gr with v := g.v, badV := g.badV, late := lateAfter s i es } g ∧ (∀ n, g.badV.rd n = false) ∧ P g) := by
  by_cases hm : s.act = 0
  · rw [if_pos hm] at hi
    have h := onlyAdv n s
    exact ⟨_, plain_of hi hn h.1 h.2.1, h.2.2.1, words_of_idle hP hs hm (idle hm) h.2.2.2⟩
  · rw [if_neg hm] at hi
    have h := groupThenAdv i W es n s hl
    refine ⟨_, plain_of hi hn h.1 h.2.1, h.2.2.1, ?_⟩
    rw [lateAfter_act hm]
    exact words_of_alike hP w.1 (w.2.1 hs) w.2.2 h.2.2.2

theorem laneResult_of (hs : NoPoison s) {i : Instr} {d n : Nat} {srcs : List Nat} {f : Nat → W32}
    (hi : exec i s = .next (s.laneOut d (latency i) n srcs f)) (hn : i.parcels = n) : LaneResult i s d f := by
  rw [State.laneOut, sram_noPoison hs] at hi
  exact words_of (W := fun g => g.setVs d (s.lands d (latency i)) f) (es := [(d, 0)]) single_v hs (setVs_late ..) (single_write i d f) single_idle hn hi

theorem pairResult_of (hs : NoPoison s) {i : Instr} {d n : Nat} {srcs : List Nat} {f : Nat → W64}
    (hi : exec i s = .next (s.laneOut2 d (latency i) n srcs f)) (hn : i.parcels = n) : PairResult i s d f := by
  rw [State.laneOut2, sram_noPoison hs] at hi
  exact words_of (W := fun g => (g.setVs d (s.lands d (latency i)) fun p => (f p).setWidth 32).setVs (d + 1) (s.lands (d + 1) (latency i)) fun p => (f p >>> 32).setWidth 32)
    (es := [(d, 0), (d + 1, 0)]) pair_v hs ((setVs_late ..).trans (setVs_late ..)) (pair_write i d f) pair_idle hn hi

theorem floatResult_of (hs : NoPoison s) {i : Instr} {d n : Nat} {srcs : List Nat} {f : Nat → W32 × Nat}
    (hi : exec i s = .next (s.floatOut d (latency i) n srcs f)) (hn : i.parcels = n) : FloatResult i s d f := by
  rw [State.floatOut, sram_noPoison hs] at hi
  obtain ⟨t, a, b, c⟩ := words_of (W := fun g => g.setVs d (s.lands d (latency i)) fun p => (f p).1) (es := [(d, raised s.act fun p => (f p).2)])
    single_v hs (setVs_late ..) (single_write i d fun p => (f p).1) single_idle hn hi
  exact ⟨t, _, a, b, testBit_raised s.act fun p => (f p).2, c⟩

theorem floatPairResult_of (hs : NoPoison s) {i : Instr} {d n : Nat} {srcs : List Nat} {f : Nat → W64 × Nat}
    (hi : exec i s = .next (s.floatOut2 d (latency i) n srcs f)) (hn : i.parcels = n) : FloatPairResult i s d f := by
  rw [State.floatOut2, sram_noPoison hs] at hi
  obtain ⟨t, a, b, c⟩ := words_of (W := fun g => (g.setVs d (s.lands d (latency i)) fun p => ((f p).1).setWidth 32).setVs (d + 1) (s.lands (d + 1) (latency i)) fun p => ((f p).1 >>> 32).setWidth 32)
    (es := [(d, raised s.act fun p => (f p).2), (d + 1, 0)]) pair_v hs ((setVs_late ..).trans (setVs_late ..)) (pair_write i d fun p => (f p).1) pair_idle hn hi
  exact ⟨t, _, a, b, testBit_raised s.act fun p => (f p).2, c⟩

/-! #### Predicates -/

theorem getLsbD_maskOf (ps : List Nat) (k : Nat) : (maskOf ps).getLsbD k = true ↔ k < 64 ∧ k ∈ ps := by
  have : ∀ (ps : List Nat) (m : W64), (ps.foldl (fun m p => m ||| (1#64 <<< p)) m).getLsbD k = true ↔
      m.getLsbD k = true ∨ (k < 64 ∧ k ∈ ps) := by
    intro ps
    induction ps with
    | nil => intro m; simp
    | cons p ps ih =>
      intro m
      simp only [List.foldl, ih, List.mem_cons, BitVec.getLsbD_or, BitVec.getLsbD_shiftLeft, BitVec.getLsbD_one, Bool.or_eq_true,
        Bool.and_eq_true, decide_eq_true_eq, Bool.not_eq_true']
      constructor
      · rintro ((h | ⟨⟨h1, h2⟩, h3, h4⟩) | h)
        · exact .inl h
        · right; refine ⟨h1, .inl ?_⟩
          have : ¬ k < p := by simpa using h2
          omega
        · exact .inr ⟨h.1, .inr h.2⟩
      · rintro (h | ⟨h1, h | h⟩)
        · exact .inl (.inl h)
        · left; right; subst h; simp [h1]
        · exact .inr ⟨h1, h⟩
  simpa [maskOf] using this ps 0

/-- A predicate written under a mask. -/
theorem getLsbD_setP (g : Group) (d : Nat) (m x : W64) (n p : Nat) (hp : p < 64) :
    ((g.setP d m x).pr n).getLsbD p = if n = d ∧ d ≠ 0 ∧ m.getLsbD p = true then x.getLsbD p else (g.pr n).getLsbD p := by
  unfold Group.setP
  by_cases hd : d = 0
  · simp [hd]
  · simp only [hd, if_false]
    unfold Group.pr
    by_cases hn : n = 0
    · subst hn; simp [Ne.symm hd]
    · simp only [hn, if_false]
      rw [TMap.rd_wr]
      by_cases h : n = d
      · subst h
        by_cases hm : m.getLsbD p = true
        · simp [hm, hd]
        · simp only [Bool.not_eq_true] at hm
          have hm' : m[p] = false := by rw [← BitVec.getLsbD_eq_getElem hp]; exact hm
          simp [hm', hp]
      · simp [h]

theorem setP_rest (g : Group) (d : Nat) (m x : W64) : g.setP d m x = { g with p := (g.setP d m x).p } := by
  unfold Group.setP; split <;> rfl

theorem pr_of_alike {g h : Group} (e : Group.alike g h) (n : Nat) : h.pr n = g.pr n := by
  unfold Group.alike at e; rw [e]; rfl

theorem predResult_of (hs : NoPoison s) {i : Instr} {d n : Nat} {srcs : List Nat} {f : Nat → Bool}
    (hi : exec i s = .next (s.predOut d (latency i) n srcs f)) (hn : i.parcels = n) : PredResult i s d f := by
  rw [State.predOut, sram_noPoison hs] at hi
  by_cases hm : s.act = 0
  · rw [if_pos hm] at hi
    have h := onlyAdv n s
    refine ⟨_, plain_of hi hn h.1 h.2.1, h.2.2.1, ?_, ?_⟩
    · rw [p_of_alike h.2.2.2, lateAfter_zero hm]; exact h.2.2.2
    · intro r p _; rw [pr_of_alike h.2.2.2, hm]; simp
  · rw [if_neg hm] at hi
    have h := groupThenAdv i (fun g => g.setP d s.act (maskOf ((positions s.act).filter f))) [(192 + d, 0)] n s (by rw [setP_rest])
    refine ⟨_, plain_of hi hn h.1 h.2.1, h.2.2.1, ?_, ?_⟩
    · have a := h.2.2.2
      have c := p_of_alike a
      rw [setP_rest] at a
      simp only [List.foldl_cons, List.foldl_nil] at a c ⊢
      rw [c, lateAfter_act hm]; exact a
    · intro r p hp
      have b := pr_of_alike h.2.2.2 r
      simp only [List.foldl_cons, List.foldl_nil] at b ⊢
      rw [b]
      refine (getLsbD_setP s.gr d s.act _ r p hp).trans ?_
      by_cases h1 : r = d ∧ d ≠ 0 ∧ s.act.getLsbD p = true
      · rw [if_pos h1, if_pos h1, Bool.eq_iff_iff, getLsbD_maskOf]
        simp [List.mem_filter, mem_positions, hp, h1.2.2]
      · rw [if_neg h1, if_neg h1]

/-! #### Scalars -/

theorem s_of_alike {x y : Split} (e : Split.alike x y) : y.s = x.s := by
  unfold Split.alike at e; rw [e]

theorem scalarFlagResult_of {i : Instr} {d n fl : Nat} {x : W64}
    (hi : exec i s = .next ((s.setLate d (latency i) fl x).adv n)) (hn : i.parcels = n) : ScalarFlagResult i s d x fl := by
  have key : ∀ u : State, OnlyHere s u → u.sp = { s.sp with s := u.sp.s } → u.gr = s.gr → u.clock = s.clock →
      (∀ k, u.sp.s.rd k = if k = d ∧ s.gr.overtakenS s.cur .own d (s.clock + latency i) = false then x else s.sr k) →
      exec i s = .next ((u.lateWrite (128 + d) (latency i) fl).adv n) → ScalarFlagResult i s d x fl := by
    intro u o e eg ec hv hi
    have c : u.cur = s.cur := o.cur
    have w := lateWrites_spec i [(128 + d, fl)] u
    dsimp only [List.foldl] at w
    generalize u.lateWrite (128 + d) (latency i) fl = v at w hi
    have cv : v.cur = s.cur := w.1.cur.trans c
    have h := adv_spec n v
    rw [w.2.1, cv, State.gk, cv, w.2.2, eg] at h
    have a := s_of_alike h.2.1
    refine ⟨_, ⟨hi, (o.trans w.1).trans (onlyHere_adv n v), ?_⟩, ?_, ?_, ?_⟩
    · rw [hn]
      have := h.1
      rw [e] at this
      exact ⟨this.inside, this.last⟩
    · unfold Split.alikeButScalars
      rw [a, ← e]; exact h.2.1
    · have : entryOf u i (128 + d) fl = entryOf s i (128 + d) fl := by
        unfold entryOf State.act
        rw [e, c, ec]
      simp only [List.map_cons, List.map_nil, this] at h
      exact h.2.2
    · intro k; rw [a]; exact hv k
  unfold State.setLate at hi
  by_cases ho : s.gr.overtakenS s.cur .own d (s.clock + latency i) = true
  · rw [if_pos ho] at hi
    exact key s (OnlyHere.refl s) rfl rfl rfl (fun k => by simp [ho, State.sr]) hi
  · rw [if_neg ho] at hi
    have e : (s.setS d x).sp = { s.sp with s := s.sp.s.wr d x } := by simp [State.sp]
    refine key (s.setS d x) (onlyHere_setS d x s) (by rw [e]) rfl rfl (fun k => ?_) hi
    rw [e]
    simp only [Bool.not_eq_true] at ho
    simp only [TMap.rd_wr, ho, and_true]
    rfl

theorem scalarResult_of {i : Instr} {d n : Nat} {x : W64}
    (hi : exec i s = .next (s.sclOut d (latency i) n x)) (hn : i.parcels = n) : ScalarResult i s d x := scalarFlagResult_of hi hn

theorem noResult_of {i : Instr} {n : Nat} (hi : exec i s = .next (s.adv n)) (hn : i.parcels = n) : NoResult i s :=
  let h := onlyAdv n s
  ⟨_, plain_of hi hn h.1 h.2.1, h.2.2.1, h.2.2.2⟩

end Sys2Proof.Machine
end

