-- ==== Sys2Proof/Laws/Standing.lean ====
section
/-! SUPPORT. What keeps splits at instructions and live splits in issue slots (`Standing`), for the operations that all meanings share. -/

namespace Sys2Proof.Machine

variable {s t : State}

/-! ### Clauses -/

theorem fld_join32 (p q : W16) : fld (join32 p q) 31 1 = if q.getLsbD 15 = true then 1 else 0 := by
  have hp := p.isLt
  have hq : q.getLsbD 15 = (q.toNat / 2 ^ 15 % 2 == 1) := by
    rw [BitVec.getLsbD, Nat.testBit_eq_decide_div_mod_eq]; rfl
  simp only [fld, join32, hq, beq_iff_eq]
  split <;> omega

/-- An instruction takes the parcels that its first two say. -/
theorem decode_rest {ps rest : List W16} {i : Instr} (h : decode ps = .ok (i, rest)) : rest = ps.drop (parcelsAt ps) := by
  match ps with
  | [] => simp only [decode] at h; cases h
  | [p] =>
    simp only [decode] at h
    split at h
    · cases h; rfl
    · cases h
  | p :: q :: ps =>
    have hp : (p.toNat % 2 = 0) = ¬ (p.getLsbD 0 = true) := by
      rw [BitVec.getLsbD, Nat.testBit_zero]; simp
    simp only [decode, hp] at h
    by_cases h0 : p.getLsbD 0 = true
    · rw [if_neg (not_not_intro h0)] at h
      simp only [parcelsAt, if_pos h0]
      by_cases hl : hasLit (join32 p q) = true
      · rw [if_pos hl] at h
        rw [if_pos hl]
        have f := fld_join32 p q
        have lit : ∀ (wd : Bool) k, litWords wd ps k = .ok (i, rest) → rest = ps.drop (if wd = true then 4 else 2) := by
          intro wd k e
          unfold litWords at e
          split at e
          · cases e; rfl
          · cases e; rfl
          · cases e
        have wd : (fld (join32 p q) 31 1 == 1) = q.getLsbD 15 := by rw [f]; cases q.getLsbD 15 <;> rfl
        have fin : ∀ n : Nat, rest = ps.drop (if q.getLsbD 15 = true then 4 else 2) →
            rest = List.drop (if q.getLsbD 15 = true then 6 else 4) (p :: q :: ps) := by
          intro _ e; rw [e]; split <;> rfl
        unfold parseLit at h
        split at h
        · split at h
          · rename_i hz
            split at h
            · cases h
              have : q.getLsbD 15 = false := by
                have z : fld (join32 p q) 17 15 = 0 := by simpa using hz
                cases hq : q.getLsbD 15
                · rfl
                · rw [hq, if_pos rfl] at f; simp only [fld] at z f; omega
              rw [this]; rfl
            · cases h
          · cases h
        · split at h
          · refine fin 0 ?_
            rw [wd] at h
            split at h <;> exact lit _ _ h
          · cases h
      · rw [if_neg hl] at h
        rw [if_neg hl]
        split at h
        · cases h
        · split at h
          · cases h; rfl
          · cases h
    · rw [if_pos h0] at h
      cases h
      simp only [parcelsAt, if_neg h0, List.drop_succ_cons, List.drop_zero]

theorem parcelsOf_succ : ∀ (n : Nat) (ps : List W16), parcelsOf (n + 1) ps = parcelsOf n ps + parcelsAt (ps.drop (parcelsOf n ps))
  | 0, ps => by simp [parcelsOf]
  | n + 1, ps => by
    rw [parcelsOf, parcelsOf_succ n, parcelsOf, List.drop_drop]
    omega

/-- Each instruction of a clause stands where the parcels before it end. -/
theorem clauseRuns_at : ∀ {n j : Nat} {ps : List W16}, clauseRuns n ps → j < n → ∃ i rest, decode (ps.drop (parcelsOf j ps)) = .ok (i, rest)
  | n + 1, 0, ps, ⟨i, rest, h, _⟩, _ => ⟨i, rest, by simpa [parcelsOf] using h⟩
  | n + 1, j + 1, ps, ⟨i, rest, h, k⟩, hj => by
    obtain ⟨a, b, e⟩ := clauseRuns_at k (Nat.lt_of_succ_lt_succ hj)
    rw [decode_rest h, List.drop_drop] at e
    exact ⟨a, b, by rw [parcelsOf]; exact e⟩

/-- A clause that the check of R44 passes decodes whole. -/
theorem clauseRuns_of_firstBad (w v t : Nat) : ∀ (n : Nat) (ps : List W16) (off : Nat), firstBad w v t n ps off = none → clauseRuns n ps
  | 0, _, _, _ => trivial
  | n + 1, ps, off, h => by
    rw [firstBad] at h
    split at h
    · cases h
    · rename_i i rest e
      split at h
      · cases h
      · exact ⟨i, rest, e, clauseRuns_of_firstBad w v t n rest _ h⟩

/-- A split within a clause has an instruction to run. -/
theorem Split.standing.next {x : Split} (h : x.standing) (b : x.begun = true) : ∃ i rest, decode (x.code.drop x.off) = .ok (i, rest) := by
  obtain ⟨hi, ho, hr⟩ := h b
  obtain ⟨i, rest, e⟩ := clauseRuns_at hr hi
  exact ⟨i, rest, by rw [ho, ← List.drop_drop]; exact e⟩

/-- The next instruction of the clause. -/
theorem Split.standing.step {x : Split} (h : x.standing) (hl : x.idx + 1 < x.count) (y : Split) (hy : y.begun = x.begun) (hc : y.count = x.count)
    (hd : y.code = x.code) (hi : y.idx = x.idx + 1) (ho : x.begun = true → y.off = x.off + parcelsAt (x.code.drop x.off)) : y.standing := by
  intro b
  rw [hy] at b
  obtain ⟨_, o, r⟩ := h b
  refine ⟨by rw [hi, hc]; exact hl, ?_, by rw [hc, hd]; exact r⟩
  rw [ho b, hi, hd, parcelsOf_succ, o, ← List.drop_drop]
  omega

theorem Split.standing_of_not_begun {x : Split} (h : x.begun = false) : x.standing := fun b => by rw [h] at b; cases b

/-! ### Changes of a state -/

theorem TMap.mem_del {α : Type} {m : TMap α} {k : Nat} {e : Nat × α} (h : e ∈ m.del k) : e ∈ m := by
  rw [TMap.del_eq_filter] at h
  exact (List.mem_filter.1 h).1
theorem TMap.mem_wr {α : Type} [Inhabited α] [DecidableEq α] {m : TMap α} {k : Nat} {v : α} {e : Nat × α} (h : e ∈ m.wr k v) :
    e = (k, v) ∨ e ∈ m := by
  unfold TMap.wr TMap.setD at h
  split at h
  · exact .inr (TMap.mem_del h)
  · exact TMap.mem_put h

/-- Nothing that `Standing` reads is different, but for slots that are free. -/
theorem Standing.of_eq (h : Standing s) (hs : t.splits = s.splits) (hg : t.groups = s.groups)
    (hc : ∀ c, ∀ e ∈ (t.cores.rd c).slots, e ∈ (s.cores.rd c).slots) : Standing t :=
  ⟨fun k => by rw [hs]; exact h.splits k, fun g => by rw [hg]; exact h.trapped g, fun g => by rw [hg]; exact h.regions g,
   fun c k e he hk => by rw [hs]; exact h.slots c k e (hc c e he) hk⟩

theorem Standing.modSplit (h : Standing s) (k : Nat) (f : Split → Split) (hf : (s.splits.rd k).standing → (f (s.splits.rd k)).standing)
    (hl : (s.splits.rd k).live = true ∨ (s.splits.rd k).wait = .ending → (f (s.splits.rd k)).live = true ∨ (f (s.splits.rd k)).wait = .ending) :
    Standing (s.modSplit k f) := by
  refine ⟨fun j => ?_, h.trapped, h.regions, fun c j e he hk => ?_⟩
  · rw [State.modSplit_splits, TMap.rd_mod]
    split
    · exact hf (h.splits k)
    · exact h.splits j
  · rw [State.modSplit_splits, TMap.rd_mod]
    split
    · subst_vars; exact hl (h.slots c _ e he hk)
    · exact h.slots c j e he hk

theorem live_modSplit (k : Nat) (f : Split → Split) (hf : (f (s.splits.rd k)).live = (s.splits.rd k).live) (j : Nat) :
    ((s.modSplit k f).splits.rd j).live = (s.splits.rd j).live := by
  rw [State.modSplit_splits, TMap.rd_mod]
  split
  · subst_vars; exact hf
  · rfl

theorem Standing.modGroup (h : Standing s) (g : Nat) (f : Group → Group) (ht : (f (s.groups.rd g)).tSplit.standing)
    (hr : ∀ e ∈ (f (s.groups.rd g)).rSplits, e.2.standing) : Standing (s.modGroup g f) := by
  refine ⟨h.splits, fun j => ?_, fun j => ?_, h.slots⟩
  · rw [State.modGroup_groups, TMap.rd_mod]
    split
    · exact ht
    · exact h.trapped j
  · rw [State.modGroup_groups, TMap.rd_mod]
    split
    · exact hr
    · exact h.regions j

/-- A change of a group that leaves what it keeps of its splits. -/
theorem Standing.modGroup' (h : Standing s) (g : Nat) (f : Group → Group) (ht : (f (s.groups.rd g)).tSplit = (s.groups.rd g).tSplit)
    (hr : (f (s.groups.rd g)).rSplits = (s.groups.rd g).rSplits) : Standing (s.modGroup g f) :=
  h.modGroup g f (by rw [ht]; exact h.trapped g) (by rw [hr]; exact h.regions g)

theorem Standing.modCore (h : Standing s) (c : Nat) (f : Core → Core) (hf : ∀ e ∈ (f (s.cores.rd c)).slots, e ∈ (s.cores.rd c).slots) :
    Standing (s.modCore c f) :=
  h.of_eq rfl rfl fun d e he => by
    rw [State.modCore_cores, TMap.rd_mod] at he
    split at he
    · subst_vars; exact hf e he
    · exact he

theorem Standing.coreEv (h : Standing s) (c p e n : Nat) : Standing (s.coreEv c p e n) := h.modCore c _ fun _ he => he

/-- What is left of the slots when a split gives up its own. -/
theorem mem_freeSlot {k c : Nat} {e : Nat × Nat} (h : e ∈ ((s.freeSlot k).cores.rd c).slots) : e ∈ (s.cores.rd c).slots ∧ e.2 ≠ k + 1 := by
  rw [State.freeSlot_cores, TMap.rd_map _ (fun c : Core => { c with slots := c.slots.filter fun x => x.2 != k + 1 }) rfl] at h
  obtain ⟨a, b⟩ := List.mem_filter.1 h
  exact ⟨a, by simpa using b⟩
theorem Standing.freeSlot (h : Standing s) (k : Nat) : Standing (s.freeSlot k) := h.of_eq rfl rfl fun _ _ he => (mem_freeSlot he).1

/-- A split without a slot may become anything that stands. -/
theorem Standing.freeSlot_modSplit (h : Standing s) (k : Nat) (f : Split → Split) (hf : (s.splits.rd k).standing → (f (s.splits.rd k)).standing) :
    Standing ((s.freeSlot k).modSplit k f) := by
  refine ⟨fun j => ?_, h.trapped, h.regions, fun c j e he hk => ?_⟩
  · rw [State.modSplit_splits, TMap.rd_mod]
    split
    · exact hf (h.splits k)
    · exact h.splits j
  · have m := mem_freeSlot (s := s) he
    have : j ≠ k := fun e' => m.2 (by rw [hk, e'])
    rw [State.modSplit_splits, TMap.rd_mod_ne _ _ this]
    exact h.slots c j e m.1 hk

/-! ### The end of an instruction -/

theorem Standing.endClause (h : Standing s) (hl : s.sp.live = true) (pc : W64) : Standing (s.endClause pc) := by
  have e : ∀ u : State, Standing u → u.cur = s.cur → u.splits = s.splits → Standing (u.modSp fun x => { x with
      pc := pc, code := [], begun := false, count := 0, idx := 0, off := 0, phase := 0, aux := 0, xl := [], pass := 0
      yielding := false, nap := 0
      wait := if s.sp.nap = 0 then .ready else .asleep
      until_ := if s.sp.nap = 0 then 0 else u.clock + s.sp.nap }) := by
    intro u hu hc hs
    refine hu.modSplit _ _ (fun _ => Split.standing_of_not_begun rfl) fun _ => .inl ?_
    show (u.splits.rd u.cur).live = true
    rw [hc, hs]; exact hl
  unfold State.endClause
  by_cases y : s.sp.yielding = true
  · simp only [if_pos y]
    exact e _ ((h.freeSlot _).modGroup' _ _ rfl rfl) rfl rfl
  · simp only [if_neg y]
    exact e _ (h.freeSlot _) rfl rfl

theorem Standing.jumpTo (h : Standing s) (hl : s.sp.live = true) (pc : W64) : Standing (s.jumpTo pc) := (h.coreEv ..).endClause hl pc

/-- An instruction of `n` parcels is done. -/
theorem Standing.adv (h : Standing s) (hl : s.sp.live = true) (n : Nat) (hn : s.sp.begun = true → n = parcelsAt (s.sp.code.drop s.sp.off)) :
    Standing (s.adv n) := by
  unfold State.adv
  by_cases l : s.sp.idx + 1 < s.sp.count
  · simp only [if_pos l]
    refine (h.coreEv ..).modSplit _ _ (fun k => ?_) fun k => .inl hl
    exact Split.standing.step (x := s.sp) k l _ rfl rfl rfl rfl fun b => by rw [← hn b]; rfl
  · simp only [if_neg l]
    exact (h.coreEv ..).endClause hl _

theorem Standing.waitFor (h : Standing s) (hl : s.sp.live = true) (c : Cond) : Standing (s.waitFor c) :=
  (h.modSplit _ _ (fun k => k) fun _ => .inl hl).freeSlot _

/-- An asynchronous error touches no split, group or core. -/
theorem State.asyncErr_same (g : Nat) (s : State) :
    (s.asyncErr g).cur = s.cur ∧ (s.asyncErr g).splits = s.splits ∧ (s.asyncErr g).groups = s.groups ∧ (s.asyncErr g).cores = s.cores := by
  unfold State.asyncErr State.ask
  simp only
  split <;> split <;> (try split) <;> exact ⟨rfl, rfl, rfl, rfl⟩

/-- What a mismatch is counted on: counters and the grid's errors. -/
theorem State.mismatch_same (g : Nat) (s : State) :
    (s.mismatch g).cur = s.cur ∧ (s.mismatch g).splits = s.splits ∧ (s.mismatch g).groups = s.groups := by
  obtain ⟨a, b, c, -⟩ := State.asyncErr_same (s.teams.rd (g / 128)).grid
    (s.coreEv (s.groups.rd g).core (s.grids.rd (s.teams.rd (g / 128)).grid).part 0x0E 1)
  exact ⟨a, b, c⟩
theorem Standing.mismatch (h : Standing s) (g : Nat) : Standing (s.mismatch g) := by
  obtain ⟨-, b, c, d⟩ := State.asyncErr_same (s.teams.rd (g / 128)).grid
    (s.coreEv (s.groups.rd g).core (s.grids.rd (s.teams.rd (g / 128)).grid).part 0x0E 1)
  exact (h.coreEv ..).of_eq b c fun _ _ he => by unfold State.mismatch at he; rwa [d] at he

/-- The instruction of a split whose group's shadow gives another output is passed over. -/
theorem Standing.withhold (h : Standing s) (hl : s.sp.live = true) : Standing s.withhold := by
  obtain ⟨a, b, -⟩ := State.mismatch_same s.gk s
  have e : (s.mismatch s.gk).sp = s.sp := by unfold State.sp; rw [a, b]
  exact (h.mismatch s.gk).adv (by rw [e]; exact hl) _ fun _ => by rw [e]

/-! ### Clauses begin -/

theorem Standing.enterTrap (h : Standing s) (k : Nat) (tr : Trap) (hl : (s.splits.rd k).live = true) : Standing (s.enterTrap k tr) := by
  have sealed : ∀ g, Standing (s.sealGroup g) ∧ (s.sealGroup g).splits = s.splits := by
    intro g
    unfold State.sealGroup
    by_cases l : (s.groups.rd g).live = true ∧ (s.groups.rd g).region = .opened
    · simp only [if_pos l]
      exact ⟨(h.modGroup' _ _ rfl rfl).coreEv .., rfl⟩
    · simp only [if_neg l]
      exact ⟨h, trivial⟩
  obtain ⟨h', e⟩ := sealed (k / 4)
  unfold State.enterTrap
  simp only
  generalize State.preg _ _ _ = vec
  by_cases v : vec = 0
  · rw [if_pos v]
    exact h'.modSplit k (fun x => { x with wait := .handing tr 0 }) (fun x => x) fun _ => .inl (by rw [e]; exact hl)
  · rw [if_neg v]
    refine Standing.modSplit ?_ k _ (fun _ => Split.standing_of_not_begun rfl) fun _ => .inl ?_
    · unfold State.swapBank
      refine Standing.modGroup' ?_ _ _ rfl rfl
      refine Standing.modSplit (h'.modGroup _ _ ?_ (h'.regions _)) k _ (fun x => x) fun x => x
      exact h'.splits k
    · unfold State.swapBank
      simp only [State.modSplit_splits, State.modGroup_splits, TMap.rd_mod_same, e]
      exact hl

theorem Standing.raiseFor (h : Standing s) (k : Nat) (tr : Trap) (hl : (s.splits.rd k).live = true) : Standing (s.raiseFor k tr) := by
  have f := h.freeSlot k
  have set : ∀ u : State, Standing u → u.splits = s.splits → ∀ w, Standing (u.modSplit k fun x => { x with wait := w }) := fun u hu e w =>
    hu.modSplit _ _ (fun x => x) fun _ => .inl (by show (u.splits.rd k).live = true; rw [e]; exact hl)
  unfold State.raiseFor
  simp only
  split
  · exact set _ (Standing.mismatch (s := (s.freeSlot k).drawn 1) (f.of_eq rfl rfl fun _ _ he => he) _) (State.mismatch_same ..).2.1 _
  · split
    · exact set _ (f.coreEv ..) rfl _
    · split
      · exact set _ f rfl _
      · split
        · exact set _ (f.coreEv ..) rfl _
        · exact (f.coreEv ..).enterTrap k tr hl

theorem Standing.trap (h : Standing s) (hl : s.sp.live = true) (c : Cause) (l a : Option W64) (n : Nat) (low : W64) :
    Standing (s.trap c l a n low) := Standing.raiseFor (s := s.drawn 3) (h.of_eq rfl rfl fun _ _ he => he) _ _ hl

theorem Standing.raiseDefer (h : Standing s) (hl : s.sp.live = true) (d : Defer) : Standing (s.raiseDefer d) := by
  unfold State.raiseDefer
  simp only
  split
  · exact h.raiseFor _ _ hl
  · refine Standing.raiseFor (s := s.modSp fun x => { x with defer := x.defer.erase d })
      (h.modSplit s.cur (fun x => { x with defer := x.defer.erase d }) (fun x => x) fun x => x) s.cur _ ?_
    exact (live_modSplit s.cur (fun x : Split => { x with defer := x.defer.erase d }) rfl s.cur).trans hl

/-- A slot begins a clause, or finds it illegal. -/
theorem Standing.beginClause (h : Standing s) (hl : s.sp.live = true) : Standing (s.beginClause (clauseBad s s.cur)) := by
  unfold State.beginClause
  split
  · exact h.trap hl ..
  · rename_i e
    refine Standing.coreEv (h.modSplit _ _ (fun _ _ => ?_) fun _ => .inl hl) ..
    unfold clauseBad at e
    simp only at e
    split at e
    · cases e
    · exact ⟨Nat.mod_lt _ (Nat.pos_of_ne_zero ‹_›), rfl, clauseRuns_of_firstBad _ _ _ _ _ _ e⟩

/-- A live split takes a slot. -/
theorem Standing.startSplit (h : Standing s) (core slot k : Nat) (hl : (s.splits.rd k).live = true) : Standing (s.startSplit core slot k) := by
  have hu : Standing ({ s with cur := k } : State) := h.of_eq rfl rfl fun _ _ he => he
  have take : ∀ f : Split → Split, ((s.splits.rd k).standing → (f (s.splits.rd k)).standing) → (f (s.splits.rd k)).live = true →
      Standing ((({ s with cur := k } : State).modSp f).modCore core fun c => { c with slots := c.slots.wr slot (k + 1) }) := by
    intro f hf hlive
    have hm : Standing (({ s with cur := k } : State).modSp f) := hu.modSplit k f hf fun _ => .inl hlive
    refine ⟨hm.splits, hm.trapped, hm.regions, fun c j e he hk => ?_⟩
    rw [State.modCore_cores, TMap.rd_mod] at he
    split at he
    · have he : e ∈ ((s.cores.rd core).slots.wr slot (k + 1)) := he
      rcases TMap.mem_wr he with rfl | he
      · have : j = k := by simpa using hk.symm
        refine .inl ?_
        show ((s.splits.mod k f).rd j).live = true
        rw [this, TMap.rd_mod_same]; exact hlive
      · exact hm.slots _ j e he hk
    · exact hm.slots _ j e he hk
  unfold State.startSplit
  simp only
  split
  · exact take _ (fun x => x) hl
  · rename_i b
    split
    · split
      · exact hu.raiseDefer hl _
      · exact hu.trap hl ..
    · split
      · exact hu.raiseDefer hl _
      · exact take _ (fun _ => Split.standing_of_not_begun (eq_false_of_ne_true b)) hl

end Sys2Proof.Machine
end

