-- ==== Sys2Proof/Laws/Teams.lean ====
section
/-! SUPPORT. What the shared operations on translations by hardware, barriers, splits, groups and teams leave alone: the machine's
invariant. -/

namespace Sys2Proof.Machine

variable {s t u : State}

/-! ### Translation by engines and hardware (R221, R374) -/

theorem Keeps.setAccessed (h : Keeps s t) (e : Tlb) : Keeps s (t.setAccessed e) :=
  h.trans (Keeps.foldl _ (fun s _ => (Keeps.refl s).orEntry ..) _ _)
theorem Agrees.dropTlb (h : Agrees s t) (f : Tlb → Bool) : Agrees s (t.dropTlb f) := h.trans ⟨rfl, rfl, rfl, rfl, rfl, rfl, rfl, rfl⟩
theorem Agrees.engineFault (h : Agrees s t) (p k : Nat) (a : W64) (i m c g : Nat) : Agrees s (t.engineFault p k a i m c g) := (h.modPart _ _).ask _
theorem Keeps.engineXlate (h : Keeps s t) (d p : Nat) (va : W64) (w : Bool) : Keeps s (t.engineXlate d p va w).1 := by
  unfold State.engineXlate
  split
  · exact h
  · split
    · split
      · exact h
      · split
        · exact h
        · exact Keeps.ite h ((h.orEntry ..).agrees ((Agrees.refl _).modDie _ _))
    · split
      · exact h.agrees (((Agrees.refl t).recall _).ask _)
      · exact h.agrees ((Agrees.refl t).ask _)
      · exact h
      · exact h
theorem Keeps.walkServed (h : Keeps s t) (p : Nat) (va : W64) (r w : Bool) : Keeps s (t.walkServed p va r w).1 := by
  unfold State.walkServed
  split
  · exact h
  · split
    · split
      · exact h
      · split
        · exact h
        · exact (h.trans (Keeps.foldl _ (fun s _ => ((Keeps.refl s).fillLine ..).agrees ((Agrees.refl _).recent _)) _ _)).orEntry ..
    · exact h
theorem Keeps.walkNow (h : Keeps s t) (p : Nat) (va : W64) (r w : Bool) : Keeps s (t.walkNow p va r w).1 := by
  unfold State.walkNow
  split
  · exact h.walkServed ..
  · exact h.agrees ((Agrees.refl t).recall _)
theorem Keeps.hwXlate (h : Keeps s t) (p : Nat) (va : W64) (w : Bool) : Keeps s (t.hwXlate p va w).1 := by
  have e := h.walkNow p va (!w) w
  unfold State.hwXlate
  split <;> simp_all
theorem Keeps.hwRead (h : Keeps s t) (p : Nat) (va : W64) (n : Nat) : Keeps s (t.hwRead p va n).1 := by
  have e := h.hwXlate p va false
  unfold State.hwRead
  split
  next hx =>
    rw [hx] at e
    have f : ∀ l c, Keeps s ((State.fillLine l p c _).recent l) := fun l c => (e.fillLine l p c).agrees ((Agrees.refl _).recent l)
    dsimp only
    split
    · exact e
    · split
      · exact e.agrees ((Agrees.refl _).recall _)
      · split <;> exact f _ _
  next hx => rw [hx] at e; exact e
  next hx => rw [hx] at e; exact e
  next hx => rw [hx] at e; exact e
theorem Keeps.hwReadLines (p n : Nat) : ∀ (va : W64) {t : State}, Keeps s t → Keeps s (t.hwReadLines p va n).1 := by
  induction n with
  | zero => exact fun _ _ h => h
  | succ n ih =>
    intro va t h
    have e := h.hwRead p va 128
    rw [State.hwReadLines]
    split
    next hx =>
      rw [hx] at e
      have f := ih (va + 128) e
      split
      next hy => rw [hy] at f; exact f
      · exact f
    · exact e
theorem Agrees.hwPost (h : Agrees s t) (d p pa n v : Nat) (c : Bool) : Agrees s (t.hwPost d p pa n v c) := h.soon _
theorem Keeps.hwWrite (h : Keeps s t) (p pa n v : Nat) (c : Bool) : Keeps s (t.hwWrite p pa n v c) :=
  (h.agrees ((Agrees.refl t).revokeWords ..)).writeHome ..
theorem Keeps.hwStore (h : Keeps s t) (c p : Nat) (va : W64) (d : Line) (b : BitVec 128) : Keeps s (t.hwStore c p va d b) := by
  have e := h.walkServed p va false true
  unfold State.hwStore
  split
  next hx => rw [hx] at e; exact e.agrees ((Agrees.refl _).l1Store ..)
  next hx => rw [hx] at e; exact e
/-- Lines that hardware stores are stored all or none. -/
theorem Keeps.hwStores (h : Keeps s t) {c p : Nat} {ls : List (W64 × Line × BitVec 128)} (e : t.hwStores c p ls = some u) : Keeps s u := by
  unfold State.hwStores at e
  split at e
  · cases e; exact h.trans (Keeps.foldl _ (fun s _ => (Keeps.refl s).hwStore ..) _ _)
  · cases e

/-! ### Frames (R334) -/

theorem Agrees.takeFrame (h : Agrees s t) {g : Nat} (e : t.takeFrame g = some u) : Agrees s u := by
  unfold State.takeFrame at e
  split at e
  · cases e; exact h
  · dsimp only at e
    split at e
    · cases e
    · cases e; exact (h.modPart _ _).modGroup _ _
theorem Agrees.dropFrame (h : Agrees s t) (g : Nat) : Agrees s (t.dropFrame g) := (h.modPart _ _).modGroup _ _
theorem Keeps.writeFrame (h : Keeps s t) {g k : Nat} (e : t.writeFrame g k = some u) : Keeps s u :=
  (h.agrees ((Agrees.refl t).drawn 1)).hwStores e
theorem Agrees.frameView (h : Agrees s t) (g : Nat) : Agrees s (t.frameView g) := by
  unfold State.frameView
  exact Agrees.ite h (h.swapBank _)
theorem Agrees.readRegs (h : Agrees s t) (g : Nat) : Agrees s (t.readRegs g) := by
  unfold State.readRegs
  exact (h.modGroup _ _).trans (Agrees.foldl _ (fun s _ => (Agrees.refl s).modSplit _ _) _ _)
theorem Agrees.readFrame (h : Agrees s t) (g : Nat) : Agrees s (t.readFrame g) := ((h.frameView g).readRegs g).frameView g

/-! ### Barriers (R199 to R201, R212) -/

theorem Agrees.modBar (h : Agrees s t) (m n : Nat) (f : NBar → NBar) : Agrees s (t.modBar m n f) := h.modCore _ _
theorem Agrees.barDone (h : Agrees s t) (m n : Nat) (r : Bool) : Agrees s (t.barDone m n r) := h.trans ⟨rfl, rfl, rfl, rfl, rfl, rfl, rfl, rfl⟩
theorem Agrees.barArrive (h : Agrees s t) (g n c : Nat) : Agrees s (t.barArrive g n c) := by
  unfold State.barArrive
  have e : ∀ v c ev (p : Bool), Agrees s v → Agrees s (if p then State.later c ev v else v) := fun v c ev p h => Agrees.ite (h.later ..) h
  exact Agrees.ite (e _ _ _ _ ((((h.modGroup _ _).modBar ..).barDone ..).later ..)) ((h.modGroup _ _).modBar ..)
theorem Agrees.gridArrive (h : Agrees s t) (g : Nat) : Agrees s (t.gridArrive g) := (h.modGroup _ _).modGrid _ _
theorem Agrees.barCheck (h : Agrees s t) (g : Nat) : Agrees s (t.barCheck g) :=
  h.trans (Agrees.foldl _ (fun s _ => Agrees.ite (Agrees.ite ((Agrees.refl s).gridArrive _) ((Agrees.refl s).barArrive ..)) (Agrees.refl s)) _ _)
theorem Agrees.mergeMarks (h : Agrees s t) (g k : Nat) (js : List Nat) : Agrees s (t.mergeMarks g k js) := by
  unfold State.mergeMarks
  exact Agrees.ite h (h.modGroup _ _)
theorem Agrees.unmark (h : Agrees s t) (k : Nat) : Agrees s (t.unmark k) := h.modGroup _ _

/-! ### The ends of splits, groups and lanes (R53 to R58) -/

theorem Agrees.orphans (h : Agrees s t) (k : Nat) : Agrees s (t.orphans k) := h.trans ⟨rfl, rfl, rfl, rfl, rfl, rfl, rfl, rfl⟩
theorem Agrees.dropRays (h : Agrees s t) (g : Nat) (m : W64) : Agrees s (t.dropRays g m) :=
  (h.trans (Agrees.foldl _ (fun s _ => (Agrees.refl s).partDone ..) _ _)).modGroup _ _
theorem Agrees.uncount (h : Agrees s t) (g : Nat) : Agrees s (t.uncount g) := by
  unfold State.uncount
  exact Agrees.ite ((h.modGrid _ _).modPart _ _) h
theorem Agrees.rehome (h : Agrees s t) (k : Nat) (f : Home → Home) : Agrees s (t.rehome k f) := h.trans ⟨rfl, rfl, rfl, rfl, rfl, rfl, rfl, rfl⟩
theorem Agrees.arriveHomes (h : Agrees s t) (g k i : Nat) (b : Bool) : Agrees s (t.arriveHomes g k i b) := by
  unfold State.arriveHomes
  exact Agrees.ite (Agrees.rehome (h.trans (Agrees.foldl _ (fun s _ => (Agrees.refl s).rehome ..) _ _)) ..) (h.rehome ..)
theorem Agrees.endGroup (h : Agrees s t) (g : Nat) : Agrees s (t.endGroup g) := by
  unfold State.endGroup
  have e := (((h.dropFrame g).dropRays g (BitVec.allOnes 64)).modGroup g fun x => { x with
    live := false, entries := [], marks := [], markN := [], late := [], handler := 0, saveKind := 0, saved := false }).uncount ((((t.dropFrame g).dropRays g (BitVec.allOnes 64)).modGroup g fun x => { x with
    live := false, entries := [], marks := [], markN := [], late := [], handler := 0, saveKind := 0, saved := false }).teams.rd (g / 128)).grid
  have f : ∀ (v : State) (o : TMap Op), Agrees s v → Agrees s { v with ops := o } := fun _ _ h => h.trans ⟨rfl, rfl, rfl, rfl, rfl, rfl, rfl, rfl⟩
  exact Agrees.ite (f _ _ e) (Agrees.soon (Agrees.modTeam (f _ _ e) _ _) _)
theorem Agrees.dropSplit (h : Agrees s t) (k : Nat) : Agrees s (t.dropSplit k) := by
  unfold State.dropSplit
  have e := ((h.orphans k).modSplit k fun _ => {}).unmark k
  exact Agrees.ite ((e.freeSlot k).barCheck _) (Agrees.ite ((e.endGroup _).modSplit _ _) ((e.endGroup _).freeSlot _))
theorem Agrees.arrive (f : Nat) : ∀ (k : Nat) (m : W64) (pc : Option W64) {t : State}, Agrees s t → Agrees s (t.arrive f k m pc) := by
  induction f with
  | zero => exact fun _ _ _ _ h => h
  | succ f ih =>
    intro k m pc t h
    rw [State.arrive]
    have a : ∀ (v : State) (i : Nat) (b : Bool) (f : Home → Home), Agrees s v → Agrees s (if m = 0 then v.rehome k f else v.arriveHomes (k / 4) k i b) :=
      fun v i b f hv => Agrees.ite (hv.rehome ..) (hv.arriveHomes ..)
    refine Agrees.ite (h.dropSplit k) ?_
    refine Agrees.ite (((((a _ _ _ _ h).modGroup _ _).freeSlot k).rehome ..).modSplit _ _) (Agrees.ite ?_ ?_)
    · exact Agrees.ite (((a _ _ _ _ h).modGroup _ _).dropSplit k) ((((a _ _ _ _ h).modGroup _ _).freeSlot k).modSplit _ _)
    · refine Agrees.ite (ih _ _ _ (((a _ _ _ _ h).modGroup _ _).modSplit _ _)) (Agrees.barCheck (Agrees.modSplit (Agrees.rehome (Agrees.freeSlot ?_ _) ..) _ _) _)
      exact (((a _ _ _ _ h).modGroup _ _).mergeMarks ..).trans (Agrees.foldl _ (fun s j => (((Agrees.refl s).retarget ..).freeSlot _).modSplit _ _) _ _)
theorem Agrees.nullPosts (h : Agrees s t) (m : W64) : Agrees s (t.nullPosts m) := by
  refine h.trans (Agrees.foldl _ (fun s p => ?_) _ _)
  refine Agrees.ite (Agrees.refl s) (Agrees.foldl _ (fun s e => ?_) _ _)
  exact ⟨rfl, rfl, rfl, rfl, rfl, rfl, rfl, rfl⟩
theorem Agrees.killLanes (h : Agrees s t) (m : W64) : Agrees s (t.killLanes m) := ((((h.nullPosts m).dropRays ..).modSp _).modGr _)

/-! ### The end of grids by hand-off (R333) -/

theorem Agrees.report (h : Agrees s t) (r : Report) : Agrees s (t.report r) := h.trans ⟨rfl, rfl, rfl, rfl, rfl, rfl, rfl, rfl⟩
theorem Agrees.killTeam (h : Agrees s t) (T : Nat) : Agrees s (t.killTeam T) := by
  unfold State.killTeam
  have e : ∀ s : State, Agrees s { s with cur := t.cur } := fun s => ⟨rfl, rfl, rfl, rfl, rfl, rfl, rfl, rfl⟩
  refine Agrees.modPart (Agrees.modTeam (Agrees.trans (h.trans (Agrees.foldl _ (fun s g => ?_) _ _)) (e _)) _ _) _ _
  refine Agrees.ite (Agrees.refl s) (Agrees.endGroup (Agrees.trans (Agrees.nullPosts ?_ _) (Agrees.foldl _ (fun s k => (((Agrees.refl s).orphans k).freeSlot k).modSplit _ _) _ _)) _)
  exact ⟨rfl, rfl, rfl, rfl, rfl, rfl, rfl, rfl⟩

end Sys2Proof.Machine
end

