-- ==== Sys2Proof/Tests/Slice0.lean ====
section
/-! SUPPORT. The model's own tests: words written out from the encodings, ill-formed terms, single steps on small states, and
for every statement states and operands that meet its hypotheses. -/

namespace Sys2Proof.Tests

open Sys2Proof Sys2Proof.Machine

set_option Elab.async false

/-! ### Decoding (R19 to R44): every word is written out from the encoding tables of the spec -/

/-- Each word decodes to the instruction beside it, with nothing left over. -/
noncomputable def reads (l : List (Nat × Instr)) : Bool := l.all fun p => decide ((decode (halves p.1)).toOption = some (p.2, []))

/-- The same for 16-bit instructions. -/
noncomputable def reads16 (l : List (Nat × Instr)) : Bool := l.all fun p => decide ((decode [BitVec.ofNat 16 p.1]).toOption = some (p.2, []))

/-- The same for words of anvil routines. -/
noncomputable def readsH (l : List (Nat × Instr)) : Bool := l.all fun p => decide ((decodeH p.1).toOption = some p.2)

/-- No instruction has any of these words. -/
noncomputable def refuses (l : List Nat) : Bool := l.all fun w => decide ((decode (halves w)).toOption = none)

theorem test_decode_control :
  reads [
    (0xA1B50001, .br 0xA1B5#16), (0x7EFD7C81, .brAll 0x7EFD#16 31), (0x546FD501, .brAny 0x546F#16 53), (0x075F2981, .brNone 0x75F#16 10),
    (0xB427AE01, .brp 0xB427#16 43), (0xA86A8E81, .call 35 0xA86A#16), (0x00660003, .jmp 51), (0x00640083, .ret 50), (0x00000103, .join),
    (0x00000183, .exit), (0x00000203, .nop), (0x00000283, .yield), (0x8C000303, .sleep (.s 12)), (0x07060005, .wflag 0x706#12),
    (0x00016885, .wpath 1 26), (0x2101C807, .sregVector .featExt0 114), (0x0700EC87, .sregScalar .gwidth 59), (0x2476E009, .plogAnd 56 59 36),
    (0x0422E089, .plogOr 56 17 4), (0x105E5909, .plogXor 22 47 16), (0x38769589, .plogAndn 37 59 56), (0x00287E09, .pget 31 20),
    (0xBA005289, .pset 20 (.s 58)), (0x00162B09, .pmov 10 11)] = true := by decide +kernel

theorem test_decode_launch :
  reads [
    (0xC4860105, .ppoint 0xC486#16), (0xCF521879, .launch 6 41 (.c 15)), (0x00728CF9, .cwait 35 57), (0xF0010979, .ralloc 33 (.c 48)),
    (0x0000B179, .rallocIn 22), (0x004401F9, .rcommit 17), (0x00940279, .rdone 37)] = true := by decide +kernel

theorem test_decode_system :
  reads [
    (0x227A0107, .swreg .featExt1 61), (0x9000007B, .trap (.s 16)), (0xBD0000FB, .rti (.s 61)), (0xAD00017B, .sysc (.s 45)),
    (0xFD0001FB, .brk (.c 61)), (0x0000027B, .halt), (0x830066FB, .rbank 25 (.s 3)), (0xA00142FB, .rbankW 16 (.s 32)),
    (0xAF1A037B, .tlbinv 13 (.s 47)), (0x004EFBFB, .fresume 62 39), (0xFE02287D, .ctxsv 10 1 (.c 62)), (0xDF730CFD, .ctxld 67 57 (.c 31)),
    (0x0038157D, .ctr 5 28), (0xB86001FD, .ctrsel 48 (.s 56))] = true := by decide +kernel

theorem test_decode_integer :
  reads [
    (0xA68DAC0B, .addLane 107 70 (.s 38)), (0x9B12920B, .addScalar true 36 9 (.s 27)), (0xB4AD0C8B, .subLane 67 86 (.s 52)),
    (0x1774468B, .subScalar false 17 58 (.s 23)), (0x05BE310B, .addc 12 95 (.v 5)), (0xD3CBE98B, .subc 122 101 (.c 19)),
    (0xC34BF80D, .addSatSLane 126 37 (.c 3)), (0x137CC20D, .addSatSScalar false 48 62 (.s 19)), (0xA26D5C8D, .subSatSLane 87 54 (.s 34)),
    (0x1114528D, .subSatSScalar false 20 10 (.s 17)), (0xE212E50D, .addSatZLane 57 9 (.c 34)), (0x4F3ADF0D, .addSatZScalar false 55 29 (.c 15)),
    (0x9AF9358D, .subSatZLane 77 124 (.s 26)), (0x59505B8D, .subSatZScalar false 22 40 (.c 25)), (0x7197180F, .mulLane 70 75 (.v 113)),
    (0xE842E20F, .mulScalar true 56 33 (.c 40)), (0x9D8CDC8F, .mulhSLane 55 70 (.s 29)), (0x8860068F, .mulhSScalar true 1 48 (.s 8)),
    (0x1543090F, .mulhZLane 66 33 (.v 21)), (0xE8326B0F, .mulhZScalar true 26 25 (.c 40)), (0x700E1D8F, .madLane 7 7 (.v 112)),
    (0xAF4AEF8F, .madScalar true 59 37 (.s 47)), (0xB720C411, .minSLane 49 16 (.s 55)), (0xA74E6A11, .minSScalar true 26 39 (.s 39)),
    (0x2BE71C91, .maxSLane 71 115 (.v 43)), (0xCB304291, .maxSScalar true 16 24 (.c 11)), (0xE5057511, .minZLane 93 2 (.c 37)),
    (0x1310D711, .minZScalar false 53 8 (.s 19)), (0x70B89D91, .maxZLane 39 92 (.v 112)), (0x43548391, .maxZScalar false 32 42 (.c 3)),
    (0x9BCAD413, .andLane 53 101 (.s 27)), (0xFD1C0E13, .andScalar true 3 14 (.c 61)), (0x856B9493, .orLane 101 53 (.s 5)),
    (0x85388693, .orScalar true 33 28 (.s 5)), (0x78138913, .xorLane 98 9 (.v 120)), (0x3E1C0F13, .xorScalar false 3 14 (.s 62)),
    (0x2B24AD93, .andnLane 43 18 (.v 43)), (0x0A36F393, .andnScalar false 60 27 (.s 10)), (0x1BC5AC15, .shlLane 107 98 (.v 27)),
    (0xAF1A9A15, .shlScalar true 38 13 (.s 47)), (0x3A9A2495, .shrLane 9 77 (.v 58)), (0xBA22E695, .shrScalar true 57 17 (.s 58)),
    (0xFA7BF515, .sarLane 125 61 (.c 58)), (0x2A6E6315, .sarScalar false 24 55 (.s 42)), (0xCBF08995, .rotLane 34 120 (.c 11)),
    (0xF5363395, .rotScalar true 12 27 (.c 53)), (0x192A3817, .bfeSLane 14 21 (.v 25)), (0x2452B617, .bfeSScalar false 45 41 (.s 36)),
    (0xDD16C097, .bfeZLane 48 11 (.c 29)), (0x426C4E97, .bfeZScalar false 19 54 (.c 2)), (0xC5829917, .bfiLane 38 65 (.c 5)),
    (0x725A1317, .bfiScalar false 4 45 (.c 50)), (0x00F65D97, .absLane 23 123), (0x805C4397, .absScalar true 16 46), (0x005D8419, .popcLane 97 46),
    (0x8024BA19, .popcScalar true 46 18), (0x00921099, .clzLane 4 73), (0x8076EA99, .clzScalar true 58 59), (0x005F9D19, .ctzLane 103 47),
    (0x8042D319, .ctzScalar true 52 33), (0x00A56999, .brevLane 90 82), (0x0078DF99, .brevScalar false 55 60),
    (0xD454E51B, .cmpSignedLane .gt 57 42 (.c 20)), (0x845CFB1B, .cmpSignedScalar .gt true 62 46 (.s 4)),
    (0xAEB6FD1D, .cmpUnsignedLane .gt 63 91 (.s 46)), (0x2C545A1D, .cmpUnsignedScalar .lt false 22 42 (.s 44)),
    (0x1DBC489F, .cmpEqualityLane true 18 94 (.v 29)), (0x84122A1F, .cmpEqualityScalar false true 10 9 (.s 4)), (0x9B016821, .movLane 90 (.s 27)),
    (0xE500F221, .movScalar true 60 (.c 37)), (0x2F04D8A1, .sel 54 2 (.v 47)), (0xCA88F823, .addImmLane 62 68 0xCA#8),
    (0xD176F623, .addImmScalar 61 59 0xD1#8), (0x45CE4CA3, .andImmLane 19 103 0x45#8), (0x9C6256A3, .andImmScalar 21 49 0x9C#8),
    (0xCEB2B523, .orImmLane 45 89 0xCE#8), (0xEC782723, .orImmScalar 9 60 0xEC#8), (0x6FF70DA3, .xorImmLane 67 123 0x6F#8),
    (0x8E0EF3A3, .xorImmScalar 60 7 0x8E#8), (0x0F37EC25, .shlImmLane 123 27 15), (0x2C7EEA25, .shlImmScalar 58 63 44),
    (0x11523CA5, .shrImmLane 15 41 17), (0x0A1CD2A5, .shrImmScalar 52 14 10), (0x1BD88125, .sarImmLane 32 108 27),
    (0x344E5325, .sarImmScalar 20 39 52), (0x187D95A5, .rotImmLane 101 62 24), (0x0328EFA5, .rotImmScalar 59 20 3)] = true := by decide +kernel

theorem test_decode_ext :
  reads [
    (0x2F7562FF, .ext 24298 197)] = true := by decide +kernel

theorem test_decode_float :
  reads [
    (0x10D69C27, .fadd .f32 39 107 (.v 16)), (0xBDB9C327, .fsub .bf16 112 92 (.s 61)), (0x73423CA9, .fmul .f16 15 33 (.v 115)),
    (0x9F16E6A9, .ffma .f16 57 11 (.s 31)), (0x14ED592B, .fmin .bf16 86 118 (.v 20)), (0x8BFB732B, .fmax .bf16 92 125 (.s 11)),
    (0xE4C85DAD, .fcmpF32 .le 23 100 (.c 36)), (0x029042AF, .fcmpF64 .ge 16 72 (.v 2)), (0x00D519B1, .frndF32 .rm 70 106),
    (0x009D4A31, .frndF64 .rne 82 78), (0x001E9433, .frcp 37 15), (0x00D860B3, .frsq 24 108), (0x001D4533, .fsqrt 81 14), (0x007ABDB3, .fexp2 47 61),
    (0x00F41E33, .flog2 7 122), (0x00A822B3, .fsin 8 84), (0x00BAAF33, .fcos 43 93), (0x002B13B3, .ftanh 68 21),
    (0x624232B5, .cvt .e4m3 .bf16 .rzSat 12 33), (0xEA834037, .pk .s32 .i8 80 65), (0xFD56D8B7, .pkSat .z32 .u4 54 43),
    (0xCE5F9137, .upk .i4 .s32 100 47), (0x9022DDB7, .fclass .e2m1 55 17), (0x3C48A039, .dp4I8x4 40 36 (.v 60)),
    (0x30DB04B9, .dp4N8x4 65 109 (.v 48)), (0x69B07939, .dp8I4x8 30 88 (.v 105)), (0x93624DB9, .dp8N4x8 19 49 (.s 19)),
    (0x5093203B, .fdp2F16 72 73 (.v 80)), (0xA5526CBB, .fdp2Bf16 27 41 (.s 37)), (0xBCF5353B, .fdp4E5m2 77 122 (.s 60)),
    (0x9F6C7DBB, .fdp4E4m3 31 54 (.s 31)), (0x1AE9963B, .fdp4E3m2 101 116 (.v 26)), (0x73AE0ABB, .fdp4E2m3 2 87 (.v 115)),
    (0x30AE7B3B, .fdp8E2m1 30 87 (.v 48)), (0x009ECC3D, .qexpE5m2 51 79), (0x00A020BD, .qexpE4m3 8 80), (0x00D0553D, .qexpE3m2 21 104),
    (0x006FADBD, .qexpE2m3 107 55), (0x0020AA3D, .qexpE2m1 42 16), (0x000092BD, .rng 36), (0xF4DE033D, .rngSeed 111 (.c 52))] = true := by decide +kernel

theorem test_decode_cross_lane :
  reads [
    (0xF608603F, .shfl .idx 24 4 (.c 54)), (0x66928941, .shfli .down 34 73 0x66#8), (0x003CD043, .vany 52 30), (0x0016B8C3, .vall 46 11),
    (0x002E1143, .vbal 4 23), (0x00C099C3, .vmatch 38 96), (0x00209243, .pcount 36 16), (0x898046C3, .bcast 17 64 (.s 9)),
    (0x0084CF43, .lmapPos 51 66), (0x009183C3, .lmapLane 96 72), (0x00C884C5, .scan .minS 33 100), (0x00571B47, .scanX .or 70 43),
    (0x00128E49, .rdx .maxZ 35 9)] = true := by decide +kernel

theorem test_decode_memory :
  reads [
    (0x6D9226CB, .ld .b2 19 27 18 6), (0x40B3724D, .ldSigned false 57 1 51 4), (0xA38F704F, .st .b1 56 7 15 10), (0xFCF658D5, .lds .b2 44 25 118 15),
    (0x36D4E6D7, .sts .b2 115 13 84 3), (0x51805559, .sld .b4 42 3 5), (0x138043DB, .sst .b8 33 7 1), (0xA5C851DD, .gth .b8 40 11 72 10),
    (0x9AB7005F, .prf false 21 55 9)] = true := by decide +kernel

theorem test_decode_ordering :
  reads [
    (0x4F45CF51, .ldAcq .sy .b4 103 30 69), (0x22A11AD3, .stRel .tm .b2 13 5 33), (0x10000061, .fence .grp .rel), (0x0C0000E1, .efence .sy .acq)] = true := by decide +kernel

theorem test_decode_llc :
  reads [
    (0x03AED463, .cflush .dv 53 87), (0x046894E3, .cinv .sy 37 52), (0x0058B963, .czero 46 44), (0x9F345DE3, .carve 23 26 (.s 31)),
    (0xABFCF663, .cquery 61 43 126)] = true := by decide +kernel

theorem test_decode_slice :
  reads [
    (0x1C20FB65, .atmReturning .minS false 125 24 32), (0x88BC94E5, .atmPosted .exch true 74 17 60), (0x0994D1E7, .casReturning true 104 19 20),
    (0x0CCD0867, .casPosted false 4 25 77), (0x1D09C0E9, .rcallLane 1 7 33 7), (0xB8019FEB, .rcallScalar 63 6 46),
    (0xFB5E686D, .rinst 26 47 (.c 59)), (0xA6003CED, .rdrop 15 (.s 38))] = true := by decide +kernel

theorem test_decode_sync :
  reads [
    (0x93006C6F, .bar 27 (.s 19)), (0xAF0064EF, .barr 25 (.s 47)), (0x0000656F, .barw 25), (0x000001EF, .gbar), (0xA640026F, .abinit 32 (.s 38)),
    (0x00064EEF, .abarr 19 3), (0xE070036F, .abexp 56 (.c 32)), (0xB27403EF, .abwait 58 (.s 50))] = true := by decide +kernel

theorem test_decode_chart :
  reads [
    (0x006A2871, .trec 10 53), (0xA85A10F1, .tcopy false false 4 40 45), (0xAC6E1571, .tstore false 5 44 55), (0xA5722DF1, .tquant 11 37 57),
    (0xB20C5271, .tgath true 4 50 6), (0x810012F1, .tfill 4 1), (0xB8603F71, .tred 15 56 48)] = true := by decide +kernel

theorem test_decode_matrix :
  reads [
    (0x1ABC2C73, .mma .f16 11 60 42), (0x02417873, .mmaUnfold .f32 1 14 9), (0x64F61CF3, .mmas .e4m3 7 54 19), (0x00002173, .aclr 8),
    (0x00533DF3, .amov 83 15), (0x002F3E73, .aput 15 47), (0x500F06F3, .ast .e5m2 1 15), (0x000B0F73, .unf 3 11)] = true := by decide +kernel

theorem test_decode_targets :
  reads [
    (0x9BB9EC75, .vemit 123 92 (.s 27)), (0xC8018CF5, .intrp 99 (.c 8)), (0x9D60DD75, .fpost 55 48 (.s 29)), (0xF24EB5F5, .tbind 45 39 (.c 50)),
    (0xA4260275, .tmeth false 19 36), (0x89220675, .tmethClear 17 9), (0xB3000A75, .tmethResolve 51), (0xA887BAF5, .tsample 110 67 40),
    (0xF8681EF5, .tsampleSettle 7 52 56), (0xF1052375, .tex 72 2 (.c 49)), (0xBE8263F5, .texf 24 65 (.s 62))] = true := by decide +kernel

theorem test_decode_rays :
  reads [
    (0xBDB59877, .rtrace 102 90 61), (0xCE187C77, .rtraceAny 31 12 14), (0x000070F7, .rnext 28), (0x00000177, .racc),
    (0x9801B9F7, .rhit 110 (.s 24)), (0x00000277, .regroup)] = true := by decide +kernel

theorem test_decode_anvil :
  readsH [
    (0x0002AD00, .hLdl (.l 13) 5), (0x01840001, .hStl 8 (.k 6)), (0x00028202, .hLdo (.k 2) 5), (0x00023403, .hLdc (.l 20) 4),
    (0x0426A004, .hLi (.l 0) 0x84D#16), (0x78649924, .hLiHi (.q 1) 0xF0C9#16), (0x15230845, .hAdd .satZ (.k 8) (.c 6) (.c 20)),
    (0x01439846, .hSub .satZ (.q 0) (.k 7) (.k 5)), (0x1CE63947, .hMul .satZ (.l 25) (.c 12) (.c 51)), (0x1F4BB008, .hAnd (.l 16) (.o 7) (.c 61)),
    (0x0AFF1B09, .hOr (.q 3) (.c 62) (.l 11)), (0x0FEF1A0A, .hXor (.q 2) (.c 30) (.l 31)), (0x13AEAF0B, .hShl (.l 15) (.c 29) (.c 14)),
    (0x08DBA20C, .hShr (.l 2) (.l 23) (.l 3)), (0x15BD0A0D, .hSar (.k 10) (.c 58) (.c 22)), (0x05C4A12E, .hMin true (.l 1) (.k 9) (.o 7)),
    (0x032B210F, .hMax false (.l 1) (.c 22) (.k 12)), (0x0EC18510, .hFadd .f32 (.k 5) (.k 3) (.l 27)),
    (0x1AED3D11, .hFmul .f32 (.l 29) (.c 26) (.c 43)), (0x1F0A3852, .hFfma .bf16 (.l 24) (.o 4) (.c 60)),
    (0x028B8613, .hFmin .f32 (.k 6) (.o 7) (.k 10)), (0x1F4A1814, .hFmax .f32 (.q 0) (.o 4) (.c 61)),
    (0x129F0F95, .hCvt .f16F32 (.k 15) (.l 30) (.c 10)), (0x62960056, .hCmp .ltS 3 (.l 12) (.k 10)), (0x4DF91A17, .hSel (.q 2) 2 (.c 50) (.l 23)),
    (0x67400018, .hSkip .onSet 29 3), (0x00000019, .hRet), (0x00D0001A, .hFwd 3 (.l 0)), (0x1B00001B, .hAbt (.c 44)), (0x0000001C, .hEnd)] = true := by decide +kernel

theorem test_decode_short :
  reads16 [
    (0x5FA0, .add16 61 11), (0x2062, .sub16 3 4), (0xB084, .mul16 4 22), (0xBC06, .and16 32 23), (0xB5E8, .or16 47 22), (0x856A, .xor16 43 16),
    (0xE4CC, .shl16 38 28), (0x684E, .shr16 2 13), (0x3EF0, .sar16 55 7), (0x3E32, .mov16 49 7), (0xA874, .min16 3 21), (0xAAB6, .max16 21 21),
    (0x2678, .fadd16 51 4), (0x9F9A, .fsub16 60 19), (0xFB3C, .fmul16 25 31), (0x241E, .fmax16 32 4)] = true := by decide +kernel

/-- R33, R83: literal words follow the instruction, the low one first; one for wd = 0, two for wd = 1. -/
theorem test_decode_literals :
    (decode (halves 0x00001D21 ++ halves 0x89ABCDEF)).toOption = some (.liLane 7 0x89ABCDEF#32, []) ∧
    (decode (halves 0x00001721 ++ halves 0x89ABCDEF)).toOption = some (.liScalar 5 (.one 0x89ABCDEF#32), []) ∧
    (decode (halves 0x80001721 ++ halves 0x89ABCDEF ++ halves 1)).toOption = some (.liScalar 5 (.two 0x189ABCDEF#64), []) ∧
    (decode (halves 0x800027A1 ++ halves 0xFFFFFFF0 ++ halves 0xFFFFFFFF)).toOption = some (.lea 9 (.two (-16)), []) ∧
    (decode (halves 0x80001721 ++ halves 0x89ABCDEF)).toOption = none := by decide +kernel

/-- R26: a clause header: bit 31 reserved, guard, count, flag B, flag A, wait mask. -/
theorem test_decode_header :
    decodeHeader 0x7EC54AAA = some { guard := 63, count := 12, flagA := 4, flagB := 5, wait := 0xAAA#12 } ∧
    decodeHeader 0xFEC54AAA = none := by decide +kernel

/-- R28, R29, R44: reserved bits, spare bits, codes out of range, and majors and sub-ops without an instruction. -/
theorem test_decode_refusals :
    refuses [
      0x00000403,  -- `jmp` with a nonzero d field
      0x00800003,  -- `jmp` with bit 6 of a set
      0x00000383,  -- major 1, sub-op 7
      0x10000005,  -- `wflag` with bit 12 of its mask field
      0x00010009,  -- `plog.and` with bit 6 of d
      0x0B00FC07,  -- `sreg` of the number 11
      0xE903000B,  -- `add` with the constant 105
      0x000002B5,  -- `cvt` from FP32 to FP32
      0x34000061,  -- `fence` with a reserved bit
      0x00010059,  -- `sld` with a bit of its off field
      0x50000053] = true := by decide +kernel

/-! ### Well-formedness: an ill-formed term for each check -/

/-- R38: constants 41 to 47 of the operand code do not exist, as lane and as scalar operand. -/
theorem test_wf_constants :
    (Instr.addLane 1 2 (.c 41)).wf = false ∧ (Instr.addLane 1 2 (.c 40)).wf = true ∧ (Instr.addScalar true 1 2 (.c 47)).wf = false ∧
    (Instr.addScalar true 1 2 (.c 48)).wf = true ∧ (Instr.bar 0 (.c 44)).wf = false ∧ (Instr.sleep (.c 41)).wf = false := by decide

/-- R29: register pairs are even. -/
theorem test_wf_pairs :
    (Instr.fadd .f64 1 2 (.v 4)).wf = false ∧ (Instr.fadd .f64 2 1 (.v 4)).wf = false ∧ (Instr.fadd .f64 2 4 (.v 5)).wf = false ∧
    (Instr.fadd .f64 2 4 (.s 5)).wf = true ∧ (Instr.fcmpF64 .eq 1 3 (.v 4)).wf = false ∧ (Instr.frndF64 .rz 2 5).wf = false ∧
    (Instr.ld .b8 3 0 0 0).wf = false ∧ (Instr.st .b8 3 0 0 0).wf = false ∧ (Instr.ldAcq .dv .b8 3 0 0).wf = false ∧
    (Instr.lds .b8 3 0 0 0).wf = false ∧ (Instr.ld .b4 3 0 0 0).wf = true ∧ (Instr.atmReturning .add true 3 0 0).wf = false ∧
    (Instr.casPosted true 3 0 0).wf = false ∧ (Instr.fclass .f64 0 1).wf = false ∧ (Instr.cvt .f64 .f32 .rne 0 1).wf = false ∧
    (Instr.cvt .f32 .f64 .rne 1 0).wf = false := by decide

/-- R35, R96, R97: pairs of formats. -/
theorem test_wf_formats :
    (Instr.cvt .f32 .f32 .rne 0 0).wf = false ∧ (Instr.cvt .s32 .z32 .rne 0 0).wf = false ∧ (Instr.cvt .i8 .f32 .rne 0 0).wf = false ∧
    (Instr.pk .f32 .f64 0 0).wf = false ∧ (Instr.pk .s32 .u8 0 0).wf = false ∧ (Instr.pkSat .f16 .e5m2 0 0).wf = false ∧
    (Instr.upk .f32 .f16 0 0).wf = false ∧ (Instr.upk .f16 .f32 0 0).wf = true ∧ (Instr.fclass .s32 0 0).wf = false ∧
    (Instr.mma .s32 0 0 0).wf = false ∧ (Instr.mma .f64 1 0 0).wf = false ∧ (Instr.mmas .f16 0 0 0).wf = false ∧
    (Instr.ast .z32 0 0).wf = false := by decide

/-- Scopes of cache operations, float atomics of 64 bits, and scalar ranges that would pass s63. -/
theorem test_wf_ranges :
    (Instr.cflush .tm 0 0).wf = false ∧ (Instr.cinv .grp 0 0).wf = false ∧ (Instr.atmPosted .faddF32 true 0 0 0).wf = false ∧
    (Instr.mmaUnfold .f16 0 0 63).wf = false ∧ (Instr.mmas .e5m2 0 63 0).wf = false ∧ (Instr.unf 0 63).wf = false ∧
    (Instr.tmeth false 0 63).wf = false ∧ (Instr.tmethClear 0 63).wf = false ∧ (Instr.tmethResolve 63).wf = false ∧
    (Instr.tsample 0 0 63).wf = false ∧ (Instr.tsampleSettle 0 0 63).wf = false := by decide

/-- R184: operands of anvil words. -/
theorem test_wf_anvil :
    (Instr.hCvt .f32S32 (.k 0) (.k 0) (.k 1)).wf = false ∧ (Instr.hSkip .always 1 1).wf = false ∧ (Instr.hSkip .onSet 0 0).wf = false ∧
    (Instr.hSkip .onSet 32 0).wf = false ∧ (Instr.hFwd 9 (.l 0)).wf = false ∧ (Instr.hFwd 2 (.o 7)).wf = false ∧ (Instr.hFwd 1 (.o 7)).wf = true := by decide

/-- R29, R109, R232: the limits of a launch: width, vector registers, tiles. -/
theorem test_fits :
    (Instr.addLane 16 2 (.v 3)).fits 32 16 0 = false ∧ (Instr.addLane 15 2 (.v 3)).fits 32 16 0 = true ∧ (Instr.ld .b8 14 0 15 0).fits 32 16 0 = true ∧
    (Instr.ld .b8 15 0 0 0).fits 32 16 0 = false ∧ (Instr.vmatch 3 0).fits 64 16 0 = false ∧ (Instr.vmatch 3 0).fits 32 16 0 = true ∧
    (Instr.mma .f16 1 0 0).fits 16 16 2 = false ∧ (Instr.mma .f16 0 0 0).fits 16 16 2 = true ∧ (Instr.aclr 2).fits 16 16 2 = false ∧
    (Instr.rtrace 0 9 0).fits 16 16 0 = false := by decide

/-! ### Small states -/

/-- Split 0 of one group of width 64 is about to run an instruction; every lane is live. -/
noncomputable def base : State := { State.reset.withCore 1 with turn := .choose }

/-- A merged translation of the first 4 MiB of virtual memory, page by page, to the first 4 MiB of die 0. -/
def tlb0 : Tlb := { base := 2 ^ 40, valid := BitVec.allOnes 64, dirty := BitVec.allOnes 64, r := true, w := true, x := true }

/-- The same state with that translation in its core's TLB. -/
noncomputable def mapped : State := base.modCore 0 fun c => { c with tlb := [tlb0] }

/-- One lane is active; v1 and v2 hold `x` and `y` there, s1 and s2 hold `a` and `b`. -/
noncomputable def one (x y : W32) (a b : W64 := 0) : State :=
  (base.modGroup 0 fun g => { g with v := [(64, x), (128, y)] }).modSplit 0 fun z => { z with lanes := 1, s := [(1, a), (2, b)] }

/-- v3 of the one lane after an instruction. -/
noncomputable def laneOut (i : Instr) (x y : W32) : Option W32 :=
  match exec i (one x y) with
  | .next t => some ((t.groups.rd 0).vr 3 0)
  | _ => none

/-- s3 after an instruction. -/
noncomputable def sclOut (i : Instr) (a b : W64) : Option W64 :=
  match exec i (one 0 0 a b) with
  | .next t => some ((t.splits.rd 0).s.rd 3)
  | _ => none

/-- The float flags that an instruction of the one lane has on their way to FPSTAT. -/
noncomputable def flagsOut (i : Instr) (x y : W32) : Option W64 :=
  match exec i (one x y) with
  | .next t => some (BitVec.ofNat 64 ((t.groups.rd 0).late.foldl (fun m e => m ||| e.flags) 0))
  | _ => none

/-! ### Worked values of the spec -/

/-- The table of worked values of 05_integer.md. -/
theorem test_integer_worked_values :
    laneOut (.addLane 3 1 (.v 2)) 0xFFFFFFFF 2 = some 1 ∧
    laneOut (.addSatSLane 3 1 (.v 2)) 0x7FFFFFF0 0x20 = some 0x7FFFFFFF ∧
    laneOut (.subSatZLane 3 1 (.v 2)) 5 9 = some 0 ∧
    laneOut (.mulhSLane 3 1 (.v 2)) 0xFFFFFFFE 3 = some 0xFFFFFFFF ∧
    laneOut (.mulhZLane 3 1 (.v 2)) 0xFFFFFFFE 3 = some 2 ∧
    laneOut (.absLane 3 1) 0x80000000 0 = some 0x80000000 ∧
    laneOut (.clzLane 3 1) 0 0 = some 32 ∧ laneOut (.ctzLane 3 1) 0 0 = some 32 ∧
    laneOut (.popcLane 3 1) 0xF0F00001 0 = some 9 ∧
    laneOut (.brevLane 3 1) 1 0 = some 0x80000000 ∧
    laneOut (.rotLane 3 1 (.v 2)) 0x80000001 4 = some 0x18 ∧
    laneOut (.bfeSLane 3 1 (.v 2)) 0xF0 0x0404 = some 0xFFFFFFFF ∧
    laneOut (.bfeZLane 3 1 (.v 2)) 0xC0000000 0x081E = some 3 ∧
    sclOut (.sarScalar false 3 1 (.s 2)) 0x80000000 4 = some 0xFFFFFFFFF8000000 ∧
    sclOut (.addScalar false 3 1 (.s 2)) 0xFFFFFFFF 1 = some 0 := by decide +kernel

/-- R85 to R90: 1.0 and 0.75 in each format, and values beyond the largest finite value. -/
theorem test_float_formats :
    laneOut (.cvt .f32 .f16 .rne 3 1) 0x3F800000 0 = some 0x3C00 ∧
    laneOut (.cvt .f32 .bf16 .rne 3 1) 0x3F400000 0 = some 0x3F40 ∧
    laneOut (.cvt .f32 .e5m2 .rne 3 1) 0x3F400000 0 = some 0x3A ∧
    laneOut (.cvt .f32 .e4m3 .rne 3 1) 0x3F400000 0 = some 0x34 ∧
    laneOut (.cvt .f32 .e3m2 .rne 3 1) 0x3F800000 0 = some 0x0C ∧
    laneOut (.cvt .f32 .e2m3 .rne 3 1) 0x3F400000 0 = some 0x06 ∧
    laneOut (.cvt .f32 .e2m1 .rne 3 1) 0x3F400000 0 = some 0x2 ∧
    laneOut (.cvt .f32 .e5m2 .rneSat 3 1) 0x7F7FFFFF 0 = some 0x7B ∧
    laneOut (.cvt .f32 .e4m3 .rne 3 1) 0xFF7FFFFF 0 = some 0xFF ∧
    laneOut (.cvt .f32 .e2m1 .rne 3 1) 0x7F7FFFFF 0 = some 0x7 ∧
    laneOut (.frcp 3 1) 0x80000000 0 = some 0xFF800000 ∧
    laneOut (.fsqrt 3 1) 0x40800000 0 = some 0x40000000 ∧
    laneOut (.fexp2 3 1) 0x40400000 0 = some 0x41000000 ∧
    laneOut (.fsqrt 3 1) 0xBF800000 0 = some 0x7FC00000 := by decide +kernel

/-- The words of the running examples. -/
theorem test_example_words :
    reads [(0x000821C3, .vmatch 8 4), (0xF30A1829, .fmul .f32 6 5 (.c 51)), (0x0E0C1DB5, .cvt .f32 .s32 .rm 7 6),
      (0xC30E1C11, .minSLane 7 7 (.c 3)), (0x00183447, .scanX .add 13 12), (0x00183849, .rdx .add 14 12), (0x18C50073, .mma .f16 0 5 35),
      (0x000C01F3, .amov 12 0), (0x68A60AE9, .rcallLane 21 24 20 26), (0xE10C1E0B, .addScalar true 7 6 (.c 33)),
      (0x030B194F, .st .b4 12 6 11 0), (0x028B0B57, .sts .b4 5 5 11 0), (0x9D3603EF, .abwait 27 (.s 29)), (0xFFBA0901, .brAny 0xFFBA#16 2),
      (0xC870007D, .ctxsv 0 56 (.c 8)), (0xC6000AFB, .rbank 2 (.c 6))] = true ∧
    readsH [(0x00000100, .hLdl (.k 1) 0), (0x04008225, .hAdd .satS (.k 2) (.k 1) (.o 0)), (0x00800001, .hStl 0 (.k 2)),
      (0x00811809, .hOr (.q 0) (.k 2) (.k 2)), (0x0000001C, .hEnd)] = true := by decide +kernel

/-! ### Single steps -/

/-- R26, R45: a step runs the instruction that its clause holds: `nop` ends the clause. -/
theorem test_step_nop : (match step (State.reset.withFetchWord 32 0x00000203) with
    | .next t => decide ((t.splits.rd 0).begun = false ∧ (t.splits.rd 0).pc = 8)
    | _ => false) = true := by decide +kernel

/-- R78: `addc` sets p62 where the sum passes 32 bits; R77: `mad` reads its destination. -/
theorem test_carry : (match exec (.addc 3 1 (.v 2)) (one 0xFFFFFFFF 1) with
    | .next t => decide ((t.groups.rd 0).vr 3 0 = 0 ∧ (t.groups.rd 0).pr 62 = 1)
    | _ => false) = true ∧ laneOut (.madLane 3 1 (.v 2)) 7 6 = some 42 := by decide +kernel

/-- R88: overflow and inexact are sticky bits 2 and 4 of FPSTAT. -/
theorem test_float_flags :
    flagsOut (.fmul .f32 3 1 (.v 2)) 0x7F7FFFFF 0x7F7FFFFF = some 0x14 ∧
    flagsOut (.frcp 3 1) 0 0 = some 0x2 := by decide +kernel

/-- R88: the flags of a result arrive in FPSTAT with it, after what software wrote there in between. -/
theorem test_late_flags : (match exec (.fixedLatencyWrite 0) { one 0 0 with
      clock := 9, groups := [(0, { live := true, fpstat := 1, late := [{ code := 3, due := 9, flags := 4 }, { code := 3, due := 10, flags := 8 }] })] } with
    | .next t => decide ((t.groups.rd 0).fpstat = 5 ∧ (t.groups.rd 0).late.length = 1)
    | _ => false) = true := by decide +kernel

/-- R61: a `jmp` to an odd address traps with ALIGN; with vector 0 the trap is handed off (R333). -/
theorem test_jmp_odd : (match exec (.jmp 1) (one 0 0 0x1001) with
    | .next t => match (t.splits.rd 0).wait with
      | .handing r _ => decide (r.cause = .align ∧ r.pc = 4)
      | _ => false
    | _ => false) = true := by decide +kernel

/-- R183: an anvil word runs on the invocation of its slice. -/
theorem test_step_anvil : (match step (State.reset.withFetchWord 32 0x00000002) with
    | .next _ => true
    | _ => false) = true := by decide +kernel

/-! ### Hypotheses that can be met: for every statement with hypotheses, states and operands that meet those of each clause -/

theorem mapped_of {s : State} {r w : Bool} {al : Nat} {ls : List (Nat × W64)} (h : s.missing ls = [])
    (k : (ls.all fun a => match s.fate r w false al a with | .ok _ _ => true | _ => false) = true) : Mapped s r w al ls :=
  ⟨h, fun a ha => by
    have := List.all_eq_true.mp k a ha
    revert this
    cases s.fate r w false al a <;> simp⟩

theorem mappedDirty_of {s : State} {r : Bool} {al : Nat} {ls : List (Nat × W64)} (h : s.missing ls = []) (g : s.gd.snap = false)
    (k : (ls.all fun a => match s.fate r true false al a with
      | .ok h t => t.dirty.getLsbD (fld (va56 h.ea) 16 6)
      | _ => false) = true) : MappedDirty s r al ls :=
  ⟨h, g, fun a ha => by
    have := List.all_eq_true.mp k a ha
    revert this
    cases hf : s.fate r true false al a with
    | ok x y => exact fun hd => ⟨x, y, rfl, hd⟩
    | _ => simp⟩

theorem ok_of {f : Fate} {P : Hit → Tlb → Prop} [∀ h t, Decidable (P h t)]
    (k : (match f with | .ok h t => decide (P h t) | _ => false) = true) : ∃ h t, f = .ok h t ∧ P h t := by
  cases f with
  | ok h t => exact ⟨h, t, rfl, of_decide_eq_true k⟩
  | _ => simp at k

theorem ok_all {m : W64} {f : Nat → Fate} {P : Nat → Hit → Prop} [∀ p h, Decidable (P p h)]
    (k : ((positions m).all fun p => match f p with | .ok h _ => decide (P p h) | _ => false) = true) :
    ∀ p, m.getLsbD p = true → ∃ h t, f p = .ok h t ∧ P p h := fun p hp => by
  have hp' : p ∈ positions m := by
    unfold positions
    refine List.mem_filter.2 ⟨List.mem_range.2 (Nat.lt_of_not_le fun h => ?_), hp⟩
    rw [BitVec.getLsbD_of_ge _ _ h] at hp; cases hp
  have := List.all_eq_true.mp k p hp'
  revert this
  cases f p with
  | ok h t => exact fun e => ⟨h, t, rfl, of_decide_eq_true e⟩
  | _ => simp

/-- LaneArithmetic, LaneFieldsAndMoves, LiteralAndShortForms, ComparesAndPredicates, FloatArithmetic, PackedElements, RandomNumbers,
ShufflesAndLaneMap, VotesAndScans: no register is poisoned; lanes are active, or none is. -/
theorem witness_no_poison : NoPoison base ∧ base.act ≠ 0 ∧ NoPoison (base.modSp fun x => { x with guard := 0 }) ∧
    (base.modSp fun x => { x with guard := 0 }).act = 0 := ⟨fun _ => rfl, by decide +kernel, fun _ => rfl, by decide +kernel⟩

/-- PoisonedReadTraps, at the last register and position, for an instruction of each of its kinds and in each operand place. -/
theorem witness_PoisonedReadTraps :
    (∀ i ∈ [Instr.addLane 0 127 (.v 1), .addLane 0 1 (.v 127), .madLane 127 1 (.v 2), .fadd .f64 0 126 (.v 2), .pk .f32 .f16 0 126, .vmatch 0 127,
      .ldAcq .cr .b4 0 0 127, .lds .b4 0 0 127 0, .cquery 0 0 127, .st .b4 127 0 0 0, .stRel .cr .b4 127 0 0, .sts .b4 127 0 0 0,
      .gth .b4 0 0 127 0, .cflush .dv 0 127, .cinv .dv 0 127, .czero 0 127, .atmPosted .add false 127 0 0, .casPosted false 126 0 0,
      .atmReturning .add false 0 0 127, .casReturning false 0 0 127], 127 ∈ vectorReads i) ∧
    (let s := base.modGr fun g => { g with badV := g.badV.wr (64 * 127 + 63) true }
     s.gr.badV.rd (64 * 127 + 63) = true ∧ s.act.getLsbD 63 = true ∧ s.wact.getLsbD 63 = true ∧ s.sp.phase = 0 ∧ s.full s.fa = false ∧ s.full s.fb = false ∧
     s.pathFull 1 = false ∧ s.pathFull 3 = false ∧ (s.modSp fun x => { x with phase := 2 }).sp.phase = 2) := by decide +kernel

/-- Divergence. -/
theorem witness_Divergence : base.gr.entries.length < 256 ∧ base.gr.inCore.length < 32 := by decide +kernel

/-- A split inside entry 1. -/
noncomputable def inside (e : Entry) : State := (base.modGr fun g => { g with entries := [(0, e)], nextEntry := 1 }).modSp fun x => { x with entry := 1 }

/-- JoinsAndExits: the first path of two, the last path, deferred lanes; no active lane, a part of the lanes, all of them. -/
theorem witness_JoinsAndExits :
    (∀ e ∈ [{ live := true, pending := 2 }, { live := true, pending := 1, arrived := 2#64 }, { live := true, pending := 2, dlanes := 2#64 : Entry }],
      let s := inside e
      s.sp.live = true ∧ s.sp.entry ≠ 0 ∧ s.gr.entries.rd (s.sp.entry - 1) = e ∧ e.spilled = false ∧ s.sp.lanes ≠ 0) ∧
    (base.modSp fun x => { x with guard := 0 }).act = 0 ∧
    (let s := base.modSp fun x => { x with guard := 1 }
     s.act ≠ 0 ∧ s.sp.lanes &&& ~~~ s.act ≠ 0) ∧
    base.act ≠ 0 ∧ base.sp.lanes &&& ~~~ base.act = 0 ∧ splitOps base base.cur (·.returning) = [] ∧ base.sp.defer = [] ∧ base.sp.entry = 0 ∧
    base.gr.entries = [] ∧ (∀ k ∈ groupSplits base.gk, k ≠ base.cur → (base.splits.rd k).live = false) ∧
    (teamGroups base base.tk).all (fun g => g == base.gk || groupLanes base g == 0) = true := by decide +kernel

/-- PacingAndWaits: within a clause and at its end; a flag that counts and none that does. -/
theorem witness_PacingAndWaits :
    (base.modSp fun x => { x with count := 2 }).sp.idx + 1 < (base.modSp fun x => { x with count := 2 }).sp.count ∧ base.sp.count ≤ base.sp.idx + 1 ∧
    (∃ i, i < 12 ∧ (0x800#12).getLsbD i = true ∧ (base.modGr fun g => { g with flags := [(11, 1)] }).gr.flags.rd i ≠ 0) ∧
    ∀ i, i < 12 → (0xFFF#12).getLsbD i = true → base.gr.flags.rd i = 0 := by
  refine ⟨by decide +kernel, by decide +kernel, ⟨11, by decide +kernel⟩, by decide +kernel⟩

/-- The executing split is in handler mode. -/
noncomputable def handling : State := base.modGr fun g => { g with handler := 1 }
/-- Its group runs at supervisor level. -/
noncomputable def super : State := base.modGr fun g => { g with sup := true }

/-- SpecialRegisters, HandlerBank, SystemInstructions, TrapsAndReturns (levels): user, supervisor, handler. -/
theorem witness_levels :
    NoPoison base ∧ base.isSup = false ∧ super.isSup = true ∧ super.inHandler = false ∧ handling.isSup = true ∧ handling.inHandler = true ∧
    NoPoison super ∧ NoPoison handling :=
  ⟨fun _ => rfl, by decide +kernel, by decide +kernel, by decide +kernel, by decide +kernel, by decide +kernel, fun _ => rfl, fun _ => rfl⟩

/-- Nothing that is under way holds an access of a state without operations back. -/
theorem noPending_of {s : State} (o : s.ops = []) (r : ∀ line m, relPending s s.cr line m = false) : NoPending s := fun line m =>
  ⟨r line m, by simp [storePending, storeWords, o], by simp [awaited, o]⟩

/-- LoadsAndStores: every lane at address 0, aligned for each size; no lane; operations of each kind that can retire. -/
theorem witness_LoadsAndStores :
    (∀ k ∈ [OpKind.load .b8 true 126, .load .b4 false 3, .regs, .atomic, .call],
      let s := { mapped with ops := [(1, { live := true, returning := true, kind := k, lanes := 1, todo := [64 * 127 + 63] })] }
      let o := s.ops.rd 1
      o.live = true ∧ o.need = 0 ∧ o.returning = true ∧ o.failed = false ∧ o.bad = 0 ∧ o.badS = false ∧ o.discard = false ∧ o.kind = k ∧ o.lanes ≠ 0) ∧
    NoPoison mapped ∧ mapped.full mapped.fa = false ∧ mapped.full mapped.fb = false ∧ NoPending mapped ∧ mapped.act ≠ 0 ∧ mapped.wact ≠ 0 ∧
    (∀ sz : MemSz, Mapped mapped true false sz.bytes (mapped.eas mapped.act 0 0 sz.bytes 15) ∧
      MappedDirty mapped false sz.bytes (mapped.eas mapped.wact 0 0 sz.bytes 15) ∧
      Mapped mapped true false sz.bytes [(64, mapped.sea 0 sz.bytes 15)] ∧ MappedDirty mapped false sz.bytes [(64, mapped.sea 0 sz.bytes 15)]) := by
  refine ⟨by decide +kernel, fun _ => rfl, by decide +kernel, by decide +kernel, noPending_of rfl fun _ _ => rfl, by decide +kernel, by decide +kernel, fun sz => ?_⟩
  cases sz <;> exact ⟨mapped_of (by decide +kernel) (by decide +kernel), mappedDirty_of (by decide +kernel) (by decide +kernel) (by decide +kernel),
    mapped_of (by decide +kernel) (by decide +kernel), mappedDirty_of (by decide +kernel) (by decide +kernel) (by decide +kernel)⟩

/-- Line 0 is in the L1 of core 0, every word valid. -/
noncomputable def cached : State := mapped.modCore 0 fun c => { c with l1 := [(0, { live := true, valid := BitVec.allOnes 32, data := 7 })] }

/-- L1Bytes: the last word of the line that immediate 15 reaches, for the scalar forms and for every lane. -/
theorem witness_L1Bytes :
    NoPoison cached ∧ cached.gr.late = [] ∧ cached.act ≠ 0 ∧ MappedDirty cached false 4 (cached.eas cached.wact 0 0 4 15) ∧
    Mapped cached true false 4 (cached.eas cached.act 0 0 4 15) ∧
    (∀ w, ∀ m ∈ [cached.act, cached.wact], ∀ p, m.getLsbD p = true → ∃ h t, cached.fate (!w) w false 4 (p, cached.ea 0 0 4 15 p) = .ok h t ∧
      (h.pa = 60 ∧ h.ty = 0 ∧ (60 : Nat) % 4 = 0 ∧ (cached.l1 cached.cr (60 / 128)).live = true ∧
       (cached.l1 cached.cr (60 / 128)).valid.getLsbD (60 % 128 / 4) = true ∧ (cached.l1 cached.cr (60 / 128)).psn.getLsbD (60 % 128 / 32) = false)) ∧
    cached.full cached.fb = false ∧ cached.full cached.fa = false ∧ cached.gd.snap = false ∧ NoPending cached ∧ cached.missing [(64, cached.sea 0 4 15)] = [] ∧
    cached.ops = [] ∧
    (∃ h t, cached.fate false true false 4 (64, cached.sea 0 4 15) = .ok h t ∧ t.dirty.getLsbD (fld (va56 h.ea) 16 6) = true ∧ h.ty = 0 ∧
      h.pa % 4 = 0 ∧ (cached.l1 cached.cr (h.pa / 128)).live = true) ∧
    ∃ h t, cached.fate true false false 4 (64, cached.sea 0 4 15) = .ok h t ∧ h.ty = 0 ∧ h.pa % 4 = 0 ∧
      (let l := cached.l1 cached.cr (h.pa / 128)
       let w := h.pa % 128 / 4
       l.live = true ∧ l.valid.getLsbD w = true ∧ l.psn.getLsbD (w / 8) = false) :=
  ⟨fun _ => rfl, rfl, by decide +kernel, mappedDirty_of (by decide +kernel) (by decide +kernel) (by decide +kernel),
    mapped_of (by decide +kernel) (by decide +kernel),
    fun w m hm => by cases w <;> simp only [List.mem_cons, List.not_mem_nil, or_false] at hm <;> rcases hm with rfl | rfl <;> exact ok_all (by decide +kernel),
    by decide +kernel, by decide +kernel, by decide +kernel, noPending_of rfl fun _ _ => rfl, by decide +kernel, by decide +kernel, ok_of (by decide +kernel),
    ok_of (by decide +kernel)⟩

/-- An operation of split 0. -/
noncomputable def busy (o : Op) (s : State) : State := { s with ops := [(1, { o with live := true, need := 1 })], nextId := 2 }
/-- A write-through of core 0 under way. -/
noncomputable def writing (s : State) : State := { s with agenda := s.agenda ++ [{ ev := .writeThrough { (default : WtReq) with bytes := 1 }, due := 0 }], nextId := 1 }

/-- An access of split 0 that a release waits for, a load, and an engine operation. -/
noncomputable def storing : State := busy { kind := .store, cls := 2 } mapped
noncomputable def loading : State := busy { kind := .sload .b4 3, cls := 1, returning := true } mapped
noncomputable def copying : State := busy { kind := .chart 1 0 false false, cls := 3 } mapped

noncomputable def phase (n : Nat) (s : State) : State := s.modSp fun x => { x with phase := n, aux := n }

/-- AcquireAndRelease, Fences: with an access, a load, an engine operation or a write-through to wait for, and with none. -/
theorem witness_AcquireAndRelease_Fences :
    NoPoison mapped ∧ NoPending mapped ∧ NoPoison storing ∧ NoPending (phase 1 mapped) ∧ mapped.act ≠ 0 ∧ mapped.wact ≠ 0 ∧ mapped.sp.phase = 0 ∧ ownAccesses mapped = [] ∧ ownLoads mapped = [] ∧
    ownEngines mapped = [] ∧ mapped.wide .cr = false ∧ mapped.wide .tm = false ∧ mapped.wide .dv = true ∧ mapped.wide .sy = true ∧
    ownAccesses storing ≠ [] ∧ storing.sp.phase = 0 ∧ ownLoads loading ≠ [] ∧ loading.sp.phase = 0 ∧ ownEngines copying ≠ [] ∧ copying.sp.phase = 0 ∧
    (phase 1 mapped).sp.phase = 1 ∧ ownLoads (phase 1 mapped) = [] ∧ (phase 1 mapped).wtPending 0 1 false = false ∧
    (writing (phase 1 mapped)).sp.phase = 1 ∧ (writing (phase 1 mapped)).wtPending (phase 1 mapped).cr (writing (phase 1 mapped)).sp.aux false = true ∧
    (writing (phase 1 mapped)).wtPending (phase 1 mapped).cr (writing (phase 1 mapped)).sp.aux true = true ∧
    storing.wact ≠ 0 ∧ (mapped.modSp fun x => { x with guard := 0 }).wact = 0 :=
  ⟨fun _ => rfl, noPending_of rfl fun _ _ => rfl, fun _ => rfl, noPending_of rfl fun _ _ => rfl, by decide +kernel⟩

/-- A team with a scratchpad of `n` bytes and `k` barriers. -/
noncomputable def pad (n : Nat) (bars : List Nat := []) (s : State := mapped) : State := s.modTm fun t => { t with spSize := n, bars := bars }
/-- s1 holds `x`. -/
noncomputable def s1 (x : W64) (s : State) : State := s.modSp fun y => { y with s := y.s.wr 1 x }

/-- Every element of a gather is translated, or at an address that does not exist. -/
theorem gathered_of {s : State} {al : Nat} {ls : List (Nat × W64)}
    (k : (ls.all fun a => match s.fateAt true true false false al a with | .ok _ _ => true | _ => false) = true) :
    ∀ a ∈ ls, ∃ h u, s.fateAt true true false false al a = .ok h u := fun a ha => by
  have := List.all_eq_true.mp k a ha
  revert this
  cases s.fateAt true true false false al a <;> simp

/-- Scratchpad, GathersAndPrefetches: offsets that fit up to the last byte. -/
theorem witness_Scratchpad :
    NoPoison (pad 64) ∧ NoPending (pad 256) ∧ (pad 256).missing ((pad 256).eas (pad 256).wact 0 0 4 15) = [] ∧
    (∀ a ∈ (pad 256).eas (pad 256).wact 0 0 4 15, ∃ h u, (pad 256).fateAt true true false false 4 a = .ok h u) ∧
    (∀ k, (pad 64).tm.bad.rd k = false) ∧
    (let s := pad 64
     s.act ≠ 0 ∧ s.wact ≠ 0 ∧ s.full s.fa = false ∧ s.full s.fb = false ∧ s.pathFull 1 = false ∧ s.pathFull 3 = false ∧
     (∀ p < 64, s.act.getLsbD p = true → (s.ea 0 0 4 15 p).toNat % 4 = 0 ∧ (s.ea 0 0 4 15 p).toNat + 4 ≤ s.tm.spSize) ∧
     (∀ p < 64, s.wact.getLsbD p = true → armedOver s s.tk (s.ea 0 0 4 15 p).toNat 4 = false)) ∧
    (let s := pad 256
     s.wact ≠ 0 ∧ (s.sr 0).toNat % 4 = 0 ∧ (s.sr 0).toNat + s.gr.width * 4 ≤ s.tm.spSize ∧ s.full s.fb = false ∧ s.pathFull 1 = false) :=
  ⟨fun _ => rfl, noPending_of rfl fun _ _ => rfl, by decide +kernel, gathered_of (by decide +kernel), fun _ => rfl, by decide +kernel, by decide +kernel⟩

/-- Scratchpad: offsets that are odd, or one beyond the end. -/
theorem witness_Scratchpad_misplaced :
    (let s := s1 61 (pad 64)
     s.act ≠ 0 ∧ ((s.eas s.act 1 0 4 0).filter fun a => a.2.toNat % 4 ≠ 0) ≠ []) ∧
    (let s := s1 61 (pad 64)
     s.wact ≠ 0 ∧ ((s.eas s.wact 1 0 4 0).filter fun a => a.2.toNat % 4 ≠ 0) ≠ []) ∧
    (let s := s1 64 (pad 64)
     ((s.eas s.act 1 0 4 0).filter fun a => a.2.toNat % 4 ≠ 0) = [] ∧ ((s.eas s.act 1 0 4 0).filter fun a => s.tm.spSize < a.2.toNat + 4) ≠ []) ∧
    (let s := s1 64 (pad 64)
     ((s.eas s.wact 1 0 4 0).filter fun a => a.2.toNat % 4 ≠ 0) = [] ∧ ((s.eas s.wact 1 0 4 0).filter fun a => s.tm.spSize < a.2.toNat + 4) ≠ []) := by
  refine ⟨?_, ?_, ?_, ?_⟩ <;> decide +kernel

/-- A team whose path 3 counts the operations of a list. -/
noncomputable def path3 (l : List (Nat × Bool)) : State := { mapped with teams := [(0, { pair := true, spSize := 64, path := [(3, l)] })] }
theorem path3_rd (l : List (Nat × Bool)) : (path3 l).tm.path.rd 3 = l := by
  have h : (path3 l).tk = 0 := (show (path3 l).tk = mapped.tk from rfl).trans (by decide +kernel)
  unfold State.tm; rw [h]; rfl

/-- Scratchpad: a store to the partner's half with path 3 full. -/
theorem witness_Scratchpad_full : (path3 (List.replicate 65535 (0, false))).pathFull 3 = true ∧
    (let s := path3 (List.replicate 65535 (0, false))
     NoPoison s ∧ s.wact ≠ 0 ∧ s.full s.fb = false ∧ s.wact.getLsbD 63 = true ∧ remoteHalf s.tm s.cr (s.ea 0 0 4 8 63).toNat = true) :=
  ⟨by unfold State.pathFull; rw [path3_rd, List.length_replicate]; rfl, fun _ => rfl, by decide +kernel⟩

/-- Scratchpad: a word that cannot be corrected; an armed arrival barrier. -/
theorem witness_Scratchpad_traps :
    (let s := (pad 64).modTm fun t => { t with bad := [(15, true)] }
     s.act.getLsbD 63 = true ∧ s.full s.fa = false ∧ s.tm.bad.rd (((s.ea 0 0 4 15 63).toNat + 3) / 4) = true ∧ s.act = (pad 64).act ∧
     s.tm.spSize = 64) ∧
    (let s := (pad 64).modCore 0 fun c => { c with armed := [(0, 48)] }
     s.wact ≠ 0 ∧ s.full s.fb = false ∧ s.pathFull 3 = false ∧ s.tm.spSize = 64 ∧
     ((s.eas s.wact 0 0 4 15).filter fun a => armedOver s s.tk a.2.toNat 4) ≠ []) := by decide +kernel

/-- CacheOperations: nothing under way; a narrow store of word 0 that waits for its fill, and a load that awaits word 31. -/
theorem witness_CacheOperations :
    (∀ o ∈ [({ live := true, kind := .store, pas := [(0, 0)] } : Op), { live := true, kind := .load .b4 false 0, awaits := [31] }],
      let s := { mapped with ops := [(1, o)], nextId := 2 }
      s.wact ≠ 0 ∧ s.full s.fb = false ∧ s.missing (s.lineAddrs s.wact 0 0) = [] ∧
      ((s.lineAddrs s.wact 0 0).all fun a => match s.fate true false false 1 a with
        | .ok h _ => s.olderFirst (h.pa / 128) (BitVec.allOnes 32)
        | _ => false) = true) ∧ NoPending mapped ∧ NoPending cached ∧ mapped.full mapped.fb = false ∧
    NoPoison mapped ∧ Mapped mapped true false 1 (mapped.lineAddrs mapped.wact 0 0) ∧ MappedDirty mapped false 1 (mapped.lineAddrs mapped.wact 0 0) ∧
    Mapped mapped true false 1 (mapped.lineAddrs mapped.act 0 0) ∧ NoPoison cached ∧ Mapped cached true false 1 (cached.lineAddrs cached.wact 0 0) :=
  ⟨by decide +kernel, noPending_of rfl fun _ _ => rfl, noPending_of rfl fun _ _ => rfl, by decide +kernel,
    fun _ => rfl, mapped_of (by decide +kernel) (by decide +kernel), mappedDirty_of (by decide +kernel) (by decide +kernel) (by decide +kernel),
    mapped_of (by decide +kernel) (by decide +kernel), fun _ => rfl, mapped_of (by decide +kernel) (by decide +kernel)⟩

/-- The partition owns a window from 0 to the page `n`, and may carve `k` banks; die 0's carve region starts at 0. -/
noncomputable def carving (k n : Nat) (valid : Bool) : State := super.modPart 0 fun p =>
  { p with regs := [(0x13, BitVec.ofNat 64 k), (0x14, if valid then 1#64 <<< 63 else 0)], winBase := [(0, 1#64 <<< 63)], winLimit := [(0, BitVec.ofNat 64 n <<< 16)] }

/-- Carving: two banks are asked for where the limit is 1, 15, or 15 with a window too small by one page. -/
theorem witness_Carving :
    let room := fun (s : State) => (List.range (1 * 768)).all fun i => s.inWindows s.pt (fld (s.preg s.pt 0x14).toNat 15 37 * 2 ^ 15 + i * 2 ^ 16)
    base.isSup = false ∧ (carving 0 767 true).isSup = true ∧ fld ((carving 0 767 true).preg 0 0x13).toNat 0 4 < 1 ∧
    (¬ fld ((carving 1 767 false).preg 0 0x13).toNat 0 4 < 1 ∧ ((carving 1 767 false).preg 0 0x14).getLsbD 63 = false) ∧
    (((carving 1 766 true).preg 0 0x14).getLsbD 63 = true ∧ room (carving 1 766 true) = false) ∧
    (room (carving 1 767 true) = true ∧ (carving 1 767 true).pathFull 3 = false) := by decide +kernel

/-- Atomics. -/
theorem witness_Atomics :
    NoPoison mapped ∧ NoPending mapped ∧ mapped.wact ≠ 0 ∧ MappedDirty mapped true 4 (mapped.eas mapped.wact 0 0 4 0) ∧
    MappedDirty mapped true 8 (mapped.eas mapped.wact 0 0 8 0) ∧ mapped.full mapped.fa = false ∧ mapped.full mapped.fb = false :=
  ⟨fun _ => rfl, noPending_of rfl fun _ _ => rfl, by decide +kernel, mappedDirty_of (by decide +kernel) (by decide +kernel) (by decide +kernel),
    mappedDirty_of (by decide +kernel) (by decide +kernel) (by decide +kernel), by decide +kernel, by decide +kernel⟩

/-- Routine 0 is called with eight operands and no result; the partition has a routine table. -/
noncomputable def routine (ops : Nat) : State := mapped.modPart 0 fun p => { p with calls := [(0, { cls := 1, ops := ops, rets := 0 })], regs := [(0x18, 1#64 <<< 63)] }

/-- Routines: ready with data registers up to the last, beyond it, not ready; images aligned and not. -/
theorem witness_Routines :
    (let s := routine 8
     ((s.parts.rd s.pt).calls.rd 0).cls = 1 ∧ s.rtOn s.pt = true ∧ s.wact ≠ 0 ∧ s.full s.fb = false ∧ 120 + max 8 0 ≤ s.gr.vc ∧ s.gr.vc < 121 + max 8 0 ∧
     56 + max 8 0 ≤ 64) ∧
    MappedDirty (routine 8) true 1 ((routine 8).lineAddrs (routine 8).wact 0 0) ∧ MappedDirty (routine 8) true 1 [(64, (routine 8).sr 0)] ∧
    NoPoison (routine 8) ∧ NoPending (routine 8) ∧ ¬ (((mapped.parts.rd mapped.pt).calls.rd 0).cls = 1 ∧ mapped.rtOn mapped.pt = true) ∧ mapped.isSup = false ∧
    (let s := mapped.modGr fun g => { g with sup := true }
     s.isSup = true ∧ s.full s.fa = false ∧ (s.sr 0).toNat % 128 = 0 ∧ ((s1 64 s).sr 1).toNat % 128 ≠ 0 ∧ s.dropStatus s.pt 0 ≠ 0) ∧
    Mapped (mapped.modGr fun g => { g with sup := true }) true false 4 ((List.range 128).map fun i => (64 + i, 0 + BitVec.ofNat 64 (4 * i))) :=
  ⟨by decide +kernel, mappedDirty_of (by decide +kernel) (by decide +kernel) (by decide +kernel),
    mappedDirty_of (by decide +kernel) (by decide +kernel) (by decide +kernel), fun _ => rfl, noPending_of rfl fun _ _ => rfl, by decide +kernel,
    by decide +kernel, by decide +kernel, mapped_of (by decide +kernel) (by decide +kernel)⟩

/-- Barriers: one barrier; the arrival that completes a count of 1, one of two groups, a clobber, a barrier that is not there; a phase that has
ended with its release to come, and after it; grid
barriers of a cooperative launch and of another. -/
theorem witness_Barriers :
    (let s := pad 64 [0]
     s.tm.bars.length ≤ (1 : Fin 32).val ∧ (0 : Fin 32).val < s.tm.bars.length ∧ s.sp.phase = 0 ∧ s.tm.pair = false ∧ ownAccesses s = [] ∧ ownLoads s = [] ∧
     s.gr.marks = [] ∧ s.gr.markN = [] ∧ s.sp.live = true ∧ (∀ k ∈ groupSplits s.gk, k ≠ s.cur → (s.splits.rd k).live = false) ∧ 1 ≤ s.tm.ngroups ∧
     (barOf s s.tk 0).arr = 0 ∧ (barOf s s.tk 0).phase = s.barPhase 0 ∧ 2 > s.tm.ngroups) ∧
    ((pad 64 [0]).modTm fun t => { t with ngroups := 2 }).tm.ngroups = 2 ∧
    (let s := fun (c : Nat) => { ((pad 64 [0]).modBar 0 0 fun b => { b with phase := true, done := 10 }).modGr fun g => { g with barR := [], barH := [(0, true)] } with clock := c }
     ∀ c ∈ [9, 16, 17], (barOf (s c) (s c).tk 0).phase ≠ (s c).barPhase 0 ∧ (s c).gr.core = (s c).tm.core ∧ ownLoads (s c) = [] ∧
       (barOf (s c) (s c).tk 0).done = 10 ∧ (0 : Fin 32).val < (s c).tm.bars.length ∧ ((s c).clock + 1 < 10 + 8 ↔ c ≠ 17)) ∧
    base.gd.coop = false ∧
    (let c := base.modGrid 0 fun g => { g with coop := true }
     c.gd.coop = true ∧ c.sp.phase = 0 ∧ ownAccesses c = [] ∧ (phase 1 c).sp.phase = 1 ∧ (phase 1 c).wtPending 0 1 false = false ∧ c.gr.marks = [] ∧
     (phase 3 (c.modGrid 0 fun g => { g with gphase := 3 })).gd.gphase = 3 ∧ (phase 3 c).gd.gphase ≠ (phase 3 c).sp.aux ∧ ownLoads (phase 3 c) = []) ∧
    (let c := storing.modGrid 0 fun g => { g with coop := true }
     c.gd.coop = true ∧ c.sp.phase = 0 ∧ ownAccesses c ≠ []) := by decide +kernel

/-- ArrivalBarriers: an object in the last 16 bytes, with one arrival and no byte due, with two, uninitialised; a misplaced one. -/
theorem witness_ArrivalBarriers :
    let at_ := fun (pending : W8) => s1 48 ((pad 64).modTm fun t => { t with scratch := [(48, 2), (50, pending)] })
    let s := at_ 1
    (s.sr 1).toNat % 16 = 0 ∧ (s.sr 1).toNat + 16 ≤ s.tm.spSize ∧ (∀ i, i < 4 → s.tm.bad.rd ((s.sr 1).toNat / 4 + i) = false) ∧
    armedOver s s.tk 48 16 = false ∧ s.sp.phase = 0 ∧ s.tm.pair = false ∧ ownAccesses s = [] ∧ ownLoads s = [] ∧
    (abPending (abGet s 0 48) = 1 ∧ abBytes (abGet s 0 48) = 0) ∧ abPending (abGet (at_ 2) 0 48) = 2 ∧ abPending (abGet (s1 48 (pad 64)) 0 48) = 0 ∧
    abPhase (abGet s 0 48) = false ∧ ((s1 40 (pad 64)).sr 1).toNat % 16 ≠ 0 := by decide +kernel

/-- EmptyMask. -/
theorem witness_EmptyMask : (base.modSp fun x => { x with guard := 0 }).act = 0 ∧ isLaneInstr (.ld .b4 0 0 0 0) = true := by decide +kernel

/-- A chart record: format, arrangement, dimensions, and size and box of the first two. -/
def chartRec (fmt arr dims size0 box0 size1 box1 : Nat) : BitVec 512 :=
  BitVec.ofNat 512 (fmt * 2 ^ 64 + arr * 2 ^ 68 + dims * 2 ^ 70 + size0 * 2 ^ 128 + size1 * 2 ^ 160 + 2 ^ 192 + 2 ^ 224 + 2 ^ 256 + box0 * 2 ^ 448 + box1 * 2 ^ 456)
/-- Slot 15 holds a record, and the scratchpad has `n` bytes. -/
noncomputable def charted (r : BitVec 512) (n : Nat) : State := (pad n).modTm fun t => { t with chart := [(15, r)], chartSet := 0x8000 }

/-- The hypotheses of a transfer whose scalar operand holds `x` in s1 and whose origin is in s0. -/
noncomputable def transferOk (r : BitVec 512) (n : Nat) (x : W64) (tr ab : Bool) : Bool :=
  let s := s1 x (charted r n)
  let off := x.toNat % 2 ^ 32
  let bar := x.toNat / 2 ^ 32
  s.full s.fb = false && (s.dies.rd (dieOfCore s.cr)).chartQ.length < 256 && s.tm.chartSet.getLsbD 15 && s.tm.chart.rd 15 == r && s.tm.bad == [] &&
    off % 32 == 0 && off + (Xfer.mk r tr off [] false []).bytes ≤ s.tm.spSize && (if ab then bar % 16 == 0 && bar + 16 ≤ s.tm.spSize else s.pathFull 0 == false)

/-- ChartTransfers: a layout that ends at the scratchpad's last byte, transposed or not, with an arrival barrier or a path; block, index-list and
FP32 records; an empty slot; records of the wrong kind; `trec`, and its retirement with a record that passes and one that fails. -/
theorem witness_ChartTransfers :
    transferOk (chartRec 1 0 2 16 15 4 3) 128 0 false false = true ∧ transferOk (chartRec 1 0 2 16 15 4 3) 544 (32 + 2 ^ 32 * 528) true true = true ∧
    (chArr (chartRec 5 1 2 32 31 1 0) = 1 ∧ recField (chartRec 5 1 2 32 31 1 0) 64 4 = 5 ∧ transferOk (chartRec 5 1 2 32 31 1 0) 128 0 false false = true) ∧
    (chArr (chartRec 1 2 2 16 15 4 3) = 2 ∧ transferOk (chartRec 1 2 2 16 15 4 3) 256 0 false true = true) ∧
    (recField (chartRec 0 0 1 8 7 1 0) 64 4 = 0 ∧ chArr (chartRec 0 0 1 8 7 1 0) = 0 ∧ transferOk (chartRec 0 0 1 8 7 1 0) 32 0 false false = true) ∧
    (let s := (charted (chartRec 1 0 2 16 15 4 3) 128).modTm fun t => { t with bad := [(31, true)] }
     s.full s.fb = false ∧ s.tm.chartSet.getLsbD 15 = true ∧ s.tm.chart.rd 15 = chartRec 1 0 2 16 15 4 3 ∧
       scratchBad s.tm [(0, (Xfer.mk (s.tm.chart.rd 15) false 0 [] false []).bytes)] = true) ∧
    (pad 64).tm.chartSet.getLsbD 15 = false ∧ (s1 16 (charted (chartRec 0 0 1 8 7 1 0) 64)).sr 1 = 16 ∧
    mapped.full mapped.fa = false ∧ (mapped.sr 0).toNat % 64 = 0 ∧ ((s1 32 mapped).sr 1).toNat % 64 ≠ 0 ∧
    trecCode (chartRec 0 0 1 8 7 1 0) = 0 ∧ trecCode (chartRec 0 3 1 8 7 1 0) = 2 ∧
    (let s := { mapped with ops := [(1, { live := true, kind := .trec 15, returning := true })] }
     let o := s.ops.rd 1
     o.live = true ∧ o.need = 0 ∧ o.kind = .trec 15 ∧ o.returning = true ∧ o.failed = false ∧ o.bad = 0 ∧ o.badS = false ∧ o.discard = false) := by
  decide +kernel

theorem witness_trec : Mapped mapped true false 4 ((List.range 16).map fun i => (64 + i, mapped.sr 0 + BitVec.ofNat 64 (4 * i))) :=
  mapped_of (by decide +kernel) (by decide +kernel)

/-- MatrixOperations: descriptors at 0 in a scratchpad that they fill; misaligned ones, and one past the end of a scratchpad of no bytes. -/
theorem witness_MatrixOperations :
    NoPoison (pad 8192) ∧ NoPoison base ∧
    (let s := pad 8192
     s.gr.badT = [] ∧ s.tm.bad = [] ∧ s.act ≠ 0 ∧ s.gr.width = 64 ∧ s.full s.fa = false ∧ s.full s.fb = false ∧ s.pathFull 2 = false ∧ lo32 (s.sr 0) % 32 = 0 ∧ hi32 (s.sr 0) % 32 = 0 ∧
     (∀ q ∈ mmaRanges { lanes := s.act, a := s.sr 0, b := s.sr 0 } mMma .f16, q.1 + q.2 ≤ s.tm.spSize) ∧
     (∀ q ∈ mmaRanges { lanes := s.act, a := s.sr 0, a1 := s.sr 1, b := s.sr 0, b1 := s.sr 1 } mMmas .e5m2, q.1 + q.2 ≤ s.tm.spSize) ∧
     (∀ q ∈ (List.range 8).map fun r => (lo32 (s.sr 0) + r * astPitch .f32 (s.sr 0), astRow .f32), q.1 + q.2 ≤ s.tm.spSize) ∧ s.gr.unfSet.getLsbD 3 = false) ∧
    (let s := s1 16 (pad 8192)
     (lo32 (s.sr 0) % 32 = 0 ∧ hi32 (s.sr 0) % 32 = 0) ∧ ¬ (lo32 (s.sr 1) % 32 = 0 ∧ hi32 (s.sr 1) % 32 = 0)) ∧
    ¬ (lo32 ((s1 2 (pad 8192)).sr (0 + 1)) % 4 = 0 ∧ hi32 ((s1 2 (pad 8192)).sr (0 + 1)) % 4 = 0) ∧
    (let s := (pad 8192).modGr fun g => { g with unf := [(3, 0)], unfSet := 8 }
     s.gr.unfSet.getLsbD 3 = true ∧ ufField (s.gr.unf.rd 3) 0 20 % 32 = 0 ∧
     ∀ q ∈ mmaRanges { lanes := s.act, b := s.sr 0, b1 := s.sr 1, b2 := 1, rec_ := (s.gr.unf.rd 3).setWidth 512 } mMma .f16, q.1 + q.2 ≤ s.tm.spSize) ∧
    (let s := (pad 8192).modGr fun g => { g with unf := [(3, 16)], unfSet := 8 }
     s.gr.unfSet.getLsbD 3 = true ∧ ufField (s.gr.unf.rd 3) 0 20 % 32 ≠ 0) :=
  ⟨fun _ => rfl, fun _ => rfl, by decide +kernel⟩

theorem witness_MatrixOperations_past :
    (let l := mmaRanges { lanes := 1, a := 0, b := 0 } mMma .f16
     (mapped.tm.spSize ≤ 0 ∧ ∃ q ∈ l, q.1 ≤ 0 ∧ 0 < q.1 + q.2) ∧ ∀ k, (mapped.tm.spSize ≤ k ∧ ∃ q ∈ l, q.1 ≤ k ∧ k < q.1 + q.2) → 0 ≤ k) ∧
    (let l := (List.range 8).map fun r => (0 + r * astPitch .f32 0, astRow .f32)
     (mapped.tm.spSize ≤ 0 ∧ ∃ q ∈ l, q.1 ≤ 0 ∧ 0 < q.1 + q.2) ∧ ∀ k, (mapped.tm.spSize ≤ k ∧ ∃ q ∈ l, q.1 ≤ k ∧ k < q.1 + q.2) → 0 ≤ k) :=
  ⟨⟨by decide +kernel, fun k _ => Nat.zero_le k⟩, ⟨by decide +kernel, fun k _ => Nat.zero_le k⟩⟩

/-- MatrixOperations: one matrix operation of each kind at the head of its group's, its operands read, its elements landing. -/
theorem witness_MatrixOperations_applied :
    (∀ k ∈ [OpKind.mtx mAclr .f32 15, .mtx mAput .f32 15, .mtx mAmov .f32 15, .mtx mMma .f16 15, .mtx mMma .f64 14, .mtx mMmas .e5m2 15],
      let s := { base.modGr fun g => { g with mtx := [1, 2] } with ops := [(1, { live := true, need := 1, kind := k, lanes := 0xFF })] }
      (s.groups.rd 0).mtx = 1 :: [2] ∧ (s.ops.rd 1).live = true ∧ (s.ops.rd 1).need = 1 ∧ (s.ops.rd 1).kind = k ∧ 1 ∉ [2] ∧ (s.ops.rd 1).todo = []) ∧
    (let o : Op := { live := true, need := 1, started := true, kind := .mtx mAst .u8 15, todo := [7, 255], lanes := 0xFF }
     let s := { base.modGr fun g => { g with mtx := [1, 2] } with ops := [(1, o)] }
     (s.groups.rd 0).mtx = 1 :: [2] ∧ s.ops.rd 1 = o ∧ o.todo.Nodup ∧ (∀ j ∈ o.todo, j < (astLands .u8 (s.groups.rd 0) 15 o.a).length) ∧
     astRow .u8 ≤ astPitch .u8 o.a) ∧ ∀ c, (base.cores.rd c).armed = [] :=
  ⟨by decide +kernel, by decide +kernel, fun _ => rfl⟩

/-- A team of a kind. -/
noncomputable def ofKind (k : TeamKind) : State := mapped.modTm fun t => { t with kind := k }
/-- The lane number of each lane is its position. -/
noncomputable def numbered (s : State) : State := s.modGr fun g => { g with laneid := (List.range 64).map fun p => (p, p) }
/-- A target of width 8 and height 8 in slot 0, of format 0, one sample; slot 0 is the draw's only one. -/
noncomputable def drawing (cov : TMap W32) (m : Nat) : State :=
  { ((ofKind .fragment).modPart 0 fun p => { p with slots := [(0, { bound := true, rec_ := BitVec.ofNat 512 (8 * 2 ^ 64 + 8 * 2 ^ 80), m := m })] }).modGr fun g =>
      { g with frag := (List.range 64).map fun p => (p, { live := true, cov := cov }) } with draws := [(0, { live := true, rec_ := 1#512 <<< 224 })] }

/-- VertexAndFragment. -/
theorem witness_VertexAndFragment :
    NoPoison mapped ∧ NoPoison (ofKind .fragment) ∧ NoPoison (drawing [(0, 1)] 1) ∧
    (let s := drawing [(0, 1)] 1
     MappedDirty s false 1 ((positions s.wact).map fun p => (p, lineVa (s.slot s.pt 0).rec_ 0 (s.gr.frag.rd p).x (s.gr.frag.rd p).y))) ∧
    mapped.act ≠ 0 ∧ mapped.full mapped.fb = false ∧ mapped.tm.kind ≠ .vertex ∧ mapped.tm.kind ≠ .fragment ∧
    (let s := numbered (ofKind .vertex)
     s.tm.kind = .vertex ∧ ((positions s.act).any fun p => (s.dw.verts.rd (s.vertexOf p)).has) = false ∧ (124 : Fin 128).val + 4 ≤ s.gr.vc ∧ 0 = drawAttrs s.dw ∧
     s.vertexOf 63 = 63) ∧
    (ofKind .fragment).tm.kind = .fragment ∧
    (let s := drawing [(0, 1)] 1
     s.wact ≠ 0 ∧ s.full s.fb = false ∧ (s.slot s.pt 0).bound = true ∧ (s.slot s.pt 15).bound = false ∧ s.tm.kind = .fragment ∧
     ((positions s.wact).any fun p => (s.gr.frag.rd p).posted.getLsbD 0) = false ∧ 0 ∈ drawSlots s.dw ∧ (127 : Fin 128).val + 1 ≤ s.gr.vc ∧
     (positions s.wact).all (fun p => (s.gr.frag.rd p).cov.rd 0 != 0) = true ∧ (s.cores.rd s.cr).posts.length + 64 ≤ 64) :=
  ⟨fun _ => rfl, fun _ => rfl, fun _ => rfl, mappedDirty_of (by decide +kernel) (by decide +kernel) (by decide +kernel), by decide +kernel⟩

/-- TargetAccesses: levels and addresses of `tbind`; slots bound and not; a rectangle of one line; pixel (0, 0) in every lane. -/
theorem witness_TargetAccesses :
    let s := drawing [] 1
    let r := (s.slot s.pt 0).rec_
    let z := s1 (1#64 <<< 32 ||| 1#64 <<< 48) s
    let vas := (rectLines r (rectOf r (z.sr 1))).map fun l => (64, lineVa r 0 l.1 l.2.1)
    NoPoison s ∧ NoPending s ∧ Mapped (s1 64 s) true false 4 ((List.range 16).map fun i => (64 + i, (s1 64 s).sr 1 + BitVec.ofNat 64 (4 * i))) ∧
    MappedDirty z false 1 vas ∧ Mapped z true false 1 vas ∧ Mapped s true false 1 ((positions s.act).map fun p => (p, lineVa r 0 0 0 + 0)) :=
  ⟨fun _ => rfl, noPending_of rfl fun _ _ => rfl, mapped_of (by decide +kernel) (by decide +kernel),
    mappedDirty_of (by decide +kernel) (by decide +kernel) (by decide +kernel), mapped_of (by decide +kernel) (by decide +kernel),
    mapped_of (by decide +kernel) (by decide +kernel)⟩

theorem witness_TargetAccesses_operands :
    let s := drawing [] 1
    let r := (s.slot s.pt 0).rec_
    s.isSup = false ∧ (s.modGr fun g => { g with sup := true }).isSup = true ∧ s.full s.fa = false ∧ s.full s.fb = false ∧
    s.sr 0 = 0 ∧ ((s1 32 s).sr 1).toNat % 64 ≠ 0 ∧ ((s1 64 s).sr 1 ≠ 0 ∧ ((s1 64 s).sr 1).toNat % 64 = 0) ∧
    (s.slot s.pt 15).bound = false ∧ (s.slot s.pt 0).bound = true ∧ (s.slot s.pt 0).m ≠ 0 ∧ (63 : Fin 64).val + 1 ≤ 64 ∧ (s.sr 1).toNat < 16 ∧
    (rectLines r (rectOf r (1#64 <<< 32 ||| 1#64 <<< 48))).length = 1 ∧ recSamples r = 1 ∧ s.act ≠ 0 ∧ (124 : Fin 128).val + 4 ≤ s.gr.vc := by
  decide +kernel

/-- The ray of position 63 of group 0. -/
noncomputable def rayAt (y : Ray) (s : State := mapped) : State := s.modGr fun g => { g with ray := [(63, y)] }

/-- Rays: roots 0, misaligned, not canonical; no ray under way, one under way, one suspended; an empty stack, a far node, a node
without an address. -/
theorem witness_Rays :
    NoPoison mapped ∧ NoPoison (rayAt { busy := true }) ∧ mapped.act ≠ 0 ∧ (mapped.sr 0).toNat % 128 = 0 ∧ canonical (mapped.sr 0) = true ∧ rayBusy mapped mapped.act = false ∧
    mapped.full mapped.fa = false ∧ ((s1 64 mapped).sr 1).toNat % 128 ≠ 0 ∧ canonical ((s1 0x80000000000000 mapped).sr 1) = false ∧
    (0x80000000000000#64).toNat % 128 = 0 ∧ rayBusy (rayAt { busy := true }) mapped.act = true ∧
    ((positions mapped.act).filter fun p => ((rayAt { susp := true, has := true }).gr.ray.rd p).susp) = [63] ∧
    (∀ y ∈ [{ busy := true }, { busy := true, stack := [{ tn := 0x40000000 }] }, { busy := true, tcur := 0x7F800000, stack := [{ addr := 0x80000000000000 }] : Ray}],
      let s := rayAt y
      (s.groups.rd 0).live = true ∧ ((s.groups.rd 0).ray.rd 63).busy = true ∧ ((s.groups.rd 0).ray.rd 63).parked = false) ∧
    fGt 0x40000000 0 = true ∧ fGt 0 0x7F800000 = false := by
  refine ⟨fun _ => rfl, fun _ => rfl, by decide +kernel⟩

/-- Group 0 waits at `regroup` at address 8, since clock `n`. -/
noncomputable def regrouping (n clock : Nat) : State :=
  { (base.modTm fun t => { t with rg := [{ group := 0, addr := 8, clock := n }] }).modSp fun x => { x with wait := .regroup, lanes := 0x8000000000000001 } with clock := clock }

/-- Regrouping: in a divergent region; with a vector result due; alone; a group that has arrived, one that has waited 256 clocks; one that
the unit has served. -/
theorem witness_Regrouping :
    (inside {}).sp.entry ≠ 0 ∧ base.sp.entry = 0 ∧ vectorOps base base.gk = [] ∧
    vectorOps (busy { kind := .regs, returning := true, lanes := 1 } base) 0 ≠ [] ∧ (∀ e ∈ base.tm.rg, e.addr ≠ base.ia) ∧
    waitingAt (regrouping 5 5) 0 8 = [0] ∧ ([0] : List Nat).Nodup ∧ 0 < (regrouping 5 5).tm.width ∧ (regrouping 5 5).tm.width ≤ 64 ∧
    (∀ h ∈ [0], h / 128 = 0 ∧ ((regrouping 5 5).groups.rd h).core ∈ teamCores (regrouping 5 5).tm ∧ ((regrouping 5 5).groups.rd h).v.wf = true) ∧
    (∀ h ∈ [0], ((regrouping 5 5).splits.rd (parkedSplit (regrouping 5 5) h)).lanes.toNat < 2 ^ (regrouping 5 5).tm.width) ∧
    (regrouping 5 5).tm.rg.find? (·.group == 0) = some { group := 0, addr := 8, clock := (regrouping 5 5).clock } ∧ allWait (regrouping 5 5) 0 8 = true ∧
    (∃ e ∈ (regrouping 5 261).tm.rg, e.addr = 8 ∧ e.clock + 256 ≤ (regrouping 5 261).clock) ∧
    (let s := (regrouping 5 5).modTm fun t => { t with rg := [] }
     parkedSplit s 0 / 4 = 0 ∧ (s.groups.rd 0).live = true ∧ (s.splits.rd (parkedSplit s 0)).wait = .regroup ∧
     parcelsAt ((s.splits.rd (parkedSplit s 0)).code.drop (s.splits.rd (parkedSplit s 0)).off) = 2 ∧
     ((s.teams.rd 0).rg.any fun e => e.group == 0) = false) := by
  decide +kernel

/-- A child of grid 0 with handle 7. -/
noncomputable def withChild (g : Grid) : State := { s1 (7#64 <<< 32) mapped with grids := [(1, { g with live := true, parent := 1, handle := 7 })] }

/-- LaunchesAndChildren: records at 0 and misplaced; before and behind the release; no child, one that is complete, one that runs, one in the
spill ring. -/
theorem witness_LaunchesAndChildren :
    let child := fun (s : State) => s.grids.find? fun e => e.2.live && e.2.parent == s.tm.grid + 1 && 7 != 0 && e.2.handle == (s.sr 1).toNat / 2 ^ 32
    NoPending (phase 1 mapped) ∧
    Mapped (phase 1 mapped) true false 4 ((List.range 16).map fun i => (64 + i, (phase 1 mapped).sr 0 + BitVec.ofNat 64 (4 * i))) ∧
    mapped.full mapped.fa = false ∧ ((s1 32 mapped).sr 1).toNat % 64 ≠ 0 ∧ (storing.sr 0).toNat % 64 = 0 ∧ storing.sp.phase = 0 ∧ ownAccesses storing ≠ [] ∧
    storing.full storing.fa = false ∧ (phase 1 mapped).sp.phase = 1 ∧ (phase 1 mapped).wtPending 0 1 false = false ∧
    child mapped = none ∧ (child (withChild { done := true })).isSome = true ∧ ownLoads (withChild { done := true }) = [] ∧
    (child (withChild { admitted := true })).isSome = true ∧ (child (withChild {})).isSome = true ∧ (withChild {}).gr.saveKind = 0 :=
  ⟨noPending_of rfl fun _ _ => rfl, mapped_of (by decide +kernel) (by decide +kernel), by decide +kernel⟩

/-- One lane of node 0 of graph 0, whose output 0 leads to node 1; a pool of `n` slots, of which slot 0 is in state `st`. -/
noncomputable def graphs (n : Nat) (st : WgSt) (kind : TeamKind) : State :=
  { ((mapped.modTm fun t => { t with node := 1, kind := kind, batch := [0] }).modSp fun x => { x with lanes := 1, phase := 1, aux := 1 }).modPart 0 fun p =>
      { p with regs := [(9, BitVec.ofNat 64 (n * 2 ^ 48))], wg := [(0, { st := st })] } with
    graphs := [(0, { live := true, nodes := [(0, { outs := [1] })] })] }

/-- WorkGraphSlots: outside a node; no such output; a pool too small; slots enough and too few; a batch; slots named rightly and wrongly. -/
theorem witness_WorkGraphSlots :
    NoPoison (graphs 1 .queued .compute) ∧ NoPoison (graphs 1 .batched .batch) ∧ mapped.tm.node = 0 ∧ mapped.wact ≠ 0 ∧
    (let s := graphs 1 .queued .compute
     s.wact ≠ 0 ∧ s.tm.node ≠ 0 ∧ (s.myGraph.nodes.rd s.myNode).outs.getD 0 0xFF ≠ 0xFF ∧ (s.myGraph.nodes.rd s.myNode).outs.getD 1 0xFF = 0xFF ∧
     s.wgCount s.pt = (positions s.wact).length ∧ s.full s.fa = false ∧ (s.parts.rd s.pt).rallocQ = [] ∧ s.freeSlots s.pt = []) ∧
    (graphs 0 .free .compute).wgCount 0 < 1 ∧ (graphs 1 .free .compute).freeSlots 0 = [0] ∧
    (let s := graphs 1 .batched .batch
     s.tm.kind = .batch ∧ s.full s.fa = false ∧ s.full s.fb = false ∧ s.sp.phase = 1 ∧ s.wtPending s.cr s.sp.aux false = false ∧
     s.namedSlots 126 .batched = some [0] ∧ s.namedSlots 126 .allocated = none) ∧
    (graphs 1 .allocated .compute).namedSlots 126 .allocated = some [0] := by
  refine ⟨fun _ => rfl, fun _ => rfl, by decide +kernel⟩

/-- ProgressPoints. -/
theorem witness_ProgressPoints :
    storing.sp.phase = 0 ∧ groupOps storing storing.gk (fun _ => true) ≠ [] ∧ groupOps mapped mapped.gk (fun _ => true) = [] ∧ mapped.sp.phase = 0 ∧
    (writing (phase 1 mapped)).sp.phase ≠ 0 ∧ (writing (phase 1 mapped)).wtPending 0 1 true = true ∧ (phase 1 mapped).wtPending 0 1 true = false ∧
    (phase 1 mapped).gr.tile.wf = true := by decide +kernel

/-- SystemInstructions: every clause at supervisor level; counters that there are and are not; tickets that are parked and not; contexts of one
register at the last register, and one beyond. -/
theorem witness_SystemInstructions :
    let s := mapped.modGr fun g => { g with sup := true }
    NoPoison s ∧ NoPending s ∧
    MappedDirty s false 4 (((List.range (1 * s.gr.width)).map fun i => (ctxPos + i, s.sr 0 + BitVec.ofNat 64 (4 * i))).filter
      fun e => !s.helpers.getLsbD ((e.1 - ctxPos) % s.gr.width)) ∧
    Mapped s true false 4 ((List.range (1 * s.gr.width)).map fun i => (ctxPos + i, s.sr 0 + BitVec.ofNat 64 (4 * i))) ∧ s.isSup = true ∧ ctrAt s.cr 0 ≠ none ∧ ctrAt s.cr 0x10000 = none ∧ s.gr.saveKind = 0 ∧ s.full s.fa = false ∧ s.full s.fb = false ∧
    (phase 1 s).sp.phase = 1 ∧ (phase 1 s).wtPending 0 1 false = false ∧ (s.parts.rd s.pt).tickets.contains 7 = false ∧
    (({ s.modPart 0 fun p => { p with tickets := [7] } with queues := [(0, { parked := true })] } : State).resumeTicket 0 7).isSome = true ∧
    awaiting s s.pt 0 = none ∧ (s.sr 0).toNat % 128 = 0 ∧ (127 : Fin 128).val + 1 ≤ s.gr.vc ∧ s.gr.vc < (127 : Fin 128).val + 2 ∧
    ((s1 64 s).sr 1).toNat % 128 ≠ 0 :=
  ⟨fun _ => rfl, noPending_of rfl fun _ _ => rfl, mappedDirty_of (by decide +kernel) (by decide +kernel) (by decide +kernel),
    mapped_of (by decide +kernel) (by decide +kernel), by decide +kernel⟩

/-- TrapsAndReturns: a shadow that has parted; another split in a trap; a result outstanding; vector 0; a vector; handler mode. -/
theorem witness_TrapsAndReturns :
    base.gr.parted = false ∧ (base.modGr fun g => { g with parted := true }).gr.parted = true ∧ base.inHandler = false ∧ otherTraps (base.modSplit 3 fun x => { x with wait := .trapping {} }) 0 = true ∧ otherTraps base base.cur = false ∧
    returning base base.gk = false ∧ returning loading 0 = true ∧ loading.inHandler = false ∧ otherTraps loading loading.cur = false ∧ base.preg base.pt 1 = 0 ∧
    (base.modPart 0 fun p => { p with regs := [(1, 0x1000), (2, 0x2000)] }).preg 0 1 ≠ 0 ∧ handling.inHandler = true ∧
    super.isSup = true ∧ super.inHandler = false := by decide +kernel

/-- AnvilWords: a call whose line is clean, one whose first sector is poisoned; nothing waits for their lines. -/
theorem witness_AnvilWords :
    let s := State.reset
    let z : State := { s with poison := [(0, true)] }
    (∀ i, (s.slices.rd i).ors = []) ∧ (∀ i, (z.slices.rd i).ors = []) ∧ s.inv.req.kind = .call ∧ isPeer s.inv.req.line = false ∧ s.inv.rets ≤ 4 ∧
    ([0, 31].any fun i => (s.homePsn s.inv.req.line).getLsbD (i / 8)) = false ∧ (z.homePsn 0).getLsbD 0 = true :=
  ⟨fun _ => rfl, fun _ => rfl, by decide +kernel⟩

/-- Page tables at 0x10000 that map the first eight pages of partition 0 to themselves, readable, writable and executable, with A and D set. -/
noncomputable def paged (s : State) : State :=
  let bytes := fun (a v : Nat) => (List.range 8).map fun i => (a + i, BitVec.ofNat 8 (v / 256 ^ i))
  { s with
    parts := [(0, { live := true, regs := [(0, 0x10000)], winBase := [(0, 0x8000000000000000)], winLimit := [(0, 0xFF0000)] })]
    mem := { cells := ((bytes 0x10000 0x12001 ++ bytes 0x12000 0x14001 ++ bytes 0x14000 0x16001 ++
      (List.range 8).flatMap fun j => bytes (0x16000 + 8 * j) (0x1000F + 2 ^ 16 * j - 0x10000 + 0x300)).filter fun e => e.2 != 0) } }

theorem test_walk : (paged base).walk 0 0x71234 = .ok 0x16038 0x7030F ∧ (paged base).walk 0 0x81234 = .fault ∧ (paged base).mem.wf = true := by decide +kernel

/-- Lines in the LLC, as memory holds them. -/
noncomputable def resident (ls : List Nat) (s : State) : State :=
  ls.foldl (fun s l => s.modSlice (sliceOf l) fun x => { x with tags := x.tags.wr l { valid := true, data := s.mem.line l } }) s

/-- The same with the lines of the page tables in the LLC. -/
noncomputable def tabled (s : State) : State :=
  { paged s with slices := [(2, { tags := [(512, { valid := true, data := 0x12001 })] }), (66, { tags := [(576, { valid := true, data := 0x14001 })] }),
      (130, { tags := [(640, { valid := true, data := 0x16001 })] }),
      (194, { tags := [(704, { valid := true, data := 0x30F + 2 ^ 64 * 0x1030F + 2 ^ 128 * 0x2030F + 2 ^ 192 * 0x3030F + 2 ^ 256 * 0x4030F + 2 ^ 320 * 0x5030F + 2 ^ 384 * 0x6030F + 2 ^ 448 * 0x7030F })] })] }

theorem test_tabled : ∀ i ∈ [2, 66, 130, 194], ∀ e ∈ ((tabled base).slices.rd i).tags, e.2.data = (tabled base).mem.line e.1 ∧ sliceOf e.1 = i := by decide +kernel

/-- Stores of a whole frame go through where every line of it can be written. -/
theorem frame_stored {s : State} {core part : Nat} {va : W64} {has : Nat → Bool} {f : Nat → W8} {r : List (W64 × Line × BitVec 128)}
    (h : (List.range 2048).all (fun i => s.canStore part (va + BitVec.ofNat 64 (128 * i))) = true) (hr : r.all (fun e => s.canStore part e.1) = true) :
    ∃ w, s.hwStores core part (frameLines va has f ++ r) = some w := by
  have hall : (frameLines va has f ++ r).all (fun e => s.canStore part e.1) = true := by
    rw [List.all_append, hr, Bool.and_true, List.all_eq_true]
    intro e he
    simp only [frameLines, List.mem_filterMap] at he
    obtain ⟨i, hi, he⟩ := he
    split at he
    · cases he
    · cases he
      exact List.all_eq_true.mp h i hi
  exact ⟨_, by rw [State.hwStores, if_pos hall]⟩
theorem page_div (a k : Nat) (hk : k < 65536) : (a * 65536 + k) / 2 ^ 16 = a := by
  rw [Nat.mul_comm]
  exact (Nat.mul_add_div (m := 65536) (by decide) a k).trans (by rw [Nat.div_eq_of_lt hk, Nat.add_zero])

/-- A walk depends on the page alone. -/
theorem walk_page (s : State) (part a k : Nat) (hk : k < 65536) : s.walk part (a * 65536 + k) = s.walk part (a * 65536) := by
  have h : ∀ sh, 16 ≤ sh → fld (a * 65536 + k) sh 10 = fld (a * 65536) sh 10 := by
    intro sh hs
    rw [← Nat.add_zero (a * 65536), Nat.add_assoc, Nat.zero_add]
    obtain ⟨d, rfl⟩ := Nat.exists_eq_add_of_le hs
    simp only [fld, Nat.pow_add, ← Nat.div_div_eq_div_mul, page_div a k hk, page_div a 0 (by decide)]
  unfold State.walk
  simp only [walkFrom, h 46 (by decide), h 36 (by decide), h 26 (by decide), h 16 (by decide)]

/-- No line but those of the page tables is in the LLC of `tabled base`, and none is poisoned. -/
theorem tabled_clean (line : Nat) (h : 1000 < line) : (tabled base).homePsn line = 0 := by
  have h1 : ((tabled base).tagOf line).valid = false := by
    have e : (tabled base).slices = (tabled default).slices := rfl
    rw [State.tagOf, e, tabled]
    simp only [TMap.rd, TMap.getD]
    repeat' split
    all_goals first | rfl | (simp only [TMap.getD]; rw [if_neg (by omega)]; rfl)
  have h2 : (tabled base).poison = [] := rfl
  simp [State.homePsn, h1, State.hbmPsn, h2] <;> rfl

theorem tabled_walks : ∀ i, i < 8 → ∃ a e, (tabled base).walk 0 (i * 65536) = .ok a e ∧ e.testBit 2 = true ∧ fld e 16 36 = i := by
  have h : ((List.range 8).all fun i => match (tabled base).walk 0 (i * 65536) with
    | .ok _ e => decide (e.testBit 2 = true ∧ fld e 16 36 = i)
    | _ => false) = true := by decide +kernel
  intro i hi
  have h := List.all_eq_true.mp h i (List.mem_range.mpr hi)
  generalize (tabled base).walk 0 (i * 65536) = w at h
  cases w with
  | ok a e => exact ⟨a, e, rfl, of_decide_eq_true h⟩
  | _ => cases h

/-- Hardware can store anywhere in the pages 2 to 7 of `tabled base`. -/
theorem tabled_canStore (n : Nat) (h : 128 * 1001 ≤ n) (h' : n < 8 * 65536) : (tabled base).canStore 0 (BitVec.ofNat 64 n) = true := by
  have hn : (BitVec.ofNat 64 n).toNat = n := by rw [BitVec.toNat_ofNat]; omega
  have h1 : canonical (BitVec.ofNat 64 n) = true := by
    simp only [canonical, hn, fld, show n / 2 ^ 55 = 0 by omega]; rfl
  have h2 : va56 (BitVec.ofNat 64 n) = n / 65536 * 65536 + n % 65536 := by
    simp only [va56, hn, fld]; omega
  obtain ⟨a, e, h3, h4, h5⟩ := tabled_walks (n / 65536) (by omega)
  have h6 : n / 65536 * 2 ^ 16 + fld n 0 16 = n := by simp only [fld]; omega
  have h7 : (tabled base).place n = some n := by
    have hd : (tabled base).dies = [] := rfl
    have h8 : n < 2 ^ 39 := by omega
    have h9 : fld n 0 37 < 2 ^ 37 := by simp only [fld]; omega
    simp only [State.place, h8, if_true, hd, TMap.rd, TMap.getD]
    exact if_pos h9
  simp only [State.canStore, h1, h2, walk_page _ _ _ _ (Nat.mod_lt n (by decide : 65536 > 0)), h3, h4, h5, hn, h6, h7, tabled_clean (n / 128) (by omega)]
  rfl

/-- What `canStore` reads of a state. -/
theorem canStore_congr {s t : State} (part : Nat) (h1 : s.dies = t.dies) (h2 : s.slices = t.slices) (h3 : s.mem = t.mem) (h4 : s.poison = t.poison)
    (h5 : s.slotId = t.slotId) (h6 : s.preg part 0 = t.preg part 0) (h7 : (s.parts.rd part).winBase = (t.parts.rd part).winBase)
    (h8 : (s.parts.rd part).winLimit = (t.parts.rd part).winLimit) : s.canStore part = t.canStore part := by
  have hp : s.place = t.place := by funext a; simp only [State.place, h1, h5]
  have hw : s.inWindows part = t.inWindows part := by funext a; simp only [State.inWindows, h7, h8]
  have ht : s.tagOf = t.tagOf := by funext a; simp only [State.tagOf, h2]
  have hn : s.homePsn = t.homePsn := by funext a; simp only [State.homePsn, State.hbmPsn, ht, h4]
  have hl : s.homeLine = t.homeLine := by funext a; simp only [State.homeLine, ht, h3]
  have hr : s.read64 = t.read64 := by funext a; simp only [State.read64, hp, hn, hl]
  have hf : ∀ va l tab, walkFrom s part va l tab = walkFrom t part va l tab := by
    intro va l
    induction l with
    | nil => intro tab; rfl
    | cons x l ih => intro tab; simp only [walkFrom, hw, hr, ih]
  funext va
  simp only [State.canStore, State.walk, hf, h6, hp, hn]

/-- The lines of a frame at an address in the mapped pages can all be stored. -/
theorem tabled_lines (n : Nat) (h : 128 * 1001 ≤ n) (h' : n + 262144 ≤ 8 * 65536) {s : State} (hs : s.canStore 0 = (tabled base).canStore 0) :
    (List.range 2048).all (fun i => s.canStore 0 (BitVec.ofNat 64 n + BitVec.ofNat 64 (128 * i))) = true := by
  rw [List.all_eq_true]
  intro i hi
  have hi := List.mem_range.mp hi
  rw [hs, ← BitVec.ofNat_add]
  exact tabled_canStore _ (by omega) (by omega)

/-- The first group of a team of partition 0 is to be saved; the pool is one frame at 0x40000. -/
noncomputable def toSave (k : Nat) : State := ((tabled base).modGr fun g => { g with saveKind := k }).modPart 0 fun p => { p with regs := p.regs.wr 3 0x1000000040000 }

/-- The same with the frame taken. -/
noncomputable def toWrite (k : Nat) : State := ((toSave k).modPart 0 fun x => { x with frames := x.frames.wr 0 1 }).modGroup 0 fun x => { x with frame := 0x40000 }

/-- SaveAndRestoreEvents: a group to save for a page fault or for a child, whose frame can be written. -/
theorem witness_frame : ∀ k, k = 1 ∨ k = 6 → saveDue (toSave k) 0 = true ∧ (toSave k).takeFrame 0 = some (toWrite k) ∧
    ((toWrite k).modGroup 0 fun y => y.settle y.lastDue).frameBusy 0 ((toWrite k).groups.rd 0).frame = [] ∧
    ∃ w, ((toWrite k).modGroup 0 fun y => y.settle y.lastDue).writeFrame 0 k = some w := by
  intro k hk
  refine ⟨?_, ?_, ?_, ?_⟩
  · obtain rfl | rfl := hk <;> decide +kernel
  · obtain rfl | rfl := hk <;> decide +kernel
  · obtain rfl | rfl := hk <;> decide +kernel
  · have e : (((toWrite k).modGroup 0 fun y => y.settle y.lastDue).drawn 1).canStore 0 = (tabled base).canStore 0 := by
      obtain rfl | rfl := hk <;> exact canStore_congr 0 rfl rfl rfl rfl rfl rfl rfl rfl
    have h := fun has f => frame_stored (core := (((toWrite k).modGroup 0 fun y => y.settle y.lastDue).groups.rd 0).core) (has := has) (f := f) (r := []) (tabled_lines 0x40000 (by decide) (by decide) e) rfl
    simp only [List.append_nil] at h
    have hf : (((toWrite k).modGroup 0 fun y => y.settle y.lastDue).groups.rd 0).frame = BitVec.ofNat 64 0x40000 ∧
        groupPart ((toWrite k).modGroup 0 fun y => y.settle y.lastDue) 0 = 0 := by obtain rfl | rfl := hk <;> decide +kernel
    simp only [State.writeFrame, hf.1, hf.2]
    exact h _ _

/-- A pre-empted team whose one group is saved, to the frame at 0x20000. -/
noncomputable def toPark : State := (((tabled base).modGr fun g => { g with saved := true, saveKind := 3, frame := 0x20000 }).modTm fun t => { t with preempt := true }).modPart 0
  fun p => { p with regs := p.regs.wr 3 0x1000000040000 }

/-- SaveAndRestoreEvents: the team's area can be written. -/
theorem witness_area : teamSaveDue toPark 0 = true ∧ toPark.frameBusy 0 0x40000 = [] ∧
    (∀ j ∈ teamGroups toPark 0, (toPark.groups.rd j).live = true → toPark.frameBusy 0 (toPark.groups.rd j).frame = []) ∧
    ∃ w, (toPark.modPart 0 fun y => { y with frames := y.frames.wr 0 (teamFrames 0) }).writeArea 0 [0x40000] = some w := by
  refine ⟨by decide +kernel, by decide +kernel, by decide +kernel, ?_⟩
  have e : ((toPark.modPart 0 fun y => { y with frames := y.frames.wr 0 (teamFrames 0) }).drawn 1).canStore 0 = (tabled base).canStore 0 :=
    canStore_congr 0 rfl rfl rfl rfl rfl rfl rfl rfl
  have h := fun c has f r => frame_stored (core := c) (has := has) (f := f) (r := r) (tabled_lines 0x40000 (by decide) (by decide) e)
  have hg : (teamGroups (toPark.modPart 0 fun y => { y with frames := y.frames.wr 0 (teamFrames 0) }) 0).filter (fun g =>
      ((toPark.modPart 0 fun y => { y with frames := y.frames.wr 0 (teamFrames 0) }).groups.rd g).live &&
      ((toPark.modPart 0 fun y => { y with frames := y.frames.wr 0 (teamFrames 0) }).groups.rd g).frame != 0) = [0] := by decide +kernel
  have hp : groupPart (toPark.modPart 0 fun y => { y with frames := y.frames.wr 0 (teamFrames 0) }) (128 * 0) = 0 := by decide +kernel
  simp only [State.writeArea, hg, hp, List.length_cons, List.length_nil, List.map_cons, List.map_nil, Nat.zero_add, List.range_one, List.flatMap_cons, List.flatMap_nil,
    List.append_nil]
  refine h _ _ _ _ ?_
  simp only [List.all_cons, List.all_nil, Bool.and_true, e]
  exact tabled_canStore 0x20000 (by decide) (by decide)

/-- The first four lines of memory are in the LLC, and split 0 has a clause at 0 to fetch. -/
noncomputable def fetching : State := (resident (List.range 4) mapped).modSp fun x => { x with code := [], begun := false }

/-- SplitEvents: a clause to fetch; a free slot and one ready split, at an instruction, at a header, at a
header with a failed operation due, and at one that is rejected; results due; waits that end with the clock; an entry that returns; traps to take and to hand off, under a snapshot and not. -/
theorem witness_SplitEvents :
    (fetching.sp.live = true ∧ fetching.sp.begun = false ∧ fetching.sp.code = [] ∧ fetching.gr.live = true ∧ fetching.gr.saveKind = 0) ∧
    (∀ i, i < 200 → ∃ h t, fetching.fate false false true 2 (64, fetching.sp.pc + BitVec.ofNat 64 (2 * i)) = .ok h t ∧
      fetching.present (h.pa / 128) = true ∧ fetching.busy (h.pa / 128) = false ∧ (fetching.homePsn (h.pa / 128)).getLsbD (h.pa % 128 / 32) = false) ∧
    (base.cores.rd 0).slots.rd 0 = 0 ∧ readySplits base 0 = [0] ∧ base.sp.begun = true ∧
    (let s := base.modCore 0 fun c => { c with slots := [(0, 9), (1, 9), (2, 9)] }
     (s.cores.rd 0).slots.rd 3 = 0 ∧ (∀ j, j < 3 → (s.cores.rd 0).slots.rd j ≠ 0) ∧ readySplits s 0 = [0]) ∧
    (let s := base.modSp fun x => { x with begun := false }
     readySplits s 0 = [0] ∧ (headerOf s.sp.code).isSome = true ∧ dueDefer s.sp 0 true = none ∧ s.sp.untracked = 0 ∧ s.gr.flags = []) ∧
    (let s := base.modSp fun x => { x with begun := false, defer := [{}] }
     readySplits s 0 = [0] ∧ (dueDefer s.sp 0 true).isSome = true) ∧
    (let s := (base.modSp fun x => { x with begun := false, code := [0x801#16, 0x8000#16] }).modGr fun g => { g with flags := [(1, 3)] }
     readySplits s 0 = [0] ∧ headerOf s.sp.code = none ∧ dueDefer s.sp 0x801 true = none ∧
     ∀ i, i < 12 → (s.sp.code.headD 0).getLsbD i = true → s.gr.flags.rd i = 0) ∧
    (base.modGr fun g => { g with late := [{ code := 5, due := 9 }] }).gr.late ≠ [] ∧
    (∀ w ∈ [Wait.asleep, .switching, .entryReturn, .trapping {}, .handing {} 7], (base.modSp fun x => { x with wait := w }).sp.wait = w) ∧
    base.gr.inCore.length < 32 ∧ returning base 0 = false ∧ base.groups.wf = true := by
  refine ⟨by decide +kernel, fun i hi => ?_, by and_intros <;> decide +kernel⟩
  have h : ((List.range 200).all fun i => match fetching.fate false false true 2 (64, fetching.sp.pc + BitVec.ofNat 64 (2 * i)) with
    | .ok h _ => decide (fetching.present (h.pa / 128) = true ∧ fetching.busy (h.pa / 128) = false ∧ (fetching.homePsn (h.pa / 128)).getLsbD (h.pa % 128 / 32) = false)
    | _ => false) = true := by decide +kernel
  exact ok_of (List.all_eq_true.mp h i (List.mem_range.mpr hi))

/-- Group 0 of partition 0 is saved as kind 1 and has been resumed; the pair of its core is the partition's. -/
noncomputable def savedGroup : State := ((tabled base).modGr fun g => { g with saved := true, saveKind := 1, child := 1 }).modPart 0 fun p => { p with regs := p.regs.wr 0x1A 1 }

/-- A grid with a snapshot, and the slots of its pool. -/
noncomputable def snapped (n : Nat) : State :=
  { (resident [705, 706, 707] (tabled base)).modPart 0 fun p => { p with regs := p.regs.wr 0x0A (BitVec.ofNat 64 (n * 2 ^ 48 + 0x70000)) } with
    grids := [(5, { live := true, snap := true, verify := true, root := 5 })] }

/-- SaveAndRestoreEvents, but for the clauses of a frame's contents: a restore; a team to pre-empt, of a draw and of none; a draining group; a
record to post; a margin pair; a snapshot with no slot and with one; a rollback; a shadow. -/
theorem witness_SaveAndRestoreEvents :
    restoreReady savedGroup 0 = true ∧ restoreRoom savedGroup 0 = true ∧ (savedGroup.teams.rd 0).saved = false ∧ savedGroup.gr.width ≤ 64 ∧ savedGroup.gr.handler ≤ 4 ∧
    base.tm.live = true ∧ base.tm.saved = false ∧ base.tm.graphics = false ∧ (base.modTm fun t => { t with kind := .vertex }).tm.graphics = true ∧
    (∀ r ∈ [Region.opened, .sealed, .draining], let s := base.modGr fun g => { g with region := r }
      s.gr.region = r ∧ s.gr.live = true ∧ s.gr.saved = false ∧ s.gr.saveKind = 0) ∧
    (let s := (resident [705, 706, 707] (tabled base)).modPart 0 fun p => { p with waiting := [{ kind := 1, addr := 8 }], regs := p.regs.wr 4 (0x70000#64 ||| 1#64 <<< 48) }
     let u := (s.modPart 0 fun p => { p with waiting := [] }).hwXlate 0 0x70000 true
     s.faultReady 0 = true ∧ u.2 = .ok 0x70000 false ∧ u.1.held (0x70000 / 128) = false ∧ u.1.homeWait (0x70000 / 128) = false ∧
     (s.cleared (0x70000 / 128) (bytesWords (BitVec.ofNat 128 (2 ^ 32 - 1))) noOwner).2 = true ∧
     (u.1.homePsn (0x70000 / 128)).getLsbD 0 = false) ∧
    (let s := base.modPart 3 fun p => { p with live := true, regs := [(0x1E, 4)] }
     marginOwner s 2 = some 3 ∧ foreignTeams s 3 2 = []) ∧
    (let d := (snapped 1).grids.rd 5
     d.live = true ∧ d.snap = true ∧ d.unprotected = false ∧ d.replayed = false ∧ d.done = false ∧ (∀ e ∈ d.pages, e.1 ≠ 3) ∧
     (∀ i ∈ (snapped 1).family 5, gridTeams (snapped 1) i = []) ∧ pagesBusy (snapped 1) (d.pages.map (·.1)) = false ∧
     pagesHeld (snapped 1) (d.pages.map (·.1)) = none ∧ slotsHeld (snapped 1) d.part (d.pages.map (·.2)) = none) ∧
    ((List.range ((snapped 1).snapCount 0)).find? fun i => ((snapped 1).parts.rd 0).snapUsed.rd i == 0) = some 0 ∧
    ((List.range ((snapped 0).snapCount 0)).find? fun i => ((snapped 0).parts.rd 0).snapUsed.rd i == 0) = none ∧
    (let u := (snapped 1).hwXlate 0 ((snapped 1).snapAddr 0 0) true
     u.2 = .ok 0x70000 false ∧ pagesHeld u.1 [3, 0x70000 / 2 ^ 16] = none) ∧
    (let s := { (snapped 1).modGrid 5 fun d => { d with pages := [(3, 0)] } with agenda := [] }
     (s.grids.rd 5).live = true ∧ (∀ i ∈ s.family 5, gridTeams s i = []) ∧ pagesBusy s [3] = false ∧ pagesHeld s [3] = none ∧ slotsHeld s 0 [0] = none) ∧
    (let s := (base.modGr fun g => { g with region := .draining, expiry := 1 })
     { s with clock := 1 }.gr.expiry ≤ { s with clock := 1 }.clock) ∧
    (let s := (snapped 0).modTm fun t => { t with grid := 5 }
     s.gr.live = true ∧ (s.grids.rd (s.teams.rd 0).grid).verify = true) := by
  refine ⟨?_, ?_, ?_, ?_, ?_, ?_, ?_, ?_, ?_, ?_, ?_, ?_, ?_, ?_, ?_, ?_, ?_, ?_, ?_⟩
  all_goals decide +kernel

/-- A page of partition 0 that the split's TLB lacks and has asked for. -/
noncomputable def asking (s : State) : State := s.modSp fun x => { x with xl := [(7, 1)] }

/-- Line 512 is held by operation 3. -/
noncomputable def holding (done : Bool) : State := (tabled base).modSlice 2 fun x => { x with holds := [{ line := 512, op := 3, done := done }] }

/-- MemoryEvents: a walk that finds the page in the die's TLB and two that do not, of which one waits for a held line; a peer's line, a held line,
lines that wait for the anvil, for an invocation, for a revoke and for a carve, one to be filled and one that is there; a merging fill; a write-through with and without ownership; revokes; a recall; an element; a row; a carve; both kinds of barrier. -/
theorem witness_MemoryEvents :
    (let s := asking ({ base with dies := [(0, { tlb := [tlb0] })] })
     (s.groups.rd 0).core = 0 ∧ groupPart s 0 = 0 ∧ (s.splits.rd 0).xl.rd 7 = 1 ∧ s.tlbServe (s.dies.rd (dieOfCore 0)).tlb 0 (7 * 2 ^ 16) = some tlb0) ∧
    (let s := asking (resident [705, 706, 707] (tabled base))
     s.tlbServe (s.dies.rd (dieOfCore 0)).tlb 0 (7 * 2 ^ 16) = none ∧ (∀ l ∈ walkLines s 0 (7 * 2 ^ 16), s.present l = true ∧ s.busy l = false)) ∧
    (let s := asking (holding false)
     s.tlbServe (s.dies.rd (dieOfCore 0)).tlb 0 (7 * 2 ^ 16) = none ∧ 512 ∈ walkLines s 0 (7 * 2 ^ 16) ∧ s.busy 512 = true) ∧
    isPeer (2 ^ 43) = true ∧
    (isPeer 512 = false ∧ (holding false).held 512 = true) ∧
    ((base.modSlice 2 fun x => { x with inv := { live := true, req := { (default : InvReq) with line := 512 } } }).anvilOn 512 = true ∧
      (base.modSlice 2 fun x => { x with waits := [{ (default : InvReq) with line := 512 }] }).reserved 512 = true ∧
      ({ base with agenda := [{ due := 0, ev := .revoke 0 512 1 0 }] } : State).revoking 512 = true ∧
      ({ base with ops := [(1, { live := true, started := true, kind := .carve 0 0 1 })], agenda := [{ due := 0, ev := .carveSliceApply 1 2 }] } : State).carving 512 = true ∧
      base.held 512 = false) ∧
    (isPeer 7 = false ∧ base.held 7 = false ∧ base.homeWait 7 = false ∧ base.present 7 = false) ∧
    (let s := { tabled base with ops := [(1, { live := true, need := 1 })] }
     isPeer 512 = false ∧ s.held 512 = false ∧ s.homeWait 512 = false ∧ s.present 512 = true ∧ (s.ops.rd 1).live = true) ∧
    ((base.modL1 0 5 fun l => { l with live := true }).l1 0 5).live = true ∧
    (({ base with acks := [(4, { live := true, left := 2 })] } : State).acks.rd 4).live = true ∧
    (base.present 7 = false ∧ base.memHeld 7 0 = false ∧
      (({ base with dies := [(0, { used := [(0, 9)] })] } : State).modPart 0 fun p => { p with regs := [(0x12, 8)] }).memHeld 7 0 = true) ∧
    (∀ b, ((holding b).slices.rd (sliceOf 512)).holds.find? (·.line == 512) = some { line := 512, op := 3, done := b } ∧
      ((holding b).slices.rd (sliceOf 512)).ors = []) ∧
    (let s := { tabled base with ops := [(1, { live := true, kind := .gather .b4 16, pas := [(0, 0x10000)], need := 1 })] }
     (s.ops.rd 1).live = true ∧ (s.ops.rd 1).pas.rd 0 = 0x10000 ∧ (0, 0x10000) ∈ (s.ops.rd 1).pas ∧ (s.ops.rd 1).todo.contains 512 = false ∧
     (s.ops.rd 1).bad = 0 ∧ s.place 0x10000 ≠ none ∧ isPeer 512 = false ∧ s.held 512 = false ∧ s.homeWait 512 = false ∧ s.present 512 = true ∧
     s.homePsn 512 = 0 ∧ ∀ i, i < 4 → armedOver s 0 (16 + i) 1 = false) ∧
    (({ base with dies := [(0, { rows := [(3, (5, 7))] })] } : State).dies.rd 0).rows.rd 3 = (5, 7) ∧
    (let s := { base with ops := [(1, { live := true, kind := .carve 0 2 5, need := 9 })] }
     (s.ops.rd 1).live = true ∧ (s.ops.rd 1).kind = .carve 0 2 5 ∧ ∀ e ∈ s.ops, e.1 < 1 → e.2.live = true → ∀ m, e.2.kind ≠ .carve 0 2 m) ∧
    (∀ due ∈ [8, 48], let s := { base.modSp fun x => { x with phase := letGo, until_ := due, wait := .cond (.bar 6 true false) } with clock := 8 }
     (s.splits.rd 0).phase = letGo ∧ (s.splits.rd 0).wait = .cond (.bar 6 true false) ∧ ((s.splits.rd 0).until_ ≤ s.clock ↔ due = 8) ∧ s.splits.wf = true) ∧
    gridArrived ({ base with grids := [(0, { live := true, teams := 1, placed := 1, garr := [0] })] }) 0 = true := by
  refine ⟨?_, ?_, ?_, ?_, ?_, ?_, ?_, ?_, ?_, ?_, ?_, fun b => by cases b <;> decide +kernel, ?_, ?_,
    ⟨?_, ?_, fun e he h => by cases List.mem_singleton.1 he; exact absurd h (by decide)⟩, ?_, ?_⟩ <;> decide +kernel

/-- A call of routine 0 of partition 0 on line 512. -/
noncomputable def aCall : InvReq := { (default : InvReq) with kind := .call, line := 512, op := 1, ids := [0] }

/-- SliceEvents: a line that a slice can take now; an entry that is cached and one that is not, for a request that has arrived and one that has
not, of an entry without memory and of a line that is held; a routine table whose lines are there, and one of whose lines are not; a `tred`. -/
theorem witness_SliceEvents :
    (isPeer 512 = false ∧ (tabled base).held 512 = false ∧ (tabled base).homeWait 512 = false ∧ ((tabled base).slices.rd (sliceOf 512)).inv.live = false ∧
      (tabled base).anvilSpent (sliceOf 512) 0 = false ∧ (tabled base).present 512 = true ∧ (tabled base).owners 512 (BitVec.allOnes 32) noOwner = [] ∧
      ∀ i, i < 4 → ((tabled base).homePsn 512).getLsbD i = false) ∧
    isPeer (2 ^ 50 / 128) = true ∧
    (let s := tabled base
     aCall.ids = [0] ∧ aCall.nth = 0 ∧ aCall.kind = .call ∧ s.rtAbsent 0 0 = false ∧ s.homeWait 512 = false ∧ s.anvilSpent (sliceOf 512) 0 = false ∧ isPeer aCall.line = false ∧ s.cached (sliceOf 512) 0 0 = none ∧ (s.slices.rd (sliceOf 512)).waits.contains aCall = false ∧
     s.heldFrom 512 aCall.hold = false) ∧
    ((holding false).heldFrom 512 aCall.hold = true ∧ (holding false).cached (sliceOf 512) 0 0 = none) ∧
    (let s := (tabled base).modPart 0 fun p => { p with regs := [(0x18, 1#64 <<< 63 ||| 1#64 <<< 40)] }
     s.rtAbsent 0 0 = true ∧ s.cached (sliceOf 512) 0 0 = none ∧ s.homeWait 512 = false ∧ s.heldFrom 512 aCall.hold = false ∧ s.anvilSpent (sliceOf 512) 0 = false) ∧
    (((tabled base).modSlice 2 fun x => { x with waits := [aCall] }).slices.rd (sliceOf 512)).waits.contains aCall = true ∧
    ((tabled base).modSlice 2 fun x => { x with cache := [{ key := 0, words := [0x101, 0, 0, 0, 0x1C] }] }).cached (sliceOf 512) 0 0 =
      some { key := 0, words := [0x101, 0, 0, 0, 0x1C] } ∧
    (let s := resident (List.range 4) base
     s.rtAbsent 0 0 = false ∧ ∀ l ∈ s.rtLines 0 0, s.present l = true ∧ s.held l = false ∧ s.homeWait l = false) ∧
    (let s := { tabled base with ops := [(1, { live := true, kind := .chart 3 0 false false, need := 1, pas := [(0, 513)], rec_ := chartRec 0 0 1 8 7 1 0 })] }
     linePieces (opXfer (s.ops.rd 1)).pieces 0 ≠ [] ∧ (s.ops.rd 1).live = true ∧ (s.ops.rd 1).pas.rd 0 - 1 = 512 ∧
     ∀ p ∈ linePieces (opXfer (s.ops.rd 1)).pieces 0, (s.homePsn 512).getLsbD (p.mem % 1024 / 256) = false) := by
  refine ⟨?_, ?_, ?_, ?_, ?_, ?_, ?_, ?_, ?_⟩ <;> decide +kernel

/-- Die 0's chart engine translates the first 4 MiB, and has operation 1 to do. -/
noncomputable def engine (o : Op) : State := { tabled base with dies := [(0, { chartQ := [1], chartTlb := [tlb0] })], ops := [(1, o)] }

/-- A transfer of one line at 0x10000 to scratchpad 0. -/
noncomputable def oneLine (sub : Nat) : Op := { live := true, kind := .chart sub 0 false false, need := 1, rec_ := chartRec 0 0 1 1 0 1 0 + 0x10000 }

/-- A post to a line of slice 2, for the pixel at 0, 0. -/
def aPost : Post := { core := 0, part := 0, op := 1, grid := 0, slot := 0, line := 512, x := 0, y := 0, draw := 3, ord := 4, cov := 1, words := [5], c := false, key := 1 }

/-- A notice for the same pixel, of draw 0 or 1. -/
def aNotice (draw : Nat) : Notice := { part := 0, key := draw - 2, line := 512, draw := draw, ord := 4, mask := 1 }

noncomputable def posting (ns : List Notice) (n : Nat) : State := (tabled base).modSlice 2 fun x => { x with notices := ns, held := List.replicate n aPost }

/-- TransferAndPostEvents: transfers of either direction to start, a line to land, a page that is not there; a post with no notice, whose notice is
the oldest, and whose notice is not, with room for it and without; a forward post; a clear; a sample that settles, one that does not yet, and one
that does not ask. -/
theorem witness_TransferAndPostEvents :
    (∀ d, d = 1 ∨ d = 2 → (((engine (oneLine d)).dies.rd 0).chartQ.find? fun id => !((engine (oneLine d)).ops.rd id).started) = some 1 ∧
      ((engine (oneLine d)).ops.rd 1).live = true ∧ ((engine (oneLine d)).ops.rd 1).kind = .chart d 0 false false) ∧
    pieceLines (opXfer (oneLine 2)).pieces = [512] ∧
    (match (engine (oneLine 2)).walk 0 (va56 0x10000) with
      | .ok _ e => decide (e.testBit 2 = true ∧ (engine (oneLine 2)).place (fld e 16 36 * 2 ^ 16) = some 0x10000) && !isPeer 512
      | _ => false) = true ∧
    (let s := engine { oneLine 1 with started := true, todo := [513] }
     let u := s.drawn 1
     let o := s.ops.rd 1
     o.live = true ∧ o.kind = .chart 1 0 false false ∧ o.started = true ∧ o.parked = false ∧ o.todo = [513] ∧
     u.chartPages (dieOfCore o.core) o.part false [1] = (u, .ok 0 false false) ∧
     u.engineXlate (dieOfCore o.core) o.part (BitVec.ofNat 64 (128 * 512)) false = (u, .ok 0x10000 false false) ∧
     isPeer 512 = false ∧ s.held 512 = false ∧ s.homeWait 512 = false ∧ s.present 512 = true ∧ (linePieces (opXfer o).pieces 512).length = 1 ∧
     (∀ b ∈ linePieces (opXfer o).pieces 512, (s.homePsn 512).getLsbD (b.mem % 1024 / 256) = false) ∧ s.cores = [] ∧ o.split = 0) ∧
    (let s := engine { oneLine 1 with started := true, todo := [0x80000 / 128 + 1] }
     (((s.ops.rd 1).todo.filter (· != 0)).find? fun w => s.walk 0 (va56 (BitVec.ofNat 64 (128 * (w - 1)))) == .fault) = some 4097) ∧
    (posting [] 0).entryOf aPost = none ∧
    ((posting [aNotice 3] 0).entryOf aPost = some (aNotice 3) ∧ ((posting [aNotice 3] 0).noticesOf 512).head? = some (aNotice 3)) ∧
    (∀ n, n = 3 ∨ n = 511 → (posting [aNotice 2, aNotice 3] n).entryOf aPost = some (aNotice 3) ∧
      ((posting [aNotice 2, aNotice 3] n).noticesOf 512).head? ≠ some (aNotice 3) ∧ ((posting [aNotice 2, aNotice 3] n).slices.rd (sliceOf 512)).held.length = n) ∧
    (let s := engine (oneLine 1)
     s.engineXlate (dieOf 512) 0 (lineVa (s.slot 0 0).rec_ 0 0 0) true = (s, .ok 0 false false) ∧ s.uncopied 0 false 0 = false) ∧
    (let s := tabled base
     isPeer 512 = false ∧ s.held 512 = false ∧ s.homeWait 512 = false ∧ s.present 512 = true ∧ (s.slices.rd (sliceOf 512)).inv.live = false ∧
     s.anvilSpent (sliceOf 512) 0 = false ∧ s.owners 512 (BitVec.allOnes 32) noOwner = [] ∧ s.acks = [] ∧ recField (s.slot 0 0).rec_ 192 64 = 0) ∧
    ((posting [aNotice 3] 0).settled 512 0 (2 ^ 32 * 4) = false ∧ (posting [aNotice 3] 0).settled 512 0 0 = true ∧
      ∀ i, i < 4 → ((posting [aNotice 3] 0).homePsn 512).getLsbD i = false) := by
  refine ⟨fun d h => by obtain rfl | rfl := h <;> decide +kernel, ?_, ?_, ?_, ?_, ?_, ?_,
    fun n h => by obtain rfl | rfl := h <;> decide +kernel, ?_, ?_, ?_⟩ <;> decide +kernel

/-- Draw 1: one triangle that covers the one pixel of its target, whose line is at `va`. -/
noncomputable def rastering (va : Nat) (f : Draw → Draw) : State :=
  let vert (x y : W32) : Vert := { has := true, pos := [x, y, 0x3F000000, 0x3F800000] }
  { (engine {}).modPart 0 fun p => { p with slots := [(0, { bound := true, rec_ := BitVec.ofNat 512 (va + 2 ^ 64 + 2 ^ 80) })], regs := p.regs.wr 0x1A 1 } with
    draws := [(1, f { live := true, rec_ := BitVec.ofNat 512 (3 * 2 ^ 160 + 2 ^ 224), verts := [(0, vert 0 0), (1, vert 0x40000000 0), (2, vert 0 0x40000000)], fgrid := 3 })]
    grids := [(3, { live := true, kind := .fragment, lanes := 32, word := 1 })] }

/-- The triangle has been assembled. -/
noncomputable def assembled (va : Nat) (f : Draw → Draw) : State := rastering va fun d => f { d with nprim := 1, prims := [0] }

/-- A LAUNCH record of one team of 64 lanes. -/
def launchRec : Nat := 1 + 2 ^ 32 * 0x400001 + 2 ^ 64 * 0x1000 + 2 ^ 128 + 2 ^ 160 * 64

/-- An output that is on, its re-projection's record at 0x20000 and its present word at 0x2000. -/
def showing : Output := { ctl := 1#64 <<< 63, reproj := 0x20000, present := 0x2000, last := 5 }

/-- Output 1 shows; the present word is `w`. -/
noncomputable def displaying (w : Nat) : State :=
  ((resident [0, 64, 705, 706, 707, 1024] { tabled base with outs := [(1, showing)] }).setTag 64 { valid := true, data := BitVec.ofNat 1024 w }).setTag 1024
    { valid := true, data := BitVec.ofNat 1024 launchRec }

/-- DrawAndDisplayEvents: a triangle to assemble and kept; a draw whose tiles are done, one whose tile is done, a primitive whose line is there, one
whose page is not; a full slice and one with room; quads to launch; an output that is off and one that is on, with a re-projection to launch; a present word that cannot be read, one
whose home slice makes it wait, and new ones whose buffer is shown, is not, and waits; a re-projection beyond its budget. -/
theorem witness_DrawAndDisplayEvents :
    (triangleDue (rastering 0 id) 1 = true ∧ triKept (drawTri ((rastering 0 id).draws.rd 1) 0) = true) ∧
    (rasterDue (assembled 0 fun d => { d with tile := 1 }) 1 = true ∧ rasterFirst (assembled 0 fun d => { d with tile := 1 }) 1 = true ∧
      tileCount (assembled 0 fun d => { d with tile := 1 }) ((assembled 0 fun d => { d with tile := 1 }).draws.rd 1) ≤ 1) ∧
    (rasterDue (assembled 0 fun d => { d with tprim := 1 }) 1 = true ∧ rasterFirst (assembled 0 fun d => { d with tprim := 1 }) 1 = true ∧
      0 < tileCount (assembled 0 fun d => { d with tprim := 1 }) ((assembled 0 fun d => { d with tprim := 1 }).draws.rd 1)) ∧
    (rasterDue (assembled 0 id) 1 = true ∧ rasterFirst (assembled 0 id) 1 = true ∧
      (let p := (((assembled 0 id).modDraw 1 fun d => { d with stopped := false }).rasterPlan 1 0 0).2
       p.miss = false ∧ p.fault = none ∧ p.lines = [(0, 0, 0)])) ∧
    rasterFault (assembled 0x400000 id) 1 = some 0x400000 ∧
    (let s := base.modSlice 2 fun x => { x with notices := List.replicate 8192 (aNotice 3) }
     8192 ≤ (s.slices.rd (sliceOf 512)).notices.length) ∧
    (¬ 8192 ≤ ((rastering 0 id).slices.rd (sliceOf 512)).notices.length ∧ ((rastering 0 id).draws.rd (aNotice 3).key).live = true) ∧
    (let s := rastering 0 fun d => { d with quads := [{ x := 0, y := 0, ord := 0, frags := [{ live := true }] }] }
     fragmentsDue s 1 = true ∧ bestPlace (places s (pendingRestores s) (s.grids.rd 3) (fragSpec s 1)) = some 1 ∧ 4 ≤ (s.grids.rd 3).lanes) ∧
    (base.outs.rd 0).enabled = false ∧ (let x : Output := { ctl := 1#64 <<< 63, present := 1 }; x.enabled = true ∧ x.present.toNat % 8 ≠ 0) ∧
    (showing.enabled = true ∧ showing.reproj.toNat % 64 = 0 ∧ showing.present.toNat % 8 = 0 ∧ (displaying 0).agenda = [] ∧
     (let r := (displaying 0).modOut 1 fun o => { o with used := 0, grid := 0, placed := false }
      let u := r.hwRead ((displaying 0).outPart 1) 0x20000 64
      u.2 = .ok launchRec ∧ (match (u.1.checkLaunch ((displaying 0).outPart 1) true (BitVec.ofNat 512 launchRec)).2 with
        | some (.ok _) => true
        | _ => false) = true)) ∧
    (∀ w ∈ [0, 32, 5], ((displaying w).hwRead ((displaying w).outPart 1) 0x2000 8).2 = .ok w ∧
      (w ≠ 5 → (((displaying w).hwRead ((displaying w).outPart 1) 0x2000 8).1.showBuffer ((displaying w).outPart 1) (BitVec.ofNat 64 w)).2 = some (w == 0))) ∧
    (let s := (displaying 0x2040).modSlice (sliceOf 64) fun x => { x with holds := [{ line := 64, op := 3, done := false }] }
     (s.hwRead (s.outPart 1) 0x2000 8).2 = .wait) ∧
    (let s := (displaying 0x20000).modSlice (sliceOf 1024) fun x => { x with holds := [{ line := 1024, op := 3, done := false }] }
     (s.hwRead (s.outPart 1) 0x2000 8).2 = .ok 0x20000 ∧
     ((s.hwRead (s.outPart 1) 0x2000 8).1.showBuffer (s.outPart 1) 0x20000).2 = none) ∧
    (∀ b, (showing.queue, ({ showing with placed := b } : Output).placed) = (0, b)) ∧
    (let s := { base with outs := [(1, { ctl := 9, used := 9, grid := 4, placed := true })], grids := [(4, { kind := .reproj, teams := 2, placed := 2 })] }
     (s.outs.rd 1).grid ≠ 0 ∧ overBudget s 4 = true ∧ reprojPlaced s 1 = true) := by
  refine ⟨?_, ?_, ?_, ?_, ?_, ?_, ?_, ?_, ?_, ?_, ?_, ?_, ?_, ?_, fun b => by cases b <;> decide +kernel, ?_⟩ <;> decide +kernel

/-- Queue 0 of partition 0 stands at a record at 0x20000, whose line is in the LLC. -/
noncomputable def queued (r : Nat) (open_ : List Nat := []) : State :=
  (resident [705, 706, 707, 1024] { tabled base with queues := [(0, { ctl := 1#64 <<< 63, base := 0x20000, size := 16, tail := 1, open_ := open_ })] }).modSlice (sliceOf 1024) fun x =>
    { x with tags := [(1024, { valid := true, data := BitVec.ofNat 1024 r })] }

/-- Grid 5 has run its one team. -/
noncomputable def ran (f : Grid → Grid) : State := { resident [705, 706, 707] (tabled base) with grids := [(5, f { live := true, admitted := true, teams := 1, placed := 1, ran := [0] })] }

/-- QueueEvents: an idle queue; a LAUNCH record that is taken and two that are not; a DRAW record; a SIGNAL with records open before it and without; a
WAIT whose word is there, one to check again and one whose line is held; queues and grids at a page that is not there; a grid to flush, to complete, and to complete with its word; a spilled record. -/
theorem witness_QueueEvents :
    queueReady base 0 = false ∧
    (∀ r ∈ [launchRec, launchRec + 2 ^ 16 * 255 * 256, launchRec + 2 ^ 16 * 255 * 256 + 2 ^ 256 * 0x60000, 2 ^ 9, 4 + 2 ^ 64 * 0x10000],
      queueReady (queued r) 0 = true ∧ ((queued r).hwRead 0 (headVa ((queued r).queues.rd 0)) 64).2 = .ok r) ∧
    (∀ r, r = launchRec → (match ((((queued r).hwRead 0 0x20000 64).1).checkLaunch 0 true (BitVec.ofNat 512 r)).2 with
      | some (.ok y) => !y.coop
      | _ => false) = true) ∧
    (∀ r ∈ [launchRec + 2 ^ 16 * 255 * 256, launchRec + 2 ^ 16 * 255 * 256 + 2 ^ 256 * 0x60000],
      (match ((((queued r).hwRead 0 0x20000 64).1).checkLaunch 0 true (BitVec.ofNat 512 r)).2 with
      | some (.error _) => true
      | _ => false) = true) ∧
    (rf (BitVec.ofNat 512 (2 ^ 9)) 0 8 = 0 ∧
      (let r := 2 + 2 ^ 32 * 0x400001 + 2 ^ 64 * 0x1000 + 3 * 2 ^ 160 + 2 ^ 240 * 64 + 2 ^ 320 * 0x400001
       rf (BitVec.ofNat 512 r) 0 8 = 2 ∧ (queued r).drawStatus 0 (BitVec.ofNat 512 r) = 0)) ∧
    (let r := 3 + 2 ^ 64 * 0x50000 + 2 ^ 128 * 77
     syncRecord (BitVec.ofNat 512 r) = some (0x50000, 77) ∧ ((queued r [4]).queues.rd 0).open_ ≠ [] ∧
     (let w := ((((queued r).hwRead 0 0x20000 64).1).hwXlate 0 0x50000 true)
      w.2 = .ok 0x50000 false ∧ isPeer 0xA00 = false ∧ w.1.held 0xA00 = false ∧ w.1.homeWait 0xA00 = false ∧ w.1.owners 0xA00 (BitVec.allOnes 32) noOwner = [] ∧ (w.1.homePsn 0xA00).getLsbD 0 = false)) ∧
    (let r := 4 + 2 ^ 64 * 0x10000
     syncRecord (BitVec.ofNat 512 r) = some (0x10000, 0) ∧ ((((queued r).hwRead 0 0x20000 64).1).hwRead 0 0x10000 8).2 = .ok 0x12001) ∧
    (let s := (queued (4 + 2 ^ 64 * 0x10000)).modQueue 0 fun x => { x with busy := true }
     let t := s.modSlice (sliceOf 1024) fun x => { x with holds := [{ line := 1024, op := 3, done := false }] }
     (s.queues.rd 0).busy = true ∧ (s.hwRead 0 0x20000 64).2 ≠ .wait ∧ (t.queues.rd 0).busy = true ∧ (t.hwRead 0 0x20000 64).2 = .wait) ∧
    (queueFault (queued (3 + 2 ^ 64 * 0x80000)) 0 = some 0x80000 ∧
      (ran fun g => { g with compl := 0x80000 }).hwPeek 0 0x80000 true = .fault) ∧
    gridDue base 5 = false ∧ gridDue ((ran id).modTm fun t => { t with grid := 4 }) 5 = true ∧
    (let s := (ran fun g => { g with flushed := 1 }).modTm fun t => { t with grid := 4 }
     gridDue s 5 = true ∧ (s.grids.rd 5).flushed ≠ 0 ∧ (s.grids.rd 5).compl = 0) ∧
    (let s := (ran fun g => { g with flushed := 1, compl := 0x60000 }).modTm fun t => { t with grid := 4 }
     let w := s.hwXlate 0 0x60000 true
     gridDue s 5 = true ∧ w.2 = .ok 0x60000 false ∧ isPeer 0xC00 = false ∧ w.1.held 0xC00 = false ∧ w.1.homeWait 0xC00 = false ∧ w.1.owners 0xC00 (BitVec.allOnes 32) noOwner = [] ∧ (w.1.homePsn 0xC00).getLsbD 0 = false) ∧
    spillDue (base.modPart 0 fun p => { p with live := true, spilled := [6], regs := [(0x10, 2)] }) 0 = true := by
  refine ⟨?_, ?_, fun r h => by subst h; decide +kernel, ?_, ?_, ?_, ?_, ?_, ?_, ?_, ?_, ?_, ?_, ?_⟩ <;> decide +kernel

/-- A graph with one node, a queued slot and a batch, on the grid 5 that may use the first pair. -/
noncomputable def graphed : State :=
  { base.modPart 0 fun p => { p with live := true, regs := [(0x1A, 1)], wg := [(1, { st := .queued, clock := 3 })] } with
    clock := 90, grids := [(5, { live := true, admitted := true, teams := 1, lanes := 64, word := 0x400001 })]
    graphs := [(2, { live := true, grid := 5, nodes := [(4, { word := 0x400001, lanes := 64, timeout := 80, queued := [1] })], ready := [{ node := 4, slots := [7], clock := 0 }] })] }

/-- TeamEvents: a grid with no team to place and with one; a slot that has waited its time, and one that has not; a batch to launch; a team with an
operation left and with none, whose dirty words have not been written, are on their way, and have been. -/
theorem witness_TeamEvents :
    canPlace base 5 = false ∧ (canPlace graphed 5 = true ∧ (graphed.grids.rd 5).coop = false ∧
      bestPlace (places graphed (pendingRestores graphed) (graphed.grids.rd 5) (nextTeam graphed 5)) = some 1) ∧
    (((graphed.graphs.rd 2).nodes.rd 4).queued = [1] ∧ (graphed.graphs.rd 2).live = true ∧ (graphed.wgSlot 0 1).clock + 80 ≤ graphed.clock ∧
      ¬ (graphed.wgSlot 0 1).clock + 80 ≤ ({ graphed with clock := 82 } : State).clock) ∧
    (nextBatch (graphed.graphs.rd 2) = some { node := 4, slots := [7], clock := 0 } ∧ batchDue graphed 2 = true ∧
      bestPlace (places graphed (pendingRestores graphed) (graphed.grids.rd 5) (batchSpec graphed 2 { node := 4, slots := [7], clock := 0 })) = some 1) ∧
    (let s := base.modTm fun t => { t with ending := true }
     (s.teams.rd 0).live = true ∧ (s.teams.rd 0).ending = true ∧ teamOps s 0 = [] ∧ teamOps ({ s with ops := [(1, { live := true })] }) 0 ≠ [] ∧
     (s.teams.rd 0).flushed = 0 ∧
     (let u := s.modTm fun t => { t with flushed := 2 }
      let y := u.teams.rd 0
      y.live = true ∧ y.ending = true ∧ teamOps u 0 = [] ∧ y.flushed ≠ 0 ∧ (teamCores y).any (fun c => u.wtPending c (y.flushed - 1) true) = false ∧
      teamOps (writing u) 0 = [] ∧ (teamCores y).any (fun c => (writing u).wtPending c (y.flushed - 1) true) = true)) := by
  refine ⟨?_, ?_, ?_, ?_, ?_⟩ <;> decide +kernel

/-- RegisterEvents: a value that each register takes, and one that it does not; queues that are empty and that are not. -/
theorem witness_RegisterEvents :
    (∀ k ∈ [0, 0x13, 0x14, 0x15, 0x16, 0x17, 9, 0x18, 6, 4], pregOk base 0 k 0 = (k != 0x15 && k != 0x16 && k != 0x17) ) ∧
    pregOk base 0 0 1 = false ∧ pregOk base 0 0x15 (1#64 <<< 37) = true ∧
    (0x70000#64 &&& ~~~(bitsAt 16 36) = 0 ∧ (1#64 <<< 63) &&& ~~~(bitsAt 16 36 ||| bitsAt 63 1) = 0) ∧
    (let x : Queue := { size := 16 }
     x.size.toNat < ((17 : W64).setWidth 32 - x.head).toNat ∧ ¬ x.size.toNat < ((16 : W64).setWidth 32 - x.head).toNat ∧ x.head = x.tail) ∧
    ({ tail := 1 } : Queue).head ≠ ({ tail := 1 } : Queue).tail ∧ (64 : W64).toNat = 2 ^ 6 ∧
    (1#64 <<< 63) &&& ~~~(bitsAt 63 1 ||| bitsAt 48 11 ||| 1#64) = 0 ∧ (3 : W64).toNat < 4 := by
  decide +kernel

/-- Split 0 waits for the service to answer request `b`. -/
noncomputable def serving (b : Nat) (s : State) : State := s.modSp fun x => { x with wait := .service b, s := [(56, 0x1A), (57, 0x40)] }

/-- What holds of every entry of a table, and of an absent one, holds of what is read there. -/
theorem rd_of_all {α : Type} [Inhabited α] {P : α → Prop} {m : TMap α} (h : ∀ e ∈ m, P e.2) (d : P default) (k : Nat) : P (m.rd k) := by
  induction m with
  | nil => exact d
  | cons e m ih =>
    simp only [TMap.rd, TMap.getD]
    split
    · exact h e (List.mem_cons_self ..)
    · exact ih fun e he => h e (List.mem_cons_of_mem _ he)

/-- Nothing keeps a request waiting at any home slice: no hold, no invocation, no revoke. -/
def quietHomes (s : State) : Bool := s.acks == [] && s.agenda == [] && s.slices.all fun e => e.2.holds == [] && e.2.waits == [] && !e.2.inv.live

theorem svcBusy_of_quiet {s : State} (h : quietHomes s = true) (part : Nat) (ps : List (W64 × List W8)) : svcBusy s part true ps = [] := by
  simp only [quietHomes, Bool.and_eq_true, beq_iff_eq, List.all_eq_true, Bool.not_eq_true'] at h
  obtain ⟨⟨ha, hg⟩, hs⟩ := h
  have hl : ∀ line, s.busy line = false := by
    intro line
    obtain ⟨⟨h1, h2⟩, h3⟩ := rd_of_all (P := fun x : Slice => (x.holds = [] ∧ x.waits = []) ∧ x.inv.live = false) hs ⟨⟨rfl, rfl⟩, rfl⟩ (sliceOf line)
    simp [State.busy, State.held, State.homeWait, State.anvilOn, State.reserved, State.revoking, State.carving, h1, h2, h3, ha, hg]
  refine List.flatMap_eq_nil_iff.2 fun p _ => List.append_eq_nil_iff.2 ⟨?_, ?_⟩
  · unfold State.walkBusy
    split
    · exact List.filter_eq_nil_iff.2 fun l _ => by rw [hl]; exact Bool.false_ne_true
    · rfl
  · split
    · exact if_neg (by rw [hl]; exact Bool.false_ne_true)
    · rfl

/-- The service is up, and a requester with a session asks. -/
noncomputable def up (s : State) : State := { s with boot := .running, sessions := [1], hmac := some 1 }

/-- RequestEvents: before boot has ended, after it has failed, with a key of no session and with one of a session; a partition to create, with and
without a window; one to destroy; bytes to load; requests of each kind with their arguments. -/
theorem witness_RequestEvents :
    base.boot = .rom ∧ ({ base with boot := .failed } : State).boot = .failed ∧
    (let s := { up base with hmac := some 2 }; s.boot = .running ∧ s.hmac = some 2 ∧ 2 ∉ s.sessions) ∧
    (up base).boot = .running ∧ (∀ key, (up base).hmac = some key → key ∈ (up base).sessions) ∧
    (let c : PartCfg := { id := 63, regs := [], windows := [(63, 1#64 <<< 63, 0x70000)] }
     c.id ≤ 63 ∧ ((up base).parts.rd 63).live = false ∧ ((up (tabled base)).parts.rd 0).live = true ∧ c.regs = [] ∧ c.windows = [(63, 1#64 <<< 63, 0x70000)] ∧
     (1#64 <<< 63 &&& ~~~(bitsAt 16 36 ||| bitsAt 63 1)) = 0 ∧ (0x70000#64 &&& ~~~(bitsAt 16 36)) = 0) ∧
    (let s := up (tabled base)
     (s.parts.rd 0).live = true ∧ s.grids = [] ∧ (∀ d, d < 4 → s.chunksOf 0 d = []) ∧ s.ops = [] ∧ partPairs s 0 = []) ∧
    (let s := up (tabled base)
     s.inWindows 0 0x10010 = true ∧ s.place 0x10010 = some 0x10010 ∧ isPeer 512 = false ∧ s.held 512 = false ∧ s.homeWait 512 = false ∧ 0x10010 % 128 + 4 ≤ 128) ∧
    pregOk base 0 0x18 0 = true ∧
    (∀ b ∈ [1, 2, 3, 4, 5], let s := serving b base
      (s.splits.rd 0).live = true ∧ (s.splits.rd 0).wait = .service b ∧ (s.groups.rd 0).saved = false ∧ (s.groups.rd 0).saveKind = 0 ∧ s.reports = []) ∧
    (pregMask 0x1A ≠ none ∧ pregSup 0x1A = false ∧ pregMask 0x23 = none ∧ pregSup 9 = true) ∧
    (({ serving 3 base with reports := [default] } : State).reports.find? (·.part == 0)) = some default ∧ quietHomes { serving 3 base with reports := [default] } = true ∧
    ((base.modPart 0 fun p => { p with removes := [2] }).parts.rd 0).removes = [2] := by
  refine ⟨?_, ?_, ?_, ?_, fun key h => by cases h; exact List.mem_singleton.2 rfl, ?_, ?_, ?_, ?_, ?_, ?_, ?_, ?_, ?_⟩ <;> decide +kernel

/-- RequestEvents: a nonce that can be read, and one that cannot. -/
theorem witness_RequestEvents_attest :
    (let r := (serving 4 (resident [0, 705, 706, 707] (tabled base))).svcRead 0 (pieces 0x40 (List.replicate 48 0))
     r.2.isSome = true ∧ quietHomes r.1 = true ∧ svcBusy (serving 4 (resident [0, 705, 706, 707] (tabled base))) 0 false (pieces 0x40 (List.replicate 48 0)) = []) ∧
    ((serving 4 base).svcRead 0 (pieces 0x40 (List.replicate 48 0))).2 = none ∧ svcBusy (serving 4 base) 0 false (pieces 0x40 (List.replicate 48 0)) = [] := by
  refine ⟨?_, ?_⟩ <;> decide +kernel

/-- A peer's request for line 512 of this device, or this device's for a line of a peer. -/
def slotReq (incoming : Bool) (line : Nat) (k : SlotKind) : SlotReq := { incoming := incoming, dev := 3, part := 0, line := line, bytes := 1, data := 7, kind := k, op := 1 }

noncomputable def granted : State := { tabled base with grants := [{ dev := 3, part := 0, lo := 0, hi := 0x20000, rtPart := 0 }]
                                                        peerGrants := [{ dev := peerDev (2 ^ 43), part := 0, lo := 2 ^ 50, hi := 2 ^ 50 + 128, rtPart := 0 }] }

/-- DeviceEvents: a failed layer and none; words to poison; requests that a grant names and that none does, of each kind, to a line that exists and
to one that does not; a peer's line whose owners are being revoked; requests of each kind that have had no response for 1 ms, and one clock less. -/
theorem witness_DeviceEvents :
    (granted.place (128 * 512) ≠ none ∧ granted.place (128 * 2 ^ 35) = none) ∧ granted.revoking (2 ^ 43) = false ∧ granted.owners (2 ^ 43) 1 0 = [] ∧
    ({ granted with agenda := [{ due := 0, ev := .revoke 0 (2 ^ 43) 1 0 }] } : State).revoking (2 ^ 43) = true ∧
    base.boot = .rom ∧ (let s := { base with boot := .running, attestKey := true }; s.boot = .running ∧ s.attestKey = true ∧ 4 ∉ s.sessions) ∧
    base.llcOnly = [] ∧ base.place 0x10000 = some 0x10000 ∧ isPeer 512 = false ∧ ((base.modL1 0 5 fun l => { l with live := true }).l1 0 5).live = true ∧
    (base.groups.rd 0).live = true ∧ (base.teams.rd 0).live = true ∧
    ((base.topRange 2).2 ≠ 0 ∧ (base.dies.rd 2).failing = false ∧ base.parts.wf = true) ∧
    (let s := { base with dies := [(2, { lost := 2 ^ 37, failing := true })] }; (s.topRange 2).2 = 0 ∧ (s.dies.rd 2).failing = true) ∧
    (granted.grantFor (slotReq true 512 (.call default)) ≠ none ∧ granted.grantFor (slotReq true 1024 (.call default)) = none ∧
      granted.held 512 = false ∧ granted.homeWait 512 = false ∧ granted.present 512 = true) ∧
    (granted.peerAllows 0 (2 ^ 43) = true ∧ granted.peerAllows 0 (2 ^ 43 + 1) = false ∧ isPeer (2 ^ 43) = true) ∧
    (let e := Ev.slotlinkRequest { slotReq false (2 ^ 43) (.atomic { (default : AtmReq) with op := 1 }) with sent := 1 }
     let s := { granted with ops := [(1, { live := true, returning := true, need := 1 })], agenda := [{ due := 0, ev := e }], clock := 1600000 }
     (s.ops.rd 1).live = true ∧ (s.ops.rd 1).returning = true ∧ (s.agenda.find? fun e => unheard s 1 e.ev) = some { due := 0, ev := e } ∧
     (({ s with clock := 1599999 } : State).agenda.find? fun e => unheard { s with clock := 1599999 } 1 e.ev) = none) ∧
    (let e := Ev.tsampleRead { (default : TsReq) with op := 1, line := 2 ^ 43 }
     let s := { granted with ops := [(1, { live := true, returning := true, need := 1, sent := [(0, 1)] })], agenda := [{ due := 0, ev := e }], clock := 1600000 }
     (s.ops.rd 1).live = true ∧ (s.ops.rd 1).returning = true ∧ (s.agenda.find? fun e => unheard s 1 e.ev) = some { due := 0, ev := e }) ∧
    (let s := { granted with
       ops := [(1, { live := true, need := 1, pas := [(7, 2 ^ 50)], sent := [(0, 1)] })], agenda := [{ due := 0, ev := .gatherLanding 1 7 }]
       grids := [(0, { live := true })], clock := 1600000 }
     (s.ops.rd 1).live = true ∧ (s.grids.rd (s.ops.rd 1).grid).live = true ∧
     (s.agenda.find? fun e => unheard s 1 e.ev) = some { due := 0, ev := .gatherLanding 1 7 }) ∧ granted.agenda = [] ∧ (granted.ops.rd 1).todo = [] := by
  refine ⟨?_, ?_, ?_, ?_, ?_, ?_, ?_, ?_, ?_, ?_, ?_, ?_, ?_, ?_, ?_, ?_, ?_, ?_, ?_, ?_⟩ <;> decide +kernel

/-- StepRunsDecoded: a state for each turn. -/
theorem witness_StepRunsDecoded :
    (let s := State.reset.withFetchWord 32 0x00000203
     s.turn = .split 0 ∧ (s.splits.rd 0).begun = true ∧ (s.splits.rd 0).idx < (s.splits.rd 0).count ∧
       (decode ((s.splits.rd 0).code.drop (s.splits.rd 0).off)).toOption.map (·.1) = some .nop) ∧
    (let s := State.reset.withFetchWord 32 0x0000001C
     s.turn = .anvil 0 ∧ (decodeH ((s.slices.rd 0).inv.code.rd (s.slices.rd 0).inv.pc).toNat).toOption = some .hEnd) ∧
    (let s := { State.reset with turn := .event 0, agenda := [{ due := 3, ev := .memBudgetPeriod }] }
     s.turn = .event 0 ∧ s.agenda[0]? = some { due := 3, ev := .memBudgetPeriod }) ∧
    (let s := { State.reset with turn := .run .memBudgetPeriod }; s.turn = .run .memBudgetPeriod) ∧
    (let s := { State.reset with turn := .input, inputs := [{ ev := .coldReset, key := 0 }] }; s.turn = .input ∧ s.inputs = [{ ev := .coldReset, key := 0 }]) ∧ State.reset.turn = .choose := by
  refine ⟨?_, ?_, ?_, ?_, ?_, ?_⟩ <;> decide +kernel

/-- EncodeDecode and DecodeEncode: a core instruction and an anvil word, and what they are read from. -/
theorem witness_EncodeDecode :
    (isCore (.addLane 5 100 (.v 127)) ∧ (Instr.addLane 5 100 (.v 127)).wf = true ∧ (decode (halves 0x7FC8140B ++ [9])).toOption = some (.addLane 5 100 (.v 127), [9])) ∧
    isAnvil .hEnd = true ∧ Instr.hEnd.wf = true ∧ (0x1C < 2 ^ 32 ∧ (decodeH 0x1C).toOption = some .hEnd) :=
  ⟨⟨⟨rfl, fun e => by cases e <;> (intro h; cases h)⟩, by decide +kernel, by decide +kernel⟩, by decide +kernel, by decide +kernel, by decide +kernel⟩

/-- The one split of the state that runs `nop` first. -/
def first : Split := { live := true, lanes := BitVec.allOnes 64, code := [0, 0x11, 0x203, 0, 0, 0, 0, 0], begun := true, count := 1, off := 2
                       guard := BitVec.allOnes 64, flagA := 0, flagB := 1 }

theorem decode_of_toOption {ps : List W16} {r : Instr × List W16} (h : (decode ps).toOption = some r) : decode ps = .ok r := by
  cases e : decode ps with
  | ok x => rw [e] at h; exact congrArg Except.ok (Option.some.inj h)
  | error x => rw [e] at h; cases h

/-- StepInvariant: a state of the invariant that steps. -/
theorem witness_StepInvariant : Invariant (State.reset.withFetchWord 32 0x00000203) ∧ (match step (State.reset.withFetchWord 32 0x00000203) with
    | .next _ => true
    | _ => false) = true := by
  have hs : (State.reset.withFetchWord 32 0x00000203).splits = [(0, first)] := by decide +kernel
  have hg : (State.reset.withFetchWord 32 0x00000203).groups.all (fun e => !e.2.tSplit.begun && e.2.rSplits == []) = true := by decide +kernel
  have hc : (State.reset.withFetchWord 32 0x00000203).cores = [] := by decide +kernel
  have ht : (State.reset.withFetchWord 32 0x00000203).turn = .split 0 := by decide +kernel
  have idle : ∀ x : Split, x.begun = false → x.standing := fun x h b => by rw [h] at b; cases b
  have hg' := fun g => rd_of_all (P := fun y : Group => y.tSplit.begun = false ∧ y.rSplits = [])
    (by simpa only [List.all_eq_true, Bool.and_eq_true, Bool.not_eq_true', beq_iff_eq] using hg) ⟨rfl, rfl⟩ g
  refine ⟨⟨fun k h => ?_, ⟨fun k => ?_, fun g => idle _ (hg' g).1, fun g e he => ?_, fun c k e he => ?_⟩, ⟨?_, ?_, ?_, ?_, ?_⟩⟩, ?_⟩
  · rw [ht] at h; cases h; rw [hs]; rfl
  · rw [hs]
    refine rd_of_all (P := Split.standing) (fun e he => ?_) (idle _ rfl) k
    cases List.mem_singleton.1 he
    exact fun _ => ⟨by decide, by decide +kernel, .nop, [0, 0, 0, 0], decode_of_toOption (by decide +kernel), trivial⟩
  · rw [(hg' g).2] at he; cases he
  · rw [hc] at he; cases he
  all_goals decide +kernel

/-- Routines: `rdrop` of a method that is there and that no target names. -/
theorem witness_dropStatus : (({ base with slices := [(0, { tags := [(0, { valid := true, data := 1 })] })] } : State).modPart 0 fun p => { p with regs := [(0x18, 1#64 <<< 63)] }).dropStatus 0 0 = 0 := by
  decide +kernel

end Sys2Proof.Tests
end

section
/-! PROOFS. Branches of a whole split and register jumps (R59, R61): their words, and where each of them goes. -/

namespace Sys2Proof

/-! ### Two parcels of a word -/

theorem join32_halves {w : Nat} (hw : w < 2 ^ 32) : join32 (BitVec.ofNat 16 w) (BitVec.ofNat 16 (w / 2 ^ 16)) = w := by
  simp only [join32, BitVec.toNat_ofNat]
  omega

/-- A core word without literal words is read by `parse32`, and what follows it is left over. -/
theorem decode_halves {w : Nat} {i : Instr} (hw : w < 2 ^ 32) (hodd : w % 2 = 1) (hlit : hasLit w = false)
    (hi : parse32 w = .ok i) (hwf : i.wf = true) (rest : List W16) : decode (halves w ++ rest) = .ok (i, rest) := by
  have hp : ¬ (BitVec.ofNat 16 w).toNat % 2 = 0 := by
    rw [BitVec.toNat_ofNat]
    omega
  simp only [halves, List.cons_append, List.nil_append, decode, if_neg hp, join32_halves hw, hlit, hi, hwf, if_true,
    Bool.false_eq_true, if_false]

/-! ### The words of major 0 -/

/-- The word of major 0 with this sub-op, predicate and offset. -/
def branchWord (sub pred : Nat) (off : BitVec 16) : Nat := 1 + 2 ^ 7 * sub + 2 ^ 10 * pred + 2 ^ 16 * off.toNat

section
variable {sub pred : Nat} (off : BitVec 16) (hs : sub < 8) (hp : pred < 64)

theorem branchWord_odd : branchWord sub pred off % 2 = 1 := by
  unfold branchWord
  omega

theorem branchWord_major : fld (branchWord sub pred off) 1 6 = 0 := by
  unfold branchWord fld
  omega

include hs in
theorem branchWord_sub : fld (branchWord sub pred off) 7 3 = sub := by
  unfold branchWord fld
  omega

include hs hp

theorem branchWord_lt : branchWord sub pred off < 2 ^ 32 := by
  have := off.isLt
  unfold branchWord
  omega

theorem branchWord_pred : fld (branchWord sub pred off) 10 6 = pred := by
  unfold branchWord fld
  omega

theorem branchWord_off : BitVec.ofNat 16 (fld (branchWord sub pred off) 16 16) = off := by
  have h : fld (branchWord sub pred off) 16 16 = off.toNat := by
    have := off.isLt
    unfold branchWord fld
    omega
  rw [h, BitVec.ofNat_toNat, BitVec.setWidth_eq]

/-- A word of major 0 decodes to what `decMajor0` reads it as. -/
theorem decode_branchWord {i : Instr} (hi : decMajor0 (branchWord sub pred off) = .ok i) (hwf : i.wf = true) (rest : List W16) :
    decode (halves (branchWord sub pred off) ++ rest) = .ok (i, rest) := by
  have hmajor := branchWord_major (sub := sub) (pred := pred) off
  refine decode_halves (branchWord_lt off hs hp) (branchWord_odd off) ?_ ?_ hwf rest
  · simp only [hasLit, hmajor, Nat.reduceBEq, Bool.false_and]
  · simp only [parse32, hmajor, hi]

end

/-- The predicate of a branch as the decoder reads it. -/
theorem fin_branchWord {sub : Nat} (off : BitVec 16) (p : Fin 64) (hs : sub < 8) : fin (branchWord sub p off) 10 6 = p :=
  Fin.ext (branchWord_pred off hs p.isLt)

theorem decode_br (off : BitVec 16) (rest : List W16) : decode (halves (branchWord 0 0 off) ++ rest) = .ok (.br off, rest) := by
  have hs : 0 < 8 := by omega
  have hp : 0 < 64 := by omega
  refine decode_branchWord off hs hp ?_ rfl rest
  simp [decMajor0, branchWord_sub off hs, branchWord_pred off hs hp, branchWord_off off hs hp, zero]

/-- Sub-ops 1 to 3 of major 0 are the branches that name a predicate. -/
theorem decode_condBranches (off : BitVec 16) (p : Fin 64) (rest : List W16) :
    decode (halves (branchWord 1 p off) ++ rest) = .ok (.brAll off p, rest) ∧
    decode (halves (branchWord 2 p off) ++ rest) = .ok (.brAny off p, rest) ∧
    decode (halves (branchWord 3 p off) ++ rest) = .ok (.brNone off p, rest) := by
  have read : ∀ {sub : Nat} {i : Instr} (hs : sub < 8), i.wf = true → decMajor0 (branchWord sub p off) = .ok i →
      decode (halves (branchWord sub p off) ++ rest) = .ok (i, rest) :=
    fun hs hwf hi => decode_branchWord off hs p.isLt hi hwf rest
  have hs1 : 1 < 8 := by omega
  have hs2 : 2 < 8 := by omega
  have hs3 : 3 < 8 := by omega
  refine ⟨read hs1 rfl ?_, read hs2 rfl ?_, read hs3 rfl ?_⟩
  · simp [decMajor0, branchWord_sub off hs1, branchWord_off off hs1 p.isLt, fin_branchWord]
  · simp [decMajor0, branchWord_sub off hs2, branchWord_off off hs2 p.isLt, fin_branchWord]
  · simp [decMajor0, branchWord_sub off hs3, branchWord_off off hs3 p.isLt, fin_branchWord]

end Sys2Proof

namespace Sys2Proof.Machine

variable {s : State} {i : Instr}

/-! ### Where control goes -/

/-- An instruction whose meaning is the end of its clause at `pc`. -/
theorem jumps_of {pc : W64} (hi : exec i s = .next (s.jumpTo pc)) : Jumps i s pc :=
  ⟨_, hi, onlyHere_jumpTo pc s, jumpTo_spec pc s⟩

/-- A branch goes to its target where its condition holds, and to the address behind its clause where not. -/
theorem jumps_of_branch {take : Bool} {off : BitVec 16} {c : Prop} [Decidable c] (hi : exec i s = .next (s.branch take off))
    (hc : take = true ↔ c) : Jumps i s (if c then s.target off else s.fall 2) :=
  jumps_of (by simpa only [State.branch, hc] using hi)

theorem jumps_br (off : BitVec 16) (s : State) : Jumps (.br off) s (s.target off) := jumps_of rfl

theorem jumps_brAll (off : BitVec 16) (p : Fin 64) (s : State) :
    Jumps (.brAll off p) s (if s.liveP p = s.sp.lanes then s.target off else s.fall 2) := jumps_of_branch rfl beq_iff_eq

theorem jumps_brAny (off : BitVec 16) (p : Fin 64) (s : State) :
    Jumps (.brAny off p) s (if s.liveP p ≠ 0 then s.target off else s.fall 2) := jumps_of_branch rfl bne_iff_ne

theorem jumps_brNone (off : BitVec 16) (p : Fin 64) (s : State) :
    Jumps (.brNone off p) s (if s.liveP p = 0 then s.target off else s.fall 2) := jumps_of_branch rfl beq_iff_eq

/-- A register jump checks its target first: that it is even, then that it is canonical. -/
theorem exec_of_jumpReg {a : Fin 64} (hi : exec i s = .next (s.jumpReg a)) :
    if (s.sr a).getLsbD 0 = true then exec i s = .next (s.trap .align none none 0 0)
    else if canonical (s.sr a) = true then Jumps i s (s.sr a)
    else exec i s = .next (s.trap .prot none (some (s.sr a)) 8 2) := by
  rw [State.jumpReg] at hi
  by_cases hodd : (s.sr a).getLsbD 0 = true
  · rw [if_pos hodd] at hi ⊢
    exact hi
  · rw [if_neg hodd] at hi ⊢
    by_cases hcan : canonical (s.sr a) = true
    · rw [if_neg (by rw [hcan]; decide)] at hi
      rw [if_pos hcan]
      exact jumps_of hi
    · rw [if_pos (by rw [eq_false_of_ne_true hcan]; rfl)] at hi
      rw [if_neg hcan]
      exact hi

/-- Settles O13: the words of sub-ops 0 to 3, where each branch goes, and the checks of the register jumps. -/
theorem branches : Obligations.Branches := by
  unfold Obligations.Branches
  intro s off p a rest there after on word
  obtain ⟨hall, hany, hnone⟩ := decode_condBranches off p rest
  refine ⟨decode_br off rest, hall, hany, hnone, jumps_br off s, jumps_brAll off p s, jumps_brAny off p s, jumps_brNone off p s, ?_⟩
  rintro i (rfl | rfl)
  · exact exec_of_jumpReg rfl
  · exact exec_of_jumpReg rfl

end Sys2Proof.Machine
end

section
/-! PROOFS. A lane instruction whose effective mask is all zeros only ends (R51). -/

namespace Sys2Proof.Machine

variable {s : State} {i : Instr}

/-! ### Shared operations without an active lane -/

/-- In no lane nothing poisoned is read. -/
theorem sram_zero (rs : List Nat) (k : State → State) : s.sram 0 rs k = k s := by
  have none_read : (rs.any fun r => (positions 0).any fun p => s.gr.badV.rd (64 * r + p)) = false := by
    rw [positions_zero]
    simp
  rw [State.sram, none_read]
  exact ite_id _

theorem rayBusy_zero : rayBusy s 0 = false := by rw [rayBusy, positions_zero]; rfl

section
variable (h : s.act = 0)
include h

theorem wact_idle : s.wact = 0 := by simp [State.wact, h]

theorem laneOut_idle {d lat n : Nat} {srcs : List Nat} {f : Nat → W32} : s.laneOut d lat n srcs f = s.adv n := by
  rw [State.laneOut, h, sram_zero, if_pos rfl]
theorem laneOut2_idle {d lat n : Nat} {srcs : List Nat} {f : Nat → W64} : s.laneOut2 d lat n srcs f = s.adv n := by
  rw [State.laneOut2, h, sram_zero, if_pos rfl]
theorem predOut_idle {d lat n : Nat} {srcs : List Nat} {f : Nat → Bool} : s.predOut d lat n srcs f = s.adv n := by
  rw [State.predOut, h, sram_zero, if_pos rfl]
theorem floatOut_idle {d lat n : Nat} {srcs : List Nat} {f : Nat → W32 × Nat} : s.floatOut d lat n srcs f = s.adv n := by
  rw [State.floatOut, h, sram_zero, if_pos rfl]
theorem floatOut2_idle {d lat n : Nat} {srcs : List Nat} {f : Nat → W64 × Nat} : s.floatOut2 d lat n srcs f = s.adv n := by
  rw [State.floatOut2, h, sram_zero, if_pos rfl]
theorem float2_idle {F : FmtP → Nat → Nat → Nat × Nat} {t : FTy} {n d a : Nat} {b : LaneB} : s.float2 F t n d a b = s.adv n := by
  cases t
  case f64 => exact floatOut2_idle h
  all_goals exact floatOut_idle h
theorem carryOp_idle {F : Nat → Nat → Nat → Int} {d a : Nat} {b : LaneB} : s.carryOp F d a b = s.adv 2 := by
  rw [State.carryOp, h, sram_zero, if_pos rfl]

end

theorem lanes_of_alike {x y : Split} (e : Split.alike x y) : y.lanes = x.lanes := by
  unfold Split.alike at e
  rw [e]

/-! ### Instructions without an active lane -/

/-- Nothing happens but the end of the instruction. -/
def OnlyEnds (i : Instr) (s : State) : Prop := exec i s = .next (s.adv i.parcels)

/-- An instruction that is the end of one of `n` parcels. -/
theorem onlyEnds_of {n : Nat} {t : State} (ht : t = s.adv n) (hi : exec i s = .next t) (hn : i.parcels = n) : OnlyEnds i s := by
  rw [OnlyEnds, hi, ht, hn]

/-- An instruction that first asks whether a lane is active. -/
theorem onlyEnds_guarded {n : Nat} {c : Prop} [Decidable c] {r : Res} (hc : c)
    (hi : exec i s = if c then .next (s.adv n) else r) (hn : i.parcels = n) : OnlyEnds i s := by
  rw [OnlyEnds, hi, if_pos hc, hn]

/-- The lane instructions of fixed latency, by the shape of their results. -/
theorem onlyEnds_fixedLane (h : s.act = 0) (hi : isFixedLane i = true) : OnlyEnds i s := by
  cases i with
  -- one vector register
  | addLane | subLane | addSatSLane | subSatSLane | addSatZLane | subSatZLane | mulLane | mulhSLane | mulhZLane | madLane
  | minSLane | maxSLane | minZLane | maxZLane | andLane | orLane | xorLane | andnLane | shlLane | shrLane | sarLane | rotLane
  | bfeSLane | bfeZLane | bfiLane | absLane | popcLane | clzLane | ctzLane | brevLane | movLane | sel | liLane
  | addImmLane | andImmLane | orImmLane | xorImmLane | shlImmLane | shrImmLane | sarImmLane | rotImmLane
  | add16 | sub16 | mul16 | and16 | or16 | xor16 | shl16 | shr16 | sar16 | mov16 | min16 | max16
  | frndF32 | fclass | dp4I8x4 | dp4N8x4 | dp8I4x8 | dp8N4x8 | shfl | shfli | lmapPos | lmapLane =>
    exact onlyEnds_of (laneOut_idle h) rfl rfl
  -- a pair of vector registers, words with float flags
  | frndF64 => exact onlyEnds_of (laneOut2_idle h) rfl rfl
  | frcp | frsq | fsqrt | fexp2 | flog2 | fsin | fcos | ftanh | pk | pkSat | scan | scanX
  | fdp2F16 | fdp2Bf16 | fdp4E5m2 | fdp4E4m3 | fdp4E3m2 | fdp4E2m3 | fdp8E2m1
  | qexpE5m2 | qexpE4m3 | qexpE3m2 | qexpE2m3 | qexpE2m1 =>
    exact onlyEnds_of (floatOut_idle h) rfl rfl
  | fadd | fsub | fmul | fmin | fmax | fadd16 | fsub16 | fmul16 | fmax16 => exact onlyEnds_of (float2_idle h) rfl rfl
  -- a word or a pair, by the type
  | ffma t => cases t with
    | f64 => exact onlyEnds_of (floatOut2_idle h) rfl rfl
    | _ => exact onlyEnds_of (floatOut_idle h) rfl rfl
  | cvt src dst => exact onlyEnds_of (n := 2) (by rw [floatOut2_idle h, floatOut_idle h, ite_self]) rfl rfl
  | vmatch => exact onlyEnds_of (n := 2) (by rw [laneOut2_idle h, laneOut_idle h, ite_self]) rfl rfl
  -- a predicate
  | plogAnd | plogOr | plogXor | plogAndn | pset | pmov | cmpSignedLane | cmpUnsignedLane | cmpEqualityLane | fcmpF32 | fcmpF64
  | vany | vall =>
    exact onlyEnds_of (predOut_idle h) rfl rfl
  -- a vector register and the carry, several registers, the random-number state
  | addc | subc => exact onlyEnds_of (carryOp_idle h) rfl rfl
  | upk => exact onlyEnds_of (n := 2) (by rw [h, sram_zero, if_pos rfl]) rfl rfl
  | rng => exact onlyEnds_of (n := 2) (by rw [if_pos h]) rfl rfl
  | rngSeed => exact onlyEnds_of (n := 2) (by rw [h, sram_zero, if_pos rfl]) rfl rfl
  -- a scalar register, only where a lane is active
  | vbal | pcount | bcast | rdx => exact onlyEnds_of (if_pos h) rfl rfl
  -- checks that an active lane comes before
  | sregVector => exact onlyEnds_of (laneOut_idle h) (if_neg (by simp [h])) rfl
  | intrp => exact onlyEnds_guarded h rfl rfl
  | rhit => exact onlyEnds_of (n := 2) (by rw [h, rayBusy_zero]; exact laneOut_idle h) rfl rfl
  | _ => cases hi

/-- The lane instructions that access memory. -/
theorem onlyEnds_laneAccess (h : s.act = 0) (hi : isLaneAccess i = true) : OnlyEnds i s := by
  have hw := wact_idle h
  cases i with
  | ld | ldSigned => exact onlyEnds_of (if_pos h) rfl rfl
  | st | stRel | atmReturning | atmPosted | casReturning | casPosted | cflush | cinv | czero => exact onlyEnds_of (if_pos hw) rfl rfl
  | ldAcq | lds | cquery => exact onlyEnds_guarded h rfl rfl
  | sts | gth => exact onlyEnds_guarded hw rfl rfl
  | _ => cases hi

/-- The other lane instructions: calls, matrix, graphics, rays and work graphs. -/
theorem onlyEnds_unitLane (h : s.act = 0) (hi : isLaneInstr i = true) (hf : isFixedLane i = false) (ha : isLaneAccess i = false) :
    OnlyEnds i s := by
  have hw := wact_idle h
  unfold isLaneInstr at hi
  rw [hf, ha] at hi
  cases i with
  | mma | mmaUnfold | mmas | aclr | amov | aput | ast | tsample | tsampleSettle | rtrace | rtraceAny =>
    exact onlyEnds_of (if_pos h) rfl rfl
  | prf | vemit | tex | texf => exact onlyEnds_guarded h rfl rfl
  | rcallLane | fpost | ralloc | rallocIn | rcommit | rdone => exact onlyEnds_guarded hw rfl rfl
  -- rays of the active lanes, of which there are none
  | rnext => exact onlyEnds_of (n := 2) (by rw [h, rayBusy_zero, positions_zero]; rfl) rfl rfl
  | racc => exact onlyEnds_of (n := 2) (by rw [h, rayBusy_zero, positions_zero]; rfl) rfl rfl
  | _ => cases hi

theorem onlyEnds_laneInstr (h : s.act = 0) (hi : isLaneInstr i = true) : OnlyEnds i s := by
  cases hf : isFixedLane i with
  | true => exact onlyEnds_fixedLane h hf
  | false => cases ha : isLaneAccess i with
    | true => exact onlyEnds_laneAccess h ha
    | false => exact onlyEnds_unitLane h hi hf ha

/-- An `exit` without an active lane ends its clause and retires no lane. -/
theorem exec_exit_idle (h : s.act = 0) : exec .exit s = .next (s.jumpTo (s.fall 2)) := if_pos h

/-- Settles O30, by the shapes of the lane instructions: each asks whether a lane is active before it does more than end. -/
theorem emptyMask : Obligations.EmptyMask := by
  unfold Obligations.EmptyMask
  intro i s h
  refine ⟨fun hi => ?_, ?_⟩
  · have hends := onlyEnds_laneInstr h hi
    exact ⟨hends, noResult_of hends rfl⟩
  · rintro rfl
    have hframe := onlyHere_jumpTo (s.fall 2) s
    obtain ⟨-, hsplit, hgroup⟩ := jumpTo_spec (s.fall 2) s
    exact ⟨_, exec_exit_idle h, lanes_of_alike hsplit, hframe.splits, hgroup⟩

end Sys2Proof.Machine
end
